-- ==== Sys2Proof/Word.lean ====
section
/-!
DEFINITION. The byte and register types of the LZF codec engine and the size of its address space
(spec/10_state.md R16, spec/20_memory.md R41).
-/
namespace Sys2Proof

/-- A byte: the unit of every memory rule (spec/20_memory.md R43). -/
abbrev Byte := BitVec 8

/-- The value of one register slot: 64 bits (spec/10_state.md R16). -/
abbrev Word := BitVec 64

/-- The size of system memory, `2^ADDR_W` bytes with `ADDR_W = 64` (spec/20_memory.md R41). -/
abbrev addrSpace : Nat := 18446744073709551616

end Sys2Proof
end

