-- ==== Sys2Proof/Config.lean ====
section
/-!
DEFINITION. What one build of the engine fixes (spec/00_scope.md R6), and the values the spec leaves open, as
opaque constants (spec/93_implementation_defined.md).
-/
namespace Sys2Proof.Config

/-- `MAX_OFF`: the largest back-reference offset (R6). -/
abbrev maxOff : Nat := 8191
/-- `WINDOW`: the largest distance between a position and a candidate (R6). -/
abbrev window : Nat := 8192
/-- `MIN_MATCH`: the shortest back-reference (R6). -/
abbrev minMatch : Nat := 3
/-- `MAX_MATCH`: the longest back-reference (R6). -/
abbrev maxMatch : Nat := 264
/-- `MAX_LIT`: the longest literal run of one control byte (R6). -/
abbrev maxLit : Nat := 32
/-- `MAX_BLOCK`: the largest block size, and the largest `U` and `C` (R6). -/
abbrev maxBlock : Nat := 65535
/-- `MAX_RAW_LEN`: the largest `SRC_LEN` COMPRESS accepts (R6, R129). -/
abbrev maxRawLen : Nat := 4294967295
/-- The largest `SRC_LEN` MAXSIZE accepts (R99, R129). -/
abbrev maxMaxsizeLen : Nat := 17887751829051686414
/-- The value of the `ID` register (R19). -/
abbrev idValue : Word := 0x4C5A4631#64
/-- The bytes of the register window at `ENGINE_BASE` (R16). -/
abbrev registerWindow : Nat := 256

/-- Which `HASH3` the engine is built with: the spec's default, or any other function of three bytes
(spec/40_match_finder.md R76, I11; log 8). -/
inductive HashChoice
  | specDefault
  | otherFunction
  deriving DecidableEq, Repr

/-- Any other `HASH3`: an uninterpreted function of three bytes to 16 bits (R76, I11; log 8). -/
opaque otherHash3 : Byte → Byte → Byte → BitVec 16

/-- The free bytes of spec/93_implementation_defined.md section 1 (I1 to I5, I8): the byte of draw number `k` at
an address. Nothing constrains it (log 7). -/
opaque freeByte : Nat → Nat → Byte

end Sys2Proof.Config
end

