-- ==== Sys2Proof/Machine/State.lean ====
section
/-!
DEFINITION. The state of the engine and of the agents around it, as plain data, and the state after reset
(spec/10_state.md, spec/70_reset_and_hazards.md R152).
-/
namespace Sys2Proof.Machine

/-- The error kinds the engine reports (spec/60_exceptions.md R141). -/
inductive ErrKind
  | outputTooSmall
  | invalidData
  | invalidHeader
  | unknownBlockType
  | invalidParameter
  | other
  | illegalCommand
  deriving DecidableEq, Repr

/-- The model's one fault. -/
inductive Fault
  /-- Raised by an access of the engine inside its command's ranges at an address of 2^64 or above, which R41 says does
  not exist. No run from reset raises it, because R131 rejects such ranges at GO. Safe: the model stops where the spec
  gives no access. -/
  | addressOutsideSpace
  deriving DecidableEq, Repr

/-- What the model has no meaning for. -/
inductive Refusal
  /-- Raised by the dispatcher for an instruction without a meaning; no arm is one. Safe. -/
  | notModelled (mnemonic : String)
  /-- Raised by a host access to the register window that is not one aligned 64-bit slot (R16, I15). Safe: the spec
  says a model refuses it. -/
  | registerAccessNotAdmitted
  /-- Raised by a launch whose ranges cover device registers, the engine's own window included, and by a host
  access to another device (R46, I16). Safe: the spec says a model refuses it. -/
  | deviceRange
  /-- Raised by a host write of a source or destination byte while BUSY (R50, I12). Safe: the spec gives the host no
  such move. -/
  | hostWroteBusyRange
  /-- Raised by an engine access outside the source and destination ranges (R137, I18). No run from reset raises it.
  Safe: the spec says a model refuses it. -/
  | engineOutsideRanges
  deriving DecidableEq, Repr

/-- The six registers a host writes and GO latches (R17, R21 to R25, R127). `ctrl` holds bits 6:0 of CTRL, the
others are reserved (R17). -/
structure OperandRegs where
  ctrl      : BitVec 7
  srcAddr   : Word
  srcLen    : Word
  dstAddr   : Word
  dstCap    : Word
  blockSize : Word
  deriving DecidableEq, Repr

/-- The control state (R37): `idle`, or one of the parts of BUSY (log 4): a command latched and not yet
dispatched, the token decoder running, the block framing controller at a block start. -/
inductive Activity
  | idle
  | dispatch
  | tokens
  | blocks
  deriving DecidableEq, Repr

/-- The match finder (R31 to R33, R36): its tables as sparse maps whose unlisted entries are 0, and its cursors. -/
structure MatchFinder where
  ht   : List (Nat × BitVec 32)
  head : List (Nat × BitVec 32)
  prev : List (Nat × BitVec 16)
  p    : Nat
  ls   : Nat
  deriving DecidableEq, Repr

/-- Who runs the token decoder: DECOMPRESS (R108) or a type-1 block (R118). -/
inductive TdOwner
  | decompress
  | block
  deriving DecidableEq, Repr

/-- The token decoder (R36, R100): the token bytes `[srcBase, srcBase + clen)`, the output window
`[outBase, outBase + cap)`, the cursors `ip`, `op`, and `tok`, the offset of the token being decoded. -/
structure TokenDecoder where
  owner   : TdOwner
  srcBase : Nat
  clen    : Nat
  outBase : Nat
  cap     : Nat
  ip      : Nat
  op      : Nat
  tok     : Nat
  deriving DecidableEq, Repr

/-- Which command runs the block parser (R121, R122). -/
inductive BfcOwner
  | decode
  | decodeBlock
  deriving DecidableEq, Repr

/-- The block framing controller (R36): the input position at the next chunk or block and the output position. -/
structure BlockFramer where
  owner : BfcOwner
  ipos  : Nat
  opos  : Nat
  deriving DecidableEq, Repr

/-- The kinds of access the platform can answer with a bus error (R56, I9): a source read, a destination write, a
read back of the decoder's own output (R47). -/
inductive BusAccess
  | read
  | write
  | readBack
  deriving DecidableEq, Repr

/-- One access the platform answers with a bus error (log 10). -/
structure BusFault where
  kind : BusAccess
  addr : Nat
  deriving DecidableEq, Repr

/-- The platform's parameters (R6, R16, R46, R53, R56, R76; log 8, log 9, log 10). `devices` lists windows of other
device registers, each a base and a size. -/
structure Platform where
  engineBase  : Word
  dmaCoherent : Bool
  hash        : Config.HashChoice
  devices     : List (Nat × Nat)
  busFaults   : List BusFault
  deriving DecidableEq, Repr

/-- One move of the host or the platform (R15, R136, R151; log 6). -/
inductive HostMove
  /-- The host reads `size` bytes of the register window at `addr` (R16). -/
  | regRead (addr : Word) (size : Nat)
  /-- The host writes `value` to `size` bytes of the register window at `addr` (R16). -/
  | regWrite (addr : Word) (size : Nat) (value : Word)
  /-- The host reads one byte of system memory. -/
  | memRead (addr : Word)
  /-- The host writes one byte of system memory. -/
  | memWrite (addr : Word) (value : Byte)
  /-- The host orders its earlier memory writes (R48). -/
  | order
  /-- The host writes a range back from its caches (R53). -/
  | cleanCache (base len : Nat)
  /-- The host discards its cached copies of a range (R53). -/
  | discardCache (base len : Nat)
  /-- The host lets the engine take one step. -/
  | engine
  /-- The host polls STATUS until BUSY = 0 (R136 step 5). -/
  | wait
  /-- The host waits for the interrupt (R136 step 5). -/
  | waitIrq
  /-- The interrupt controller observes the line (R15, R146). -/
  | observeIrq
  /-- The platform asserts reset (R151). -/
  | reset
  /-- The platform's bus answers change (R56, I9). -/
  | setBusFaults (faults : List BusFault)
  deriving DecidableEq, Repr

/-- The host's side: its pending moves, the values its reads returned (newest first), and the duties it has not yet
met (R48, R53; log 18): the addresses it wrote and has not ordered or not written back, and the destination ranges
whose cached copies it has not discarded. -/
structure HostSide where
  moves     : List HostMove
  seen      : List Word
  unordered : List Nat
  uncleaned : List Nat
  stale     : List (Nat × Nat)
  deriving DecidableEq, Repr

/-- The whole state. STATUS.BUSY is `activity ≠ idle`; `mem` lists the bytes of system memory that are not 0. `draws`
counts the free values drawn, `launchDraw` is the draw of the running command's free source bytes (log 7), and `unseen`
lists the addresses whose bytes the host had not made visible at its GO (R48, R53; log 18). -/
structure State where
  regs      : OperandRegs
  resultLen : Word
  consumed  : Word
  errInfo   : Byte
  done      : Bool
  err       : Bool
  errCode   : BitVec 4
  endKind   : BitVec 2
  activity  : Activity
  latched   : OperandRegs
  mf        : MatchFinder
  teCount   : Nat
  scratch   : List Byte
  td        : TokenDecoder
  bfc       : BlockFramer
  mem       : List Host.Cell
  platform  : Platform
  host      : HostSide
  launchDraw : Nat
  unseen    : List Nat
  draws     : Nat
  deriving DecidableEq, Repr

/-- All six operand registers 0 (R152). -/
def OperandRegs.zero : OperandRegs := ⟨0#7, 0#64, 0#64, 0#64, 0#64, 0#64⟩

/-- The state right after reset (R152). The internal memories, the cursors and the latched operands, which R152
leaves unspecified or does not name, are 0 (log 2, log 3); the platform is at the parameters log 8 to log 10 name;
the host has no move pending (log 6). -/
def State.reset : State where
  regs := OperandRegs.zero
  resultLen := 0#64
  consumed := 0#64
  errInfo := 0#8
  done := false
  err := false
  errCode := 0#4
  endKind := 0#2
  activity := .idle
  latched := OperandRegs.zero
  mf := ⟨[], [], [], 0, 0⟩
  teCount := 0
  scratch := []
  td := ⟨.decompress, 0, 0, 0, 0, 0, 0, 0⟩
  bfc := ⟨.decode, 0, 0⟩
  mem := []
  platform := ⟨0xF000000000000000#64, true, .specDefault, [], []⟩
  host := ⟨[], [], [], [], []⟩
  launchDraw := 0
  unseen := []
  draws := 0

end Sys2Proof.Machine
end

