-- ==== Sys2Proof/Machine/Ops.lean ====
section
/-!
DEFINITION. The named operations over memory and registers, and the one operation by which every command takes an
error (spec/60_exceptions.md R143), with the acknowledgement that returns from it beside it (R145).
-/
namespace Sys2Proof.Machine

/-- The one result type of a meaning and of a step. -/
abbrev Out := Host.Outcome State Fault Refusal

/-! ## Sparse maps: memory and the match finder's tables. An unlisted entry is 0 (log 1, log 2). -/

/-- The entry at key `k`. -/
def Sparse.get {w : Nat} : List (Nat × BitVec w) → Nat → BitVec w
  | [], _ => 0#w
  | (a, v) :: rest, k => if a = k then v else Sparse.get rest k

/-- The map without key `k`. -/
def Sparse.erase {w : Nat} : List (Nat × BitVec w) → Nat → List (Nat × BitVec w)
  | [], _ => []
  | (a, v) :: rest, k => if a = k then Sparse.erase rest k else (a, v) :: Sparse.erase rest k

/-- The map with `(k, v)` put before the first greater key; `k` is not in the map. -/
def Sparse.insert {w : Nat} : List (Nat × BitVec w) → Nat → BitVec w → List (Nat × BitVec w)
  | [], k, v => [(k, v)]
  | (a, x) :: rest, k, v => if k < a then (k, v) :: (a, x) :: rest else (a, x) :: Sparse.insert rest k v

/-- The map with the entry at `k` set to `v`. Setting 0 removes the entry, so equal maps are equal lists. -/
def Sparse.set {w : Nat} (m : List (Nat × BitVec w)) (k : Nat) (v : BitVec w) : List (Nat × BitVec w) :=
  if v = 0#w then Sparse.erase m k else Sparse.insert (Sparse.erase m k) k v

/-- Every key of the map is above `k`. -/
def Sparse.above {w : Nat} (k : Nat) (m : List (Nat × BitVec w)) : Bool := m.all (fun c => k < c.1)

/-- The canonical form: keys strictly rising, no entry 0. -/
def Sparse.wf {w : Nat} : List (Nat × BitVec w) → Bool
  | [] => true
  | (a, v) :: rest => Sparse.above a rest && v != 0#w && Sparse.wf rest

/-- The canonical form of memory. -/
def Memory.wf (m : List Host.Cell) : Bool := Sparse.wf m

/-- Every listed byte is at an address of R41's space. -/
def Memory.inSpace (m : List Host.Cell) : Bool := m.all (fun c => c.1 < addrSpace)

/-- The byte of system memory at `a`. -/
def State.byteAt (s : State) (a : Nat) : Byte := Sparse.get s.mem a

/-- `MemWrite` on the memory alone: byte `i` of `bs` goes to `a + i` (R10). -/
def writeBytes (m : List Host.Cell) (a : Nat) : List Byte → List Host.Cell
  | [] => m
  | b :: bs => writeBytes (Sparse.set m a b) (a + 1) bs

/-- `COPY` on the memory alone: byte by byte, left to right, so that each byte read may be one this copy wrote
(spec/42_token_decoder.md R104, spec/20_memory.md R47). -/
def copyBytes (m : List Host.Cell) (src dst : Nat) : Nat → List Host.Cell
  | 0 => m
  | n + 1 => copyBytes (Sparse.set m dst (Sparse.get m src)) (src + 1) (dst + 1) n

/-- Memory whose `n` bytes from `a` are the free bytes of draw `k` (I1, I2, I4, I5; log 7). -/
def freeBytes (k : Nat) (m : List Host.Cell) (a : Nat) : Nat → List Host.Cell
  | 0 => m
  | n + 1 => Sparse.set (freeBytes k m a n) (a + n) (Config.freeByte k (a + n))

/-- The state with bytes `bs` written from address `a`. -/
def State.store (s : State) (a : Nat) (bs : List Byte) : State := { s with mem := writeBytes s.mem a bs }

/-- The state in which the `n` bytes from `a` are any values. -/
def State.scramble (s : State) (a n : Nat) : State :=
  { s with mem := freeBytes s.draws s.mem a n, draws := s.draws + 1 }

/-! ## Control state and the running command's ranges -/

/-- `STATUS.BUSY` (R20, R37). -/
def State.busy (s : State) : Bool := s.activity != .idle

/-- The first address of the source range `S` of the running command (R131). -/
def State.srcLo (s : State) : Nat := s.latched.srcAddr.toNat
/-- The address after the source range. -/
def State.srcHi (s : State) : Nat := s.latched.srcAddr.toNat + s.latched.srcLen.toNat
/-- The first address of the destination range `D` (R131). -/
def State.dstLo (s : State) : Nat := s.latched.dstAddr.toNat
/-- The address after the destination range. -/
def State.dstHi (s : State) : Nat := s.latched.dstAddr.toNat + s.latched.dstCap.toNat

/-! ## Completion, errors and acknowledgement -/

/-- The code of an error kind (R141). -/
def ErrKind.code : ErrKind → BitVec 4
  | .outputTooSmall => 1#4
  | .invalidData => 2#4
  | .invalidHeader => 3#4
  | .unknownBlockType => 4#4
  | .invalidParameter => 5#4
  | .other => 6#4
  | .illegalCommand => 7#4

/-- Completion without error (R133): the results, `ERR_CODE = 0`, `DONE = 1`, `BUSY = 0`. -/
def State.complete (s : State) (result consumed : Nat) (endKind : BitVec 2) : State :=
  { s with
    resultLen := BitVec.ofNat 64 result
    consumed := BitVec.ofNat 64 consumed
    endKind := endKind
    errCode := 0#4
    done := true
    activity := .idle }

/-- Error completion, the engine's trap entry (R143): the recorded values of R142, `ERR_CODE`, `END_KIND = 0`,
`ERR = 1`, `BUSY = 0`; `DONE` stays as it is. -/
def State.errorEnd (s : State) (e : ErrKind) (result consumed : Nat) (info : Byte) : State :=
  { s with
    resultLen := BitVec.ofNat 64 result
    consumed := BitVec.ofNat 64 consumed
    errInfo := info
    errCode := e.code
    endKind := 0#2
    err := true
    activity := .idle }

/-- A command ended by a bus error (R56, R142, I4): `Other`, and every byte of `D` is any value (log 11). -/
def State.busErrorEnd (s : State) : State :=
  (s.scramble s.dstLo s.latched.dstCap.toNat).errorEnd .other 0 0 0#8

/-- Acknowledgement, the return from an error or a completion (R20, R145): writing 1 to bit 1 or 2 of STATUS clears
DONE or ERR, and nothing else changes. -/
def State.acknowledge (s : State) (v : Word) : State :=
  { s with
    done := s.done && !(v.getLsbD 1)
    err := s.err && !(v.getLsbD 2) }

/-- Does CTRL name a command that accesses memory (R42, R132)? -/
def usesMemory (c : BitVec 7) : Bool := 1 ≤ c.toNat % 16 && c.toNat % 16 ≤ 6

/-- Acceptance of GO, in one step (R127): the operands are latched, the flags and results cleared, BUSY set. It
starts a new draw, and fixes which bytes the host has not made visible: an ordering or a write-back after GO comes too
late for this command (R48, R53). When DMA is not coherent the host's cached copies of `D` become stale (R53;
log 18). -/
def State.accept (s : State) : State :=
  { s with
    latched := s.regs
    resultLen := 0#64
    consumed := 0#64
    errInfo := 0#8
    done := false
    err := false
    errCode := 0#4
    endKind := 0#2
    activity := .dispatch
    launchDraw := s.draws
    unseen := s.host.unordered ++ s.host.uncleaned
    draws := s.draws + 1
    host :=
      { s.host with
        stale :=
          if s.platform.dmaCoherent || !(usesMemory s.regs.ctrl) then s.host.stale
          else (s.regs.dstAddr.toNat, s.regs.dstCap.toNat) :: s.host.stale } }

end Sys2Proof.Machine
end

