-- ==== Sys2Proof/Machine/Operands.lean ====
section
/-!
DEFINITION. The operand forms: the ranges a command names and their checks (spec/44_commands.md R128 to R131), the
source bytes as the engine reads them (spec/20_memory.md), and the check every engine access passes.
-/
namespace Sys2Proof.Machine

/-! ## The parameter checks -/

/-- Step 4 of R128: no range passes the top of the address space (R131). -/
def State.rangesFit (s : State) : Bool := s.srcHi ≤ addrSpace && s.dstHi ≤ addrSpace

/-- Step 5 of R128: both ranges are non-empty and share a byte (R131). -/
def State.rangesOverlap (s : State) : Bool :=
  0 < s.latched.srcLen.toNat && 0 < s.latched.dstCap.toNat && s.srcLo < s.dstHi && s.dstLo < s.srcHi

/-- Do the `n` bytes from `a` share a byte with the window of `size` bytes at `base`? -/
def touches (a n base size : Nat) : Bool := 0 < n && 0 < size && a < base + size && base < a + n

/-- Does a range cover device registers: the engine's own window (R16), or another device's (R46)? -/
def State.onDevice (s : State) (a n : Nat) : Bool :=
  touches a n s.platform.engineBase.toNat Config.registerWindow
    || s.platform.devices.any (fun d => touches a n d.1 d.2)

/-- Does the launch point `S` or `D` at device registers (R46)? -/
def State.launchOnDevice (s : State) : Bool :=
  s.onDevice s.srcLo s.latched.srcLen.toNat || s.onDevice s.dstLo s.latched.dstCap.toNat

/-- A parameter check failed (R128): `InvalidParameter`, nothing recorded, no memory accessed. -/
def State.badParameter (s : State) : State := s.errorEnd .invalidParameter 0 0 0#8

/-- Steps 2 to 5 of R128 for a command that accesses memory, `lengthsOk` being its steps 2 and 3; then the refusal
of a launch on device registers (R46; log 15); then the operation. -/
def launch (lengthsOk : Bool) (s : State) (operation : Unit → Out) : Out :=
  if !lengthsOk then .next s.badParameter
  else if !s.rangesFit then .next s.badParameter
  else if s.rangesOverlap then .next s.badParameter
  else if s.launchOnDevice then .refused .deviceRange
  else operation ()

/-! ## Engine accesses -/

/-- The verdict on one engine access. -/
inductive Access
  | granted
  | busError
  | outsideSpace
  | outsideRanges
  deriving DecidableEq, Repr

/-- Does the platform answer an access of this kind to one of the `n` bytes from `a` with a bus error (I9)? -/
def State.busFaultIn (s : State) (kind : BusAccess) (a n : Nat) : Bool :=
  s.platform.busFaults.any (fun f => f.kind = kind && a ≤ f.addr && f.addr < a + n)

/-- An engine read of `n` source bytes from `a` (R42): inside `S` and inside the space; `bus` says whether the read
goes to the bus now, or its bytes were read when the command started (log 12). -/
def State.checkSource (s : State) (bus : Bool) (a n : Nat) : Access :=
  if a < s.srcLo || s.srcHi < a + n then .outsideRanges
  else if addrSpace < a + n then .outsideSpace
  else if bus && s.busFaultIn .read a n then .busError
  else .granted

/-- An engine access to `n` destination bytes from `a` (R42): a write, or the decoder's read back. -/
def State.checkDest (s : State) (kind : BusAccess) (a n : Nat) : Access :=
  if a < s.dstLo || s.dstHi < a + n then .outsideRanges
  else if addrSpace < a + n then .outsideSpace
  else if s.busFaultIn kind a n then .busError
  else .granted

/-- Go on if the access is granted; a bus error ends the command (R56), an access outside the ranges is refused
wherever it lies (R137, I18), and one inside ranges that pass the top of the address space faults (R41; log 16). -/
def guardAccess (a : Access) (s : State) (cont : Unit → Out) : Out :=
  match a with
  | .granted => cont ()
  | .busError => .next s.busErrorEnd
  | .outsideSpace => .fault .addressOutsideSpace
  | .outsideRanges => .refused .engineOutsideRanges

/-! ## The source bytes -/

/-- The engine's view of one source byte: any value where the host had broken its ordering or coherence duty at GO
(R48, R53, I8; log 18), otherwise the byte in memory. -/
def State.sourceByte (s : State) (a : Nat) : Byte :=
  if s.unseen.contains a then Config.freeByte s.launchDraw a else s.byteAt a

/-- `MemRead(a, n)` of source bytes (R10). -/
def State.source (s : State) (a : Nat) : Nat → List Byte
  | 0 => []
  | n + 1 => s.sourceByte a :: s.source (a + 1) n

end Sys2Proof.Machine
end

