-- ==== Sys2Proof/Machine/Tokens.lean ====
section
/-!
DEFINITION. The token decoder's instructions (spec/42_token_decoder.md): LIT, the six BREF_SHORT and BREF_LONG, each
executed with `td.ip` at its control byte, and DECOMPRESS, which starts the decoder.
-/
namespace Sys2Proof.Machine

/-! ## Errors of the decoder's two users -/

/-- An error of the block at `bfc.ipos` (R121, R122, R142): DECODE reports the complete blocks, DECODE_BLOCK 0. -/
def State.blockError (s : State) (e : ErrKind) (info : Byte) : State :=
  match s.bfc.owner with
  | .decode => s.errorEnd e s.bfc.opos s.bfc.ipos info
  | .decodeBlock => s.errorEnd e 0 0 info

/-- A payload that does not decode to its `U` bytes (R118): `InvalidData`, the block's output any values (I2;
log 7). -/
def State.payloadError (s : State) : State := (s.scramble s.td.outBase s.td.cap).blockError .invalidData 0#8

/-- A token error (R105, R108, R118): DECOMPRESS reports it with the bytes of the earlier tokens and the failing
token's offset; inside a block every one is `InvalidData`. -/
def State.tokenError (s : State) (e : ErrKind) : State :=
  match s.td.owner with
  | .decompress => s.errorEnd e s.td.op s.td.tok 0#8
  | .block => s.payloadError

/-! ## The tokens -/

/-- The token at `td.ip` is the one being decoded (R100). -/
def State.startToken (s : State) : State := { s with td := { s.td with tok := s.td.ip } }

/-- The state after a token of `consumed` input bytes left `mem` and `produced` output bytes (R101 to R103). -/
def State.endToken (s : State) (mem : List Host.Cell) (consumed produced : Nat) : State :=
  { s with mem := mem, td := { s.td with ip := s.td.ip + consumed, op := s.td.op + produced } }

/-- Do reads of token bytes go to the bus now? DECOMPRESS reads them as needed (R108); inside a block they were read
when the command started (R121, R122; log 12). -/
def State.readsNow (s : State) : Bool := s.td.owner = .decompress

/-- LIT of `len` data bytes (R101). -/
def execLit (len : Nat) (s : State) : Out :=
  let s := s.startToken
  let td := s.td
  if td.clen < td.ip + 1 + len then .next (s.tokenError .invalidData)
  else if td.cap < td.op + len then .next (s.tokenError .outputTooSmall)
  else
    guardAccess (s.checkSource s.readsNow (td.srcBase + (td.ip + 1)) len) s fun _ =>
      guardAccess (s.checkDest .write (td.outBase + td.op) len) s fun _ =>
        .next (s.endToken
          (writeBytes s.mem (td.outBase + td.op) (s.source (td.srcBase + (td.ip + 1)) len)) (1 + len) len)

/-- A back-reference of `head` bytes, offset `off` and length `len` (R102, R103): truncation, then offset, then
capacity (R105), then the copy (R104), whose reads back begin at `OUT[op - off - 1]`. -/
def execReference (head off len : Nat) (s : State) : Out :=
  let s := s.startToken
  let td := s.td
  if td.clen < td.ip + head then .next (s.tokenError .invalidData)
  else if td.op ≤ off then .next (s.tokenError .invalidData)
  else if td.cap < td.op + len then .next (s.tokenError .outputTooSmall)
  else
    guardAccess (s.checkDest .readBack (td.outBase + (td.op - off - 1)) len) s fun _ =>
      guardAccess (s.checkDest .write (td.outBase + td.op) len) s fun _ =>
        .next (s.endToken
          (copyBytes s.mem (td.outBase + (td.op - off - 1)) (td.outBase + td.op) len) head len)

/-- BREF_SHORT, length field 1 (R102). -/
def execBrefShortL3 (off : Nat) (s : State) : Out := execReference 2 off 3 s
/-- BREF_SHORT, length field 2 (R102). -/
def execBrefShortL4 (off : Nat) (s : State) : Out := execReference 2 off 4 s
/-- BREF_SHORT, length field 3 (R102). -/
def execBrefShortL5 (off : Nat) (s : State) : Out := execReference 2 off 5 s
/-- BREF_SHORT, length field 4 (R102). -/
def execBrefShortL6 (off : Nat) (s : State) : Out := execReference 2 off 6 s
/-- BREF_SHORT, length field 5 (R102). -/
def execBrefShortL7 (off : Nat) (s : State) : Out := execReference 2 off 7 s
/-- BREF_SHORT, length field 6 (R102). -/
def execBrefShortL8 (off : Nat) (s : State) : Out := execReference 2 off 8 s
/-- BREF_LONG (R103). -/
def execBrefLong (len off : Nat) (s : State) : Out := execReference 3 off len s

/-! ## DECOMPRESS -/

/-- The token decoder set to run (R100): cursors 0, the windows as given. -/
def State.startTokens (s : State) (owner : TdOwner) (srcBase clen outBase cap : Nat) : State :=
  { s with
    td := ⟨owner, srcBase, clen, outBase, cap, 0, 0, 0⟩
    activity := .tokens }

/-- DECOMPRESS (R108): the parameter checks, then TD_RUN over the source with the destination as its window, one
token per step (log 4). MODE, TERM and IRQ_EN have no effect on it (R132). -/
def execDecompress (s : State) : Out :=
  launch true s fun _ =>
    .next (s.startTokens .decompress s.srcLo s.latched.srcLen.toNat s.dstLo s.latched.dstCap.toNat)

end Sys2Proof.Machine
end

