-- ==== Sys2Proof/Machine/Blocks.lean ====
section
/-!
DEFINITION. The framing controller's decoder (spec/43_block_framing.md R116 to R122): BLK_RAW, BLK_CMP and TERM, each
executed at the block start `bfc.ipos`, the ends of a payload and of the input, and DECODE and DECODE_BLOCK, which
start the controller.
-/
namespace Sys2Proof.Machine

/-- A block of `produced` output and `consumed` input bytes is decoded (R121, R122): DECODE goes on at the next
block start, DECODE_BLOCK completes. DESIGN CHOICE: DECODE_BLOCK leaves the controller's cursors at 0, since R122 assigns
none (R36; log 26). -/
def State.blockDone (s : State) (produced consumed : Nat) : State :=
  match s.bfc.owner with
  | .decode =>
    { s with
      bfc := { s.bfc with ipos := s.bfc.ipos + consumed, opos := s.bfc.opos + produced }
      activity := .blocks }
  | .decodeBlock => s.complete produced consumed 0#2

/-- BLK_RAW of `u` bytes (R117). -/
def execBlkRaw (u : Nat) (s : State) : Out :=
  if s.latched.srcLen.toNat < s.bfc.ipos + 5 + u then .next (s.blockError .invalidData 0#8)
  else if s.latched.dstCap.toNat < s.bfc.opos + u then .next (s.blockError .outputTooSmall 0#8)
  else
    guardAccess (s.checkSource false (s.srcLo + s.bfc.ipos + 5) u) s fun _ =>
      guardAccess (s.checkDest .write (s.dstLo + s.bfc.opos) u) s fun _ =>
        .next ((s.store (s.dstLo + s.bfc.opos) (s.source (s.srcLo + s.bfc.ipos + 5) u)).blockDone u (5 + u))

/-- A type-1 block whose payload of `u` decoded bytes is cut short (R118): `InvalidData`, and the block's output, as far
as it lies in `D`, any values (R142, I2; log 7, log 25). -/
def State.cutShort (s : State) (u : Nat) : State :=
  (s.scramble (s.dstLo + s.bfc.opos) (min u (s.latched.dstCap.toNat - s.bfc.opos))).blockError .invalidData 0#8

/-- BLK_CMP of `c` token bytes that decode to `u` bytes (R118): the checks, then TD_RUN over the payload with
capacity `u`, one token per step (log 4). A block too long for the destination writes nothing (log 25). -/
def execBlkCmp (c u : Nat) (s : State) : Out :=
  if s.latched.srcLen.toNat < s.bfc.ipos + 7 + c then .next (s.cutShort u)
  else if s.latched.dstCap.toNat < s.bfc.opos + u then .next (s.blockError .outputTooSmall 0#8)
  else .next (s.startTokens .block (s.srcLo + s.bfc.ipos + 7) c (s.dstLo + s.bfc.opos) u)

/-- The state with the framing controller's owner and cursors set. -/
def State.withFramer (s : State) (owner : BfcOwner) (ipos opos : Nat) : State :=
  { s with bfc := ⟨owner, ipos, opos⟩ }

/-- TERM (R119, R121, R122): it consumes one byte and ends the command, END_KIND 1. DESIGN CHOICE: in DECODE_BLOCK it
moves `ipos` to 1, though R122 assigns no cursor (R36; log 26). -/
def execTerm (s : State) : Out :=
  match s.bfc.owner with
  | .decode =>
    .next ((s.withFramer .decode (s.bfc.ipos + 1) s.bfc.opos).complete s.bfc.opos (s.bfc.ipos + 1) 1#2)
  | .decodeBlock => .next ((s.withFramer .decodeBlock 1 0).complete 0 1 1#2)

/-- The end of TD_RUN (R100): DECOMPRESS completes (R108); a block's payload must have decoded to its `U` bytes
(R118). -/
def State.endTokens (s : State) : State :=
  match s.td.owner with
  | .decompress => s.complete s.td.op s.td.clen 0#2
  | .block => if s.td.op ≠ s.td.cap then s.payloadError else s.blockDone s.td.cap (7 + s.td.clen)

/-- The end of input at a block start (R120): DECODE completes with END_KIND 0 (R121), DECODE_BLOCK with 2 (R122). -/
def State.endBlocks (s : State) : State :=
  match s.bfc.owner with
  | .decode => s.complete s.bfc.opos s.bfc.ipos 0#2
  | .decodeBlock => s.complete 0 0 2#2

/-- The framing controller set to run at the first block (R121, R122). -/
def State.startBlocks (s : State) (owner : BfcOwner) : State :=
  { s.withFramer owner 0 0 with activity := .blocks }

/-- DECODE and DECODE_BLOCK read the whole source (R121, R122), then the controller runs, one unit or token per step
(log 4, log 12). -/
def decodeOperation (owner : BfcOwner) (s : State) : Out :=
  guardAccess (s.checkSource true s.srcLo s.latched.srcLen.toNat) s fun _ => .next (s.startBlocks owner)

/-- DECODE (R121). MODE, TERM, IRQ_EN and BLOCK_SIZE have no effect on it (R132). -/
def execDecode (s : State) : Out := launch true s fun _ => decodeOperation .decode s

/-- DECODE_BLOCK (R122). MODE, TERM, IRQ_EN and BLOCK_SIZE have no effect on it (R132). -/
def execDecodeBlock (s : State) : Out := launch true s fun _ => decodeOperation .decodeBlock s

end Sys2Proof.Machine
end

