-- ==== Sys2Proof/Syntax.lean ====
section
/-!
DEFINITION. The instructions of the engine: one constructor per row of spec/opcode_table.json, in its three
languages (spec/30_encoding.md): tokens, block units, commands.
-/
namespace Sys2Proof

/-- The match-finding mode, `CTRL.MODE` (spec/00_scope.md R3): 0 is Normal, 1 is Best. -/
inductive Mode
  | normal
  | best
  deriving DecidableEq, Repr

/-- One row of spec/opcode_table.json each. Lengths and offsets are the numbers the spec computes with (R9, R62);
`WellFormed` bounds them. A token's data bytes and a block's payload stay in memory, where the meaning reads them
(log 14). A command carries the fields `MODE`, `TERM`, `IRQ_EN` of its CTRL word. -/
inductive Instr
  /-- LIT: a literal run of `len` bytes, 1 to 32 (R59, R101). -/
  | lit (len : Nat)
  /-- BREF_SHORT with length field 1: copy 3 bytes from `off + 1` behind (R60, R102). -/
  | brefShortL3 (off : Nat)
  /-- BREF_SHORT with length field 2 (R60, R102). -/
  | brefShortL4 (off : Nat)
  /-- BREF_SHORT with length field 3 (R60, R102). -/
  | brefShortL5 (off : Nat)
  /-- BREF_SHORT with length field 4 (R60, R102). -/
  | brefShortL6 (off : Nat)
  /-- BREF_SHORT with length field 5 (R60, R102). -/
  | brefShortL7 (off : Nat)
  /-- BREF_SHORT with length field 6 (R60, R102). -/
  | brefShortL8 (off : Nat)
  /-- BREF_LONG: copy `len` bytes, 9 to 264 (R61, R103). -/
  | brefLong (len off : Nat)
  /-- BLK_RAW: a type-0 block of `u` raw bytes (R66, R117). -/
  | blkRaw (u : Nat)
  /-- BLK_CMP: a type-1 block of `c` token bytes that decode to `u` bytes (R67, R118). -/
  | blkCmp (c u : Nat)
  /-- TERM: the terminator byte (R68, R119). -/
  | term
  /-- COMPRESS, OP 0x1 (R98). -/
  | compress (mode : Mode) (withTerm irqEn : Bool)
  /-- DECOMPRESS, OP 0x2 (R108). -/
  | decompress (mode : Mode) (withTerm irqEn : Bool)
  /-- ENCODE, OP 0x3 (R112). -/
  | encode (mode : Mode) (withTerm irqEn : Bool)
  /-- DECODE, OP 0x4 (R121). -/
  | decode (mode : Mode) (withTerm irqEn : Bool)
  /-- ENCODE_BLOCK, OP 0x5 (R114). -/
  | encodeBlock (mode : Mode) (withTerm irqEn : Bool)
  /-- DECODE_BLOCK, OP 0x6 (R122). -/
  | decodeBlock (mode : Mode) (withTerm irqEn : Bool)
  /-- MAXSIZE, OP 0x7 (R99). -/
  | maxsize (mode : Mode) (withTerm irqEn : Bool)
  /-- Reserved OP 0x0 (R71). -/
  | reservedOp0 (mode : Mode) (withTerm irqEn : Bool)
  /-- Reserved OP 0x8 (R71). -/
  | reservedOp8 (mode : Mode) (withTerm irqEn : Bool)
  /-- Reserved OP 0x9 (R71). -/
  | reservedOp9 (mode : Mode) (withTerm irqEn : Bool)
  /-- Reserved OP 0xA (R71). -/
  | reservedOpA (mode : Mode) (withTerm irqEn : Bool)
  /-- Reserved OP 0xB (R71). -/
  | reservedOpB (mode : Mode) (withTerm irqEn : Bool)
  /-- Reserved OP 0xC (R71). -/
  | reservedOpC (mode : Mode) (withTerm irqEn : Bool)
  /-- Reserved OP 0xD (R71). -/
  | reservedOpD (mode : Mode) (withTerm irqEn : Bool)
  /-- Reserved OP 0xE (R71). -/
  | reservedOpE (mode : Mode) (withTerm irqEn : Bool)
  /-- Reserved OP 0xF (R71). -/
  | reservedOpF (mode : Mode) (withTerm irqEn : Bool)
  deriving DecidableEq, Repr

/-- The three encoded languages of spec/30_encoding.md: they share byte values, and the unit that reads them tells
them apart. -/
inductive Language
  | token
  | block
  | command
  deriving DecidableEq, Repr

/-- The language an instruction belongs to. -/
def Instr.language : Instr → Language
  | .lit _ | .brefShortL3 _ | .brefShortL4 _ | .brefShortL5 _ | .brefShortL6 _ | .brefShortL7 _
  | .brefShortL8 _ | .brefLong _ _ => .token
  | .blkRaw _ | .blkCmp _ _ | .term => .block
  | .compress _ _ _ | .decompress _ _ _ | .encode _ _ _ | .decode _ _ _ | .encodeBlock _ _ _
  | .decodeBlock _ _ _ | .maxsize _ _ _ | .reservedOp0 _ _ _ | .reservedOp8 _ _ _
  | .reservedOp9 _ _ _ | .reservedOpA _ _ _ | .reservedOpB _ _ _ | .reservedOpC _ _ _
  | .reservedOpD _ _ _ | .reservedOpE _ _ _ | .reservedOpF _ _ _ => .command

end Sys2Proof
end

