-- ==== Sys2Proof/WellFormed.lean ====
section
/-!
DEFINITION. Which instructions some encoding spells: the bounds of spec/30_encoding.md R59 to R61, R63, R66, R67.
-/
namespace Sys2Proof

/-- The operand bounds of each instruction. -/
def Instr.wellFormed : Instr → Bool
  | .lit len => 1 ≤ len && len ≤ Config.maxLit
  | .brefShortL3 off => off ≤ Config.maxOff
  | .brefShortL4 off => off ≤ Config.maxOff
  | .brefShortL5 off => off ≤ Config.maxOff
  | .brefShortL6 off => off ≤ Config.maxOff
  | .brefShortL7 off => off ≤ Config.maxOff
  | .brefShortL8 off => off ≤ Config.maxOff
  | .brefLong len off => 9 ≤ len && len ≤ Config.maxMatch && off ≤ Config.maxOff
  | .blkRaw u => u ≤ Config.maxBlock
  | .blkCmp c u => c ≤ Config.maxBlock && u ≤ Config.maxBlock
  | .term => true
  | .compress _ _ _ | .decompress _ _ _ | .encode _ _ _ | .decode _ _ _ | .encodeBlock _ _ _
  | .decodeBlock _ _ _ | .maxsize _ _ _ => true
  | .reservedOp0 _ _ _ | .reservedOp8 _ _ _ | .reservedOp9 _ _ _ | .reservedOpA _ _ _
  | .reservedOpB _ _ _ | .reservedOpC _ _ _ | .reservedOpD _ _ _ | .reservedOpE _ _ _
  | .reservedOpF _ _ _ => true

end Sys2Proof
end

