-- ==== Sys2Proof/Decode.lean ====
section
/-!
DEFINITION. The decoders of the three encoded languages of spec/30_encoding.md, total on any bytes and rejecting by
name, and after them the encoder written from the same tables.
-/
namespace Sys2Proof

/-- Why bytes spell no instruction. -/
inductive DecodeError
  /-- No byte is left: the end of the input, no error of the format (R57, R120). -/
  | endOfInput
  /-- A token is cut short by the end of the stream (R63, R105). -/
  | truncatedToken
  /-- Fewer bytes than a block header needs, or the magic is not "ZV" (R69, R116). -/
  | badHeader
  /-- The type byte is neither 0 nor 1 (R69, R116). -/
  | unknownType (ty : Byte)
  deriving DecidableEq, Repr

/-- Bits 7:5 of a control byte (R7, R58). -/
def lenField (ctrl : Byte) : Nat := ctrl.toNat / 32

/-- Bits 4:0 of a control byte (R7, R58). -/
def lowFive (ctrl : Byte) : Nat := ctrl.toNat % 32

/-- The 13-bit offset: `off[12:8]` in the control byte, `off[7:0]` in the token's last byte (R60 to R62; log 17). -/
def offsetOf (ctrl lo : Byte) : Nat := lowFive ctrl * 256 + lo.toNat

/-- The short back-reference of length field `lenf`, 1 to 6 (R60). -/
def shortRef (lenf off : Nat) : Instr :=
  match lenf with
  | 1 => .brefShortL3 off
  | 2 => .brefShortL4 off
  | 3 => .brefShortL5 off
  | 4 => .brefShortL6 off
  | 5 => .brefShortL7 off
  | _ => .brefShortL8 off

/-- How many bytes a token has before its data bytes: 1 for LIT, 2 for BREF_SHORT, 3 for BREF_LONG (R58). -/
def tokenHeadLength (ctrl : Byte) : Nat :=
  if ctrl.toNat < 0x20 then 1 else if ctrl.toNat < 0xE0 then 2 else 3

/-- The token language (R57 to R62): one token's head, and the bytes after it. -/
def decodeToken : List Byte → Except DecodeError (Instr × List Byte)
  | [] => .error .endOfInput
  | ctrl :: rest =>
    if ctrl.toNat < 0x20 then .ok (.lit (lowFive ctrl + 1), rest)
    else if ctrl.toNat < 0xE0 then
      match rest with
      | lo :: rest' => .ok (shortRef (lenField ctrl) (offsetOf ctrl lo), rest')
      | [] => .error .truncatedToken
    else
      match rest with
      | ext :: lo :: rest' => .ok (.brefLong (7 + ext.toNat + 2) (offsetOf ctrl lo), rest')
      | _ => .error .truncatedToken

/-- `rd_be16` of two bytes (R8). -/
def be16Value (hi lo : Byte) : Nat := hi.toNat * 256 + lo.toNat

/-- The block language (R65 to R69), tested in the order of spec/43_block_framing.md R116. -/
def decodeUnit : List Byte → Except DecodeError (Instr × List Byte)
  | [] => .error .endOfInput
  | b0 :: rest =>
    if b0 = 0x00#8 then .ok (.term, rest)
    else
      match rest with
      | b1 :: ty :: fields =>
        if b0 ≠ 0x5A#8 ∨ b1 ≠ 0x56#8 then .error .badHeader
        else if ty = 0x00#8 then
          match fields with
          | u1 :: u0 :: rest' => .ok (.blkRaw (be16Value u1 u0), rest')
          | _ => .error .badHeader
        else if ty = 0x01#8 then
          match fields with
          | c1 :: c0 :: u1 :: u0 :: rest' => .ok (.blkCmp (be16Value c1 c0) (be16Value u1 u0), rest')
          | _ => .error .badHeader
        else .error (.unknownType ty)
      | _ => .error .badHeader

/-- `CTRL.MODE` (R17). -/
def ctrlMode (c : BitVec 7) : Mode := if c.getLsbD 4 then .best else .normal
/-- `CTRL.TERM` (R17). -/
def ctrlTerm (c : BitVec 7) : Bool := c.getLsbD 5
/-- `CTRL.IRQ_EN` (R17). -/
def ctrlIrqEn (c : BitVec 7) : Bool := c.getLsbD 6
/-- `CTRL.OP` (R17). -/
def ctrlOp (c : BitVec 7) : Nat := c.toNat % 16

/-- The command language: every value of CTRL names a command or a reserved OP (R70, R71). -/
def decodeCtrl (c : BitVec 7) : Instr :=
  let m := ctrlMode c
  let t := ctrlTerm c
  let i := ctrlIrqEn c
  match ctrlOp c with
  | 0 => .reservedOp0 m t i
  | 1 => .compress m t i
  | 2 => .decompress m t i
  | 3 => .encode m t i
  | 4 => .decode m t i
  | 5 => .encodeBlock m t i
  | 6 => .decodeBlock m t i
  | 7 => .maxsize m t i
  | 8 => .reservedOp8 m t i
  | 9 => .reservedOp9 m t i
  | 10 => .reservedOpA m t i
  | 11 => .reservedOpB m t i
  | 12 => .reservedOpC m t i
  | 13 => .reservedOpD m t i
  | 14 => .reservedOpE m t i
  | _ => .reservedOpF m t i

/-- The decoder of each language; a command is one byte, its CTRL word's bits 6:0. -/
def decodeIn (l : Language) (bs : List Byte) : Except DecodeError (Instr × List Byte) :=
  match l with
  | .token => decodeToken bs
  | .block => decodeUnit bs
  | .command =>
    match bs with
    | [] => .error .endOfInput
    | b :: rest => .ok (decodeCtrl (b.setWidth 7), rest)

/-- `nbits` bits as whole bytes, the byte of bits 7..0 first. -/
def bytesLowFirst : Nat → Nat → List Byte
  | 0, _ => []
  | n + 1, w => BitVec.ofNat 8 w :: bytesLowFirst n (w / 256)

/-- Which language the host's opcode-table word is read in, and its bytes in stream order (log 13). A word whose
highest bytes that are not 0 begin a block header is one, since the table writes headers first byte topmost.
Otherwise the first byte is the lowest: a single byte 0x01 to 0x0F is a CTRL word with MODE = TERM = IRQ_EN = 0, and
every other byte is a token's control byte. -/
def tableBytes (nbits w : Nat) : Language × List Byte :=
  let low := bytesLowFirst ((nbits + 7) / 8) w
  let high := low.reverse.dropWhile (fun b => b == 0#8)
  if high.take 3 = [0x5A#8, 0x56#8, 0x00#8] ∨ high.take 3 = [0x5A#8, 0x56#8, 0x01#8]
  then (.block, high ++ List.replicate 4 0#8)
  else if low.length = 1 ∧ 1 ≤ w ∧ w ≤ 15 then (.command, low)
  else
    match low with
    | [] => (.token, [])
    | ctrl :: _ => (.token, low ++ List.replicate (tokenHeadLength ctrl - low.length) 0#8)

/-- The instruction the decoder reads from the opcode table's word `w` of `nbits` bits, every bit above them 0. -/
def decodeTableWord (nbits w : Nat) : Option Instr :=
  match decodeIn (tableBytes nbits w).1 (tableBytes nbits w).2 with
  | .ok (i, _) => some i
  | .error _ => none

/-! ## The encoder -/

/-- `be16` of a number below 65536 (R8). -/
def be16 (v : Nat) : List Byte := [BitVec.ofNat 8 (v / 256), BitVec.ofNat 8 (v % 256)]

/-- The two bytes of BREF_SHORT (R60). -/
def shortRefBytes (lenf off : Nat) : List Byte :=
  [BitVec.ofNat 8 (lenf * 32 + off / 256), BitVec.ofNat 8 (off % 256)]

/-- `CTRL` of a command (R17, R70), as the byte of its bits 6:0. -/
def ctrlByte (op : Nat) (m : Mode) (t i : Bool) : Byte :=
  BitVec.ofNat 8 (op + (match m with | .normal => 0 | .best => 16) + (if t then 32 else 0) + (if i then 64 else 0))

/-- The bytes of a well-formed instruction: a token's head (R59 to R61), a block's header (R66 to R68), a command's
CTRL word (R70). -/
def encode : Instr → List Byte
  | .lit len => [BitVec.ofNat 8 (len - 1)]
  | .brefShortL3 off => shortRefBytes 1 off
  | .brefShortL4 off => shortRefBytes 2 off
  | .brefShortL5 off => shortRefBytes 3 off
  | .brefShortL6 off => shortRefBytes 4 off
  | .brefShortL7 off => shortRefBytes 5 off
  | .brefShortL8 off => shortRefBytes 6 off
  | .brefLong len off =>
    [BitVec.ofNat 8 (7 * 32 + off / 256), BitVec.ofNat 8 (len - 9), BitVec.ofNat 8 (off % 256)]
  | .blkRaw u => [0x5A#8, 0x56#8, 0x00#8] ++ be16 u
  | .blkCmp c u => [0x5A#8, 0x56#8, 0x01#8] ++ be16 c ++ be16 u
  | .term => [0x00#8]
  | .compress m t i => [ctrlByte 1 m t i]
  | .decompress m t i => [ctrlByte 2 m t i]
  | .encode m t i => [ctrlByte 3 m t i]
  | .decode m t i => [ctrlByte 4 m t i]
  | .encodeBlock m t i => [ctrlByte 5 m t i]
  | .decodeBlock m t i => [ctrlByte 6 m t i]
  | .maxsize m t i => [ctrlByte 7 m t i]
  | .reservedOp0 m t i => [ctrlByte 0 m t i]
  | .reservedOp8 m t i => [ctrlByte 8 m t i]
  | .reservedOp9 m t i => [ctrlByte 9 m t i]
  | .reservedOpA m t i => [ctrlByte 10 m t i]
  | .reservedOpB m t i => [ctrlByte 11 m t i]
  | .reservedOpC m t i => [ctrlByte 12 m t i]
  | .reservedOpD m t i => [ctrlByte 13 m t i]
  | .reservedOpE m t i => [ctrlByte 14 m t i]
  | .reservedOpF m t i => [ctrlByte 15 m t i]

/-- The one token of a back-reference of offset `off` and length `len` (R63): BREF_SHORT up to 8, else BREF_LONG. -/
def refToken (off len : Nat) : Instr := if len - 2 < 7 then shortRef (len - 2) off else .brefLong len off

end Sys2Proof
end

