-- ==== Sys2Proof/Machine/MatchFinder.lean ====
section
/-!
DEFINITION. The match finder (spec/40_match_finder.md): HASH3, the Normal lookup and the Best chain walk, and the
insertions after a decision.
-/
namespace Sys2Proof.Machine

/-! ## HASH3 -/

/-- A 3-byte hash (R76). -/
abbrev Hash3 := Byte → Byte → Byte → BitVec 16

/-- The default `HASH3` (R76): `((v * 0x9E3779B1) mod 2^32) >> 16` with `v` the three bytes read big-endian. -/
def defaultHash3 (b0 b1 b2 : Byte) : BitVec 16 :=
  BitVec.ofNat 16 ((b0.toNat * 65536 + b1.toNat * 256 + b2.toNat) * 0x9E3779B1 % 4294967296 / 65536)

/-- The `HASH3` the engine is built with (log 8). -/
def hash3Of : Config.HashChoice → Hash3
  | .specDefault => defaultHash3
  | .otherFunction => Config.otherHash3

/-! ## The input of one compression call -/

/-- `d[i]` (R8). -/
def inputAt (d : List Byte) (i : Nat) : Byte := d.getD i 0#8

/-- `d[i:j]` (R8). -/
def slice (d : List Byte) (i j : Nat) : List Byte := (d.drop i).take (j - i)

/-- A position is searchable iff three input bytes start at it (R75). -/
def searchable (d : List Byte) (q : Nat) : Bool := q + 3 ≤ d.length

/-- The hash of the three bytes at `q` (R76). -/
def hashAt (hf : Hash3) (d : List Byte) (q : Nat) : Nat :=
  (hf (inputAt d q) (inputAt d (q + 1)) (inputAt d (q + 2))).toNat

/-- The longest match that can start at `p` (R77). -/
def maxlen (d : List Byte) (p : Nat) : Nat := min Config.maxMatch (d.length - p)

/-- How many of the first `m` bytes of two sequences agree, from the first on. -/
def agreeing : Nat → List Byte → List Byte → Nat
  | 0, _, _ => 0
  | m + 1, a :: as, b :: bs => if a = b then agreeing m as bs + 1 else 0
  | _ + 1, _, _ => 0

/-- The match length of candidate `c` at position `p` (R77). -/
def mlen (d : List Byte) (c p : Nat) : Nat := agreeing (maxlen d p) (d.drop c) (d.drop p)

/-- `d[c:c+3] = d[p:p+3]` (R78, R82). -/
def sameTrigram (d : List Byte) (c p : Nat) : Bool := slice d c (c + 3) == slice d p (p + 3)

/-- The verdict at one position (R74). -/
inductive Decision
  | litByte
  | matched (off len : Nat)
  deriving DecidableEq, Repr

/-! ## Normal mode -/

/-- Normal-mode insertion of a searchable position (R78, R79). -/
def insertNormal (hf : Hash3) (d : List Byte) (m : MatchFinder) (q : Nat) : MatchFinder :=
  if searchable d q then { m with ht := Sparse.set m.ht (hashAt hf d q) (BitVec.ofNat 32 (q + 1)) } else m

/-- The Normal-mode verdict on the entry `e` read from `HT` (R78): its one candidate. -/
def judgeNormal (d : List Byte) (e p : Nat) : Decision :=
  if e ≠ 0 ∧ p - (e - 1) - 1 ≤ Config.maxOff ∧ sameTrigram d (e - 1) p = true
  then .matched (p - (e - 1) - 1) (mlen d (e - 1) p)
  else .litByte

/-- Normal-mode lookup at a searchable position, which is inserted whatever the outcome (R78). -/
def decideNormal (hf : Hash3) (d : List Byte) (m : MatchFinder) : MatchFinder × Decision :=
  (insertNormal hf d m m.p, judgeNormal d (Sparse.get m.ht (hashAt hf d m.p)).toNat m.p)

/-! ## Best mode -/

/-- The link stored for `q` when `HEAD` holds `e` (R81): the distance to the previous position with the same hash,
0 if there is none within the window. -/
def linkOf (e q : Nat) : Nat := if e ≠ 0 ∧ q - (e - 1) ≤ Config.window then q - (e - 1) else 0

/-- `INSERT_BEST` (R81). -/
def insertBest (hf : Hash3) (d : List Byte) (m : MatchFinder) (q : Nat) : MatchFinder :=
  if searchable d q then
    { m with
      prev :=
        Sparse.set m.prev (q % Config.window)
          (BitVec.ofNat 16 (linkOf (Sparse.get m.head (hashAt hf d q)).toNat q))
      head := Sparse.set m.head (hashAt hf d q) (BitVec.ofNat 32 (q + 1)) }
  else m

/-- The best match so far: its length and its offset. -/
structure BestSoFar where
  len : Nat
  off : Nat
  deriving DecidableEq, Repr

/-- The best match after candidate `c`: replaced only by a strictly longer one (R82, R83; C1). -/
def improve (d : List Byte) (p c : Nat) (best : BestSoFar) : BestSoFar :=
  if sameTrigram d c p = true ∧ best.len < mlen d c p then ⟨mlen d c p, p - c - 1⟩ else best

/-- The chain walk from candidate `c` (R82, R84). The first argument bounds the number of candidates: the distance
`p - c` grows at each link and stays within the window. -/
def walk (d : List Byte) (prev : List (Nat × BitVec 16)) (p : Nat) : Nat → Nat → BestSoFar → BestSoFar
  | 0, _, best => best
  | k + 1, c, best =>
    if p - c ≤ Config.window then
      if sameTrigram d c p = true ∧ (improve d p c best).len = maxlen d p then improve d p c best
      else if (Sparse.get prev (c % Config.window)).toNat = 0 then improve d p c best
      else walk d prev p k (c - (Sparse.get prev (c % Config.window)).toNat) (improve d p c best)
    else best

/-- The best candidate when `HEAD` holds `e` (R82). -/
def searchBest (d : List Byte) (prev : List (Nat × BitVec 16)) (p e : Nat) : BestSoFar :=
  if e = 0 then ⟨0, 0⟩ else walk d prev p (Config.window + 1) (e - 1) ⟨0, 0⟩

/-- The Best-mode verdict (R82). -/
def judgeBest (best : BestSoFar) : Decision :=
  if Config.minMatch ≤ best.len then .matched best.off best.len else .litByte

/-- Best-mode search at a searchable position, which is inserted after the walk (R82). -/
def decideBest (hf : Hash3) (d : List Byte) (m : MatchFinder) : MatchFinder × Decision :=
  (insertBest hf d m m.p, judgeBest (searchBest d m.prev m.p (Sparse.get m.head (hashAt hf d m.p)).toNat))

/-! ## Both modes -/

/-- The insertion of the selected mode. -/
def insertAt (hf : Hash3) (mode : Mode) (d : List Byte) (m : MatchFinder) (q : Nat) : MatchFinder :=
  match mode with
  | .normal => insertNormal hf d m q
  | .best => insertBest hf d m q

/-- The insertion of `k` positions from `q` on, in increasing order (R79, R85). -/
def insertSpan (hf : Hash3) (mode : Mode) (d : List Byte) (m : MatchFinder) (q : Nat) : Nat → MatchFinder
  | 0 => m
  | k + 1 => insertSpan hf mode d (insertAt hf mode d m q) (q + 1) k

/-- The decision at a searchable position `p`, in the selected mode (R90). -/
def decideAt (hf : Hash3) (mode : Mode) (d : List Byte) (m : MatchFinder) : MatchFinder × Decision :=
  match mode with
  | .normal => decideNormal hf d m
  | .best => decideBest hf d m

/-- The update after `MATCH(off, len)` at `p` (R79, R85): insert `p+1 .. p+len-2`, and go on at `p + len`. -/
def afterMatch (hf : Hash3) (mode : Mode) (d : List Byte) (m : MatchFinder) (len : Nat) : MatchFinder :=
  { insertSpan hf mode d m (m.p + 1) (len - 2) with p := m.p + len, ls := m.p + len }

/-- The tables at the start of a call: those of the selected mode are cleared (R35, R90), and the cursors are 0. -/
def freshFinder (mode : Mode) (m : MatchFinder) : MatchFinder :=
  match mode with
  | .normal => { m with ht := [], p := 0, ls := 0 }
  | .best => { m with head := [], prev := [], p := 0, ls := 0 }

end Sys2Proof.Machine
end

