-- ==== Sys2Proof/Machine/TokenEncoder.lean ====
section
/-!
DEFINITION. The token encoder (spec/41_token_encoder.md section 1) and the compression call that drives it
(spec/40_match_finder.md R90).
-/
namespace Sys2Proof.Machine

/-- Emit the bytes of a sequence in order after `out`, against the capacity (R91): `none` when a byte would not
fit. -/
def emit (cap : Nat) (out : List Byte) : List Byte → Option (List Byte)
  | [] => some out
  | b :: bs => if out.length + 1 > cap then none else emit cap (out ++ [b]) bs

/-- The bytes `TE_LITERALS` emits for a run (R92): groups of 32 from the start of the run, the remainder last. The
first argument bounds the number of groups. -/
def literalGroups : Nat → List Byte → List Byte
  | 0, _ => []
  | _ + 1, [] => []
  | k + 1, b :: bs =>
    encode (.lit (min Config.maxLit (b :: bs).length)) ++ (b :: bs).take Config.maxLit
      ++ literalGroups k ((b :: bs).drop Config.maxLit)

/-- The bytes of `TE_LITERALS(run)` (R92). -/
def literalBytes (run : List Byte) : List Byte := literalGroups run.length run

/-- The bytes of `TE_MATCH(off, len)` (R93). -/
def matchBytes (off len : Nat) : List Byte := encode (refToken off len)

/-- What a compression call leaves: the match finder, the bytes emitted, and whether all of them fitted (R94). -/
structure Coded where
  mf   : MatchFinder
  out  : List Byte
  fits : Bool
  deriving DecidableEq, Repr

/-- The emission of `bs` as the last of a call. -/
def lastEmission (cap : Nat) (m : MatchFinder) (out bs : List Byte) : Coded :=
  match emit cap out bs with
  | some out' => ⟨m, out', true⟩
  | none => ⟨m, out, false⟩

/-- The scan of `MF_CALL` (R90). The first argument bounds the number of decisions: each advances `p`. -/
def scan (hf : Hash3) (mode : Mode) (d : List Byte) (cap : Nat) : Nat → MatchFinder → List Byte → Coded
  | 0, m, out => lastEmission cap m out (literalBytes (slice d m.ls d.length))
  | k + 1, m, out =>
    if m.p < d.length then
      if searchable d m.p then
        match decideAt hf mode d m with
        | (m', .matched off len) =>
          match emit cap out (literalBytes (slice d m.ls m.p) ++ matchBytes off len) with
          | some out' => scan hf mode d cap k (afterMatch hf mode d m' len) out'
          | none => ⟨m', out, false⟩
        | (m', .litByte) => scan hf mode d cap k { m' with p := m'.p + 1 } out
      else scan hf mode d cap k { m with p := m.p + 1 } out
    else lastEmission cap m out (literalBytes (slice d m.ls d.length))

/-- `MF_CALL(d, n, mode)` with a token sink of capacity `cap` (R90). -/
def mfCall (hf : Hash3) (mode : Mode) (d : List Byte) (cap : Nat) (m : MatchFinder) : Coded :=
  scan hf mode d cap d.length (freshFinder mode m) []

/-- The count `o` of bytes emitted (R91): when one did not fit, exactly `cap` had been. -/
def Coded.count (r : Coded) (cap : Nat) : Nat := if r.fits then r.out.length else cap

end Sys2Proof.Machine
end

