-- ==== Sys2Proof/Machine/CompressCommands.lean ====
section
/-!
DEFINITION. COMPRESS (spec/41_token_encoder.md R98) and MAXSIZE (R99).
-/
namespace Sys2Proof.Machine

/-- The state after a compression call: the match finder, the count `o`. DESIGN CHOICE: between commands the tables keep
what the last recorded call left in them, whether it fitted or not; the spec leaves them any values, which nothing
observes (R74, I6; log 24). -/
def State.withCoded (s : State) (r : Coded) (cap : Nat) : State := { s with mf := r.mf, teCount := r.count cap }

/-- The end of COMPRESS on the coded stream `r` (R98, R142): success, or `OutputTooSmall` with the bytes of
`D[0:min(cap, C)]`, which is all of `D`, any values (I1; log 7). -/
def finishCompress (s : State) (n cap : Nat) (r : Coded) : State :=
  if r.fits then ((s.withCoded r cap).store s.dstLo r.out).complete r.out.length n 0#2
  else ((s.withCoded r cap).scramble s.dstLo cap).errorEnd .outputTooSmall 0 0 0#8

/-- The operation of COMPRESS (R98): read the source, run the call, write as many bytes as it emitted (log 12). DESIGN
CHOICE: where a bus error ends it, on a source read or on a destination write, the tables, the finder's cursors and the
count `o` stay as they were before the command; the spec leaves them open (R74, I6, R138; log 24). -/
def compressOperation (mode : Mode) (s : State) : Out :=
  let n := s.latched.srcLen.toNat
  let cap := s.latched.dstCap.toNat
  guardAccess (s.checkSource true s.srcLo n) s fun _ =>
    let r := mfCall (hash3Of s.platform.hash) mode (s.source s.srcLo n) cap s.mf
    guardAccess (s.checkDest .write s.dstLo (r.count cap)) s fun _ =>
      .next (finishCompress s n cap r)

/-- COMPRESS: `SRC_LEN` at most `MAX_RAW_LEN` (R129), then R98. TERM and IRQ_EN have no effect on it (R132). -/
def execCompress (mode : Mode) (s : State) : Out :=
  launch (s.latched.srcLen.toNat ≤ Config.maxRawLen) s fun _ => compressOperation mode s

/-- `max_compressed_size(n)` (R99). -/
def maxCompressedSize (n : Nat) : Nat := n * 33 / 32 + 1

/-- MAXSIZE (R99): the bound of `SRC_LEN`, or `InvalidParameter` when it does not fit RESULT_LEN. No memory is
accessed. -/
def execMaxsize (s : State) : Out :=
  if s.latched.srcLen.toNat ≤ Config.maxMaxsizeLen
  then .next (s.complete (maxCompressedSize s.latched.srcLen.toNat) 0 0#2)
  else .next s.badParameter

end Sys2Proof.Machine
end

