-- ==== Sys2Proof/Machine/EncodeCommands.lean ====
section
/-!
DEFINITION. The framing controller's encoder: ENCODE_CHUNK, ENCODE and ENCODE_BLOCK (spec/43_block_framing.md R109 to
R115).
-/
namespace Sys2Proof.Machine

/-- The scratch budget of a chunk of `u` bytes (R109): `u - 4`, at least 0. -/
def scratchBudget (u : Nat) : Nat := u - 4

/-- The block of a chunk `x` whose compression into SCRATCH left `r` (R109, R110): BLK_CMP if it fitted, else
BLK_RAW. -/
def chunkBlock (x : List Byte) (r : Coded) : List Byte :=
  if r.fits then encode (.blkCmp r.out.length x.length) ++ r.out else encode (.blkRaw x.length) ++ x

/-- The compression of a chunk into SCRATCH (R109). -/
def codeChunk (mode : Mode) (s : State) (x : List Byte) : Coded :=
  mfCall (hash3Of s.platform.hash) mode x (scratchBudget x.length) s.mf

/-- The state after a chunk was compressed into SCRATCH (R34, R109). DESIGN CHOICE: between chunks SCRATCH holds the
emissions of the last call that fitted whole, although R91 writes byte by byte and the count `o` of a call that did not
fit is its capacity; the spec leaves SCRATCH any values there, which nothing observes (I7; log 24). -/
def State.withChunk (s : State) (r : Coded) (u : Nat) : State :=
  { s with mf := r.mf, teCount := r.count (scratchBudget u), scratch := r.out }

/-- The state after a block was written at `opos` for `u` input bytes (R112). -/
def State.withBlock (s : State) (blk : List Byte) (u : Nat) : State :=
  { s.store (s.dstLo + s.bfc.opos) blk with
    bfc := { s.bfc with ipos := s.bfc.ipos + u, opos := s.bfc.opos + blk.length } }

/-- The state with the framing controller's cursors at `ipos` and `opos`. -/
def State.withCursors (s : State) (ipos opos : Nat) : State :=
  { s with bfc := { s.bfc with ipos := ipos, opos := opos } }

/-- The end of ENCODE and ENCODE_BLOCK (R112, R114): the terminator if TERM, then completion. A terminator that does
not fit is `OutputTooSmall` after the complete blocks. -/
def finishEncode (withTerm : Bool) (s : State) : Out :=
  if withTerm then
    if s.latched.dstCap.toNat < s.bfc.opos + 1 then
      .next (s.errorEnd .outputTooSmall s.bfc.opos s.bfc.ipos 0#8)
    else
      guardAccess (s.checkDest .write (s.dstLo + s.bfc.opos) 1) s fun _ =>
        .next ((s.withBlock (encode .term) 0).complete (s.bfc.opos + 1) s.bfc.ipos 0#2)
  else .next (s.complete s.bfc.opos s.bfc.ipos 0#2)

/-- The chunk loop of ENCODE (R111, R112) with chunks of at most `bs` bytes; the first argument bounds the number of
chunks. A block that does not fit is `OutputTooSmall`, nothing of it written. -/
def encodeLoop (mode : Mode) (withTerm : Bool) (bs : Nat) : Nat → State → Out
  | 0, s => finishEncode withTerm s
  | k + 1, s =>
    if s.bfc.ipos < s.latched.srcLen.toNat then
      let u := min bs (s.latched.srcLen.toNat - s.bfc.ipos)
      guardAccess (s.checkSource true (s.srcLo + s.bfc.ipos) u) s fun _ =>
        let x := s.source (s.srcLo + s.bfc.ipos) u
        let r := codeChunk mode s x
        let s' := s.withChunk r u
        let blk := chunkBlock x r
        if s.latched.dstCap.toNat < s.bfc.opos + blk.length then
          .next (s'.errorEnd .outputTooSmall s.bfc.opos s.bfc.ipos 0#8)
        else
          guardAccess (s.checkDest .write (s.dstLo + s.bfc.opos) blk.length) s' fun _ =>
            encodeLoop mode withTerm bs k (s'.withBlock blk u)
    else finishEncode withTerm s

/-- ENCODE: `1 <= BLOCK_SIZE <= 65535` (R128 step 2), then R112. -/
def execEncode (mode : Mode) (withTerm : Bool) (s : State) : Out :=
  launch (1 ≤ s.latched.blockSize.toNat && s.latched.blockSize.toNat ≤ Config.maxBlock) s fun _ =>
    encodeLoop mode withTerm s.latched.blockSize.toNat s.latched.srcLen.toNat (s.withCursors 0 0)

/-- ENCODE_BLOCK: `SRC_LEN` at most 65535 (R130), then R114: the whole source is the one chunk, if there is any.
BLOCK_SIZE is ignored. -/
def execEncodeBlock (mode : Mode) (withTerm : Bool) (s : State) : Out :=
  launch (s.latched.srcLen.toNat ≤ Config.maxBlock) s fun _ =>
    encodeLoop mode withTerm Config.maxBlock s.latched.srcLen.toNat (s.withCursors 0 0)

end Sys2Proof.Machine
end

