-- ==== Sys2Proof/Machine/ReservedCommands.lean ====
section
/-!
DEFINITION. The reserved command encodings (spec/30_encoding.md R71, spec/44_commands.md R128 step 1).
-/
namespace Sys2Proof.Machine

/-- A reserved OP: the command ends at once with `IllegalCommand`, no memory accessed (R71, R128). -/
def State.illegalCommand (s : State) : State := s.errorEnd .illegalCommand 0 0 0#8

/-- Reserved OP 0x0 (R71). -/
def execReservedOp0 (s : State) : Out := .next s.illegalCommand
/-- Reserved OP 0x8 (R71). -/
def execReservedOp8 (s : State) : Out := .next s.illegalCommand
/-- Reserved OP 0x9 (R71). -/
def execReservedOp9 (s : State) : Out := .next s.illegalCommand
/-- Reserved OP 0xA (R71). -/
def execReservedOpA (s : State) : Out := .next s.illegalCommand
/-- Reserved OP 0xB (R71). -/
def execReservedOpB (s : State) : Out := .next s.illegalCommand
/-- Reserved OP 0xC (R71). -/
def execReservedOpC (s : State) : Out := .next s.illegalCommand
/-- Reserved OP 0xD (R71). -/
def execReservedOpD (s : State) : Out := .next s.illegalCommand
/-- Reserved OP 0xE (R71). -/
def execReservedOpE (s : State) : Out := .next s.illegalCommand
/-- Reserved OP 0xF (R71). -/
def execReservedOpF (s : State) : Out := .next s.illegalCommand

end Sys2Proof.Machine
end

