-- ==== Sys2Proof/Machine/Dispatch.lean ====
section
/-!
DEFINITION. The one dispatch from an instruction to its meaning.
-/
namespace Sys2Proof.Machine

def exec (i : Instr) (s : State) : Host.Outcome State Fault Refusal :=
  match i with
  | .lit len => Sys2Proof.Machine.execLit len s
  | .brefShortL3 off => Sys2Proof.Machine.execBrefShortL3 off s
  | .brefShortL4 off => Sys2Proof.Machine.execBrefShortL4 off s
  | .brefShortL5 off => Sys2Proof.Machine.execBrefShortL5 off s
  | .brefShortL6 off => Sys2Proof.Machine.execBrefShortL6 off s
  | .brefShortL7 off => Sys2Proof.Machine.execBrefShortL7 off s
  | .brefShortL8 off => Sys2Proof.Machine.execBrefShortL8 off s
  | .brefLong len off => Sys2Proof.Machine.execBrefLong len off s
  | .blkRaw u => Sys2Proof.Machine.execBlkRaw u s
  | .blkCmp c u => Sys2Proof.Machine.execBlkCmp c u s
  | .term => Sys2Proof.Machine.execTerm s
  | .compress mode _ _ => Sys2Proof.Machine.execCompress mode s
  | .decompress _ _ _ => Sys2Proof.Machine.execDecompress s
  | .encode mode withTerm _ => Sys2Proof.Machine.execEncode mode withTerm s
  | .decode _ _ _ => Sys2Proof.Machine.execDecode s
  | .encodeBlock mode withTerm _ => Sys2Proof.Machine.execEncodeBlock mode withTerm s
  | .decodeBlock _ _ _ => Sys2Proof.Machine.execDecodeBlock s
  | .maxsize _ _ _ => Sys2Proof.Machine.execMaxsize s
  | .reservedOp0 _ _ _ => Sys2Proof.Machine.execReservedOp0 s
  | .reservedOp8 _ _ _ => Sys2Proof.Machine.execReservedOp8 s
  | .reservedOp9 _ _ _ => Sys2Proof.Machine.execReservedOp9 s
  | .reservedOpA _ _ _ => Sys2Proof.Machine.execReservedOpA s
  | .reservedOpB _ _ _ => Sys2Proof.Machine.execReservedOpB s
  | .reservedOpC _ _ _ => Sys2Proof.Machine.execReservedOpC s
  | .reservedOpD _ _ _ => Sys2Proof.Machine.execReservedOpD s
  | .reservedOpE _ _ _ => Sys2Proof.Machine.execReservedOpE s
  | .reservedOpF _ _ _ => Sys2Proof.Machine.execReservedOpF s

end Sys2Proof.Machine
end

