-- ==== Sys2Proof/Machine/Fetch.lean ====
section
/-!
DEFINITION. What the engine reads next: the command it latched (spec/44_commands.md R132), a token
(spec/42_token_decoder.md R100), a block unit (spec/43_block_framing.md R116), and what it does where there is none.
-/
namespace Sys2Proof.Machine

/-- The next instruction, or the outcome where the engine executes none. -/
inductive Fetched
  | run (i : Instr)
  | over (o : Out)

/-- Go on if the access is granted, else end as `guardAccess` does. -/
def guardFetch (a : Access) (s : State) (cont : Unit → Fetched) : Fetched :=
  match a with
  | .granted => cont ()
  | _ => .over (guardAccess a s fun _ => .next s)

/-- The step of TD_RUN (R100): the end of the stream, or the control byte at `ip` and the rest of the token's head. A
head cut short is `InvalidData` before its missing bytes are read (R102, R103, R105). -/
def fetchToken (s : State) : Fetched :=
  let td := s.td
  if td.clen ≤ td.ip then .over (.next s.endTokens)
  else
    guardFetch (s.checkSource s.readsNow (td.srcBase + td.ip) 1) s fun _ =>
      let head := tokenHeadLength (s.sourceByte (td.srcBase + td.ip))
      if td.clen < td.ip + head then .over (.next (s.startToken.tokenError .invalidData))
      else
        guardFetch (s.checkSource s.readsNow (td.srcBase + td.ip) head) s fun _ =>
          match decodeToken (s.source (td.srcBase + td.ip) head) with
          | .ok (i, _) => .run i
          | .error _ => .over (.next (s.startToken.tokenError .invalidData))

/-- The bytes of a block start the decoder looks at: as many of the longest header's 7 as remain (R116). -/
def State.unitBytes (s : State) : Nat := min 7 (s.latched.srcLen.toNat - s.bfc.ipos)

/-- The step of DECODE_ONE (R116): the end of input, a unit, or a header error. -/
def fetchUnit (s : State) : Fetched :=
  if s.latched.srcLen.toNat ≤ s.bfc.ipos then .over (.next s.endBlocks)
  else
    guardFetch (s.checkSource false (s.srcLo + s.bfc.ipos) s.unitBytes) s fun _ =>
      match decodeUnit (s.source (s.srcLo + s.bfc.ipos) s.unitBytes) with
      | .ok (i, _) => .run i
      | .error (.unknownType ty) => .over (.next (s.blockError .unknownBlockType ty))
      | .error _ => .over (.next (s.blockError .invalidHeader 0#8))

/-- What the engine does next (R37): nothing while IDLE (log 23), else the latched command, a token, or a unit. -/
def fetch (s : State) : Fetched :=
  match s.activity with
  | .idle => .over (.next s)
  | .dispatch => .run (decodeCtrl s.latched.ctrl)
  | .tokens => fetchToken s
  | .blocks => fetchUnit s

end Sys2Proof.Machine
end

