-- ==== Sys2Proof/Machine/Flags.lean ====
section
/-!
DEFINITION. The flags of the engine: the STATUS word (spec/10_state.md R20) and the interrupt line
(spec/60_exceptions.md R146).
-/
namespace Sys2Proof.Machine

/-- STATUS as a host reads it: BUSY bit 0, DONE bit 1, ERR bit 2, ERR_CODE bits 7:4, END_KIND bits 9:8 (R20). -/
def State.statusWord (s : State) : Word :=
  BitVec.ofNat 64
    ((if s.busy then 1 else 0) + (if s.done then 2 else 0) + (if s.err then 4 else 0)
      + 16 * s.errCode.toNat + 256 * s.endKind.toNat)

/-- `CTRL.IRQ_EN` as the register now holds it (R17). -/
def State.irqEnabled (s : State) : Bool := s.regs.ctrl.getLsbD 6

/-- The level of the interrupt line: `CTRL.IRQ_EN & (STATUS.DONE | STATUS.ERR)` (R146). -/
def State.irq (s : State) : Bool := s.irqEnabled && (s.done || s.err)

end Sys2Proof.Machine
end

