-- ==== Sys2Proof/Machine/HostPort.lean ====
section
/-!
DEFINITION. The moves of the host and the platform: the register window (spec/10_state.md R16 to R30), GO
(spec/44_commands.md R126), system memory and its ordering (spec/20_memory.md R48, R50, R53), the interrupt line
(spec/60_exceptions.md R146) and reset (spec/70_reset_and_hazards.md R151).
-/
namespace Sys2Proof.Machine

/-! ## The register window -/

/-- The slots of the window (R16). -/
inductive Reg
  | id | ctrl | go | status | srcAddr | srcLen | dstAddr | dstCap | blockSize | resultLen | consumed | errInfo
  | reserved
  deriving DecidableEq, Repr

/-- The register at an offset of the window (R16, R29). -/
def regAt (offset : Nat) : Reg :=
  if offset = 0x00 then .id
  else if offset = 0x08 then .ctrl
  else if offset = 0x10 then .go
  else if offset = 0x18 then .status
  else if offset = 0x20 then .srcAddr
  else if offset = 0x28 then .srcLen
  else if offset = 0x30 then .dstAddr
  else if offset = 0x38 then .dstCap
  else if offset = 0x40 then .blockSize
  else if offset = 0x48 then .resultLen
  else if offset = 0x50 then .consumed
  else if offset = 0x58 then .errInfo
  else .reserved

/-- The slot an access names: admitted only if it is an aligned 64-bit access inside the window (R16, I15). -/
def State.admitted (s : State) (addr : Word) (size : Nat) : Option Reg :=
  if size = 8 ∧ s.platform.engineBase.toNat ≤ addr.toNat
      ∧ addr.toNat < s.platform.engineBase.toNat + Config.registerWindow
      ∧ (addr.toNat - s.platform.engineBase.toNat) % 8 = 0
  then some (regAt (addr.toNat - s.platform.engineBase.toNat))
  else none

/-- What a host reads from a register (R17 to R29): GO and reserved offsets read 0, reserved bits read 0. -/
def State.readReg (s : State) : Reg → Word
  | .id => Config.idValue
  | .ctrl => s.regs.ctrl.setWidth 64
  | .go => 0#64
  | .status => s.statusWord
  | .srcAddr => s.regs.srcAddr
  | .srcLen => s.regs.srcLen
  | .dstAddr => s.regs.dstAddr
  | .dstCap => s.regs.dstCap
  | .blockSize => s.regs.blockSize
  | .resultLen => s.resultLen
  | .consumed => s.consumed
  | .errInfo => s.errInfo.setWidth 64
  | .reserved => 0#64

/-- A write to one of the six operand registers (R17, R21 to R25): ignored while BUSY (R30). -/
def State.writeOperand (s : State) (regs : OperandRegs) : State := if s.busy then s else { s with regs := regs }

/-- What a host write does (R17 to R30): GO with bit 0 set starts a command while IDLE and else does nothing (R18,
R126), STATUS is write-1-to-clear (R20), ID, the results and reserved offsets ignore writes. -/
def State.writeReg (s : State) (r : Reg) (v : Word) : State :=
  match r with
  | .ctrl => s.writeOperand { s.regs with ctrl := v.setWidth 7 }
  | .go => if v.getLsbD 0 && !s.busy then s.accept else s
  | .status => s.acknowledge v
  | .srcAddr => s.writeOperand { s.regs with srcAddr := v }
  | .srcLen => s.writeOperand { s.regs with srcLen := v }
  | .dstAddr => s.writeOperand { s.regs with dstAddr := v }
  | .dstCap => s.writeOperand { s.regs with dstCap := v }
  | .blockSize => s.writeOperand { s.regs with blockSize := v }
  | .id => s
  | .resultLen => s
  | .consumed => s
  | .errInfo => s
  | .reserved => s

/-- The state after the host saw a value. -/
def State.observe (s : State) (v : Word) : State := { s with host := { s.host with seen := v :: s.host.seen } }

/-! ## System memory as the host uses it -/

/-- Is `a` in `[base, base + len)`? -/
def within (a base len : Nat) : Bool := base ≤ a && a < base + len

/-- Is a command that accesses memory running? DEDUCED: while MAXSIZE or a reserved OP is BUSY, which access no memory
(R42, R71, R99), the latched ranges are no command's source and destination, and the host may write them (R50, R137;
log 28). -/
def State.runningOnMemory (s : State) : Bool := s.busy && usesMemory s.latched.ctrl

/-- Is a byte the host reads any value: a destination byte while BUSY (R50, I3), or a stale cached copy (R53)? -/
def State.readsAnyValue (s : State) (a : Nat) : Bool :=
  (s.runningOnMemory && within a s.dstLo s.latched.dstCap.toNat)
    || s.host.stale.any (fun r => within a r.1 r.2)

/-- The host reads one byte (R50, R53; log 7, log 18). DESIGN CHOICE: the host's reads come in the order of its moves, so
a read of the destination after completion returns the final byte; R49 speaks only of reads ordered after the read of
STATUS (log 27). -/
def State.hostRead (s : State) (a : Nat) : State :=
  if s.readsAnyValue a then { s.observe ((Config.freeByte s.draws a).setWidth 64) with draws := s.draws + 1 }
  else s.observe ((s.byteAt a).setWidth 64)

/-- The host writes one byte: it is not ordered before a later GO (R48), nor written back when DMA is not coherent
(R53; log 18). -/
def State.hostWrite (s : State) (a : Nat) (b : Byte) : State :=
  { s with
    mem := Sparse.set s.mem a b
    host :=
      { s.host with
        unordered := a :: s.host.unordered
        uncleaned := if s.platform.dmaCoherent then s.host.uncleaned else a :: s.host.uncleaned } }

/-- The host orders its earlier writes (R48). It counts for every later GO, and not for the running command. -/
def State.hostOrder (s : State) : State := { s with host := { s.host with unordered := [] } }

/-- The host writes a range back from its caches (R53). It counts for every later GO, and not for the running
command. It leaves memory as it is, which already holds what the host wrote (DESIGN CHOICE: log 29). -/
def State.hostClean (s : State) (base len : Nat) : State :=
  { s with host := { s.host with uncleaned := s.host.uncleaned.filter (fun a => !(within a base len)) } }

/-- What is left of the range `r` without the `len` bytes from `base`: the part below them and the part above. -/
def rangeWithout (base len : Nat) (r : Nat × Nat) : List (Nat × Nat) :=
  [(r.1, min r.2 (base - r.1)), (max r.1 (base + len), r.1 + r.2 - max r.1 (base + len))].filter (fun p => 0 < p.2)

/-- The destination range that the running command still makes stale, when DMA is not coherent (R53). -/
def State.runningStale (s : State) : List (Nat × Nat) :=
  if s.runningOnMemory && !s.platform.dmaCoherent then [(s.dstLo, s.latched.dstCap.toNat)] else []

/-- The host discards its cached copies of a range (R53), whole destination ranges or parts of them. A discard before
the running command has completed does not count for the destination of that command. DESIGN CHOICE: a byte the host
wrote and has not written back stays in memory and stays to be written back; the spec does not say what a discard does
to it (R53, R154; log 29). -/
def State.hostDiscard (s : State) (base len : Nat) : State :=
  { s with
    host := { s.host with stale := s.runningStale ++ s.host.stale.flatMap (rangeWithout base len) } }

/-! ## Reset -/

/-- The memory reset leaves (R151, R152): unchanged, but for the destination of a command it stops, which is any
values (I5; log 7) as far as it lies in the address space, since that command's ranges may not have been checked. -/
def State.afterStop (s : State) : State :=
  if s.runningOnMemory then s.scramble s.dstLo (min s.latched.dstCap.toNat (addrSpace - s.dstLo)) else s

/-- Reset (R151, R152): every register at its reset value, the engine IDLE; system memory, the platform and the
host are not the engine's, and stay (log 22). -/
def State.resetMove (s : State) : State :=
  { State.reset with
    mem := s.afterStop.mem
    draws := s.afterStop.draws
    platform := s.platform
    host := s.host }

/-! ## The next move -/

/-- Who moves next: the engine, in the given state, or the host, with the outcome. -/
inductive Turn
  | engine (s : State)
  | host (o : Out)

/-- The state in which the host's pending moves are `moves`. -/
def State.withMoves (s : State) (moves : List HostMove) : State := { s with host := { s.host with moves := moves } }

/-- A move of the host or the platform other than waiting or letting the engine run. -/
def hostMove (m : HostMove) (s : State) : Out :=
  match m with
  | .regRead addr size =>
    match s.admitted addr size with
    | some r => .next (s.observe (s.readReg r))
    | none => .refused .registerAccessNotAdmitted
  | .regWrite addr size value =>
    match s.admitted addr size with
    | some r => .next (s.writeReg r value)
    | none => .refused .registerAccessNotAdmitted
  | .memRead addr =>
    if s.onDevice addr.toNat 1 then .refused .deviceRange else .next (s.hostRead addr.toNat)
  | .memWrite addr value =>
    if s.onDevice addr.toNat 1 then .refused .deviceRange
    else if s.runningOnMemory && (within addr.toNat s.srcLo s.latched.srcLen.toNat
        || within addr.toNat s.dstLo s.latched.dstCap.toNat) then .refused .hostWroteBusyRange
    else .next (s.hostWrite addr.toNat value)
  | .order => .next s.hostOrder
  | .cleanCache base len => .next (s.hostClean base len)
  | .discardCache base len => .next (s.hostDiscard base len)
  | .observeIrq => .next (s.observe (if s.irq then 1#64 else 0#64))
  | .reset => .next s.resetMove
  | .setBusFaults faults => .next { s with platform := { s.platform with busFaults := faults } }
  | .engine => .next s
  | .wait => .next s
  | .waitIrq => .next s

/-- Who moves next (log 6): with no move pending, the engine. Waiting for BUSY = 0, or for the interrupt, lets the
engine step until it holds (R136 step 5). -/
def turn (s : State) : Turn :=
  match s.host.moves with
  | [] => .engine s
  | .engine :: rest => .engine (s.withMoves rest)
  | .wait :: rest => if s.busy then .engine s else .host (.next (s.withMoves rest))
  | .waitIrq :: rest => if s.irq then .host (.next (s.withMoves rest)) else .engine s
  | m :: rest => .host (hostMove m (s.withMoves rest))

end Sys2Proof.Machine
end

