-- ==== Sys2Proof/Machine/Placement.lean ====
section
/-!
DEFINITION. How an instruction is placed where the engine reads its next one (log 6): a command in the latched CTRL of
an accepted GO, a token or a block unit in the source of a running command.
-/
namespace Sys2Proof.Machine

/-- The address the placed bytes go to: any that is no register window would do. -/
def placeAddr : Nat := 4096

/-- The state in which the engine moves next, no duty of the host is unmet and no access gets a bus error. -/
def State.quiet (s : State) : State :=
  { s with
    host := { s.host with moves := [], unordered := [], uncleaned := [] }
    unseen := []
    platform := { s.platform with busFaults := [] } }

/-- The state with `bs` as the whole source of the running command. -/
def State.withSource (s : State) (bs : List Byte) : State :=
  { s with
    mem := writeBytes s.mem placeAddr bs
    latched :=
      { s.latched with
        srcAddr := BitVec.ofNat 64 placeAddr
        srcLen := BitVec.ofNat 64 bs.length } }

/-- The bytes of a token with data bytes 0 after its head, as many as a literal run takes (R59). -/
def withZeroData (bs : List Byte) : List Byte :=
  match bs with
  | [] => []
  | ctrl :: _ => if ctrl.toNat < 0x20 then bs ++ List.replicate (ctrl.toNat + 1) 0#8 else bs

/-- The state in which the engine's next instruction is the one `bs` spells in language `l`. -/
def State.placed (s : State) (l : Language) (bs : List Byte) : State :=
  match l with
  | .token =>
    { s.quiet.withSource (withZeroData bs) with
      activity := .tokens
      td :=
        { s.td with owner := .decompress, srcBase := placeAddr, clen := (withZeroData bs).length, ip := 0 } }
  | .block =>
    { s.quiet.withSource bs with
      activity := .blocks
      bfc := { s.bfc with ipos := 0 } }
  | .command =>
    { s.quiet with
      activity := .dispatch
      latched := { s.latched with ctrl := (bs.headD 0#8).setWidth 7 } }

end Sys2Proof.Machine
end

