-- ==== Sys2Proof/Machine/Step.lean ====
section
/-!
DEFINITION. One step of the machine: the next move of the host or the platform, or one step of the engine.
-/
namespace Sys2Proof.Machine

/-- One step of the engine: the next instruction's meaning, or what the engine does where there is none. -/
def engineStep (s : State) : Host.Outcome State Fault Refusal :=
  match fetch s with
  | .run i => exec i s
  | .over o => o

/-- One step of the machine. -/
def step (s : State) : Host.Outcome State Fault Refusal :=
  match turn s with
  | .engine s' => engineStep s'
  | .host o => o

/-- `s` with the opcode table's word placed where the engine reads its next instruction (log 6, log 13). -/
def State.withFetchWord (s : State) (nbits w : Nat) : State :=
  s.placed (tableBytes nbits w).1 (tableBytes nbits w).2

end Sys2Proof.Machine
end

