-- ==== Sys2Proof/Safety.lean ====
section
/-!
DEFINITION. The terms claims are stated in: the conditions under which commands run, the invariants of the machine,
frames, and the reference procedures of the spec on byte sequences (TD_RUN, the block parser, the framed stream).
-/
namespace Sys2Proof

/-- The length and block-size checks of a command, steps 2 and 3 of R128 (R129, R130). -/
def Instr.lengthsOk (i : Instr) (s : Machine.State) : Bool :=
  match i with
  | .compress _ _ _ => s.latched.srcLen.toNat ≤ Config.maxRawLen
  | .encode _ _ _ => 1 ≤ s.latched.blockSize.toNat && s.latched.blockSize.toNat ≤ Config.maxBlock
  | .encodeBlock _ _ _ => s.latched.srcLen.toNat ≤ Config.maxBlock
  | .maxsize _ _ _ => s.latched.srcLen.toNat ≤ Config.maxMaxsizeLen
  | _ => true

/-- The commands that access memory (R42, R132). -/
def Instr.isMemoryCommand : Instr → Bool
  | .compress _ _ _ | .decompress _ _ _ | .encode _ _ _ | .decode _ _ _ | .encodeBlock _ _ _
  | .decodeBlock _ _ _ => true
  | _ => false

/-- The reserved command encodings (R71). -/
def Instr.isReserved : Instr → Bool
  | .reservedOp0 _ _ _ | .reservedOp8 _ _ _ | .reservedOp9 _ _ _ | .reservedOpA _ _ _
  | .reservedOpB _ _ _ | .reservedOpC _ _ _ | .reservedOpD _ _ _ | .reservedOpE _ _ _
  | .reservedOpF _ _ _ => true
  | _ => false

/-- The back-references with the bytes of their token, their offset and their length (R60, R61). -/
def Instr.reference : Instr → Option (Nat × Nat × Nat)
  | .brefShortL3 off => some (2, off, 3)
  | .brefShortL4 off => some (2, off, 4)
  | .brefShortL5 off => some (2, off, 5)
  | .brefShortL6 off => some (2, off, 6)
  | .brefShortL7 off => some (2, off, 7)
  | .brefShortL8 off => some (2, off, 8)
  | .brefLong len off => some (3, off, len)
  | _ => none

/-- The bytes a token takes with its data, the offset it refers back by if it is a back-reference, and the bytes it
produces (R59 to R61). -/
def Instr.tokenParts (i : Instr) : Option (Nat × Option Nat × Nat) :=
  match i, i.reference with
  | .lit len, _ => some (1 + len, none, len)
  | _, some (head, off, len) => some (head, some off, len)
  | _, none => none

end Sys2Proof

namespace Sys2Proof.Machine

/-! ## Running -/

/-- `k` steps of the machine, stopping at a fault or a refusal. -/
def runFor : Nat → State → Out
  | 0, s => .next s
  | k + 1, s =>
    match step s with
    | .next t => runFor k t
    | .fault f => .fault f
    | .refused r => .refused r

/-- The latched ranges pass steps 4 and 5 of R128 and name ordinary memory (R131, R46). -/
def State.launchable (s : State) : Bool := s.rangesFit && !s.rangesOverlap && !s.launchOnDevice

/-- No access of a command to its ranges gets a bus error (I9). -/
def State.busQuiet (s : State) : Bool :=
  !s.busFaultIn .read s.srcLo s.latched.srcLen.toNat && !s.busFaultIn .write s.dstLo s.latched.dstCap.toNat
    && !s.busFaultIn .readBack s.dstLo s.latched.dstCap.toNat

/-- A command has been accepted, the engine moves next, and nothing stands in the command's way: its ranges pass the
checks and get no bus error. -/
def State.launched (s : State) : Bool :=
  s.activity == .dispatch && s.host.moves == [] && s.launchable && s.busQuiet

/-- The source bytes of the running command, as the engine reads them. -/
def State.sourceBytes (s : State) : List Byte := s.source s.srcLo s.latched.srcLen.toNat

/-- The byte at `x` is a device register: the engine's own window, or another device's (R16, R46). -/
def State.deviceByte (s : State) (x : Nat) : Prop :=
  (s.platform.engineBase.toNat ≤ x ∧ x < s.platform.engineBase.toNat + 256)
    ∨ ∃ d ∈ s.platform.devices, d.1 ≤ x ∧ x < d.1 + d.2

/-- The byte at `x` lies in the source range or in the destination range of the latched command (R131). -/
def State.rangeByte (s : State) (x : Nat) : Prop := (s.srcLo ≤ x ∧ x < s.srcHi) ∨ (s.dstLo ≤ x ∧ x < s.dstHi)

/-! ## Frames -/

/-- Every byte outside the `n` bytes from `a` reads as before. -/
def State.sameOutside (s t : State) (a n : Nat) : Prop :=
  ∀ x : Nat, (x < a ∨ a + n ≤ x) → t.byteAt x = s.byteAt x

/-- The registers a host writes, the latched operands, the platform and the host's side are unchanged. -/
def State.sameAgents (s t : State) : Prop :=
  t.regs = s.regs ∧ t.latched = s.latched ∧ t.platform = s.platform ∧ t.host = s.host
    ∧ t.launchDraw = s.launchDraw ∧ t.unseen = s.unseen

/-- RESULT_LEN, CONSUMED, ERR_INFO and every flag of STATUS but BUSY are unchanged. -/
def State.sameResults (s t : State) : Prop :=
  t.resultLen = s.resultLen ∧ t.consumed = s.consumed ∧ t.errInfo = s.errInfo ∧ t.done = s.done
    ∧ t.err = s.err ∧ t.errCode = s.errCode ∧ t.endKind = s.endKind

/-- The match finder, the count `o` and SCRATCH are unchanged. -/
def State.sameEncoder (s t : State) : Prop := t.mf = s.mf ∧ t.teCount = s.teCount ∧ t.scratch = s.scratch

/-- Nothing but the result registers, the flags and the control state may differ. -/
def State.sameMachine (s t : State) : Prop :=
  (∀ x : Nat, t.byteAt x = s.byteAt x) ∧ s.sameAgents t ∧ s.sameEncoder t ∧ t.td = s.td ∧ t.bfc = s.bfc
    ∧ t.draws = s.draws

/-- From address `a` on memory reads as `bs`. -/
def State.holds (t : State) (a : Nat) (bs : List Byte) : Prop :=
  ∀ k : Nat, k < bs.length → t.byteAt (a + k) = bs.getD k 0#8

/-- A completion without error with these results (R133), ERR and ERR_INFO as they were. -/
def State.completedAs (s t : State) (result consumed : Nat) (endKind : BitVec 2) : Prop :=
  t.resultLen = BitVec.ofNat 64 result ∧ t.consumed = BitVec.ofNat 64 consumed ∧ t.endKind = endKind
    ∧ t.errCode = 0#4 ∧ t.done = true ∧ t.err = s.err ∧ t.errInfo = s.errInfo ∧ t.activity = .idle

/-- A completion with an error (R143), DONE as it was. -/
def State.failedAs (s t : State) (e : ErrKind) (result consumed : Nat) (info : Byte) : Prop :=
  t.resultLen = BitVec.ofNat 64 result ∧ t.consumed = BitVec.ofNat 64 consumed ∧ t.errInfo = info
    ∧ t.errCode = e.code ∧ t.endKind = 0#2 ∧ t.err = true ∧ t.done = s.done ∧ t.activity = .idle

/-- A type-1 block whose payload failed ended the command (R118, R121, R122, R142): `InvalidData`, recorded with the
complete blocks by DECODE and with 0 by DECODE_BLOCK; only the `n` bytes from `a` may differ. -/
def State.payloadFailed (s t : State) (a n : Nat) : Prop :=
  s.sameOutside t a n ∧ s.sameAgents t ∧ s.sameEncoder t ∧ t.bfc = s.bfc
    ∧ s.failedAs t .invalidData
        (match s.bfc.owner with | .decode => s.bfc.opos | .decodeBlock => 0)
        (match s.bfc.owner with | .decode => s.bfc.ipos | .decodeBlock => 0) 0#8

/-- A bus error ended the command (R56, R142, I4): `Other`, nothing recorded, and only the destination range may
differ. -/
def State.busEnded (s t : State) : Prop :=
  s.failedAs t .other 0 0 0#8 ∧ s.sameOutside t s.dstLo s.latched.dstCap.toNat ∧ s.sameAgents t

/-! ## Invariants -/

/-- The flags' invariant (R20, R30, R141, I22, I23): DONE and ERR never both 1, all flags and results 0 while BUSY, no
error code above 7, no END_KIND above 2, an error has a code and a success none, and ERR_INFO is only that of an
`UnknownBlockType`. -/
def State.flagsHold (s : State) : Bool :=
  (!s.busy || (!s.done && !s.err && s.errCode == 0#4 && s.endKind == 0#2 && s.resultLen == 0#64
      && s.consumed == 0#64 && s.errInfo == 0#8))
    && !(s.done && s.err)
    && s.errCode.toNat ≤ 7 && s.endKind.toNat ≤ 2
    && (!s.err || s.errCode != 0#4) && (!s.done || s.errCode == 0#4)
    && (s.errInfo == 0#8 || s.errCode == ErrKind.unknownBlockType.code)

/-- The token decoder's windows and cursors lie inside the running command's ranges (R42, R106, R118). -/
def State.tokensInRange (s : State) : Bool :=
  s.srcLo ≤ s.td.srcBase && s.td.srcBase + s.td.clen ≤ s.srcHi && s.dstLo ≤ s.td.outBase
    && s.td.outBase + s.td.cap ≤ s.dstHi && s.td.ip ≤ s.td.clen && s.td.op ≤ s.td.cap
    && (s.td.owner == .decompress
      || (s.bfc.ipos + 7 + s.td.clen ≤ s.latched.srcLen.toNat && s.bfc.opos + s.td.cap ≤ s.latched.dstCap.toNat))

/-- The framing controller's cursors lie inside the running command's ranges (R36, R131). -/
def State.blocksInRange (s : State) : Bool :=
  s.bfc.ipos ≤ s.latched.srcLen.toNat && s.bfc.opos ≤ s.latched.dstCap.toNat

/-- While a decoding command runs, its ranges passed the checks of R131 and every cursor lies inside them. -/
def State.rangesHold (s : State) : Bool :=
  match s.activity with
  | .idle => true
  | .dispatch => true
  | .tokens => s.rangesFit && !s.rangesOverlap && s.tokensInRange
  | .blocks => s.rangesFit && !s.rangesOverlap && s.blocksInRange

/-- Memory is in canonical form and lists no byte outside the address space (R41). -/
def State.memoryHolds (s : State) : Bool := Memory.wf s.mem && Memory.inSpace s.mem

/-! ## TD_RUN on byte sequences (R100 to R105) -/

/-- COPY at the end of an output: each byte repeats the one `off + 1` before it (R104). -/
def copyOut (out : List Byte) (off : Nat) : Nat → List Byte
  | 0 => out
  | n + 1 => copyOut (out ++ [out.getD (out.length - off - 1) 0#8]) off n

/-- How TD_RUN ended: its error if any, the offset of the token it stopped at, the bytes of the tokens before. -/
structure TdEnd where
  err : Option ErrKind
  tok : Nat
  out : List Byte
  deriving DecidableEq, Repr

/-- TD_RUN with capacity `cap` on the token bytes `t`, the next at offset `ip`, after the output `out`. The second
argument bounds the number of tokens. -/
def tdRun (cap : Nat) : Nat → Nat → List Byte → List Byte → TdEnd
  | 0, ip, _, out => ⟨none, ip, out⟩
  | k + 1, ip, t, out =>
    match decodeToken t with
    | .error .endOfInput => ⟨none, ip, out⟩
    | .error _ => ⟨some .invalidData, ip, out⟩
    | .ok (i, rest) =>
      match i, i.reference with
      | .lit len, _ =>
        if rest.length < len then ⟨some .invalidData, ip, out⟩
        else if cap < out.length + len then ⟨some .outputTooSmall, ip, out⟩
        else tdRun cap k (ip + (1 + len)) (rest.drop len) (out ++ rest.take len)
      | _, some (head, off, len) =>
        if out.length ≤ off then ⟨some .invalidData, ip, out⟩
        else if cap < out.length + len then ⟨some .outputTooSmall, ip, out⟩
        else tdRun cap k (ip + head) rest (copyOut out off len)
      | _, none => ⟨some .invalidData, ip, out⟩

/-- TD_RUN of a whole token stream (R100). -/
def decodeTokens (cap : Nat) (t : List Byte) : TdEnd := tdRun cap t.length 0 t []

/-! ## The block parser on byte sequences (R116 to R121) -/

/-- How DECODE ended: its error and type byte if any, the input offset it reached, the output, END_KIND. -/
structure FrameEnd where
  err     : Option (ErrKind × Byte)
  ipos    : Nat
  out     : List Byte
  endKind : BitVec 2
  deriving DecidableEq, Repr

/-- The loop of DECODE (R121) with capacity `cap` on the block bytes `f`, the next at offset `ipos`, after the output
`out`. The second argument bounds the number of units. -/
def unframe (cap : Nat) : Nat → Nat → List Byte → List Byte → FrameEnd
  | 0, ipos, _, out => ⟨none, ipos, out, 0#2⟩
  | k + 1, ipos, f, out =>
    match decodeUnit f with
    | .error .endOfInput => ⟨none, ipos, out, 0#2⟩
    | .error (.unknownType ty) => ⟨some (.unknownBlockType, ty), ipos, out, 0#2⟩
    | .error _ => ⟨some (.invalidHeader, 0#8), ipos, out, 0#2⟩
    | .ok (.blkRaw u, rest) =>
      if rest.length < u then ⟨some (.invalidData, 0#8), ipos, out, 0#2⟩
      else if cap < out.length + u then ⟨some (.outputTooSmall, 0#8), ipos, out, 0#2⟩
      else unframe cap k (ipos + (5 + u)) (rest.drop u) (out ++ rest.take u)
    | .ok (.blkCmp c u, rest) =>
      if rest.length < c then ⟨some (.invalidData, 0#8), ipos, out, 0#2⟩
      else if cap < out.length + u then ⟨some (.outputTooSmall, 0#8), ipos, out, 0#2⟩
      else if (decodeTokens u (rest.take c)).err ≠ none ∨ (decodeTokens u (rest.take c)).out.length ≠ u
      then ⟨some (.invalidData, 0#8), ipos, out, 0#2⟩
      else unframe cap k (ipos + (7 + c)) (rest.drop c) (out ++ (decodeTokens u (rest.take c)).out)
    | .ok (_, _) => ⟨none, ipos + 1, out, 1#2⟩

/-- DECODE of a whole block stream (R121). -/
def decodeFrames (cap : Nat) (f : List Byte) : FrameEnd := unframe cap (f.length + 1) 0 f []

/-- DECODE_BLOCK of a whole source (R122): the first unit alone, and END_KIND 2 where there is none. -/
def decodeFirst (cap : Nat) (f : List Byte) : FrameEnd :=
  match f with
  | [] => ⟨none, 0, [], 2#2⟩
  | b :: f => unframe cap 1 0 (b :: f) []

/-! ## The match finder's tables and decisions -/

/-- The searchable positions among `p+1 .. p+len-2`, which a match of `len` bytes at `p` inserts (R75, R79, R85). -/
def interior (d : List Byte) (p len : Nat) : List Nat :=
  (List.range' (p + 1) (len - 2)).filter (fun q => q + 3 ≤ d.length)

/-- One more than the greatest position of `ins` below `b` whose three bytes have hash `h`; 0 if there is none. -/
def newestBelow (hf : Hash3) (d : List Byte) (ins : List Nat) (b h : Nat) : Nat :=
  ((ins.filter (fun q => q < b && hashAt hf d q == h)).map (fun q => q + 1)).foldl max 0

/-- Best mode's chains before the search at `p`, when exactly the positions `ins` are inserted (R81, R82, R86): HEAD
names the newest position of each hash, and each position within the window holds its distance to the one before it
with the same hash, 0 if that is more than 8192 or there is none. -/
def chainsIntact (hf : Hash3) (d : List Byte) (ins : List Nat) (m : MatchFinder) (p : Nat) : Prop :=
  (∀ q ∈ ins, q < p ∧ q + 3 ≤ d.length)
    ∧ (∀ h : Nat, (Sparse.get m.head h).toNat = newestBelow hf d ins p h)
    ∧ ∀ q ∈ ins, p - q ≤ 8192 →
        (Sparse.get m.prev (q % 8192)).toNat
          = (if newestBelow hf d ins q (hashAt hf d q) ≠ 0 ∧ q + 1 - newestBelow hf d ins q (hashAt hf d q) ≤ 8192
              then q + 1 - newestBelow hf d ins q (hashAt hf d q) else 0)

/-- `c` is a candidate of the search at `p` among the inserted positions `ins`: within the window, with the same three
bytes (R82, R86). -/
def bestCandidate (d : List Byte) (ins : List Nat) (p c : Nat) : Prop :=
  c ∈ ins ∧ p - c ≤ 8192 ∧ (d.drop c).take 3 = (d.drop p).take 3

/-- The verdict of R86 at `p`: a literal byte if no inserted position is a candidate, else the match with a candidate of
the greatest match length, the closest of those (R83; C1). -/
def bestVerdict (d : List Byte) (ins : List Nat) (p : Nat) : Decision → Prop
  | .litByte => ∀ c : Nat, ¬bestCandidate d ins p c
  | .matched off len =>
    ∃ c : Nat, bestCandidate d ins p c ∧ off = p - c - 1 ∧ len = mlen d c p
      ∧ ∀ c' : Nat, bestCandidate d ins p c' → mlen d c' p < len ∨ (mlen d c' p = len ∧ c' ≤ c)

/-- `ScanEmits hf mode d m out`: the scan of R90 from the finder state `m` on emits `out`, with no capacity to stop it.
A decided match is taken, behind the literal bytes that are pending, and the scan goes on behind it; else the byte
joins the pending literal bytes; at the end of the input they are emitted. -/
inductive ScanEmits (hf : Hash3) (mode : Mode) (d : List Byte) : MatchFinder → List Byte → Prop
  | finish (m : MatchFinder) : d.length ≤ m.p → ScanEmits hf mode d m (literalBytes (slice d m.ls d.length))
  | tail (m : MatchFinder) (out : List Byte) : m.p < d.length → d.length < m.p + 3 →
      ScanEmits hf mode d { m with p := m.p + 1 } out → ScanEmits hf mode d m out
  | literal (m m' : MatchFinder) (out : List Byte) : m.p + 3 ≤ d.length →
      decideAt hf mode d m = (m', .litByte) → ScanEmits hf mode d { m' with p := m.p + 1 } out →
      ScanEmits hf mode d m out
  | taken (m m' : MatchFinder) (off len : Nat) (out : List Byte) : m.p + 3 ≤ d.length →
      decideAt hf mode d m = (m', .matched off len) → ScanEmits hf mode d (afterMatch hf mode d m' len) out →
      ScanEmits hf mode d m (literalBytes (slice d m.ls m.p) ++ encode (refToken off len) ++ out)

/-! ## The encoders' output on byte sequences -/

/-- The match finder with every table empty. -/
def emptyFinder : MatchFinder := ⟨[], [], [], 0, 0⟩

/-- The block ENCODE_CHUNK makes of a chunk (R109). -/
def blockOf (hf : Hash3) (mode : Mode) (x : List Byte) : List Byte :=
  chunkBlock x (mfCall hf mode x (scratchBudget x.length) emptyFinder)

/-- The blocks of the chunks of at most `bs` bytes of an input (R111, R112). The first argument bounds their number. -/
def framedBlocks (hf : Hash3) (mode : Mode) (bs : Nat) : Nat → List Byte → List Byte
  | 0, _ => []
  | _ + 1, [] => []
  | k + 1, b :: d => blockOf hf mode ((b :: d).take bs) ++ framedBlocks hf mode bs k ((b :: d).drop bs)

/-- The output of ENCODE without its terminator (R112). -/
def framed (hf : Hash3) (mode : Mode) (bs : Nat) (d : List Byte) : List Byte :=
  framedBlocks hf mode bs d.length d

/-- The terminator of ENCODE and ENCODE_BLOCK (R112, R114). -/
def terminator (withTerm : Bool) : List Byte := if withTerm then encode .term else []

end Sys2Proof.Machine
end

