-- ==== Sys2Proof/Certificates/Slice0/Obligations.lean ====
section
/-!
DEFINITION. The statements for the provers. Each is about the machine, over every state and operand its hypotheses
admit; the witnesses that meet the hypotheses are in Sys2Proof/Tests/Slice0.lean.
-/
open Sys2Proof Sys2Proof.Machine

/-! ## Encodings (spec/30_encoding.md) -/

/-- Words written out from the tables of R59 to R61, R66 to R68 and R70 decode to the instructions they stand for.
The byte layout of the back-references is the spec's own presumption G1 and G2 (log 17). -/
def Obligations.SpecWordsDecode : Prop :=
  decodeToken [0x01#8, 0x61#8, 0x62#8] = .ok (.lit 2, [0x61#8, 0x62#8])
    ∧ decodeToken [0x60#8, 0x00#8] = .ok (.brefShortL5 0, [])
    ∧ decodeToken [0x3F#8, 0xFF#8] = .ok (.brefShortL3 8191, [])
    ∧ decodeToken [0xE0#8, 0xFF#8, 0x00#8] = .ok (.brefLong 264 0, [])
    ∧ decodeToken [0xE0#8, 0x00#8, 0x02#8] = .ok (.brefLong 9 2, [])
    ∧ decodeUnit [0x5A#8, 0x56#8, 0x00#8, 0x00#8, 0x03#8, 0x78#8] = .ok (.blkRaw 3, [0x78#8])
    ∧ decodeUnit [0x5A#8, 0x56#8, 0x01#8, 0x00#8, 0x05#8, 0x00#8, 0x64#8] = .ok (.blkCmp 5 100, [])
    ∧ decodeUnit [0x00#8, 0x5A#8] = .ok (.term, [0x5A#8])
    ∧ decodeCtrl 0x01#7 = .compress .normal false false
    ∧ decodeCtrl 0x33#7 = .encode .best true false
    ∧ decodeCtrl 0x47#7 = .maxsize .normal false true
    ∧ decodeCtrl 0x08#7 = .reservedOp8 .normal false false

/-- Decoding the bytes of a well-formed instruction gives it back, whatever bytes follow. The byte layout of the
back-references is the spec's own presumption G1 and G2 (log 17). -/
def Obligations.DecodeEncodeAgree : Prop :=
  ∀ (i : Instr) (rest : List Byte), i.wellFormed = true →
    decodeIn i.language (encode i ++ rest) = .ok (i, rest)

/-- What the token and block decoders accept is the encoding of the instruction they answer: no bit is ignored, and
no instruction has a second encoding. Every pair of an offset up to 8191 and a length of 3 to 264 has exactly one
token, of 2 bytes up to length 8 and of 3 bytes above (R63). The byte layout of the back-references is the spec's own
presumption G1 and G2 (log 17). -/
def Obligations.DecodedBytesAreEncoded : Prop :=
  (∀ (l : Language) (bs rest : List Byte) (i : Instr), l ≠ .command → decodeIn l bs = .ok (i, rest) →
    i.wellFormed = true ∧ i.language = l ∧ encode i ++ rest = bs)
  ∧ ∀ (off len : Nat), off ≤ 8191 → 3 ≤ len → len ≤ 264 →
    (refToken off len).wellFormed = true
      ∧ (refToken off len).reference = some (if len ≤ 8 then 2 else 3, off, len)
      ∧ (encode (refToken off len)).length = (if len ≤ 8 then 2 else 3)
      ∧ ∀ (i : Instr) (head : Nat), i.wellFormed = true → i.reference = some (head, off, len) → i = refToken off len

/-- The token kinds and token lengths of R58, for all 256 control bytes: below 0x20 a literal run of `1 + (ctrl + 1)`
bytes with its data, below 0xE0 a back-reference of 2 bytes, from 0xE0 on one of 3 bytes; and the bytes each produces
(R62). That the 3-byte form has its length in the second byte is the spec's own presumption G2 (log 17). -/
def Obligations.TokenKindsByControlByte : Prop :=
  ∀ (ctrl b1 b2 : Byte) (rest : List Byte),
    (ctrl.toNat < 0x20 →
        ∃ i : Instr, decodeToken (ctrl :: rest) = .ok (i, rest)
          ∧ i.tokenParts = some (1 + (ctrl.toNat + 1), none, ctrl.toNat + 1))
      ∧ (0x20 ≤ ctrl.toNat → ctrl.toNat < 0xE0 →
          ∃ (i : Instr) (off : Nat), decodeToken (ctrl :: b1 :: rest) = .ok (i, rest)
            ∧ i.tokenParts = some (2, some off, ctrl.toNat / 32 + 2))
      ∧ (0xE0 ≤ ctrl.toNat →
          ∃ (i : Instr) (off : Nat), decodeToken (ctrl :: b1 :: b2 :: rest) = .ok (i, rest)
            ∧ i.tokenParts = some (3, some off, b1.toNat + 9))

/-- What the bytes at a block start spell (R69): nothing left, TERM, BLK_RAW, BLK_CMP, an unknown type, or a bad
header, which is too few bytes for the header (R116) or a magic other than "ZV". -/
def Obligations.BlockStartKinds : Prop :=
  decodeUnit [] = .error .endOfInput
    ∧ (∀ rest : List Byte, decodeUnit (0x00#8 :: rest) = .ok (.term, rest))
    ∧ (∀ (hi lo : Byte) (rest : List Byte),
        decodeUnit (0x5A#8 :: 0x56#8 :: 0x00#8 :: hi :: lo :: rest)
          = .ok (.blkRaw (hi.toNat * 256 + lo.toNat), rest))
    ∧ (∀ (ch cl uh ul : Byte) (rest : List Byte),
        decodeUnit (0x5A#8 :: 0x56#8 :: 0x01#8 :: ch :: cl :: uh :: ul :: rest)
          = .ok (.blkCmp (ch.toNat * 256 + cl.toNat) (uh.toNat * 256 + ul.toNat), rest))
    ∧ (∀ (ty : Byte) (rest : List Byte), 2 ≤ ty.toNat →
        decodeUnit (0x5A#8 :: 0x56#8 :: ty :: rest) = .error (.unknownType ty))
    ∧ (∀ fields : List Byte, fields.length < 2 →
        decodeUnit (0x5A#8 :: 0x56#8 :: 0x00#8 :: fields) = .error .badHeader)
    ∧ (∀ fields : List Byte, fields.length < 4 →
        decodeUnit (0x5A#8 :: 0x56#8 :: 0x01#8 :: fields) = .error .badHeader)
    ∧ (∀ bs : List Byte, bs ≠ [] → bs.length < 3 → bs.head? ≠ some 0x00#8 → decodeUnit bs = .error .badHeader)
    ∧ (∀ (b0 b1 : Byte) (rest : List Byte), b0 ≠ 0x00#8 → (b0, b1) ≠ (0x5A#8, 0x56#8) →
        decodeUnit (b0 :: b1 :: rest) = .error .badHeader)

/-! ## Steps (spec/44_commands.md R132, spec/42_token_decoder.md R100, spec/43_block_framing.md R116) -/

/-- A step runs the decoded instruction. When the engine moves and a command was accepted, the step is the meaning of
the command CTRL was latched with; inside a token stream, of the token the bytes that are left decode to; at a block
start, of the unit they decode to, where the bytes of the instruction may be read. That acceptance, each token and each
unit are steps of their own is the model's choice (log 4), and who moves is plain data (log 6). -/
def Obligations.StepRunsInstruction : Prop :=
  (∀ s u : State, turn s = .engine u → u.activity = .dispatch → step s = exec (decodeCtrl u.latched.ctrl) u)
  ∧ (∀ (s u : State) (i : Instr) (rest : List Byte), turn s = .engine u → u.activity = .tokens →
    u.td.ip ≤ u.td.clen →
    decodeToken (u.source (u.td.srcBase + u.td.ip) (u.td.clen - u.td.ip)) = .ok (i, rest) →
    u.checkSource u.readsNow (u.td.srcBase + u.td.ip) (encode i).length = .granted → step s = exec i u)
  ∧ ∀ (s u : State) (i : Instr) (rest : List Byte), turn s = .engine u → u.activity = .blocks →
    u.bfc.ipos ≤ u.latched.srcLen.toNat →
    decodeUnit (u.source (u.srcLo + u.bfc.ipos) (u.latched.srcLen.toNat - u.bfc.ipos)) = .ok (i, rest) →
    u.checkSource false (u.srcLo + u.bfc.ipos) u.unitBytes = .granted → step s = exec i u

/-- Bytes that spell no instruction end the command: a token cut short with `InvalidData`, in DECOMPRESS and in the
payload of a type-1 block alike, a bad header with `InvalidHeader`, an unknown type with `UnknownBlockType` and the type
in ERR_INFO; DECODE records the complete blocks, DECODE_BLOCK 0, and DECOMPRESS the complete tokens (R105, R108, R116,
R118, R121, R122). That the end is a step of its own is the model's choice (log 4). -/
def Obligations.StepEndsMalformed : Prop :=
  (∀ s u : State, turn s = .engine u → u.activity = .tokens → u.td.owner = .decompress → u.td.ip ≤ u.td.clen →
    decodeToken (u.source (u.td.srcBase + u.td.ip) (u.td.clen - u.td.ip)) = .error .truncatedToken →
    u.checkSource u.readsNow (u.td.srcBase + u.td.ip) 1 = .granted →
    ∃ t : State, step s = .next t ∧ u.failedAs t .invalidData u.td.op u.td.ip 0#8 ∧ u.startToken.sameMachine t)
  ∧ (∀ s u : State, turn s = .engine u → u.activity = .tokens → u.td.owner = .block → u.td.ip ≤ u.td.clen →
    decodeToken (u.source (u.td.srcBase + u.td.ip) (u.td.clen - u.td.ip)) = .error .truncatedToken →
    u.checkSource u.readsNow (u.td.srcBase + u.td.ip) 1 = .granted →
    ∃ t : State, step s = .next t ∧ u.payloadFailed t u.td.outBase u.td.cap)
  ∧ (∀ (s u : State) (e : DecodeError), turn s = .engine u → u.activity = .blocks →
    u.bfc.ipos ≤ u.latched.srcLen.toNat →
    decodeUnit (u.source (u.srcLo + u.bfc.ipos) (u.latched.srcLen.toNat - u.bfc.ipos)) = .error e →
    e ≠ .endOfInput → u.checkSource false (u.srcLo + u.bfc.ipos) u.unitBytes = .granted →
    ∃ t : State, step s = .next t ∧ u.sameMachine t
      ∧ u.failedAs t (match e with | .unknownType _ => .unknownBlockType | _ => .invalidHeader)
          (match u.bfc.owner with | .decode => u.bfc.opos | .decodeBlock => 0)
          (match u.bfc.owner with | .decode => u.bfc.ipos | .decodeBlock => 0)
          (match e with | .unknownType ty => ty | _ => 0#8))

/-- The ends of the two streams. At the end of input at a block start DECODE completes with END_KIND 0 and DECODE_BLOCK
with nothing decoded and END_KIND 2 (R120 to R122). At the end of a token stream DECOMPRESS completes with the bytes
produced (R108); a block's payload is done if it produced its U bytes, DECODE then going on behind the block and
DECODE_BLOCK completing (R118, R121, R122); else the command ends with `InvalidData`, and only the block's own output
may differ. That each end is a step of its own, after which DECODE stands at a block start, is the model's choice
(log 4). -/
def Obligations.StepEndsStreams : Prop :=
  (∀ s u : State, turn s = .engine u → u.activity = .blocks → u.latched.srcLen.toNat ≤ u.bfc.ipos →
    ∃ t : State, step s = .next t ∧ u.sameMachine t
      ∧ (u.bfc.owner = .decode → u.completedAs t u.bfc.opos u.bfc.ipos 0#2)
      ∧ (u.bfc.owner = .decodeBlock → u.completedAs t 0 0 2#2))
  ∧ ∀ s u : State, turn s = .engine u → u.activity = .tokens → u.td.clen ≤ u.td.ip →
    (u.td.owner = .decompress →
      ∃ t : State, step s = .next t ∧ u.completedAs t u.td.op u.td.clen 0#2 ∧ u.sameMachine t)
    ∧ (u.td.owner = .block → u.td.op = u.td.cap → u.bfc.owner = .decode →
      step s = .next
        { u with
          bfc := ⟨.decode, u.bfc.ipos + (7 + u.td.clen), u.bfc.opos + u.td.cap⟩
          activity := .blocks })
    ∧ (u.td.owner = .block → u.td.op = u.td.cap → u.bfc.owner = .decodeBlock →
      ∃ t : State, step s = .next t ∧ u.completedAs t u.td.cap (7 + u.td.clen) 0#2 ∧ u.sameMachine t)
    ∧ (u.td.owner = .block → u.td.op ≠ u.td.cap →
      ∃ t : State, step s = .next t ∧ u.payloadFailed t u.td.outBase u.td.cap)

/-! ## Commands (spec/44_commands.md, spec/41_token_encoder.md) -/

/-- MAXSIZE: the bound computed without wrap-around, or `InvalidParameter` exactly when it needs more than 64 bits,
which is when `n > 17887751829051686414` (R99). -/
def Obligations.MaxsizeResult : Prop :=
  ∀ (m : Mode) (w q : Bool) (s : State),
    (((s.latched.srcLen.toNat * 33) >>> 5) + 1 ≤ 2 ^ 64 - 1 ↔ s.latched.srcLen.toNat ≤ 17887751829051686414)
    ∧ (((s.latched.srcLen.toNat * 33) >>> 5) + 1 ≤ 2 ^ 64 - 1 →
      ∃ t : State, exec (.maxsize m w q) s = .next t ∧ s.sameMachine t
        ∧ s.completedAs t (((s.latched.srcLen.toNat * 33) >>> 5) + 1) 0 0#2
        ∧ t.resultLen.toNat = ((s.latched.srcLen.toNat * 33) >>> 5) + 1)
    ∧ (2 ^ 64 - 1 < ((s.latched.srcLen.toNat * 33) >>> 5) + 1 →
      ∃ t : State, exec (.maxsize m w q) s = .next t ∧ s.sameMachine t ∧ s.failedAs t .invalidParameter 0 0 0#8)

/-- OP 0x0 and 0x8 to 0xF end the command at once with `IllegalCommand`, whatever the other fields of CTRL, and no
other instruction leaves that code where it was not (R71). -/
def Obligations.ReservedCommandsEnd : Prop :=
  (∀ (i : Instr) (s : State), i.isReserved = true →
    ∃ t : State, exec i s = .next t ∧ s.failedAs t .illegalCommand 0 0 0#8 ∧ s.sameMachine t)
  ∧ (∀ c : BitVec 7, (decodeCtrl c).isReserved = true ↔ (c.toNat % 16 = 0 ∨ 8 ≤ c.toNat % 16))
  ∧ ∀ (i : Instr) (s t : State), i.isReserved = false → s.errCode ≠ 7#4 → exec i s = .next t → t.errCode ≠ 7#4

/-- The parameter checks of R128: a reserved OP ends with `IllegalCommand`; ENCODE with a block size outside 1 to 65535,
COMPRESS, ENCODE_BLOCK and MAXSIZE with too long a source, and every command that accesses memory with a range past
the top of the address space or with ranges that share a byte, end with `InvalidParameter`; nothing is recorded and
memory is untouched. -/
def Obligations.ParameterChecks : Prop :=
  ∀ (i : Instr) (s : State), i.language = .command →
    (i.isReserved = true →
      ∃ t : State, exec i s = .next t ∧ s.failedAs t .illegalCommand 0 0 0#8 ∧ s.sameMachine t)
    ∧ (i.isReserved = false →
      (i.lengthsOk s = false
        ∨ i.isMemoryCommand = true ∧ (2 ^ 64 < s.latched.srcAddr.toNat + s.latched.srcLen.toNat
          ∨ 2 ^ 64 < s.latched.dstAddr.toNat + s.latched.dstCap.toNat
          ∨ ∃ x : Nat, s.latched.srcAddr.toNat ≤ x ∧ x < s.latched.srcAddr.toNat + s.latched.srcLen.toNat
              ∧ s.latched.dstAddr.toNat ≤ x ∧ x < s.latched.dstAddr.toNat + s.latched.dstCap.toNat)) →
      ∃ t : State, exec i s = .next t ∧ s.failedAs t .invalidParameter 0 0 0#8 ∧ s.sameMachine t)

/-- COMPRESS: the token stream of the source goes to the destination if it fits, else `OutputTooSmall` and any values
in the destination range alone; CONSUMED is the source length (R98). -/
def Obligations.CompressResult : Prop :=
  ∀ (m : Mode) (w q : Bool) (s : State) (r : Coded), s.latched.srcLen.toNat ≤ 4294967295 →
    s.launchable = true → s.busQuiet = true →
    r = mfCall (hash3Of s.platform.hash) m s.sourceBytes s.latched.dstCap.toNat s.mf →
    ∃ t : State, exec (.compress m w q) s = .next t ∧ s.sameAgents t ∧ t.scratch = s.scratch ∧ t.td = s.td
      ∧ t.bfc = s.bfc
      ∧ (r.fits = true →
        s.completedAs t r.out.length s.latched.srcLen.toNat 0#2 ∧ t.holds s.dstLo r.out
          ∧ s.sameOutside t s.dstLo r.out.length)
      ∧ (r.fits = false →
        s.failedAs t .outputTooSmall 0 0 0#8 ∧ s.sameOutside t s.dstLo s.latched.dstCap.toNat)

/-- ENCODE: the blocks of the chunks of BLOCK_SIZE bytes and, if TERM, the terminator. If they do not fit,
`OutputTooSmall` at the first block (or the terminator) that does not, the blocks before it written and located by
RESULT_LEN and CONSUMED, and nothing else written (R111, R112). -/
def Obligations.EncodeResult : Prop :=
  ∀ (m : Mode) (w q : Bool) (s : State) (hf : Hash3) (bs : Nat), bs = s.latched.blockSize.toNat →
    1 ≤ bs → bs ≤ 65535 → s.launchable = true → s.busQuiet = true → hf = hash3Of s.platform.hash →
    ∃ t : State, exec (.encode m w q) s = .next t ∧ s.sameAgents t ∧ t.td = s.td
      ∧ ((framed hf m bs s.sourceBytes ++ terminator w).length ≤ s.latched.dstCap.toNat →
        s.completedAs t (framed hf m bs s.sourceBytes ++ terminator w).length s.latched.srcLen.toNat 0#2
          ∧ t.holds s.dstLo (framed hf m bs s.sourceBytes ++ terminator w)
          ∧ s.sameOutside t s.dstLo (framed hf m bs s.sourceBytes ++ terminator w).length)
      ∧ (s.latched.dstCap.toNat < (framed hf m bs s.sourceBytes ++ terminator w).length →
        ∃ (ipos : Nat) (out : List Byte),
          (ipos % bs = 0 ∧ ipos < s.latched.srcLen.toNat ∨ ipos = s.latched.srcLen.toNat)
          ∧ out = framed hf m bs (s.sourceBytes.take ipos) ∧ out.length ≤ s.latched.dstCap.toNat
          ∧ s.latched.dstCap.toNat < out.length + (if ipos < s.latched.srcLen.toNat
              then (blockOf hf m ((s.sourceBytes.drop ipos).take bs)).length else 1)
          ∧ s.failedAs t .outputTooSmall out.length ipos 0#8 ∧ t.holds s.dstLo out
          ∧ s.sameOutside t s.dstLo out.length)

/-- ENCODE_BLOCK: the whole source as one block, nothing for an empty source, and the terminator if TERM; a block that
does not fit leaves memory untouched, a terminator that does not fit comes after the block (R114). -/
def Obligations.EncodeBlockResult : Prop :=
  ∀ (m : Mode) (w q : Bool) (s : State) (blk : List Byte), s.latched.srcLen.toNat ≤ 65535 →
    s.launchable = true → s.busQuiet = true →
    blk = (if s.latched.srcLen.toNat = 0 then [] else blockOf (hash3Of s.platform.hash) m s.sourceBytes) →
    ∃ t : State, exec (.encodeBlock m w q) s = .next t ∧ s.sameAgents t ∧ t.td = s.td
      ∧ ((blk ++ terminator w).length ≤ s.latched.dstCap.toNat →
        s.completedAs t (blk ++ terminator w).length s.latched.srcLen.toNat 0#2
          ∧ t.holds s.dstLo (blk ++ terminator w) ∧ s.sameOutside t s.dstLo (blk ++ terminator w).length)
      ∧ (s.latched.dstCap.toNat < blk.length →
        s.failedAs t .outputTooSmall 0 0 0#8 ∧ s.sameOutside t 0 0)
      ∧ (blk.length ≤ s.latched.dstCap.toNat → s.latched.dstCap.toNat < (blk ++ terminator w).length →
        s.failedAs t .outputTooSmall blk.length s.latched.srcLen.toNat 0#8 ∧ t.holds s.dstLo blk
          ∧ s.sameOutside t s.dstLo blk.length)

/-- DECOMPRESS, DECODE and DECODE_BLOCK, their ranges checked and readable, start the token decoder or the framing
controller with every cursor 0, whatever MODE, TERM and IRQ_EN, and change nothing else (R100, R108, R121, R122). That
the start is a step of its own, and which bytes it reads, are the model's choices (log 4, log 12). -/
def Obligations.DecodersLaunch : Prop :=
  ∀ (m : Mode) (w q : Bool) (s : State), s.launchable = true →
    exec (.decompress m w q) s = .next
      { s with
        td := ⟨.decompress, s.srcLo, s.latched.srcLen.toNat, s.dstLo, s.latched.dstCap.toNat, 0, 0, 0⟩
        activity := .tokens }
    ∧ (s.busFaultIn .read s.srcLo s.latched.srcLen.toNat = false →
      exec (.decode m w q) s = .next { s with bfc := ⟨.decode, 0, 0⟩, activity := .blocks }
      ∧ exec (.decodeBlock m w q) s = .next { s with bfc := ⟨.decodeBlock, 0, 0⟩, activity := .blocks })

/-! ## Tokens (spec/42_token_decoder.md) -/

/-- LIT: `L = ctrl + 1`; missing data bytes are `InvalidData`, too little capacity is then `OutputTooSmall`, and else
the L bytes behind the control byte go to the output, both cursors advance, and nothing else changes (R101). -/
def Obligations.LitResult : Prop :=
  (∀ (ctrl : Byte) (rest : List Byte), ctrl.toNat < 0x20 →
    decodeToken (ctrl :: rest) = .ok (.lit (ctrl.toNat + 1), rest))
  ∧ ∀ (len : Nat) (s : State),
    (s.td.clen < s.td.ip + 1 + len → exec (.lit len) s = .next (s.startToken.tokenError .invalidData))
    ∧ (s.td.ip + 1 + len ≤ s.td.clen → s.td.cap < s.td.op + len →
      exec (.lit len) s = .next (s.startToken.tokenError .outputTooSmall))
    ∧ (s.td.ip + 1 + len ≤ s.td.clen → s.td.op + len ≤ s.td.cap →
      s.checkSource s.readsNow (s.td.srcBase + s.td.ip + 1) len = .granted →
      s.checkDest .write (s.td.outBase + s.td.op) len = .granted →
      ∃ t : State, exec (.lit len) s = .next t
        ∧ t.td = { s.td with tok := s.td.ip, ip := s.td.ip + 1 + len, op := s.td.op + len }
        ∧ t.holds (s.td.outBase + s.td.op) (s.source (s.td.srcBase + s.td.ip + 1) len)
        ∧ s.sameOutside t (s.td.outBase + s.td.op) len
        ∧ s.sameResults t ∧ t.activity = s.activity ∧ s.sameAgents t ∧ s.sameEncoder t ∧ t.bfc = s.bfc
        ∧ t.draws = s.draws)

/-- Every back-reference, when its checks pass, copies byte by byte from `OUT[op - off - 1]`: each byte written is the
byte `off + 1` before it as it stands after the copy, so that a copy that overlaps itself repeats the pattern; both
cursors advance, and nothing else changes (R102 to R104). -/
def Obligations.ReferenceResult : Prop :=
  ∀ (i : Instr) (head off len : Nat) (s : State), i.reference = some (head, off, len) →
    s.td.ip + head ≤ s.td.clen → off < s.td.op → s.td.op + len ≤ s.td.cap →
    s.checkDest .readBack (s.td.outBase + (s.td.op - off - 1)) len = .granted →
    s.checkDest .write (s.td.outBase + s.td.op) len = .granted →
    ∃ t : State, exec i s = .next t
      ∧ t.td = { s.td with tok := s.td.ip, ip := s.td.ip + head, op := s.td.op + len }
      ∧ (∀ k : Nat, k < len →
          t.byteAt (s.td.outBase + s.td.op + k) = t.byteAt (s.td.outBase + (s.td.op - off - 1) + k))
      ∧ s.sameOutside t (s.td.outBase + s.td.op) len
      ∧ s.sameResults t ∧ t.activity = s.activity ∧ s.sameAgents t ∧ s.sameEncoder t ∧ t.bfc = s.bfc
      ∧ t.draws = s.draws

/-- The error order of R105 within one token of DECOMPRESS: missing bytes, then the offset, then the capacity; the
output of the tokens before it and its own offset are recorded, and it writes no byte. -/
def Obligations.TokenErrorOrder : Prop :=
  ∀ (i : Instr) (n len : Nat) (off : Option Nat) (s : State), i.tokenParts = some (n, off, len) →
    s.td.owner = .decompress →
    (s.td.clen < s.td.ip + n →
      ∃ t : State, exec i s = .next t ∧ s.failedAs t .invalidData s.td.op s.td.ip 0#8 ∧ s.startToken.sameMachine t)
    ∧ (s.td.ip + n ≤ s.td.clen → (∃ o : Nat, off = some o ∧ s.td.op ≤ o) →
      ∃ t : State, exec i s = .next t ∧ s.failedAs t .invalidData s.td.op s.td.ip 0#8 ∧ s.startToken.sameMachine t)
    ∧ (s.td.ip + n ≤ s.td.clen → (∀ o : Nat, off = some o → o < s.td.op) → s.td.cap < s.td.op + len →
      ∃ t : State, exec i s = .next t ∧ s.failedAs t .outputTooSmall s.td.op s.td.ip 0#8
        ∧ s.startToken.sameMachine t)

/-- Inside a type-1 block every error of a token that is executed is `InvalidData`, recorded as the command records a
block error, and only the block's own output may differ (R118, R142). A token whose head is cut short is not executed:
StepEndsMalformed has it. -/
def Obligations.PayloadErrors : Prop :=
  ∀ (i : Instr) (n len : Nat) (off : Option Nat) (s : State), i.tokenParts = some (n, off, len) →
    s.td.owner = .block →
    (s.td.clen < s.td.ip + n ∨ (∃ o : Nat, off = some o ∧ s.td.op ≤ o) ∨ s.td.cap < s.td.op + len) →
    ∃ t : State, exec i s = .next t ∧ s.payloadFailed t s.td.outBase s.td.cap

/-! ## Block units (spec/43_block_framing.md) -/

/-- BLK_RAW: a payload cut short is `InvalidData`, one too long for the destination is then `OutputTooSmall`; else the
U bytes behind the header are written and DECODE goes on behind the block, or DECODE_BLOCK completes (R117, R121,
R122). That DECODE_BLOCK leaves its cursors where they were is the model's choice (log 26). -/
def Obligations.BlkRawResult : Prop :=
  ∀ (u : Nat) (s : State),
    (s.latched.srcLen.toNat < s.bfc.ipos + 5 + u → exec (.blkRaw u) s = .next (s.blockError .invalidData 0#8))
    ∧ (s.bfc.ipos + 5 + u ≤ s.latched.srcLen.toNat → s.latched.dstCap.toNat < s.bfc.opos + u →
      exec (.blkRaw u) s = .next (s.blockError .outputTooSmall 0#8))
    ∧ (s.bfc.ipos + 5 + u ≤ s.latched.srcLen.toNat → s.bfc.opos + u ≤ s.latched.dstCap.toNat →
      s.checkSource false (s.srcLo + s.bfc.ipos + 5) u = .granted →
      s.checkDest .write (s.dstLo + s.bfc.opos) u = .granted →
      ∃ t : State, exec (.blkRaw u) s = .next t
        ∧ t.holds (s.dstLo + s.bfc.opos) (s.source (s.srcLo + s.bfc.ipos + 5) u)
        ∧ s.sameOutside t (s.dstLo + s.bfc.opos) u ∧ s.sameAgents t ∧ s.sameEncoder t ∧ t.td = s.td
        ∧ t.draws = s.draws
        ∧ (s.bfc.owner = .decode → s.sameResults t ∧ t.activity = .blocks
            ∧ t.bfc = ⟨.decode, s.bfc.ipos + (5 + u), s.bfc.opos + u⟩)
        ∧ (s.bfc.owner = .decodeBlock → s.completedAs t u (5 + u) 0#2 ∧ t.bfc = s.bfc))

/-- BLK_CMP: a payload of C bytes cut short is `InvalidData`, and only the block's own output may differ, as far as it
lies in the destination; one too long for the destination is then `OutputTooSmall` with nothing written; else the token
decoder starts on the payload with a window of U bytes, and nothing else changes (R118, R142). That starting the decoder
is a step of its own is the model's choice (log 4), and so is which of the two errors leaves the output as it was
(log 25). -/
def Obligations.BlkCmpResult : Prop :=
  ∀ (c u : Nat) (s : State),
    (s.latched.srcLen.toNat < s.bfc.ipos + 7 + c →
      ∃ t : State, exec (.blkCmp c u) s = .next t ∧ t.td = s.td
        ∧ s.payloadFailed t (s.dstLo + s.bfc.opos) (min u (s.latched.dstCap.toNat - s.bfc.opos)))
    ∧ (s.bfc.ipos + 7 + c ≤ s.latched.srcLen.toNat → s.latched.dstCap.toNat < s.bfc.opos + u →
      exec (.blkCmp c u) s = .next (s.blockError .outputTooSmall 0#8))
    ∧ (s.bfc.ipos + 7 + c ≤ s.latched.srcLen.toNat → s.bfc.opos + u ≤ s.latched.dstCap.toNat →
      exec (.blkCmp c u) s = .next
        { s with
          td := ⟨.block, s.srcLo + s.bfc.ipos + 7, c, s.dstLo + s.bfc.opos, u, 0, 0, 0⟩
          activity := .tokens })

/-- TERM consumes one byte and ends the command without error and with END_KIND 1: DECODE with the bytes accumulated so
far, DECODE_BLOCK with none (R119, R121, R122). Where DECODE_BLOCK leaves its cursors is the model's choice (log 26). -/
def Obligations.TermResult : Prop :=
  ∀ s : State, ∃ t : State, exec .term s = .next t
    ∧ (∀ x : Nat, t.byteAt x = s.byteAt x) ∧ s.sameAgents t ∧ s.sameEncoder t ∧ t.td = s.td ∧ t.draws = s.draws
    ∧ (s.bfc.owner = .decode →
        s.completedAs t s.bfc.opos (s.bfc.ipos + 1) 1#2 ∧ t.bfc = ⟨.decode, s.bfc.ipos + 1, s.bfc.opos⟩)
    ∧ (s.bfc.owner = .decodeBlock → s.completedAs t 0 1 1#2 ∧ t.bfc = ⟨.decodeBlock, 1, 0⟩)

/-! ## Errors, bus errors, the interrupt (spec/60_exceptions.md, spec/20_memory.md R56) -/

/-- Error completion, which every error of a command goes through: the recorded values, the code of R141, END_KIND 0,
ERR 1, DONE as it was, the engine IDLE, and nothing else (R143). -/
def Obligations.ErrorCompletion : Prop :=
  (∀ (s : State) (e : ErrKind) (result consumed : Nat) (info : Byte),
    s.failedAs (s.errorEnd e result consumed info) e result consumed info
      ∧ s.sameMachine (s.errorEnd e result consumed info)
      ∧ (s.errorEnd e result consumed info).busy = false)
  ∧ (ErrKind.outputTooSmall.code = 1#4 ∧ ErrKind.invalidData.code = 2#4 ∧ ErrKind.invalidHeader.code = 3#4
    ∧ ErrKind.unknownBlockType.code = 4#4 ∧ ErrKind.invalidParameter.code = 5#4 ∧ ErrKind.other.code = 6#4
    ∧ ErrKind.illegalCommand.code = 7#4)

/-- A bus error on an access of the token decoder ends the command with `Other`, nothing recorded and only the
destination range changed: a read of a token's first byte or of the rest of its head, of the data bytes of LIT, the read
back of a copy, or the write of a token's output, each where the checks before that access pass (R47, R56, R142, R144).
That all of the destination may differ, and when the source is read, are the model's choices (log 11, log 12). -/
def Obligations.BusErrorEndsToken : Prop :=
  (∀ (s u : State) (head : Nat), turn s = .engine u → u.activity = .tokens → u.td.owner = .decompress →
    u.rangesFit = true → u.tokensInRange = true → u.td.ip < u.td.clen →
    head = tokenHeadLength (u.sourceByte (u.td.srcBase + u.td.ip)) →
    (u.busFaultIn .read (u.td.srcBase + u.td.ip) 1 = true
      ∨ u.td.ip + head ≤ u.td.clen ∧ u.busFaultIn .read (u.td.srcBase + u.td.ip) head = true) →
    ∃ t : State, step s = .next t ∧ u.busEnded t)
  ∧ ∀ (i : Instr) (n len : Nat) (off : Option Nat) (s : State), i.tokenParts = some (n, off, len) →
    s.rangesFit = true → s.tokensInRange = true →
    s.td.ip + n ≤ s.td.clen → (∀ o : Nat, off = some o → o < s.td.op) → s.td.op + len ≤ s.td.cap →
    ((off = none ∧ s.td.owner = .decompress ∧ s.busFaultIn .read (s.td.srcBase + s.td.ip + 1) len = true)
      ∨ (∃ o : Nat, off = some o ∧ s.busFaultIn .readBack (s.td.outBase + (s.td.op - o - 1)) len = true)
      ∨ s.busFaultIn .write (s.td.outBase + s.td.op) len = true) →
    ∃ t : State, exec i s = .next t ∧ s.busEnded t

/-- A bus error on an access of a command or of BLK_RAW ends the command with `Other`, nothing recorded and only the
destination range changed: on a source byte of COMPRESS, DECODE or DECODE_BLOCK; on a byte COMPRESS or BLK_RAW writes;
in ENCODE and ENCODE_BLOCK on a source byte of a chunk whose blocks before it fit, or on a byte of a block or terminator
that fits (R56, R142, R144). That all of the destination may differ, and when the source is read, are the model's
choices (log 11, log 12). -/
def Obligations.BusErrorEndsCommand : Prop :=
  (∀ (i : Instr) (s : State), i.isMemoryCommand = true → i.lengthsOk s = true →
    (∀ (m : Mode) (w q : Bool), i ≠ .decompress m w q ∧ i ≠ .encode m w q ∧ i ≠ .encodeBlock m w q) →
    s.launchable = true → s.busFaultIn .read s.srcLo s.latched.srcLen.toNat = true →
    ∃ t : State, exec i s = .next t ∧ s.busEnded t)
  ∧ (∀ (m : Mode) (w q : Bool) (s : State) (r : Coded), s.latched.srcLen.toNat ≤ 4294967295 → s.launchable = true →
    r = mfCall (hash3Of s.platform.hash) m s.sourceBytes s.latched.dstCap.toNat s.mf →
    s.busFaultIn .write s.dstLo (if r.fits then r.out.length else s.latched.dstCap.toNat) = true →
    ∃ t : State, exec (.compress m w q) s = .next t ∧ s.busEnded t)
  ∧ (∀ (u : Nat) (s : State), s.rangesFit = true → s.blocksInRange = true →
    s.bfc.ipos + 5 + u ≤ s.latched.srcLen.toNat → s.bfc.opos + u ≤ s.latched.dstCap.toNat →
    s.busFaultIn .write (s.dstLo + s.bfc.opos) u = true → ∃ t : State, exec (.blkRaw u) s = .next t ∧ s.busEnded t)
  ∧ (∀ (m : Mode) (w q : Bool) (s : State) (hf : Hash3) (bs k : Nat) (out : List Byte),
    bs = s.latched.blockSize.toNat → 1 ≤ bs → bs ≤ 65535 → s.launchable = true → hf = hash3Of s.platform.hash →
    out = framed hf m bs (s.sourceBytes.take (k * bs)) → out.length ≤ s.latched.dstCap.toNat →
    ((k * bs < s.latched.srcLen.toNat ∧ s.busFaultIn .read s.srcLo (min s.latched.srcLen.toNat (k * bs + bs)) = true)
      ∨ s.busFaultIn .write s.dstLo out.length = true
      ∨ (s.latched.srcLen.toNat ≤ k * bs ∧ (out ++ terminator w).length ≤ s.latched.dstCap.toNat
          ∧ s.busFaultIn .write s.dstLo (out ++ terminator w).length = true)) →
    ∃ t : State, exec (.encode m w q) s = .next t ∧ s.busEnded t)
  ∧ ∀ (m : Mode) (w q : Bool) (s : State) (blk : List Byte), s.latched.srcLen.toNat ≤ 65535 → s.launchable = true →
    blk = (if s.latched.srcLen.toNat = 0 then [] else blockOf (hash3Of s.platform.hash) m s.sourceBytes) →
    (s.busFaultIn .read s.srcLo s.latched.srcLen.toNat = true
      ∨ (blk.length ≤ s.latched.dstCap.toNat ∧ s.busFaultIn .write s.dstLo blk.length = true)
      ∨ ((blk ++ terminator w).length ≤ s.latched.dstCap.toNat
          ∧ s.busFaultIn .write s.dstLo (blk ++ terminator w).length = true)) →
    ∃ t : State, exec (.encodeBlock m w q) s = .next t ∧ s.busEnded t

/-- The interrupt line is `CTRL.IRQ_EN & (DONE | ERR)`: completion with IRQ_EN asserts it, clearing the flags, an
accepted GO, and reset deassert it, and so does IRQ_EN 0 written while IDLE (R146). -/
def Obligations.InterruptLine : Prop :=
  ∀ s : State,
    s.irq = (s.regs.ctrl.getLsbD 6 && (s.done || s.err))
    ∧ (∀ (result consumed : Nat) (endKind : BitVec 2),
        (s.complete result consumed endKind).irq = s.regs.ctrl.getLsbD 6)
    ∧ (∀ (e : ErrKind) (result consumed : Nat) (info : Byte),
        (s.errorEnd e result consumed info).irq = s.regs.ctrl.getLsbD 6)
    ∧ (∀ v : Word, (s.done = true → v.getLsbD 1 = true) → (s.err = true → v.getLsbD 2 = true) →
        (s.writeReg .status v).irq = false)
    ∧ (∀ v : Word, s.busy = false → v.getLsbD 0 = true → (s.writeReg .go v).irq = false)
    ∧ (∀ v : Word, s.busy = false → (s.writeReg .ctrl v).irq = (v.getLsbD 6 && (s.done || s.err)))
    ∧ s.resetMove.irq = false

/-! ## The register window (spec/10_state.md, spec/44_commands.md) -/

/-- A host access is admitted exactly if it is an aligned 64-bit access of one of the window's slots, and then it goes
to the register at its offset; any other is refused (R16). -/
def Obligations.RegisterWindow : Prop :=
  (∀ (s : State) (addr v : Word) (size : Nat) (rest : List HostMove) (m : HostMove),
    s.platform.engineBase.toNat % 256 = 0 → (m = .regRead addr size ∨ m = .regWrite addr size v) →
    s.host.moves = m :: rest →
    ((size = 8 ∧ addr.toNat % 8 = 0 ∧ addr.toNat / 256 = s.platform.engineBase.toNat / 256) →
      (m = .regRead addr size →
        step s = .next ((s.withMoves rest).observe (s.readReg (regAt (addr.toNat % 256)))))
      ∧ (m = .regWrite addr size v → step s = .next ((s.withMoves rest).writeReg (regAt (addr.toNat % 256)) v)))
    ∧ (¬(size = 8 ∧ addr.toNat % 8 = 0 ∧ addr.toNat / 256 = s.platform.engineBase.toNat / 256) →
      step s = .refused .registerAccessNotAdmitted))
  ∧ (regAt 0x00 = .id ∧ regAt 0x08 = .ctrl ∧ regAt 0x10 = .go ∧ regAt 0x18 = .status ∧ regAt 0x20 = .srcAddr
    ∧ regAt 0x28 = .srcLen ∧ regAt 0x30 = .dstAddr ∧ regAt 0x38 = .dstCap ∧ regAt 0x40 = .blockSize
    ∧ regAt 0x48 = .resultLen ∧ regAt 0x50 = .consumed ∧ regAt 0x58 = .errInfo
    ∧ ∀ o : Nat, 0x60 ≤ o → regAt o = .reserved)

/-- ID reads its constant, GO and the reserved offsets and bits read 0; writes to ID, the results and the reserved
offsets do nothing (R19, R26 to R29). -/
def Obligations.ReadOnlyAndReserved : Prop :=
  ∀ (s : State) (v : Word),
    s.readReg .id = 0x000000004C5A4631#64 ∧ s.readReg .go = 0#64 ∧ s.readReg .reserved = 0#64
    ∧ s.writeReg .id v = s ∧ s.writeReg .resultLen v = s ∧ s.writeReg .consumed v = s ∧ s.writeReg .errInfo v = s
    ∧ s.writeReg .reserved v = s
    ∧ (∀ k : Nat, 7 ≤ k → (s.readReg .ctrl).getLsbD k = false)
    ∧ (∀ k : Nat, 8 ≤ k → (s.readReg .errInfo).getLsbD k = false)
    ∧ (s.readReg .status).getLsbD 3 = false ∧ (∀ k : Nat, 10 ≤ k → (s.readReg .status).getLsbD k = false)

/-- STATUS reads BUSY, DONE and ERR in bits 0 to 2, ERR_CODE in bits 7:4 and END_KIND in bits 9:8; a write clears DONE
where bit 1 is 1 and ERR where bit 2 is 1, and leaves everything else: the error code and the results keep their values
(R20, R145). -/
def Obligations.StatusRegister : Prop :=
  ∀ (s : State) (v : Word),
    (s.readReg .status).getLsbD 0 = s.busy ∧ (s.readReg .status).getLsbD 1 = s.done
    ∧ (s.readReg .status).getLsbD 2 = s.err ∧ (s.readReg .status).extractLsb' 4 4 = s.errCode
    ∧ (s.readReg .status).extractLsb' 8 2 = s.endKind
    ∧ s.writeReg .status v
      = { s with
          done := if v.getLsbD 1 then false else s.done
          err := if v.getLsbD 2 then false else s.err }

/-- While IDLE each of the six operand registers takes any value and reads it back, CTRL its bits 6:0, and the others
keep theirs (R17, R21 to R25). While BUSY a write to any register has no effect, and the result registers read 0 (R30;
the flags are 0 by the invariant). -/
def Obligations.RegisterWrites : Prop :=
  (∀ (s : State) (v : Word), s.busy = false →
    (s.writeReg .ctrl v).regs = { s.regs with ctrl := v.extractLsb' 0 7 }
    ∧ (s.writeReg .srcAddr v).regs = { s.regs with srcAddr := v }
    ∧ (s.writeReg .srcLen v).regs = { s.regs with srcLen := v }
    ∧ (s.writeReg .dstAddr v).regs = { s.regs with dstAddr := v }
    ∧ (s.writeReg .dstCap v).regs = { s.regs with dstCap := v }
    ∧ (s.writeReg .blockSize v).regs = { s.regs with blockSize := v }
    ∧ (s.writeReg .ctrl v).readReg .ctrl = v &&& 0x7F#64
    ∧ (s.writeReg .srcAddr v).readReg .srcAddr = v ∧ (s.writeReg .srcLen v).readReg .srcLen = v
    ∧ (s.writeReg .dstAddr v).readReg .dstAddr = v ∧ (s.writeReg .dstCap v).readReg .dstCap = v
    ∧ (s.writeReg .blockSize v).readReg .blockSize = v
    ∧ (∀ r : Reg, r ≠ .go → r ≠ .status → { (s.writeReg r v) with regs := s.regs } = s))
  ∧ ∀ (s : State) (r : Reg) (v : Word), s.flagsHold = true → s.busy = true →
    s.writeReg r v = s ∧ s.readReg .resultLen = 0#64 ∧ s.readReg .consumed = 0#64 ∧ s.readReg .errInfo = 0#64
      ∧ s.readReg .status = 1#64

/-- A GO with bit 0 = 1 while IDLE latches the operands, clears the flags and results, sets BUSY and starts the command
CTRL names, which is what the engine runs next; any other write to GO does nothing (R18, R126, R127). That the command
runs in the step after the one that accepts it is the model's choice (log 4). -/
def Obligations.GoAccepted : Prop :=
  ∀ (s : State) (addr v : Word) (rest : List HostMove),
    s.host.moves = .regWrite addr 8 v :: rest → addr.toNat = s.platform.engineBase.toNat + 0x10 →
    (s.busy = false → v.getLsbD 0 = true →
      ∃ t : State, step s = .next t ∧ t.latched = s.regs ∧ t.regs = s.regs ∧ t.done = false ∧ t.err = false
        ∧ t.errCode = 0#4 ∧ t.endKind = 0#2 ∧ t.resultLen = 0#64 ∧ t.consumed = 0#64 ∧ t.errInfo = 0#8
        ∧ t.busy = true ∧ t.irq = false ∧ (∀ x : Nat, t.byteAt x = s.byteAt x) ∧ s.sameEncoder t ∧ t.td = s.td
        ∧ t.bfc = s.bfc ∧ t.platform = s.platform ∧ t.host.moves = rest
        ∧ ∀ u : State, turn t = .engine u → step t = exec (decodeCtrl s.regs.ctrl) u)
    ∧ ((s.busy = true ∨ v.getLsbD 0 = false) → step s = .next (s.withMoves rest))

/-! ## Reset and the host's accesses to memory (spec/70_reset_and_hazards.md, spec/20_memory.md) -/

/-- Reset: every register reads its reset value, the line is deasserted, the engine is IDLE; memory changes at most in
the destination of a command that reset stops. `State.reset` has the same register values (R151, R152). -/
def Obligations.ResetValues : Prop :=
  (∀ (s : State) (rest : List HostMove), s.host.moves = .reset :: rest →
    ∃ t : State, step s = .next t ∧ t.activity = .idle ∧ t.irq = false
      ∧ (∀ r : Reg, t.readReg r = if r = .id then 0x000000004C5A4631#64 else 0#64)
      ∧ (s.runningOnMemory = false → ∀ x : Nat, t.byteAt x = s.byteAt x)
      ∧ s.sameOutside t s.dstLo s.latched.dstCap.toNat)
  ∧ State.reset.activity = .idle ∧ State.reset.irq = false
  ∧ (∀ r : Reg, State.reset.readReg r = if r = .id then 0x000000004C5A4631#64 else 0#64)

/-- A host write of a byte of the source or destination of a running command is refused; any other write of ordinary
memory changes that byte alone, and a read of ordinary memory that no command is writing and no stale copy covers
returns the byte (R49, R50, R53). That the host's moves are byte accesses, which copies are stale, that its reads come
in order, and that only a command that accesses memory closes its ranges are the model's choices (log 6, log 18, log 27,
log 28). -/
def Obligations.HostMemoryAccess : Prop :=
  ∀ (s : State) (addr : Word) (b : Byte) (rest : List HostMove), s.onDevice addr.toNat 1 = false →
    (s.host.moves = .memWrite addr b :: rest → s.runningOnMemory = true →
      (s.srcLo ≤ addr.toNat ∧ addr.toNat < s.srcHi ∨ s.dstLo ≤ addr.toNat ∧ addr.toNat < s.dstHi) →
      step s = .refused .hostWroteBusyRange)
    ∧ (s.host.moves = .memWrite addr b :: rest →
      (s.runningOnMemory = false
        ∨ ¬(s.srcLo ≤ addr.toNat ∧ addr.toNat < s.srcHi) ∧ ¬(s.dstLo ≤ addr.toNat ∧ addr.toNat < s.dstHi)) →
      ∃ t : State, step s = .next t ∧ t.byteAt addr.toNat = b ∧ s.sameOutside t addr.toNat 1
        ∧ t.regs = s.regs ∧ t.latched = s.latched ∧ t.activity = s.activity ∧ s.sameResults t)
    ∧ (s.host.moves = .memRead addr :: rest → s.readsAnyValue addr.toNat = false →
      step s = .next ((s.withMoves rest).observe ((s.byteAt addr.toNat).setWidth 64)))

/-- What the engine reads of its source, and the host's duties (R10, R46, R48, R53). The engine reads `n` bytes from `a`
in order; each is the byte in memory if the host had ordered its write and written it back when it wrote GO, and else a
free byte that stays the same throughout the command. Ordering and write-backs count for a later GO only. Where DMA is
not coherent, GO of a memory command makes the host's copies of its destination stale; a discard frees the bytes it
covers, but for the destination of a command that still runs, and a stale byte reads any value. That these duties are
sets of addresses is the model's choice (log 18), and so are the free bytes (log 7), which commands make copies stale
(log 28), and that write-backs and discards leave memory, and a discard the bytes still to be written back, as they are
(log 29). -/
def Obligations.HostDuties : Prop :=
  (∀ (s : State) (a n : Nat),
    (s.source a n).length = n ∧ (∀ k : Nat, k < n → (s.source a n).getD k 0#8 = s.sourceByte (a + k))
      ∧ (a ∉ s.unseen → s.sourceByte a = s.byteAt a)
      ∧ (a ∈ s.unseen → s.sourceByte a = Config.freeByte s.launchDraw a))
  ∧ (∀ (s : State) (v : Word) (a : Nat), s.busy = false → v.getLsbD 0 = true →
    (a ∈ (s.writeReg .go v).unseen ↔ a ∈ s.host.unordered ∨ a ∈ s.host.uncleaned)
      ∧ ((∃ r ∈ (s.writeReg .go v).host.stale, r.1 ≤ a ∧ a < r.1 + r.2) ↔
          (∃ r ∈ s.host.stale, r.1 ≤ a ∧ a < r.1 + r.2)
            ∨ (s.platform.dmaCoherent = false ∧ (decodeCtrl s.regs.ctrl).isMemoryCommand = true
                ∧ s.regs.dstAddr.toNat ≤ a ∧ a < s.regs.dstAddr.toNat + s.regs.dstCap.toNat)))
  ∧ (∀ (s : State) (addr : Word) (b : Byte) (rest : List HostMove) (t : State),
    s.host.moves = .memWrite addr b :: rest → step s = .next t →
    t.unseen = s.unseen ∧ t.host.stale = s.host.stale
      ∧ (∀ x : Nat, x ∈ t.host.unordered ↔ x = addr.toNat ∨ x ∈ s.host.unordered)
      ∧ ∀ x : Nat, x ∈ t.host.uncleaned ↔
          (x = addr.toNat ∧ s.platform.dmaCoherent = false) ∨ x ∈ s.host.uncleaned)
  ∧ (∀ (s : State) (rest : List HostMove), s.host.moves = .order :: rest →
    step s = .next { s with host := { s.host with moves := rest, unordered := [] } })
  ∧ (∀ (s : State) (base len : Nat) (rest : List HostMove), s.host.moves = .cleanCache base len :: rest →
    ∃ t : State, step s = .next t
      ∧ t = { s with host := { s.host with moves := rest, uncleaned := t.host.uncleaned } }
      ∧ ∀ x : Nat, x ∈ t.host.uncleaned ↔ x ∈ s.host.uncleaned ∧ ¬(base ≤ x ∧ x < base + len))
  ∧ ∀ (s : State) (base len : Nat) (rest : List HostMove), s.host.moves = .discardCache base len :: rest →
    ∃ t : State, step s = .next t ∧ t = { s with host := { s.host with moves := rest, stale := t.host.stale } }
      ∧ ∀ x : Nat,
        ((∃ r ∈ t.host.stale, r.1 ≤ x ∧ x < r.1 + r.2) ↔
            (s.runningOnMemory = true ∧ s.platform.dmaCoherent = false ∧ s.dstLo ≤ x ∧ x < s.dstHi)
              ∨ (∃ r ∈ s.host.stale, r.1 ≤ x ∧ x < r.1 + r.2) ∧ ¬(base ≤ x ∧ x < base + len))
          ∧ (t.readsAnyValue x = true ↔
            (s.runningOnMemory = true ∧ s.dstLo ≤ x ∧ x < s.dstHi)
              ∨ (∃ r ∈ t.host.stale, r.1 ≤ x ∧ x < r.1 + r.2))

/-! ## Invariants of every step -/

/-- Every step keeps memory in canonical form and inside the address space; that form is the model's own (log 1). The
ranges of a running decoder, which the
second premise keeps, are what bounds its stores. -/
def Obligations.MemoryFormKept : Prop :=
  ∀ s t : State, s.memoryHolds = true → s.rangesHold = true → step s = .next t → t.memoryHolds = true

/-- Every step keeps the flags' invariant: DONE and ERR never both 1, both 0 and all results 0 while BUSY, no reserved
code, an error with a code and a success without, ERR_INFO only after `UnknownBlockType` (R20, R30, R141). -/
def Obligations.FlagsKept : Prop :=
  ∀ s t : State, s.flagsHold = true → step s = .next t → t.flagsHold = true

/-- Every step keeps the running decoder inside the checked ranges of its command (R42, R106, R131). -/
def Obligations.RangesKept : Prop :=
  ∀ s t : State, s.rangesHold = true → step s = .next t → t.rangesHold = true

/-- The three invariants hold in the reset state. -/
def Obligations.ResetMeetsInvariants : Prop :=
  State.reset.memoryHolds = true ∧ State.reset.flagsHold = true ∧ State.reset.rangesHold = true

/-- Within the ranges invariant no step faults, meets an access outside the ranges, or lacks a meaning (R41, R137); the
fault and that refusal are the model's own (log 16). A step of the engine is refused exactly at a launch whose parameter
checks pass and whose source or destination holds a byte of a device's registers (R46, I16); that the checks come first
is the model's choice (log 15). -/
def Obligations.EngineNeverStops : Prop :=
  (∀ s : State, s.rangesHold = true →
    (∀ f : Fault, step s ≠ .fault f) ∧ step s ≠ .refused .engineOutsideRanges
      ∧ ∀ name : String, step s ≠ .refused (.notModelled name))
  ∧ ∀ (s u : State) (i : Instr) (r : Refusal), turn s = .engine u → u.rangesHold = true →
    i = decodeCtrl u.latched.ctrl →
    (step s = .refused r ↔
      r = .deviceRange ∧ u.activity = .dispatch ∧ i.isMemoryCommand = true ∧ i.lengthsOk u = true
        ∧ u.rangesFit = true ∧ u.rangesOverlap = false ∧ ∃ x : Nat, u.rangeByte x ∧ u.deviceByte x)

/-- Whatever the engine executes, it writes no byte outside the destination range of its command (R24, R42). -/
def Obligations.EngineWritesOnlyDestination : Prop :=
  ∀ s u t : State, turn s = .engine u → u.rangesHold = true → step s = .next t →
    u.sameOutside t u.dstLo u.latched.dstCap.toNat

/-- No step of the engine changes a register the host writes, the latched operands, the platform or the host's side:
a running command uses the values latched at GO (R30). -/
def Obligations.EngineKeepsOperands : Prop :=
  ∀ s u t : State, turn s = .engine u → step s = .next t → u.sameAgents t

/-- After a command has ended its code, results and ERR_INFO stay until the next accepted GO or reset: any other step
from IDLE leaves them, acknowledgement included (R145). -/
def Obligations.ResultsKeptUntilGo : Prop :=
  ∀ s t : State, s.busy = false → (∀ rest : List HostMove, s.host.moves ≠ .reset :: rest) → step s = .next t →
    t.busy = false →
    t.errCode = s.errCode ∧ t.resultLen = s.resultLen ∧ t.consumed = s.consumed ∧ t.errInfo = s.errInfo
      ∧ t.endKind = s.endKind

/-! ## The match finder (spec/40_match_finder.md) -/

/-- Normal-mode lookup: the entry of the hash of the three bytes at `p` is read and then set to `p + 1`, no other entry
changes, and the candidate is taken exactly if there is one, its offset is at most 8191 and its three bytes agree
(R78). -/
def Obligations.NormalLookup : Prop :=
  ∀ (hf : Hash3) (d : List Byte) (m m' : MatchFinder) (v : Decision) (h e : Nat), m.p + 3 ≤ d.length →
    m.p + 1 < 2 ^ 32 → h = (hf (d.getD m.p 0#8) (d.getD (m.p + 1) 0#8) (d.getD (m.p + 2) 0#8)).toNat →
    e = (Sparse.get m.ht h).toNat → decideNormal hf d m = (m', v) →
    (Sparse.get m'.ht h).toNat = m.p + 1 ∧ (∀ j : Nat, j ≠ h → Sparse.get m'.ht j = Sparse.get m.ht j)
      ∧ m'.head = m.head ∧ m'.prev = m.prev ∧ m'.p = m.p ∧ m'.ls = m.ls
      ∧ (e ≠ 0 → m.p - (e - 1) - 1 ≤ 8191 →
          (d.drop (e - 1)).take 3 = (d.drop m.p).take 3 →
          v = .matched (m.p - (e - 1) - 1) (mlen d (e - 1) m.p))
      ∧ ((e = 0 ∨ 8191 < m.p - (e - 1) - 1 ∨ (d.drop (e - 1)).take 3 ≠ (d.drop m.p).take 3) → v = .litByte)

/-- Best-mode insertion: HEAD of the hash becomes `q + 1`, the link of `q` is the distance to the position HEAD held if
that is within 8192 and else 0, nothing else changes, and a position with fewer than three bytes is not inserted
(R81). -/
def Obligations.BestInsertion : Prop :=
  ∀ (hf : Hash3) (d : List Byte) (m : MatchFinder) (q : Nat),
    (d.length < q + 3 → insertBest hf d m q = m)
    ∧ ∀ h e : Nat, q + 3 ≤ d.length → q + 1 < 2 ^ 32 →
      h = (hf (d.getD q 0#8) (d.getD (q + 1) 0#8) (d.getD (q + 2) 0#8)).toNat →
      e = (Sparse.get m.head h).toNat → e ≤ q →
      (Sparse.get (insertBest hf d m q).head h).toNat = q + 1
        ∧ (∀ j : Nat, j ≠ h → Sparse.get (insertBest hf d m q).head j = Sparse.get m.head j)
        ∧ (Sparse.get (insertBest hf d m q).prev (q % 8192)).toNat
            = (if e ≠ 0 ∧ q - (e - 1) ≤ 8192 then q - (e - 1) else 0)
        ∧ (∀ j : Nat, j ≠ q % 8192 → Sparse.get (insertBest hf d m q).prev j = Sparse.get m.prev j)
        ∧ (insertBest hf d m q).ht = m.ht ∧ (insertBest hf d m q).p = m.p ∧ (insertBest hf d m q).ls = m.ls

/-- The match length is the largest number of equal bytes up to the cap at the position (R77). Every match either mode
decides at a position is one the decoder reproduces: its offset and length are in range and its bytes agree, whatever
the tables hold that name only earlier positions (R88). -/
def Obligations.DecidedMatchesAgree : Prop :=
  (∀ (d : List Byte) (c p : Nat), c < p → p ≤ d.length →
    mlen d c p ≤ min 264 (d.length - p)
      ∧ (∀ k : Nat, k < mlen d c p → d.getD (c + k) 0#8 = d.getD (p + k) 0#8)
      ∧ ∀ l : Nat, l ≤ min 264 (d.length - p) → (∀ k : Nat, k < l → d.getD (c + k) 0#8 = d.getD (p + k) 0#8) →
          l ≤ mlen d c p)
  ∧ ∀ (hf : Hash3) (mode : Mode) (d : List Byte) (m m' : MatchFinder) (off len : Nat), m.p + 3 ≤ d.length →
    (∀ h : Nat, (Sparse.get m.ht h).toNat ≤ m.p) → (∀ h : Nat, (Sparse.get m.head h).toNat ≤ m.p) →
    decideAt hf mode d m = (m', .matched off len) →
    off ≤ 8191 ∧ 3 ≤ len ∧ len ≤ 264 ∧ m.p + len ≤ d.length ∧ off + 1 ≤ m.p
      ∧ ∀ k : Nat, k < len → d.getD (m.p - off - 1 + k) 0#8 = d.getD (m.p + k) 0#8

/-- The search of Best mode decides the match of R86: while the chains name exactly the inserted positions, it takes the
candidate of the greatest match length within the window, the closest on a tie, or a literal byte if there is no
candidate; and the position is inserted whatever the outcome (R82 to R84; C1). A fresh call has intact chains with
nothing inserted, and they stay intact when the next position is inserted and when positions are passed over (R81,
R90). -/
def Obligations.BestTakesClosestLongest : Prop :=
  ∀ (hf : Hash3) (d : List Byte),
    (∀ m : MatchFinder, chainsIntact hf d [] (freshFinder .best m) 0)
    ∧ (∀ (ins : List Nat) (m : MatchFinder) (p : Nat), chainsIntact hf d ins m p → p + 1 < 2 ^ 32 →
        chainsIntact hf d (if p + 3 ≤ d.length then p :: ins else ins) (insertBest hf d m p) (p + 1))
    ∧ (∀ (ins : List Nat) (m : MatchFinder) (p p' : Nat), chainsIntact hf d ins m p → p ≤ p' →
        chainsIntact hf d ins m p')
    ∧ ∀ (ins : List Nat) (m m' : MatchFinder) (v : Decision), chainsIntact hf d ins m m.p → m.p + 3 ≤ d.length →
        decideBest hf d m = (m', v) → m' = insertBest hf d m m.p ∧ bestVerdict d ins m.p v

/-- After a match of `len` bytes at `p` the scan goes on at `p + len` with no literal byte pending, and exactly the
searchable positions among `p+1 .. p+len-2` are inserted, in increasing order: in Normal mode the entry of a hash names
the last of them with that hash and else is as it was, and in Best mode the chains stay intact (R79, R85). -/
def Obligations.InteriorInsertions : Prop :=
  ∀ (hf : Hash3) (d : List Byte) (m : MatchFinder) (len : Nat), 3 ≤ len → m.p + len ≤ 2 ^ 32 →
    (∀ mode : Mode, (afterMatch hf mode d m len).p = m.p + len ∧ (afterMatch hf mode d m len).ls = m.p + len)
    ∧ (∀ h : Nat, (Sparse.get (afterMatch hf .normal d m len).ht h).toNat
        = (if newestBelow hf d (interior d m.p len) (m.p + len) h = 0 then (Sparse.get m.ht h).toNat
            else newestBelow hf d (interior d m.p len) (m.p + len) h))
    ∧ (afterMatch hf .normal d m len).head = m.head ∧ (afterMatch hf .normal d m len).prev = m.prev
    ∧ (afterMatch hf .best d m len).ht = m.ht
    ∧ ∀ ins : List Nat, chainsIntact hf d ins m (m.p + 1) →
        chainsIntact hf d (interior d m.p len ++ ins) (afterMatch hf .best d m len) (m.p + len)

/-- The bytes Best mode emits do not depend on HASH3, for inputs COMPRESS accepts (R86). -/
def Obligations.BestIgnoresHash : Prop :=
  ∀ (hf hf' : Hash3) (d : List Byte) (cap : Nat) (m m' : MatchFinder), d.length ≤ 4294967295 →
    (mfCall hf .best d cap m).out = (mfCall hf' .best d cap m').out
      ∧ (mfCall hf .best d cap m).fits = (mfCall hf' .best d cap m').fits

/-! ## The token encoder and the framing controller (spec/41_token_encoder.md, spec/43_block_framing.md) -/

/-- A call fails exactly if the full stream has more than `cap` bytes, a call that fits emits that full stream, and no
table content from an earlier call matters (R35, R94). -/
def Obligations.StreamFitsExactly : Prop :=
  ∀ (hf : Hash3) (mode : Mode) (d : List Byte) (cap big : Nat) (m m' : MatchFinder),
    (mfCall hf mode d big m).fits = true →
    ((mfCall hf mode d cap m').fits = true ↔ (mfCall hf mode d big m).out.length ≤ cap)
      ∧ ((mfCall hf mode d cap m').fits = true → (mfCall hf mode d cap m').out = (mfCall hf mode d big m).out)

/-- The bytes of a call are those of the scan: each decided match with the pending literal bytes before it, going on
behind the match, and the last literal bytes at the end of the input (R74, R80, R90, R93, R94). Literal bytes go out in
groups of 32 from the start of the run, the remainder last (R92). A call with capacity `cap` fits exactly if the scan's
bytes do, and then emits them. -/
def Obligations.CallFollowsScan : Prop :=
  (∀ (hf : Hash3) (mode : Mode) (d : List Byte) (cap : Nat) (m : MatchFinder),
    (∃ out : List Byte, ScanEmits hf mode d (freshFinder mode m) out)
    ∧ ∀ out : List Byte, ScanEmits hf mode d (freshFinder mode m) out →
        ((mfCall hf mode d cap m).fits = true ↔ out.length ≤ cap)
        ∧ ((mfCall hf mode d cap m).fits = true → (mfCall hf mode d cap m).out = out))
  ∧ literalBytes [] = []
  ∧ ∀ run : List Byte,
    (1 ≤ run.length → run.length ≤ 32 → literalBytes run = BitVec.ofNat 8 (run.length - 1) :: run)
    ∧ (32 < run.length → literalBytes run = 0x1F#8 :: (run.take 32 ++ literalBytes (run.drop 32)))

/-- A capacity of MAXSIZE(n) never fails, for every input, both modes and every HASH3 (R97). -/
def Obligations.CapacityBound : Prop :=
  ∀ (hf : Hash3) (mode : Mode) (d : List Byte) (cap : Nat) (m : MatchFinder),
    ((d.length * 33) >>> 5) + 1 ≤ cap →
    (mfCall hf mode d cap m).fits = true ∧ (mfCall hf mode d cap m).out.length ≤ ((d.length * 33) >>> 5) + 1

/-- Decoding the token stream of an input with any capacity of at least its length gives the input (R95). -/
def Obligations.CompressionRoundTrip : Prop :=
  ∀ (hf : Hash3) (mode : Mode) (d : List Byte) (cap dcap : Nat) (m : MatchFinder),
    (mfCall hf mode d cap m).fits = true → d.length ≤ dcap →
    decodeTokens dcap (mfCall hf mode d cap m).out = ⟨none, (mfCall hf mode d cap m).out.length, d⟩

/-- A valid token stream that decodes to `n` bytes, decoded with a capacity one byte shorter, fails with
`OutputTooSmall` (R107). -/
def Obligations.CapacityRejection : Prop :=
  ∀ (t out : List Byte) (n ip : Nat), decodeTokens (n + 1) t = ⟨none, ip, out⟩ → out.length = n + 1 →
    (decodeTokens n t).err = some .outputTooSmall

/-- A chunk becomes BLK_CMP exactly if its token stream has at most `U - 4` bytes, and BLK_RAW otherwise; the block is
then at most `U + 3` bytes, or `U + 5` (R109, R110). So the output of ENCODE has at most `n + 5 * ceil(n / bs) + TERM`
bytes (R113). -/
def Obligations.BlockTypeSelection : Prop :=
  (∀ (hf : Hash3) (mode : Mode) (x : List Byte) (big : Nat) (m : MatchFinder), x ≠ [] → x.length ≤ 65535 →
    (mfCall hf mode x big m).fits = true →
    ((mfCall hf mode x big m).out.length + 4 ≤ x.length →
      blockOf hf mode x
          = encode (.blkCmp (mfCall hf mode x big m).out.length x.length) ++ (mfCall hf mode x big m).out
        ∧ (blockOf hf mode x).length ≤ x.length + 3)
    ∧ (x.length < (mfCall hf mode x big m).out.length + 4 →
      blockOf hf mode x = encode (.blkRaw x.length) ++ x ∧ (blockOf hf mode x).length = x.length + 5))
  ∧ ∀ (hf : Hash3) (mode : Mode) (bs : Nat) (d : List Byte) (w : Bool), 1 ≤ bs → bs ≤ 65535 →
    (framed hf mode bs d ++ terminator w).length
      ≤ d.length + 5 * ((d.length + bs - 1) / bs) + (if w then 1 else 0)

/-- ENCODE gives what ENCODE_BLOCK gives chunk by chunk: the block of the first chunk, then the blocks of the rest,
wherever a multiple of the block size cuts the input (R115). -/
def Obligations.ChunkingInvariance : Prop :=
  ∀ (hf : Hash3) (mode : Mode) (bs : Nat) (d : List Byte), 1 ≤ bs →
    (d ≠ [] → framed hf mode bs d = blockOf hf mode (d.take bs) ++ framed hf mode bs (d.drop bs))
    ∧ ∀ k : Nat, framed hf mode bs d = framed hf mode bs (d.take (k * bs)) ++ framed hf mode bs (d.drop (k * bs))

/-- DECODE of the output of ENCODE gives the input, with or without a terminator, which shows in END_KIND (R123). -/
def Obligations.FramedRoundTrip : Prop :=
  ∀ (hf : Hash3) (mode : Mode) (bs : Nat) (d : List Byte) (w : Bool) (cap : Nat), 1 ≤ bs → bs ≤ 65535 →
    d.length ≤ cap →
    decodeFrames cap (framed hf mode bs d ++ terminator w)
      = ⟨none, (framed hf mode bs d ++ terminator w).length, d, if w then 1#2 else 0#2⟩

/-- A framed stream of whole blocks decodes to the same bytes with a terminator behind it, whatever follows the
terminator (R119, R124). -/
def Obligations.TerminatorLaw : Prop :=
  ∀ (cap : Nat) (f out trailing : List Byte), decodeFrames cap f = ⟨none, f.length, out, 0#2⟩ →
    decodeFrames cap (f ++ 0x00#8 :: trailing) = ⟨none, f.length + 1, out, 1#2⟩

/-! ## Whole commands -/

/-- DECOMPRESS, run to its end: within `clen + 2` steps of the machine it has completed as TD_RUN on the source bytes
says, with the output in the destination and no other byte changed (R100 to R108, R134). The number of
steps rests on the model's choice of one token per step (log 4). -/
def Obligations.DecompressRun : Prop :=
  ∀ (s : State) (m : Mode) (w q : Bool) (e : TdEnd), s.launched = true →
    decodeCtrl s.latched.ctrl = .decompress m w q → e = decodeTokens s.latched.dstCap.toNat s.sourceBytes →
    ∃ t : State, runFor (s.latched.srcLen.toNat + 2) s = .next t ∧ s.sameAgents t ∧ s.sameEncoder t
      ∧ t.bfc = s.bfc ∧ t.holds s.dstLo e.out ∧ s.sameOutside t s.dstLo e.out.length
      ∧ (e.err = none → s.completedAs t e.out.length s.latched.srcLen.toNat 0#2)
      ∧ (∀ k : ErrKind, e.err = some k → s.failedAs t k e.out.length e.tok 0#8)

/-- DECODE, run to its end: within `2 * flen + 3` steps of the machine it has completed as the block parser on the
source bytes says, with the output of the complete blocks in the destination and, on success, no other byte changed
(R116 to R121, R134). The number of steps rests on the model's choice of one token or unit per step (log 4). -/
def Obligations.DecodeRun : Prop :=
  ∀ (s : State) (m : Mode) (w q : Bool) (e : FrameEnd), s.launched = true →
    decodeCtrl s.latched.ctrl = .decode m w q → e = decodeFrames s.latched.dstCap.toNat s.sourceBytes →
    ∃ t : State, runFor (2 * s.latched.srcLen.toNat + 3) s = .next t ∧ s.sameAgents t ∧ s.sameEncoder t
      ∧ t.holds s.dstLo e.out ∧ s.sameOutside t s.dstLo s.latched.dstCap.toNat
      ∧ (e.err = none →
        s.completedAs t e.out.length e.ipos e.endKind ∧ s.sameOutside t s.dstLo e.out.length)
      ∧ (∀ (k : ErrKind) (info : Byte), e.err = some (k, info) → s.failedAs t k e.out.length e.ipos info)

/-- DECODE_BLOCK, run to its end: within `flen + 3` steps of the machine it has completed with the one unit at the start
of the source bytes, its output in the destination and, on success, no other byte changed; END_KIND is 0 after a block,
1 after a terminator, 2 at the end of input, and an error records 0 (R116 to R120, R122, R134). The number of steps
rests on the model's choice of one token or unit per step (log 4). -/
def Obligations.DecodeBlockRun : Prop :=
  ∀ (s : State) (m : Mode) (w q : Bool) (e : FrameEnd), s.launched = true →
    decodeCtrl s.latched.ctrl = .decodeBlock m w q → e = decodeFirst s.latched.dstCap.toNat s.sourceBytes →
    ∃ t : State, runFor (s.latched.srcLen.toNat + 3) s = .next t ∧ s.sameAgents t ∧ s.sameEncoder t
      ∧ t.holds s.dstLo e.out ∧ s.sameOutside t s.dstLo s.latched.dstCap.toNat
      ∧ (e.err = none →
        s.completedAs t e.out.length e.ipos e.endKind ∧ s.sameOutside t s.dstLo e.out.length)
      ∧ (∀ (k : ErrKind) (info : Byte), e.err = some (k, info) → s.failedAs t k 0 0 info)
end

