-- ==== Sys2Proof/Laws/State.lean ====
section
/-!
SUPPORT. What each named update of the state leaves in each field, so that no proof unfolds a record update.
-/
namespace Sys2Proof.Machine

/-! ## store -/

@[simp] theorem State.store_regs (s : State) (a : Nat) (bs : List Byte) : (s.store a bs).regs = s.regs := rfl
@[simp] theorem State.store_resultLen (s : State) (a : Nat) (bs : List Byte) : (s.store a bs).resultLen = s.resultLen := rfl
@[simp] theorem State.store_consumed (s : State) (a : Nat) (bs : List Byte) : (s.store a bs).consumed = s.consumed := rfl
@[simp] theorem State.store_errInfo (s : State) (a : Nat) (bs : List Byte) : (s.store a bs).errInfo = s.errInfo := rfl
@[simp] theorem State.store_done (s : State) (a : Nat) (bs : List Byte) : (s.store a bs).done = s.done := rfl
@[simp] theorem State.store_err (s : State) (a : Nat) (bs : List Byte) : (s.store a bs).err = s.err := rfl
@[simp] theorem State.store_errCode (s : State) (a : Nat) (bs : List Byte) : (s.store a bs).errCode = s.errCode := rfl
@[simp] theorem State.store_endKind (s : State) (a : Nat) (bs : List Byte) : (s.store a bs).endKind = s.endKind := rfl
@[simp] theorem State.store_activity (s : State) (a : Nat) (bs : List Byte) : (s.store a bs).activity = s.activity := rfl
@[simp] theorem State.store_latched (s : State) (a : Nat) (bs : List Byte) : (s.store a bs).latched = s.latched := rfl
@[simp] theorem State.store_mf (s : State) (a : Nat) (bs : List Byte) : (s.store a bs).mf = s.mf := rfl
@[simp] theorem State.store_teCount (s : State) (a : Nat) (bs : List Byte) : (s.store a bs).teCount = s.teCount := rfl
@[simp] theorem State.store_scratch (s : State) (a : Nat) (bs : List Byte) : (s.store a bs).scratch = s.scratch := rfl
@[simp] theorem State.store_td (s : State) (a : Nat) (bs : List Byte) : (s.store a bs).td = s.td := rfl
@[simp] theorem State.store_bfc (s : State) (a : Nat) (bs : List Byte) : (s.store a bs).bfc = s.bfc := rfl
@[simp] theorem State.store_mem (s : State) (a : Nat) (bs : List Byte) : (s.store a bs).mem = writeBytes s.mem a bs := rfl
@[simp] theorem State.store_platform (s : State) (a : Nat) (bs : List Byte) : (s.store a bs).platform = s.platform := rfl
@[simp] theorem State.store_host (s : State) (a : Nat) (bs : List Byte) : (s.store a bs).host = s.host := rfl
@[simp] theorem State.store_launchDraw (s : State) (a : Nat) (bs : List Byte) : (s.store a bs).launchDraw = s.launchDraw := rfl
@[simp] theorem State.store_unseen (s : State) (a : Nat) (bs : List Byte) : (s.store a bs).unseen = s.unseen := rfl
@[simp] theorem State.store_draws (s : State) (a : Nat) (bs : List Byte) : (s.store a bs).draws = s.draws := rfl

/-! ## scramble -/

@[simp] theorem State.scramble_regs (s : State) (a n : Nat) : (s.scramble a n).regs = s.regs := rfl
@[simp] theorem State.scramble_resultLen (s : State) (a n : Nat) : (s.scramble a n).resultLen = s.resultLen := rfl
@[simp] theorem State.scramble_consumed (s : State) (a n : Nat) : (s.scramble a n).consumed = s.consumed := rfl
@[simp] theorem State.scramble_errInfo (s : State) (a n : Nat) : (s.scramble a n).errInfo = s.errInfo := rfl
@[simp] theorem State.scramble_done (s : State) (a n : Nat) : (s.scramble a n).done = s.done := rfl
@[simp] theorem State.scramble_err (s : State) (a n : Nat) : (s.scramble a n).err = s.err := rfl
@[simp] theorem State.scramble_errCode (s : State) (a n : Nat) : (s.scramble a n).errCode = s.errCode := rfl
@[simp] theorem State.scramble_endKind (s : State) (a n : Nat) : (s.scramble a n).endKind = s.endKind := rfl
@[simp] theorem State.scramble_activity (s : State) (a n : Nat) : (s.scramble a n).activity = s.activity := rfl
@[simp] theorem State.scramble_latched (s : State) (a n : Nat) : (s.scramble a n).latched = s.latched := rfl
@[simp] theorem State.scramble_mf (s : State) (a n : Nat) : (s.scramble a n).mf = s.mf := rfl
@[simp] theorem State.scramble_teCount (s : State) (a n : Nat) : (s.scramble a n).teCount = s.teCount := rfl
@[simp] theorem State.scramble_scratch (s : State) (a n : Nat) : (s.scramble a n).scratch = s.scratch := rfl
@[simp] theorem State.scramble_td (s : State) (a n : Nat) : (s.scramble a n).td = s.td := rfl
@[simp] theorem State.scramble_bfc (s : State) (a n : Nat) : (s.scramble a n).bfc = s.bfc := rfl
@[simp] theorem State.scramble_mem (s : State) (a n : Nat) : (s.scramble a n).mem = freeBytes s.draws s.mem a n := rfl
@[simp] theorem State.scramble_platform (s : State) (a n : Nat) : (s.scramble a n).platform = s.platform := rfl
@[simp] theorem State.scramble_host (s : State) (a n : Nat) : (s.scramble a n).host = s.host := rfl
@[simp] theorem State.scramble_launchDraw (s : State) (a n : Nat) : (s.scramble a n).launchDraw = s.launchDraw := rfl
@[simp] theorem State.scramble_unseen (s : State) (a n : Nat) : (s.scramble a n).unseen = s.unseen := rfl
@[simp] theorem State.scramble_draws (s : State) (a n : Nat) : (s.scramble a n).draws = s.draws + 1 := rfl

/-! ## complete -/

@[simp] theorem State.complete_regs (s : State) (r c : Nat) (k : BitVec 2) : (s.complete r c k).regs = s.regs := rfl
@[simp] theorem State.complete_resultLen (s : State) (r c : Nat) (k : BitVec 2) : (s.complete r c k).resultLen = BitVec.ofNat 64 r := rfl
@[simp] theorem State.complete_consumed (s : State) (r c : Nat) (k : BitVec 2) : (s.complete r c k).consumed = BitVec.ofNat 64 c := rfl
@[simp] theorem State.complete_errInfo (s : State) (r c : Nat) (k : BitVec 2) : (s.complete r c k).errInfo = s.errInfo := rfl
@[simp] theorem State.complete_done (s : State) (r c : Nat) (k : BitVec 2) : (s.complete r c k).done = true := rfl
@[simp] theorem State.complete_err (s : State) (r c : Nat) (k : BitVec 2) : (s.complete r c k).err = s.err := rfl
@[simp] theorem State.complete_errCode (s : State) (r c : Nat) (k : BitVec 2) : (s.complete r c k).errCode = 0#4 := rfl
@[simp] theorem State.complete_endKind (s : State) (r c : Nat) (k : BitVec 2) : (s.complete r c k).endKind = k := rfl
@[simp] theorem State.complete_activity (s : State) (r c : Nat) (k : BitVec 2) : (s.complete r c k).activity = .idle := rfl
@[simp] theorem State.complete_latched (s : State) (r c : Nat) (k : BitVec 2) : (s.complete r c k).latched = s.latched := rfl
@[simp] theorem State.complete_mf (s : State) (r c : Nat) (k : BitVec 2) : (s.complete r c k).mf = s.mf := rfl
@[simp] theorem State.complete_teCount (s : State) (r c : Nat) (k : BitVec 2) : (s.complete r c k).teCount = s.teCount := rfl
@[simp] theorem State.complete_scratch (s : State) (r c : Nat) (k : BitVec 2) : (s.complete r c k).scratch = s.scratch := rfl
@[simp] theorem State.complete_td (s : State) (r c : Nat) (k : BitVec 2) : (s.complete r c k).td = s.td := rfl
@[simp] theorem State.complete_bfc (s : State) (r c : Nat) (k : BitVec 2) : (s.complete r c k).bfc = s.bfc := rfl
@[simp] theorem State.complete_mem (s : State) (r c : Nat) (k : BitVec 2) : (s.complete r c k).mem = s.mem := rfl
@[simp] theorem State.complete_platform (s : State) (r c : Nat) (k : BitVec 2) : (s.complete r c k).platform = s.platform := rfl
@[simp] theorem State.complete_host (s : State) (r c : Nat) (k : BitVec 2) : (s.complete r c k).host = s.host := rfl
@[simp] theorem State.complete_launchDraw (s : State) (r c : Nat) (k : BitVec 2) : (s.complete r c k).launchDraw = s.launchDraw := rfl
@[simp] theorem State.complete_unseen (s : State) (r c : Nat) (k : BitVec 2) : (s.complete r c k).unseen = s.unseen := rfl
@[simp] theorem State.complete_draws (s : State) (r c : Nat) (k : BitVec 2) : (s.complete r c k).draws = s.draws := rfl

/-! ## errorEnd -/

@[simp] theorem State.errorEnd_regs (s : State) (e : ErrKind) (r c : Nat) (i : Byte) : (s.errorEnd e r c i).regs = s.regs := rfl
@[simp] theorem State.errorEnd_resultLen (s : State) (e : ErrKind) (r c : Nat) (i : Byte) : (s.errorEnd e r c i).resultLen = BitVec.ofNat 64 r := rfl
@[simp] theorem State.errorEnd_consumed (s : State) (e : ErrKind) (r c : Nat) (i : Byte) : (s.errorEnd e r c i).consumed = BitVec.ofNat 64 c := rfl
@[simp] theorem State.errorEnd_errInfo (s : State) (e : ErrKind) (r c : Nat) (i : Byte) : (s.errorEnd e r c i).errInfo = i := rfl
@[simp] theorem State.errorEnd_done (s : State) (e : ErrKind) (r c : Nat) (i : Byte) : (s.errorEnd e r c i).done = s.done := rfl
@[simp] theorem State.errorEnd_err (s : State) (e : ErrKind) (r c : Nat) (i : Byte) : (s.errorEnd e r c i).err = true := rfl
@[simp] theorem State.errorEnd_errCode (s : State) (e : ErrKind) (r c : Nat) (i : Byte) : (s.errorEnd e r c i).errCode = e.code := rfl
@[simp] theorem State.errorEnd_endKind (s : State) (e : ErrKind) (r c : Nat) (i : Byte) : (s.errorEnd e r c i).endKind = 0#2 := rfl
@[simp] theorem State.errorEnd_activity (s : State) (e : ErrKind) (r c : Nat) (i : Byte) : (s.errorEnd e r c i).activity = .idle := rfl
@[simp] theorem State.errorEnd_latched (s : State) (e : ErrKind) (r c : Nat) (i : Byte) : (s.errorEnd e r c i).latched = s.latched := rfl
@[simp] theorem State.errorEnd_mf (s : State) (e : ErrKind) (r c : Nat) (i : Byte) : (s.errorEnd e r c i).mf = s.mf := rfl
@[simp] theorem State.errorEnd_teCount (s : State) (e : ErrKind) (r c : Nat) (i : Byte) : (s.errorEnd e r c i).teCount = s.teCount := rfl
@[simp] theorem State.errorEnd_scratch (s : State) (e : ErrKind) (r c : Nat) (i : Byte) : (s.errorEnd e r c i).scratch = s.scratch := rfl
@[simp] theorem State.errorEnd_td (s : State) (e : ErrKind) (r c : Nat) (i : Byte) : (s.errorEnd e r c i).td = s.td := rfl
@[simp] theorem State.errorEnd_bfc (s : State) (e : ErrKind) (r c : Nat) (i : Byte) : (s.errorEnd e r c i).bfc = s.bfc := rfl
@[simp] theorem State.errorEnd_mem (s : State) (e : ErrKind) (r c : Nat) (i : Byte) : (s.errorEnd e r c i).mem = s.mem := rfl
@[simp] theorem State.errorEnd_platform (s : State) (e : ErrKind) (r c : Nat) (i : Byte) : (s.errorEnd e r c i).platform = s.platform := rfl
@[simp] theorem State.errorEnd_host (s : State) (e : ErrKind) (r c : Nat) (i : Byte) : (s.errorEnd e r c i).host = s.host := rfl
@[simp] theorem State.errorEnd_launchDraw (s : State) (e : ErrKind) (r c : Nat) (i : Byte) : (s.errorEnd e r c i).launchDraw = s.launchDraw := rfl
@[simp] theorem State.errorEnd_unseen (s : State) (e : ErrKind) (r c : Nat) (i : Byte) : (s.errorEnd e r c i).unseen = s.unseen := rfl
@[simp] theorem State.errorEnd_draws (s : State) (e : ErrKind) (r c : Nat) (i : Byte) : (s.errorEnd e r c i).draws = s.draws := rfl

/-! ## acknowledge -/

@[simp] theorem State.acknowledge_regs (s : State) (v : Word) : (s.acknowledge v).regs = s.regs := rfl
@[simp] theorem State.acknowledge_resultLen (s : State) (v : Word) : (s.acknowledge v).resultLen = s.resultLen := rfl
@[simp] theorem State.acknowledge_consumed (s : State) (v : Word) : (s.acknowledge v).consumed = s.consumed := rfl
@[simp] theorem State.acknowledge_errInfo (s : State) (v : Word) : (s.acknowledge v).errInfo = s.errInfo := rfl
@[simp] theorem State.acknowledge_done (s : State) (v : Word) : (s.acknowledge v).done = (s.done && !(v.getLsbD 1)) := rfl
@[simp] theorem State.acknowledge_err (s : State) (v : Word) : (s.acknowledge v).err = (s.err && !(v.getLsbD 2)) := rfl
@[simp] theorem State.acknowledge_errCode (s : State) (v : Word) : (s.acknowledge v).errCode = s.errCode := rfl
@[simp] theorem State.acknowledge_endKind (s : State) (v : Word) : (s.acknowledge v).endKind = s.endKind := rfl
@[simp] theorem State.acknowledge_activity (s : State) (v : Word) : (s.acknowledge v).activity = s.activity := rfl
@[simp] theorem State.acknowledge_latched (s : State) (v : Word) : (s.acknowledge v).latched = s.latched := rfl
@[simp] theorem State.acknowledge_mf (s : State) (v : Word) : (s.acknowledge v).mf = s.mf := rfl
@[simp] theorem State.acknowledge_teCount (s : State) (v : Word) : (s.acknowledge v).teCount = s.teCount := rfl
@[simp] theorem State.acknowledge_scratch (s : State) (v : Word) : (s.acknowledge v).scratch = s.scratch := rfl
@[simp] theorem State.acknowledge_td (s : State) (v : Word) : (s.acknowledge v).td = s.td := rfl
@[simp] theorem State.acknowledge_bfc (s : State) (v : Word) : (s.acknowledge v).bfc = s.bfc := rfl
@[simp] theorem State.acknowledge_mem (s : State) (v : Word) : (s.acknowledge v).mem = s.mem := rfl
@[simp] theorem State.acknowledge_platform (s : State) (v : Word) : (s.acknowledge v).platform = s.platform := rfl
@[simp] theorem State.acknowledge_host (s : State) (v : Word) : (s.acknowledge v).host = s.host := rfl
@[simp] theorem State.acknowledge_launchDraw (s : State) (v : Word) : (s.acknowledge v).launchDraw = s.launchDraw := rfl
@[simp] theorem State.acknowledge_unseen (s : State) (v : Word) : (s.acknowledge v).unseen = s.unseen := rfl
@[simp] theorem State.acknowledge_draws (s : State) (v : Word) : (s.acknowledge v).draws = s.draws := rfl

/-! ## accept -/

@[simp] theorem State.accept_regs (s : State) : (s.accept).regs = s.regs := rfl
@[simp] theorem State.accept_resultLen (s : State) : (s.accept).resultLen = 0#64 := rfl
@[simp] theorem State.accept_consumed (s : State) : (s.accept).consumed = 0#64 := rfl
@[simp] theorem State.accept_errInfo (s : State) : (s.accept).errInfo = 0#8 := rfl
@[simp] theorem State.accept_done (s : State) : (s.accept).done = false := rfl
@[simp] theorem State.accept_err (s : State) : (s.accept).err = false := rfl
@[simp] theorem State.accept_errCode (s : State) : (s.accept).errCode = 0#4 := rfl
@[simp] theorem State.accept_endKind (s : State) : (s.accept).endKind = 0#2 := rfl
@[simp] theorem State.accept_activity (s : State) : (s.accept).activity = .dispatch := rfl
@[simp] theorem State.accept_latched (s : State) : (s.accept).latched = s.regs := rfl
@[simp] theorem State.accept_mf (s : State) : (s.accept).mf = s.mf := rfl
@[simp] theorem State.accept_teCount (s : State) : (s.accept).teCount = s.teCount := rfl
@[simp] theorem State.accept_scratch (s : State) : (s.accept).scratch = s.scratch := rfl
@[simp] theorem State.accept_td (s : State) : (s.accept).td = s.td := rfl
@[simp] theorem State.accept_bfc (s : State) : (s.accept).bfc = s.bfc := rfl
@[simp] theorem State.accept_mem (s : State) : (s.accept).mem = s.mem := rfl
@[simp] theorem State.accept_platform (s : State) : (s.accept).platform = s.platform := rfl
@[simp] theorem State.accept_launchDraw (s : State) : (s.accept).launchDraw = s.draws := rfl
@[simp] theorem State.accept_unseen (s : State) : (s.accept).unseen = s.host.unordered ++ s.host.uncleaned := rfl
@[simp] theorem State.accept_draws (s : State) : (s.accept).draws = s.draws + 1 := rfl

/-! ## withCoded -/

@[simp] theorem State.withCoded_regs (s : State) (r : Coded) (cap : Nat) : (s.withCoded r cap).regs = s.regs := rfl
@[simp] theorem State.withCoded_resultLen (s : State) (r : Coded) (cap : Nat) : (s.withCoded r cap).resultLen = s.resultLen := rfl
@[simp] theorem State.withCoded_consumed (s : State) (r : Coded) (cap : Nat) : (s.withCoded r cap).consumed = s.consumed := rfl
@[simp] theorem State.withCoded_errInfo (s : State) (r : Coded) (cap : Nat) : (s.withCoded r cap).errInfo = s.errInfo := rfl
@[simp] theorem State.withCoded_done (s : State) (r : Coded) (cap : Nat) : (s.withCoded r cap).done = s.done := rfl
@[simp] theorem State.withCoded_err (s : State) (r : Coded) (cap : Nat) : (s.withCoded r cap).err = s.err := rfl
@[simp] theorem State.withCoded_errCode (s : State) (r : Coded) (cap : Nat) : (s.withCoded r cap).errCode = s.errCode := rfl
@[simp] theorem State.withCoded_endKind (s : State) (r : Coded) (cap : Nat) : (s.withCoded r cap).endKind = s.endKind := rfl
@[simp] theorem State.withCoded_activity (s : State) (r : Coded) (cap : Nat) : (s.withCoded r cap).activity = s.activity := rfl
@[simp] theorem State.withCoded_latched (s : State) (r : Coded) (cap : Nat) : (s.withCoded r cap).latched = s.latched := rfl
@[simp] theorem State.withCoded_mf (s : State) (r : Coded) (cap : Nat) : (s.withCoded r cap).mf = r.mf := rfl
@[simp] theorem State.withCoded_teCount (s : State) (r : Coded) (cap : Nat) : (s.withCoded r cap).teCount = r.count cap := rfl
@[simp] theorem State.withCoded_scratch (s : State) (r : Coded) (cap : Nat) : (s.withCoded r cap).scratch = s.scratch := rfl
@[simp] theorem State.withCoded_td (s : State) (r : Coded) (cap : Nat) : (s.withCoded r cap).td = s.td := rfl
@[simp] theorem State.withCoded_bfc (s : State) (r : Coded) (cap : Nat) : (s.withCoded r cap).bfc = s.bfc := rfl
@[simp] theorem State.withCoded_mem (s : State) (r : Coded) (cap : Nat) : (s.withCoded r cap).mem = s.mem := rfl
@[simp] theorem State.withCoded_platform (s : State) (r : Coded) (cap : Nat) : (s.withCoded r cap).platform = s.platform := rfl
@[simp] theorem State.withCoded_host (s : State) (r : Coded) (cap : Nat) : (s.withCoded r cap).host = s.host := rfl
@[simp] theorem State.withCoded_launchDraw (s : State) (r : Coded) (cap : Nat) : (s.withCoded r cap).launchDraw = s.launchDraw := rfl
@[simp] theorem State.withCoded_unseen (s : State) (r : Coded) (cap : Nat) : (s.withCoded r cap).unseen = s.unseen := rfl
@[simp] theorem State.withCoded_draws (s : State) (r : Coded) (cap : Nat) : (s.withCoded r cap).draws = s.draws := rfl

/-! ## withChunk -/

@[simp] theorem State.withChunk_regs (s : State) (r : Coded) (u : Nat) : (s.withChunk r u).regs = s.regs := rfl
@[simp] theorem State.withChunk_resultLen (s : State) (r : Coded) (u : Nat) : (s.withChunk r u).resultLen = s.resultLen := rfl
@[simp] theorem State.withChunk_consumed (s : State) (r : Coded) (u : Nat) : (s.withChunk r u).consumed = s.consumed := rfl
@[simp] theorem State.withChunk_errInfo (s : State) (r : Coded) (u : Nat) : (s.withChunk r u).errInfo = s.errInfo := rfl
@[simp] theorem State.withChunk_done (s : State) (r : Coded) (u : Nat) : (s.withChunk r u).done = s.done := rfl
@[simp] theorem State.withChunk_err (s : State) (r : Coded) (u : Nat) : (s.withChunk r u).err = s.err := rfl
@[simp] theorem State.withChunk_errCode (s : State) (r : Coded) (u : Nat) : (s.withChunk r u).errCode = s.errCode := rfl
@[simp] theorem State.withChunk_endKind (s : State) (r : Coded) (u : Nat) : (s.withChunk r u).endKind = s.endKind := rfl
@[simp] theorem State.withChunk_activity (s : State) (r : Coded) (u : Nat) : (s.withChunk r u).activity = s.activity := rfl
@[simp] theorem State.withChunk_latched (s : State) (r : Coded) (u : Nat) : (s.withChunk r u).latched = s.latched := rfl
@[simp] theorem State.withChunk_mf (s : State) (r : Coded) (u : Nat) : (s.withChunk r u).mf = r.mf := rfl
@[simp] theorem State.withChunk_teCount (s : State) (r : Coded) (u : Nat) : (s.withChunk r u).teCount = r.count (scratchBudget u) := rfl
@[simp] theorem State.withChunk_scratch (s : State) (r : Coded) (u : Nat) : (s.withChunk r u).scratch = r.out := rfl
@[simp] theorem State.withChunk_td (s : State) (r : Coded) (u : Nat) : (s.withChunk r u).td = s.td := rfl
@[simp] theorem State.withChunk_bfc (s : State) (r : Coded) (u : Nat) : (s.withChunk r u).bfc = s.bfc := rfl
@[simp] theorem State.withChunk_mem (s : State) (r : Coded) (u : Nat) : (s.withChunk r u).mem = s.mem := rfl
@[simp] theorem State.withChunk_platform (s : State) (r : Coded) (u : Nat) : (s.withChunk r u).platform = s.platform := rfl
@[simp] theorem State.withChunk_host (s : State) (r : Coded) (u : Nat) : (s.withChunk r u).host = s.host := rfl
@[simp] theorem State.withChunk_launchDraw (s : State) (r : Coded) (u : Nat) : (s.withChunk r u).launchDraw = s.launchDraw := rfl
@[simp] theorem State.withChunk_unseen (s : State) (r : Coded) (u : Nat) : (s.withChunk r u).unseen = s.unseen := rfl
@[simp] theorem State.withChunk_draws (s : State) (r : Coded) (u : Nat) : (s.withChunk r u).draws = s.draws := rfl

/-! ## withBlock -/

@[simp] theorem State.withBlock_regs (s : State) (blk : List Byte) (u : Nat) : (s.withBlock blk u).regs = s.regs := rfl
@[simp] theorem State.withBlock_resultLen (s : State) (blk : List Byte) (u : Nat) : (s.withBlock blk u).resultLen = s.resultLen := rfl
@[simp] theorem State.withBlock_consumed (s : State) (blk : List Byte) (u : Nat) : (s.withBlock blk u).consumed = s.consumed := rfl
@[simp] theorem State.withBlock_errInfo (s : State) (blk : List Byte) (u : Nat) : (s.withBlock blk u).errInfo = s.errInfo := rfl
@[simp] theorem State.withBlock_done (s : State) (blk : List Byte) (u : Nat) : (s.withBlock blk u).done = s.done := rfl
@[simp] theorem State.withBlock_err (s : State) (blk : List Byte) (u : Nat) : (s.withBlock blk u).err = s.err := rfl
@[simp] theorem State.withBlock_errCode (s : State) (blk : List Byte) (u : Nat) : (s.withBlock blk u).errCode = s.errCode := rfl
@[simp] theorem State.withBlock_endKind (s : State) (blk : List Byte) (u : Nat) : (s.withBlock blk u).endKind = s.endKind := rfl
@[simp] theorem State.withBlock_activity (s : State) (blk : List Byte) (u : Nat) : (s.withBlock blk u).activity = s.activity := rfl
@[simp] theorem State.withBlock_latched (s : State) (blk : List Byte) (u : Nat) : (s.withBlock blk u).latched = s.latched := rfl
@[simp] theorem State.withBlock_mf (s : State) (blk : List Byte) (u : Nat) : (s.withBlock blk u).mf = s.mf := rfl
@[simp] theorem State.withBlock_teCount (s : State) (blk : List Byte) (u : Nat) : (s.withBlock blk u).teCount = s.teCount := rfl
@[simp] theorem State.withBlock_scratch (s : State) (blk : List Byte) (u : Nat) : (s.withBlock blk u).scratch = s.scratch := rfl
@[simp] theorem State.withBlock_td (s : State) (blk : List Byte) (u : Nat) : (s.withBlock blk u).td = s.td := rfl
@[simp] theorem State.withBlock_bfc (s : State) (blk : List Byte) (u : Nat) : (s.withBlock blk u).bfc = { s.bfc with ipos := s.bfc.ipos + u, opos := s.bfc.opos + blk.length } := rfl
@[simp] theorem State.withBlock_mem (s : State) (blk : List Byte) (u : Nat) : (s.withBlock blk u).mem = writeBytes s.mem (s.dstLo + s.bfc.opos) blk := rfl
@[simp] theorem State.withBlock_platform (s : State) (blk : List Byte) (u : Nat) : (s.withBlock blk u).platform = s.platform := rfl
@[simp] theorem State.withBlock_host (s : State) (blk : List Byte) (u : Nat) : (s.withBlock blk u).host = s.host := rfl
@[simp] theorem State.withBlock_launchDraw (s : State) (blk : List Byte) (u : Nat) : (s.withBlock blk u).launchDraw = s.launchDraw := rfl
@[simp] theorem State.withBlock_unseen (s : State) (blk : List Byte) (u : Nat) : (s.withBlock blk u).unseen = s.unseen := rfl
@[simp] theorem State.withBlock_draws (s : State) (blk : List Byte) (u : Nat) : (s.withBlock blk u).draws = s.draws := rfl

/-! ## withCursors -/

@[simp] theorem State.withCursors_regs (s : State) (i o : Nat) : (s.withCursors i o).regs = s.regs := rfl
@[simp] theorem State.withCursors_resultLen (s : State) (i o : Nat) : (s.withCursors i o).resultLen = s.resultLen := rfl
@[simp] theorem State.withCursors_consumed (s : State) (i o : Nat) : (s.withCursors i o).consumed = s.consumed := rfl
@[simp] theorem State.withCursors_errInfo (s : State) (i o : Nat) : (s.withCursors i o).errInfo = s.errInfo := rfl
@[simp] theorem State.withCursors_done (s : State) (i o : Nat) : (s.withCursors i o).done = s.done := rfl
@[simp] theorem State.withCursors_err (s : State) (i o : Nat) : (s.withCursors i o).err = s.err := rfl
@[simp] theorem State.withCursors_errCode (s : State) (i o : Nat) : (s.withCursors i o).errCode = s.errCode := rfl
@[simp] theorem State.withCursors_endKind (s : State) (i o : Nat) : (s.withCursors i o).endKind = s.endKind := rfl
@[simp] theorem State.withCursors_activity (s : State) (i o : Nat) : (s.withCursors i o).activity = s.activity := rfl
@[simp] theorem State.withCursors_latched (s : State) (i o : Nat) : (s.withCursors i o).latched = s.latched := rfl
@[simp] theorem State.withCursors_mf (s : State) (i o : Nat) : (s.withCursors i o).mf = s.mf := rfl
@[simp] theorem State.withCursors_teCount (s : State) (i o : Nat) : (s.withCursors i o).teCount = s.teCount := rfl
@[simp] theorem State.withCursors_scratch (s : State) (i o : Nat) : (s.withCursors i o).scratch = s.scratch := rfl
@[simp] theorem State.withCursors_td (s : State) (i o : Nat) : (s.withCursors i o).td = s.td := rfl
@[simp] theorem State.withCursors_bfc (s : State) (i o : Nat) : (s.withCursors i o).bfc = { s.bfc with ipos := i, opos := o } := rfl
@[simp] theorem State.withCursors_mem (s : State) (i o : Nat) : (s.withCursors i o).mem = s.mem := rfl
@[simp] theorem State.withCursors_platform (s : State) (i o : Nat) : (s.withCursors i o).platform = s.platform := rfl
@[simp] theorem State.withCursors_host (s : State) (i o : Nat) : (s.withCursors i o).host = s.host := rfl
@[simp] theorem State.withCursors_launchDraw (s : State) (i o : Nat) : (s.withCursors i o).launchDraw = s.launchDraw := rfl
@[simp] theorem State.withCursors_unseen (s : State) (i o : Nat) : (s.withCursors i o).unseen = s.unseen := rfl
@[simp] theorem State.withCursors_draws (s : State) (i o : Nat) : (s.withCursors i o).draws = s.draws := rfl

/-! ## startToken -/

@[simp] theorem State.startToken_regs (s : State) : (s.startToken).regs = s.regs := rfl
@[simp] theorem State.startToken_resultLen (s : State) : (s.startToken).resultLen = s.resultLen := rfl
@[simp] theorem State.startToken_consumed (s : State) : (s.startToken).consumed = s.consumed := rfl
@[simp] theorem State.startToken_errInfo (s : State) : (s.startToken).errInfo = s.errInfo := rfl
@[simp] theorem State.startToken_done (s : State) : (s.startToken).done = s.done := rfl
@[simp] theorem State.startToken_err (s : State) : (s.startToken).err = s.err := rfl
@[simp] theorem State.startToken_errCode (s : State) : (s.startToken).errCode = s.errCode := rfl
@[simp] theorem State.startToken_endKind (s : State) : (s.startToken).endKind = s.endKind := rfl
@[simp] theorem State.startToken_activity (s : State) : (s.startToken).activity = s.activity := rfl
@[simp] theorem State.startToken_latched (s : State) : (s.startToken).latched = s.latched := rfl
@[simp] theorem State.startToken_mf (s : State) : (s.startToken).mf = s.mf := rfl
@[simp] theorem State.startToken_teCount (s : State) : (s.startToken).teCount = s.teCount := rfl
@[simp] theorem State.startToken_scratch (s : State) : (s.startToken).scratch = s.scratch := rfl
@[simp] theorem State.startToken_td (s : State) : (s.startToken).td = { s.td with tok := s.td.ip } := rfl
@[simp] theorem State.startToken_bfc (s : State) : (s.startToken).bfc = s.bfc := rfl
@[simp] theorem State.startToken_mem (s : State) : (s.startToken).mem = s.mem := rfl
@[simp] theorem State.startToken_platform (s : State) : (s.startToken).platform = s.platform := rfl
@[simp] theorem State.startToken_host (s : State) : (s.startToken).host = s.host := rfl
@[simp] theorem State.startToken_launchDraw (s : State) : (s.startToken).launchDraw = s.launchDraw := rfl
@[simp] theorem State.startToken_unseen (s : State) : (s.startToken).unseen = s.unseen := rfl
@[simp] theorem State.startToken_draws (s : State) : (s.startToken).draws = s.draws := rfl

/-! ## endToken -/

@[simp] theorem State.endToken_regs (s : State) (m : List Host.Cell) (c p : Nat) : (s.endToken m c p).regs = s.regs := rfl
@[simp] theorem State.endToken_resultLen (s : State) (m : List Host.Cell) (c p : Nat) : (s.endToken m c p).resultLen = s.resultLen := rfl
@[simp] theorem State.endToken_consumed (s : State) (m : List Host.Cell) (c p : Nat) : (s.endToken m c p).consumed = s.consumed := rfl
@[simp] theorem State.endToken_errInfo (s : State) (m : List Host.Cell) (c p : Nat) : (s.endToken m c p).errInfo = s.errInfo := rfl
@[simp] theorem State.endToken_done (s : State) (m : List Host.Cell) (c p : Nat) : (s.endToken m c p).done = s.done := rfl
@[simp] theorem State.endToken_err (s : State) (m : List Host.Cell) (c p : Nat) : (s.endToken m c p).err = s.err := rfl
@[simp] theorem State.endToken_errCode (s : State) (m : List Host.Cell) (c p : Nat) : (s.endToken m c p).errCode = s.errCode := rfl
@[simp] theorem State.endToken_endKind (s : State) (m : List Host.Cell) (c p : Nat) : (s.endToken m c p).endKind = s.endKind := rfl
@[simp] theorem State.endToken_activity (s : State) (m : List Host.Cell) (c p : Nat) : (s.endToken m c p).activity = s.activity := rfl
@[simp] theorem State.endToken_latched (s : State) (m : List Host.Cell) (c p : Nat) : (s.endToken m c p).latched = s.latched := rfl
@[simp] theorem State.endToken_mf (s : State) (m : List Host.Cell) (c p : Nat) : (s.endToken m c p).mf = s.mf := rfl
@[simp] theorem State.endToken_teCount (s : State) (m : List Host.Cell) (c p : Nat) : (s.endToken m c p).teCount = s.teCount := rfl
@[simp] theorem State.endToken_scratch (s : State) (m : List Host.Cell) (c p : Nat) : (s.endToken m c p).scratch = s.scratch := rfl
@[simp] theorem State.endToken_td (s : State) (m : List Host.Cell) (c p : Nat) : (s.endToken m c p).td = { s.td with ip := s.td.ip + c, op := s.td.op + p } := rfl
@[simp] theorem State.endToken_bfc (s : State) (m : List Host.Cell) (c p : Nat) : (s.endToken m c p).bfc = s.bfc := rfl
@[simp] theorem State.endToken_mem (s : State) (m : List Host.Cell) (c p : Nat) : (s.endToken m c p).mem = m := rfl
@[simp] theorem State.endToken_platform (s : State) (m : List Host.Cell) (c p : Nat) : (s.endToken m c p).platform = s.platform := rfl
@[simp] theorem State.endToken_host (s : State) (m : List Host.Cell) (c p : Nat) : (s.endToken m c p).host = s.host := rfl
@[simp] theorem State.endToken_launchDraw (s : State) (m : List Host.Cell) (c p : Nat) : (s.endToken m c p).launchDraw = s.launchDraw := rfl
@[simp] theorem State.endToken_unseen (s : State) (m : List Host.Cell) (c p : Nat) : (s.endToken m c p).unseen = s.unseen := rfl
@[simp] theorem State.endToken_draws (s : State) (m : List Host.Cell) (c p : Nat) : (s.endToken m c p).draws = s.draws := rfl

/-! ## startTokens -/

@[simp] theorem State.startTokens_regs (s : State) (w : TdOwner) (b n o k : Nat) : (s.startTokens w b n o k).regs = s.regs := rfl
@[simp] theorem State.startTokens_resultLen (s : State) (w : TdOwner) (b n o k : Nat) : (s.startTokens w b n o k).resultLen = s.resultLen := rfl
@[simp] theorem State.startTokens_consumed (s : State) (w : TdOwner) (b n o k : Nat) : (s.startTokens w b n o k).consumed = s.consumed := rfl
@[simp] theorem State.startTokens_errInfo (s : State) (w : TdOwner) (b n o k : Nat) : (s.startTokens w b n o k).errInfo = s.errInfo := rfl
@[simp] theorem State.startTokens_done (s : State) (w : TdOwner) (b n o k : Nat) : (s.startTokens w b n o k).done = s.done := rfl
@[simp] theorem State.startTokens_err (s : State) (w : TdOwner) (b n o k : Nat) : (s.startTokens w b n o k).err = s.err := rfl
@[simp] theorem State.startTokens_errCode (s : State) (w : TdOwner) (b n o k : Nat) : (s.startTokens w b n o k).errCode = s.errCode := rfl
@[simp] theorem State.startTokens_endKind (s : State) (w : TdOwner) (b n o k : Nat) : (s.startTokens w b n o k).endKind = s.endKind := rfl
@[simp] theorem State.startTokens_activity (s : State) (w : TdOwner) (b n o k : Nat) : (s.startTokens w b n o k).activity = .tokens := rfl
@[simp] theorem State.startTokens_latched (s : State) (w : TdOwner) (b n o k : Nat) : (s.startTokens w b n o k).latched = s.latched := rfl
@[simp] theorem State.startTokens_mf (s : State) (w : TdOwner) (b n o k : Nat) : (s.startTokens w b n o k).mf = s.mf := rfl
@[simp] theorem State.startTokens_teCount (s : State) (w : TdOwner) (b n o k : Nat) : (s.startTokens w b n o k).teCount = s.teCount := rfl
@[simp] theorem State.startTokens_scratch (s : State) (w : TdOwner) (b n o k : Nat) : (s.startTokens w b n o k).scratch = s.scratch := rfl
@[simp] theorem State.startTokens_td (s : State) (w : TdOwner) (b n o k : Nat) : (s.startTokens w b n o k).td = ⟨w, b, n, o, k, 0, 0, 0⟩ := rfl
@[simp] theorem State.startTokens_bfc (s : State) (w : TdOwner) (b n o k : Nat) : (s.startTokens w b n o k).bfc = s.bfc := rfl
@[simp] theorem State.startTokens_mem (s : State) (w : TdOwner) (b n o k : Nat) : (s.startTokens w b n o k).mem = s.mem := rfl
@[simp] theorem State.startTokens_platform (s : State) (w : TdOwner) (b n o k : Nat) : (s.startTokens w b n o k).platform = s.platform := rfl
@[simp] theorem State.startTokens_host (s : State) (w : TdOwner) (b n o k : Nat) : (s.startTokens w b n o k).host = s.host := rfl
@[simp] theorem State.startTokens_launchDraw (s : State) (w : TdOwner) (b n o k : Nat) : (s.startTokens w b n o k).launchDraw = s.launchDraw := rfl
@[simp] theorem State.startTokens_unseen (s : State) (w : TdOwner) (b n o k : Nat) : (s.startTokens w b n o k).unseen = s.unseen := rfl
@[simp] theorem State.startTokens_draws (s : State) (w : TdOwner) (b n o k : Nat) : (s.startTokens w b n o k).draws = s.draws := rfl

/-! ## withFramer -/

@[simp] theorem State.withFramer_regs (s : State) (w : BfcOwner) (i o : Nat) : (s.withFramer w i o).regs = s.regs := rfl
@[simp] theorem State.withFramer_resultLen (s : State) (w : BfcOwner) (i o : Nat) : (s.withFramer w i o).resultLen = s.resultLen := rfl
@[simp] theorem State.withFramer_consumed (s : State) (w : BfcOwner) (i o : Nat) : (s.withFramer w i o).consumed = s.consumed := rfl
@[simp] theorem State.withFramer_errInfo (s : State) (w : BfcOwner) (i o : Nat) : (s.withFramer w i o).errInfo = s.errInfo := rfl
@[simp] theorem State.withFramer_done (s : State) (w : BfcOwner) (i o : Nat) : (s.withFramer w i o).done = s.done := rfl
@[simp] theorem State.withFramer_err (s : State) (w : BfcOwner) (i o : Nat) : (s.withFramer w i o).err = s.err := rfl
@[simp] theorem State.withFramer_errCode (s : State) (w : BfcOwner) (i o : Nat) : (s.withFramer w i o).errCode = s.errCode := rfl
@[simp] theorem State.withFramer_endKind (s : State) (w : BfcOwner) (i o : Nat) : (s.withFramer w i o).endKind = s.endKind := rfl
@[simp] theorem State.withFramer_activity (s : State) (w : BfcOwner) (i o : Nat) : (s.withFramer w i o).activity = s.activity := rfl
@[simp] theorem State.withFramer_latched (s : State) (w : BfcOwner) (i o : Nat) : (s.withFramer w i o).latched = s.latched := rfl
@[simp] theorem State.withFramer_mf (s : State) (w : BfcOwner) (i o : Nat) : (s.withFramer w i o).mf = s.mf := rfl
@[simp] theorem State.withFramer_teCount (s : State) (w : BfcOwner) (i o : Nat) : (s.withFramer w i o).teCount = s.teCount := rfl
@[simp] theorem State.withFramer_scratch (s : State) (w : BfcOwner) (i o : Nat) : (s.withFramer w i o).scratch = s.scratch := rfl
@[simp] theorem State.withFramer_td (s : State) (w : BfcOwner) (i o : Nat) : (s.withFramer w i o).td = s.td := rfl
@[simp] theorem State.withFramer_bfc (s : State) (w : BfcOwner) (i o : Nat) : (s.withFramer w i o).bfc = ⟨w, i, o⟩ := rfl
@[simp] theorem State.withFramer_mem (s : State) (w : BfcOwner) (i o : Nat) : (s.withFramer w i o).mem = s.mem := rfl
@[simp] theorem State.withFramer_platform (s : State) (w : BfcOwner) (i o : Nat) : (s.withFramer w i o).platform = s.platform := rfl
@[simp] theorem State.withFramer_host (s : State) (w : BfcOwner) (i o : Nat) : (s.withFramer w i o).host = s.host := rfl
@[simp] theorem State.withFramer_launchDraw (s : State) (w : BfcOwner) (i o : Nat) : (s.withFramer w i o).launchDraw = s.launchDraw := rfl
@[simp] theorem State.withFramer_unseen (s : State) (w : BfcOwner) (i o : Nat) : (s.withFramer w i o).unseen = s.unseen := rfl
@[simp] theorem State.withFramer_draws (s : State) (w : BfcOwner) (i o : Nat) : (s.withFramer w i o).draws = s.draws := rfl

/-! ## startBlocks -/

@[simp] theorem State.startBlocks_regs (s : State) (w : BfcOwner) : (s.startBlocks w).regs = s.regs := rfl
@[simp] theorem State.startBlocks_resultLen (s : State) (w : BfcOwner) : (s.startBlocks w).resultLen = s.resultLen := rfl
@[simp] theorem State.startBlocks_consumed (s : State) (w : BfcOwner) : (s.startBlocks w).consumed = s.consumed := rfl
@[simp] theorem State.startBlocks_errInfo (s : State) (w : BfcOwner) : (s.startBlocks w).errInfo = s.errInfo := rfl
@[simp] theorem State.startBlocks_done (s : State) (w : BfcOwner) : (s.startBlocks w).done = s.done := rfl
@[simp] theorem State.startBlocks_err (s : State) (w : BfcOwner) : (s.startBlocks w).err = s.err := rfl
@[simp] theorem State.startBlocks_errCode (s : State) (w : BfcOwner) : (s.startBlocks w).errCode = s.errCode := rfl
@[simp] theorem State.startBlocks_endKind (s : State) (w : BfcOwner) : (s.startBlocks w).endKind = s.endKind := rfl
@[simp] theorem State.startBlocks_activity (s : State) (w : BfcOwner) : (s.startBlocks w).activity = .blocks := rfl
@[simp] theorem State.startBlocks_latched (s : State) (w : BfcOwner) : (s.startBlocks w).latched = s.latched := rfl
@[simp] theorem State.startBlocks_mf (s : State) (w : BfcOwner) : (s.startBlocks w).mf = s.mf := rfl
@[simp] theorem State.startBlocks_teCount (s : State) (w : BfcOwner) : (s.startBlocks w).teCount = s.teCount := rfl
@[simp] theorem State.startBlocks_scratch (s : State) (w : BfcOwner) : (s.startBlocks w).scratch = s.scratch := rfl
@[simp] theorem State.startBlocks_td (s : State) (w : BfcOwner) : (s.startBlocks w).td = s.td := rfl
@[simp] theorem State.startBlocks_bfc (s : State) (w : BfcOwner) : (s.startBlocks w).bfc = ⟨w, 0, 0⟩ := rfl
@[simp] theorem State.startBlocks_mem (s : State) (w : BfcOwner) : (s.startBlocks w).mem = s.mem := rfl
@[simp] theorem State.startBlocks_platform (s : State) (w : BfcOwner) : (s.startBlocks w).platform = s.platform := rfl
@[simp] theorem State.startBlocks_host (s : State) (w : BfcOwner) : (s.startBlocks w).host = s.host := rfl
@[simp] theorem State.startBlocks_launchDraw (s : State) (w : BfcOwner) : (s.startBlocks w).launchDraw = s.launchDraw := rfl
@[simp] theorem State.startBlocks_unseen (s : State) (w : BfcOwner) : (s.startBlocks w).unseen = s.unseen := rfl
@[simp] theorem State.startBlocks_draws (s : State) (w : BfcOwner) : (s.startBlocks w).draws = s.draws := rfl

/-! ## observe -/

@[simp] theorem State.observe_regs (s : State) (v : Word) : (s.observe v).regs = s.regs := rfl
@[simp] theorem State.observe_resultLen (s : State) (v : Word) : (s.observe v).resultLen = s.resultLen := rfl
@[simp] theorem State.observe_consumed (s : State) (v : Word) : (s.observe v).consumed = s.consumed := rfl
@[simp] theorem State.observe_errInfo (s : State) (v : Word) : (s.observe v).errInfo = s.errInfo := rfl
@[simp] theorem State.observe_done (s : State) (v : Word) : (s.observe v).done = s.done := rfl
@[simp] theorem State.observe_err (s : State) (v : Word) : (s.observe v).err = s.err := rfl
@[simp] theorem State.observe_errCode (s : State) (v : Word) : (s.observe v).errCode = s.errCode := rfl
@[simp] theorem State.observe_endKind (s : State) (v : Word) : (s.observe v).endKind = s.endKind := rfl
@[simp] theorem State.observe_activity (s : State) (v : Word) : (s.observe v).activity = s.activity := rfl
@[simp] theorem State.observe_latched (s : State) (v : Word) : (s.observe v).latched = s.latched := rfl
@[simp] theorem State.observe_mf (s : State) (v : Word) : (s.observe v).mf = s.mf := rfl
@[simp] theorem State.observe_teCount (s : State) (v : Word) : (s.observe v).teCount = s.teCount := rfl
@[simp] theorem State.observe_scratch (s : State) (v : Word) : (s.observe v).scratch = s.scratch := rfl
@[simp] theorem State.observe_td (s : State) (v : Word) : (s.observe v).td = s.td := rfl
@[simp] theorem State.observe_bfc (s : State) (v : Word) : (s.observe v).bfc = s.bfc := rfl
@[simp] theorem State.observe_mem (s : State) (v : Word) : (s.observe v).mem = s.mem := rfl
@[simp] theorem State.observe_platform (s : State) (v : Word) : (s.observe v).platform = s.platform := rfl
@[simp] theorem State.observe_host (s : State) (v : Word) : (s.observe v).host = { s.host with seen := v :: s.host.seen } := rfl
@[simp] theorem State.observe_launchDraw (s : State) (v : Word) : (s.observe v).launchDraw = s.launchDraw := rfl
@[simp] theorem State.observe_unseen (s : State) (v : Word) : (s.observe v).unseen = s.unseen := rfl
@[simp] theorem State.observe_draws (s : State) (v : Word) : (s.observe v).draws = s.draws := rfl

/-! ## hostWrite -/

@[simp] theorem State.hostWrite_regs (s : State) (a : Nat) (b : Byte) : (s.hostWrite a b).regs = s.regs := rfl
@[simp] theorem State.hostWrite_resultLen (s : State) (a : Nat) (b : Byte) : (s.hostWrite a b).resultLen = s.resultLen := rfl
@[simp] theorem State.hostWrite_consumed (s : State) (a : Nat) (b : Byte) : (s.hostWrite a b).consumed = s.consumed := rfl
@[simp] theorem State.hostWrite_errInfo (s : State) (a : Nat) (b : Byte) : (s.hostWrite a b).errInfo = s.errInfo := rfl
@[simp] theorem State.hostWrite_done (s : State) (a : Nat) (b : Byte) : (s.hostWrite a b).done = s.done := rfl
@[simp] theorem State.hostWrite_err (s : State) (a : Nat) (b : Byte) : (s.hostWrite a b).err = s.err := rfl
@[simp] theorem State.hostWrite_errCode (s : State) (a : Nat) (b : Byte) : (s.hostWrite a b).errCode = s.errCode := rfl
@[simp] theorem State.hostWrite_endKind (s : State) (a : Nat) (b : Byte) : (s.hostWrite a b).endKind = s.endKind := rfl
@[simp] theorem State.hostWrite_activity (s : State) (a : Nat) (b : Byte) : (s.hostWrite a b).activity = s.activity := rfl
@[simp] theorem State.hostWrite_latched (s : State) (a : Nat) (b : Byte) : (s.hostWrite a b).latched = s.latched := rfl
@[simp] theorem State.hostWrite_mf (s : State) (a : Nat) (b : Byte) : (s.hostWrite a b).mf = s.mf := rfl
@[simp] theorem State.hostWrite_teCount (s : State) (a : Nat) (b : Byte) : (s.hostWrite a b).teCount = s.teCount := rfl
@[simp] theorem State.hostWrite_scratch (s : State) (a : Nat) (b : Byte) : (s.hostWrite a b).scratch = s.scratch := rfl
@[simp] theorem State.hostWrite_td (s : State) (a : Nat) (b : Byte) : (s.hostWrite a b).td = s.td := rfl
@[simp] theorem State.hostWrite_bfc (s : State) (a : Nat) (b : Byte) : (s.hostWrite a b).bfc = s.bfc := rfl
@[simp] theorem State.hostWrite_mem (s : State) (a : Nat) (b : Byte) : (s.hostWrite a b).mem = Sparse.set s.mem a b := rfl
@[simp] theorem State.hostWrite_platform (s : State) (a : Nat) (b : Byte) : (s.hostWrite a b).platform = s.platform := rfl
@[simp] theorem State.hostWrite_launchDraw (s : State) (a : Nat) (b : Byte) : (s.hostWrite a b).launchDraw = s.launchDraw := rfl
@[simp] theorem State.hostWrite_unseen (s : State) (a : Nat) (b : Byte) : (s.hostWrite a b).unseen = s.unseen := rfl
@[simp] theorem State.hostWrite_draws (s : State) (a : Nat) (b : Byte) : (s.hostWrite a b).draws = s.draws := rfl

/-! ## hostOrder -/

@[simp] theorem State.hostOrder_regs (s : State) : (s.hostOrder).regs = s.regs := rfl
@[simp] theorem State.hostOrder_resultLen (s : State) : (s.hostOrder).resultLen = s.resultLen := rfl
@[simp] theorem State.hostOrder_consumed (s : State) : (s.hostOrder).consumed = s.consumed := rfl
@[simp] theorem State.hostOrder_errInfo (s : State) : (s.hostOrder).errInfo = s.errInfo := rfl
@[simp] theorem State.hostOrder_done (s : State) : (s.hostOrder).done = s.done := rfl
@[simp] theorem State.hostOrder_err (s : State) : (s.hostOrder).err = s.err := rfl
@[simp] theorem State.hostOrder_errCode (s : State) : (s.hostOrder).errCode = s.errCode := rfl
@[simp] theorem State.hostOrder_endKind (s : State) : (s.hostOrder).endKind = s.endKind := rfl
@[simp] theorem State.hostOrder_activity (s : State) : (s.hostOrder).activity = s.activity := rfl
@[simp] theorem State.hostOrder_latched (s : State) : (s.hostOrder).latched = s.latched := rfl
@[simp] theorem State.hostOrder_mf (s : State) : (s.hostOrder).mf = s.mf := rfl
@[simp] theorem State.hostOrder_teCount (s : State) : (s.hostOrder).teCount = s.teCount := rfl
@[simp] theorem State.hostOrder_scratch (s : State) : (s.hostOrder).scratch = s.scratch := rfl
@[simp] theorem State.hostOrder_td (s : State) : (s.hostOrder).td = s.td := rfl
@[simp] theorem State.hostOrder_bfc (s : State) : (s.hostOrder).bfc = s.bfc := rfl
@[simp] theorem State.hostOrder_mem (s : State) : (s.hostOrder).mem = s.mem := rfl
@[simp] theorem State.hostOrder_platform (s : State) : (s.hostOrder).platform = s.platform := rfl
@[simp] theorem State.hostOrder_host (s : State) : (s.hostOrder).host = { s.host with unordered := [] } := rfl
@[simp] theorem State.hostOrder_launchDraw (s : State) : (s.hostOrder).launchDraw = s.launchDraw := rfl
@[simp] theorem State.hostOrder_unseen (s : State) : (s.hostOrder).unseen = s.unseen := rfl
@[simp] theorem State.hostOrder_draws (s : State) : (s.hostOrder).draws = s.draws := rfl

/-! ## hostClean -/

@[simp] theorem State.hostClean_regs (s : State) (b n : Nat) : (s.hostClean b n).regs = s.regs := rfl
@[simp] theorem State.hostClean_resultLen (s : State) (b n : Nat) : (s.hostClean b n).resultLen = s.resultLen := rfl
@[simp] theorem State.hostClean_consumed (s : State) (b n : Nat) : (s.hostClean b n).consumed = s.consumed := rfl
@[simp] theorem State.hostClean_errInfo (s : State) (b n : Nat) : (s.hostClean b n).errInfo = s.errInfo := rfl
@[simp] theorem State.hostClean_done (s : State) (b n : Nat) : (s.hostClean b n).done = s.done := rfl
@[simp] theorem State.hostClean_err (s : State) (b n : Nat) : (s.hostClean b n).err = s.err := rfl
@[simp] theorem State.hostClean_errCode (s : State) (b n : Nat) : (s.hostClean b n).errCode = s.errCode := rfl
@[simp] theorem State.hostClean_endKind (s : State) (b n : Nat) : (s.hostClean b n).endKind = s.endKind := rfl
@[simp] theorem State.hostClean_activity (s : State) (b n : Nat) : (s.hostClean b n).activity = s.activity := rfl
@[simp] theorem State.hostClean_latched (s : State) (b n : Nat) : (s.hostClean b n).latched = s.latched := rfl
@[simp] theorem State.hostClean_mf (s : State) (b n : Nat) : (s.hostClean b n).mf = s.mf := rfl
@[simp] theorem State.hostClean_teCount (s : State) (b n : Nat) : (s.hostClean b n).teCount = s.teCount := rfl
@[simp] theorem State.hostClean_scratch (s : State) (b n : Nat) : (s.hostClean b n).scratch = s.scratch := rfl
@[simp] theorem State.hostClean_td (s : State) (b n : Nat) : (s.hostClean b n).td = s.td := rfl
@[simp] theorem State.hostClean_bfc (s : State) (b n : Nat) : (s.hostClean b n).bfc = s.bfc := rfl
@[simp] theorem State.hostClean_mem (s : State) (b n : Nat) : (s.hostClean b n).mem = s.mem := rfl
@[simp] theorem State.hostClean_platform (s : State) (b n : Nat) : (s.hostClean b n).platform = s.platform := rfl
@[simp] theorem State.hostClean_launchDraw (s : State) (b n : Nat) : (s.hostClean b n).launchDraw = s.launchDraw := rfl
@[simp] theorem State.hostClean_unseen (s : State) (b n : Nat) : (s.hostClean b n).unseen = s.unseen := rfl
@[simp] theorem State.hostClean_draws (s : State) (b n : Nat) : (s.hostClean b n).draws = s.draws := rfl

/-! ## hostDiscard -/

@[simp] theorem State.hostDiscard_regs (s : State) (b n : Nat) : (s.hostDiscard b n).regs = s.regs := rfl
@[simp] theorem State.hostDiscard_resultLen (s : State) (b n : Nat) : (s.hostDiscard b n).resultLen = s.resultLen := rfl
@[simp] theorem State.hostDiscard_consumed (s : State) (b n : Nat) : (s.hostDiscard b n).consumed = s.consumed := rfl
@[simp] theorem State.hostDiscard_errInfo (s : State) (b n : Nat) : (s.hostDiscard b n).errInfo = s.errInfo := rfl
@[simp] theorem State.hostDiscard_done (s : State) (b n : Nat) : (s.hostDiscard b n).done = s.done := rfl
@[simp] theorem State.hostDiscard_err (s : State) (b n : Nat) : (s.hostDiscard b n).err = s.err := rfl
@[simp] theorem State.hostDiscard_errCode (s : State) (b n : Nat) : (s.hostDiscard b n).errCode = s.errCode := rfl
@[simp] theorem State.hostDiscard_endKind (s : State) (b n : Nat) : (s.hostDiscard b n).endKind = s.endKind := rfl
@[simp] theorem State.hostDiscard_activity (s : State) (b n : Nat) : (s.hostDiscard b n).activity = s.activity := rfl
@[simp] theorem State.hostDiscard_latched (s : State) (b n : Nat) : (s.hostDiscard b n).latched = s.latched := rfl
@[simp] theorem State.hostDiscard_mf (s : State) (b n : Nat) : (s.hostDiscard b n).mf = s.mf := rfl
@[simp] theorem State.hostDiscard_teCount (s : State) (b n : Nat) : (s.hostDiscard b n).teCount = s.teCount := rfl
@[simp] theorem State.hostDiscard_scratch (s : State) (b n : Nat) : (s.hostDiscard b n).scratch = s.scratch := rfl
@[simp] theorem State.hostDiscard_td (s : State) (b n : Nat) : (s.hostDiscard b n).td = s.td := rfl
@[simp] theorem State.hostDiscard_bfc (s : State) (b n : Nat) : (s.hostDiscard b n).bfc = s.bfc := rfl
@[simp] theorem State.hostDiscard_mem (s : State) (b n : Nat) : (s.hostDiscard b n).mem = s.mem := rfl
@[simp] theorem State.hostDiscard_platform (s : State) (b n : Nat) : (s.hostDiscard b n).platform = s.platform := rfl
@[simp] theorem State.hostDiscard_launchDraw (s : State) (b n : Nat) : (s.hostDiscard b n).launchDraw = s.launchDraw := rfl
@[simp] theorem State.hostDiscard_unseen (s : State) (b n : Nat) : (s.hostDiscard b n).unseen = s.unseen := rfl
@[simp] theorem State.hostDiscard_draws (s : State) (b n : Nat) : (s.hostDiscard b n).draws = s.draws := rfl

/-! ## withMoves -/

@[simp] theorem State.withMoves_regs (s : State) (l : List HostMove) : (s.withMoves l).regs = s.regs := rfl
@[simp] theorem State.withMoves_resultLen (s : State) (l : List HostMove) : (s.withMoves l).resultLen = s.resultLen := rfl
@[simp] theorem State.withMoves_consumed (s : State) (l : List HostMove) : (s.withMoves l).consumed = s.consumed := rfl
@[simp] theorem State.withMoves_errInfo (s : State) (l : List HostMove) : (s.withMoves l).errInfo = s.errInfo := rfl
@[simp] theorem State.withMoves_done (s : State) (l : List HostMove) : (s.withMoves l).done = s.done := rfl
@[simp] theorem State.withMoves_err (s : State) (l : List HostMove) : (s.withMoves l).err = s.err := rfl
@[simp] theorem State.withMoves_errCode (s : State) (l : List HostMove) : (s.withMoves l).errCode = s.errCode := rfl
@[simp] theorem State.withMoves_endKind (s : State) (l : List HostMove) : (s.withMoves l).endKind = s.endKind := rfl
@[simp] theorem State.withMoves_activity (s : State) (l : List HostMove) : (s.withMoves l).activity = s.activity := rfl
@[simp] theorem State.withMoves_latched (s : State) (l : List HostMove) : (s.withMoves l).latched = s.latched := rfl
@[simp] theorem State.withMoves_mf (s : State) (l : List HostMove) : (s.withMoves l).mf = s.mf := rfl
@[simp] theorem State.withMoves_teCount (s : State) (l : List HostMove) : (s.withMoves l).teCount = s.teCount := rfl
@[simp] theorem State.withMoves_scratch (s : State) (l : List HostMove) : (s.withMoves l).scratch = s.scratch := rfl
@[simp] theorem State.withMoves_td (s : State) (l : List HostMove) : (s.withMoves l).td = s.td := rfl
@[simp] theorem State.withMoves_bfc (s : State) (l : List HostMove) : (s.withMoves l).bfc = s.bfc := rfl
@[simp] theorem State.withMoves_mem (s : State) (l : List HostMove) : (s.withMoves l).mem = s.mem := rfl
@[simp] theorem State.withMoves_platform (s : State) (l : List HostMove) : (s.withMoves l).platform = s.platform := rfl
@[simp] theorem State.withMoves_host (s : State) (l : List HostMove) : (s.withMoves l).host = { s.host with moves := l } := rfl
@[simp] theorem State.withMoves_launchDraw (s : State) (l : List HostMove) : (s.withMoves l).launchDraw = s.launchDraw := rfl
@[simp] theorem State.withMoves_unseen (s : State) (l : List HostMove) : (s.withMoves l).unseen = s.unseen := rfl
@[simp] theorem State.withMoves_draws (s : State) (l : List HostMove) : (s.withMoves l).draws = s.draws := rfl

/-! ## resetMove -/

@[simp] theorem State.resetMove_regs (s : State) : (s.resetMove).regs = OperandRegs.zero := rfl
@[simp] theorem State.resetMove_resultLen (s : State) : (s.resetMove).resultLen = 0#64 := rfl
@[simp] theorem State.resetMove_consumed (s : State) : (s.resetMove).consumed = 0#64 := rfl
@[simp] theorem State.resetMove_errInfo (s : State) : (s.resetMove).errInfo = 0#8 := rfl
@[simp] theorem State.resetMove_done (s : State) : (s.resetMove).done = false := rfl
@[simp] theorem State.resetMove_err (s : State) : (s.resetMove).err = false := rfl
@[simp] theorem State.resetMove_errCode (s : State) : (s.resetMove).errCode = 0#4 := rfl
@[simp] theorem State.resetMove_endKind (s : State) : (s.resetMove).endKind = 0#2 := rfl
@[simp] theorem State.resetMove_activity (s : State) : (s.resetMove).activity = .idle := rfl
@[simp] theorem State.resetMove_latched (s : State) : (s.resetMove).latched = OperandRegs.zero := rfl
@[simp] theorem State.resetMove_mf (s : State) : (s.resetMove).mf = ⟨[], [], [], 0, 0⟩ := rfl
@[simp] theorem State.resetMove_teCount (s : State) : (s.resetMove).teCount = 0 := rfl
@[simp] theorem State.resetMove_scratch (s : State) : (s.resetMove).scratch = [] := rfl
@[simp] theorem State.resetMove_td (s : State) : (s.resetMove).td = ⟨.decompress, 0, 0, 0, 0, 0, 0, 0⟩ := rfl
@[simp] theorem State.resetMove_bfc (s : State) : (s.resetMove).bfc = ⟨.decode, 0, 0⟩ := rfl
@[simp] theorem State.resetMove_mem (s : State) : (s.resetMove).mem = s.afterStop.mem := rfl
@[simp] theorem State.resetMove_platform (s : State) : (s.resetMove).platform = s.platform := rfl
@[simp] theorem State.resetMove_host (s : State) : (s.resetMove).host = s.host := rfl
@[simp] theorem State.resetMove_launchDraw (s : State) : (s.resetMove).launchDraw = 0 := rfl
@[simp] theorem State.resetMove_unseen (s : State) : (s.resetMove).unseen = [] := rfl
@[simp] theorem State.resetMove_draws (s : State) : (s.resetMove).draws = s.afterStop.draws := rfl

/-! ## The ranges of the running command depend on the latched operands alone -/

@[simp] theorem State.store_srcLo (s : State) (a : Nat) (bs : List Byte) : (s.store a bs).srcLo = s.srcLo := rfl
@[simp] theorem State.store_srcHi (s : State) (a : Nat) (bs : List Byte) : (s.store a bs).srcHi = s.srcHi := rfl
@[simp] theorem State.store_dstLo (s : State) (a : Nat) (bs : List Byte) : (s.store a bs).dstLo = s.dstLo := rfl
@[simp] theorem State.store_dstHi (s : State) (a : Nat) (bs : List Byte) : (s.store a bs).dstHi = s.dstHi := rfl
@[simp] theorem State.scramble_srcLo (s : State) (a n : Nat) : (s.scramble a n).srcLo = s.srcLo := rfl
@[simp] theorem State.scramble_srcHi (s : State) (a n : Nat) : (s.scramble a n).srcHi = s.srcHi := rfl
@[simp] theorem State.scramble_dstLo (s : State) (a n : Nat) : (s.scramble a n).dstLo = s.dstLo := rfl
@[simp] theorem State.scramble_dstHi (s : State) (a n : Nat) : (s.scramble a n).dstHi = s.dstHi := rfl
@[simp] theorem State.complete_srcLo (s : State) (r c : Nat) (k : BitVec 2) : (s.complete r c k).srcLo = s.srcLo := rfl
@[simp] theorem State.complete_srcHi (s : State) (r c : Nat) (k : BitVec 2) : (s.complete r c k).srcHi = s.srcHi := rfl
@[simp] theorem State.complete_dstLo (s : State) (r c : Nat) (k : BitVec 2) : (s.complete r c k).dstLo = s.dstLo := rfl
@[simp] theorem State.complete_dstHi (s : State) (r c : Nat) (k : BitVec 2) : (s.complete r c k).dstHi = s.dstHi := rfl
@[simp] theorem State.errorEnd_srcLo (s : State) (e : ErrKind) (r c : Nat) (i : Byte) : (s.errorEnd e r c i).srcLo = s.srcLo := rfl
@[simp] theorem State.errorEnd_srcHi (s : State) (e : ErrKind) (r c : Nat) (i : Byte) : (s.errorEnd e r c i).srcHi = s.srcHi := rfl
@[simp] theorem State.errorEnd_dstLo (s : State) (e : ErrKind) (r c : Nat) (i : Byte) : (s.errorEnd e r c i).dstLo = s.dstLo := rfl
@[simp] theorem State.errorEnd_dstHi (s : State) (e : ErrKind) (r c : Nat) (i : Byte) : (s.errorEnd e r c i).dstHi = s.dstHi := rfl
@[simp] theorem State.acknowledge_srcLo (s : State) (v : Word) : (s.acknowledge v).srcLo = s.srcLo := rfl
@[simp] theorem State.acknowledge_srcHi (s : State) (v : Word) : (s.acknowledge v).srcHi = s.srcHi := rfl
@[simp] theorem State.acknowledge_dstLo (s : State) (v : Word) : (s.acknowledge v).dstLo = s.dstLo := rfl
@[simp] theorem State.acknowledge_dstHi (s : State) (v : Word) : (s.acknowledge v).dstHi = s.dstHi := rfl
@[simp] theorem State.withCoded_srcLo (s : State) (r : Coded) (cap : Nat) : (s.withCoded r cap).srcLo = s.srcLo := rfl
@[simp] theorem State.withCoded_srcHi (s : State) (r : Coded) (cap : Nat) : (s.withCoded r cap).srcHi = s.srcHi := rfl
@[simp] theorem State.withCoded_dstLo (s : State) (r : Coded) (cap : Nat) : (s.withCoded r cap).dstLo = s.dstLo := rfl
@[simp] theorem State.withCoded_dstHi (s : State) (r : Coded) (cap : Nat) : (s.withCoded r cap).dstHi = s.dstHi := rfl
@[simp] theorem State.withChunk_srcLo (s : State) (r : Coded) (u : Nat) : (s.withChunk r u).srcLo = s.srcLo := rfl
@[simp] theorem State.withChunk_srcHi (s : State) (r : Coded) (u : Nat) : (s.withChunk r u).srcHi = s.srcHi := rfl
@[simp] theorem State.withChunk_dstLo (s : State) (r : Coded) (u : Nat) : (s.withChunk r u).dstLo = s.dstLo := rfl
@[simp] theorem State.withChunk_dstHi (s : State) (r : Coded) (u : Nat) : (s.withChunk r u).dstHi = s.dstHi := rfl
@[simp] theorem State.withBlock_srcLo (s : State) (blk : List Byte) (u : Nat) : (s.withBlock blk u).srcLo = s.srcLo := rfl
@[simp] theorem State.withBlock_srcHi (s : State) (blk : List Byte) (u : Nat) : (s.withBlock blk u).srcHi = s.srcHi := rfl
@[simp] theorem State.withBlock_dstLo (s : State) (blk : List Byte) (u : Nat) : (s.withBlock blk u).dstLo = s.dstLo := rfl
@[simp] theorem State.withBlock_dstHi (s : State) (blk : List Byte) (u : Nat) : (s.withBlock blk u).dstHi = s.dstHi := rfl
@[simp] theorem State.withCursors_srcLo (s : State) (i o : Nat) : (s.withCursors i o).srcLo = s.srcLo := rfl
@[simp] theorem State.withCursors_srcHi (s : State) (i o : Nat) : (s.withCursors i o).srcHi = s.srcHi := rfl
@[simp] theorem State.withCursors_dstLo (s : State) (i o : Nat) : (s.withCursors i o).dstLo = s.dstLo := rfl
@[simp] theorem State.withCursors_dstHi (s : State) (i o : Nat) : (s.withCursors i o).dstHi = s.dstHi := rfl
@[simp] theorem State.startToken_srcLo (s : State) : (s.startToken).srcLo = s.srcLo := rfl
@[simp] theorem State.startToken_srcHi (s : State) : (s.startToken).srcHi = s.srcHi := rfl
@[simp] theorem State.startToken_dstLo (s : State) : (s.startToken).dstLo = s.dstLo := rfl
@[simp] theorem State.startToken_dstHi (s : State) : (s.startToken).dstHi = s.dstHi := rfl
@[simp] theorem State.endToken_srcLo (s : State) (m : List Host.Cell) (c p : Nat) : (s.endToken m c p).srcLo = s.srcLo := rfl
@[simp] theorem State.endToken_srcHi (s : State) (m : List Host.Cell) (c p : Nat) : (s.endToken m c p).srcHi = s.srcHi := rfl
@[simp] theorem State.endToken_dstLo (s : State) (m : List Host.Cell) (c p : Nat) : (s.endToken m c p).dstLo = s.dstLo := rfl
@[simp] theorem State.endToken_dstHi (s : State) (m : List Host.Cell) (c p : Nat) : (s.endToken m c p).dstHi = s.dstHi := rfl
@[simp] theorem State.startTokens_srcLo (s : State) (w : TdOwner) (b n o k : Nat) : (s.startTokens w b n o k).srcLo = s.srcLo := rfl
@[simp] theorem State.startTokens_srcHi (s : State) (w : TdOwner) (b n o k : Nat) : (s.startTokens w b n o k).srcHi = s.srcHi := rfl
@[simp] theorem State.startTokens_dstLo (s : State) (w : TdOwner) (b n o k : Nat) : (s.startTokens w b n o k).dstLo = s.dstLo := rfl
@[simp] theorem State.startTokens_dstHi (s : State) (w : TdOwner) (b n o k : Nat) : (s.startTokens w b n o k).dstHi = s.dstHi := rfl
@[simp] theorem State.withFramer_srcLo (s : State) (w : BfcOwner) (i o : Nat) : (s.withFramer w i o).srcLo = s.srcLo := rfl
@[simp] theorem State.withFramer_srcHi (s : State) (w : BfcOwner) (i o : Nat) : (s.withFramer w i o).srcHi = s.srcHi := rfl
@[simp] theorem State.withFramer_dstLo (s : State) (w : BfcOwner) (i o : Nat) : (s.withFramer w i o).dstLo = s.dstLo := rfl
@[simp] theorem State.withFramer_dstHi (s : State) (w : BfcOwner) (i o : Nat) : (s.withFramer w i o).dstHi = s.dstHi := rfl
@[simp] theorem State.startBlocks_srcLo (s : State) (w : BfcOwner) : (s.startBlocks w).srcLo = s.srcLo := rfl
@[simp] theorem State.startBlocks_srcHi (s : State) (w : BfcOwner) : (s.startBlocks w).srcHi = s.srcHi := rfl
@[simp] theorem State.startBlocks_dstLo (s : State) (w : BfcOwner) : (s.startBlocks w).dstLo = s.dstLo := rfl
@[simp] theorem State.startBlocks_dstHi (s : State) (w : BfcOwner) : (s.startBlocks w).dstHi = s.dstHi := rfl
@[simp] theorem State.observe_srcLo (s : State) (v : Word) : (s.observe v).srcLo = s.srcLo := rfl
@[simp] theorem State.observe_srcHi (s : State) (v : Word) : (s.observe v).srcHi = s.srcHi := rfl
@[simp] theorem State.observe_dstLo (s : State) (v : Word) : (s.observe v).dstLo = s.dstLo := rfl
@[simp] theorem State.observe_dstHi (s : State) (v : Word) : (s.observe v).dstHi = s.dstHi := rfl
@[simp] theorem State.hostWrite_srcLo (s : State) (a : Nat) (b : Byte) : (s.hostWrite a b).srcLo = s.srcLo := rfl
@[simp] theorem State.hostWrite_srcHi (s : State) (a : Nat) (b : Byte) : (s.hostWrite a b).srcHi = s.srcHi := rfl
@[simp] theorem State.hostWrite_dstLo (s : State) (a : Nat) (b : Byte) : (s.hostWrite a b).dstLo = s.dstLo := rfl
@[simp] theorem State.hostWrite_dstHi (s : State) (a : Nat) (b : Byte) : (s.hostWrite a b).dstHi = s.dstHi := rfl
@[simp] theorem State.hostOrder_srcLo (s : State) : (s.hostOrder).srcLo = s.srcLo := rfl
@[simp] theorem State.hostOrder_srcHi (s : State) : (s.hostOrder).srcHi = s.srcHi := rfl
@[simp] theorem State.hostOrder_dstLo (s : State) : (s.hostOrder).dstLo = s.dstLo := rfl
@[simp] theorem State.hostOrder_dstHi (s : State) : (s.hostOrder).dstHi = s.dstHi := rfl
@[simp] theorem State.hostClean_srcLo (s : State) (b n : Nat) : (s.hostClean b n).srcLo = s.srcLo := rfl
@[simp] theorem State.hostClean_srcHi (s : State) (b n : Nat) : (s.hostClean b n).srcHi = s.srcHi := rfl
@[simp] theorem State.hostClean_dstLo (s : State) (b n : Nat) : (s.hostClean b n).dstLo = s.dstLo := rfl
@[simp] theorem State.hostClean_dstHi (s : State) (b n : Nat) : (s.hostClean b n).dstHi = s.dstHi := rfl
@[simp] theorem State.hostDiscard_srcLo (s : State) (b n : Nat) : (s.hostDiscard b n).srcLo = s.srcLo := rfl
@[simp] theorem State.hostDiscard_srcHi (s : State) (b n : Nat) : (s.hostDiscard b n).srcHi = s.srcHi := rfl
@[simp] theorem State.hostDiscard_dstLo (s : State) (b n : Nat) : (s.hostDiscard b n).dstLo = s.dstLo := rfl
@[simp] theorem State.hostDiscard_dstHi (s : State) (b n : Nat) : (s.hostDiscard b n).dstHi = s.dstHi := rfl
@[simp] theorem State.withMoves_srcLo (s : State) (l : List HostMove) : (s.withMoves l).srcLo = s.srcLo := rfl
@[simp] theorem State.withMoves_srcHi (s : State) (l : List HostMove) : (s.withMoves l).srcHi = s.srcHi := rfl
@[simp] theorem State.withMoves_dstLo (s : State) (l : List HostMove) : (s.withMoves l).dstLo = s.dstLo := rfl
@[simp] theorem State.withMoves_dstHi (s : State) (l : List HostMove) : (s.withMoves l).dstHi = s.dstHi := rfl

end Sys2Proof.Machine
end

