-- ==== Sys2Proof/Laws/Memory.lean ====
section
/-!
SUPPORT. The laws of sparse maps and of the memory operations: a read after a write, and the canonical form every
operation keeps.
-/
namespace Sys2Proof.Machine

/-! ## Reading a sparse map after a change -/

theorem Sparse.get_erase_same {w : Nat} (m : List (Nat × BitVec w)) (k : Nat) :
    Sparse.get (Sparse.erase m k) k = 0#w := by
  induction m with
  | nil => rfl
  | cons c rest ih =>
    obtain ⟨a, v⟩ := c
    by_cases h : a = k <;> simp [Sparse.erase, Sparse.get, h, ih]

theorem Sparse.get_erase_other {w : Nat} (m : List (Nat × BitVec w)) {k j : Nat} (h : j ≠ k) :
    Sparse.get (Sparse.erase m k) j = Sparse.get m j := by
  induction m with
  | nil => rfl
  | cons c rest ih =>
    obtain ⟨a, v⟩ := c
    by_cases ha : a = k
    · have : a ≠ j := by omega
      simp [Sparse.erase, Sparse.get, ha, ih, h.symm]
    · by_cases hj : a = j <;> simp [Sparse.erase, Sparse.get, ha, hj, h, ih]

/-- A key erased from a map is none of its keys. -/
theorem Sparse.erase_ne {w : Nat} (m : List (Nat × BitVec w)) (k : Nat) :
    ∀ c ∈ Sparse.erase m k, c.1 ≠ k := by
  induction m with
  | nil => simp [Sparse.erase]
  | cons c rest ih =>
    obtain ⟨a, v⟩ := c
    by_cases h : a = k
    · simpa [Sparse.erase, h] using ih
    · simpa [Sparse.erase, h] using ih

theorem Sparse.get_insert_same {w : Nat} (m : List (Nat × BitVec w)) (k : Nat) (v : BitVec w)
    (h : ∀ c ∈ m, c.1 ≠ k) : Sparse.get (Sparse.insert m k v) k = v := by
  induction m with
  | nil => simp [Sparse.insert, Sparse.get]
  | cons c rest ih =>
    obtain ⟨a, x⟩ := c
    have ha : a ≠ k := h (a, x) (by simp)
    have hr : ∀ c ∈ rest, c.1 ≠ k := fun c hc => h c (by simp [hc])
    by_cases hk : k < a <;> simp [Sparse.insert, Sparse.get, hk, ha, ih hr]

theorem Sparse.get_insert_other {w : Nat} (m : List (Nat × BitVec w)) {k j : Nat} (v : BitVec w) (h : j ≠ k) :
    Sparse.get (Sparse.insert m k v) j = Sparse.get m j := by
  induction m with
  | nil => simp [Sparse.insert, Sparse.get, h.symm]
  | cons c rest ih =>
    obtain ⟨a, x⟩ := c
    by_cases hk : k < a
    · simp [Sparse.insert, Sparse.get, hk, h.symm]
    · simp [Sparse.insert, Sparse.get, hk, ih]

@[simp] theorem Sparse.get_set_same {w : Nat} (m : List (Nat × BitVec w)) (k : Nat) (v : BitVec w) :
    Sparse.get (Sparse.set m k v) k = v := by
  unfold Sparse.set
  split
  · next h => rw [Sparse.get_erase_same, h]
  · exact Sparse.get_insert_same _ _ _ (Sparse.erase_ne m k)

theorem Sparse.get_set_other {w : Nat} (m : List (Nat × BitVec w)) {k j : Nat} (v : BitVec w) (h : j ≠ k) :
    Sparse.get (Sparse.set m k v) j = Sparse.get m j := by
  unfold Sparse.set
  split
  · exact Sparse.get_erase_other m h
  · rw [Sparse.get_insert_other _ _ h, Sparse.get_erase_other m h]

/-- Reading any key after one entry was set. -/
theorem Sparse.get_set {w : Nat} (m : List (Nat × BitVec w)) (k j : Nat) (v : BitVec w) :
    Sparse.get (Sparse.set m k v) j = if j = k then v else Sparse.get m j := by
  by_cases h : j = k
  · simp [h]
  · simp [h, Sparse.get_set_other m v h]

/-! ## The canonical form -/

theorem Sparse.above_iff {w : Nat} (k : Nat) (m : List (Nat × BitVec w)) :
    Sparse.above k m = true ↔ ∀ c ∈ m, k < c.1 := by simp [Sparse.above]

theorem Sparse.mem_of_mem_erase {w : Nat} (m : List (Nat × BitVec w)) (k : Nat) :
    ∀ c ∈ Sparse.erase m k, c ∈ m := by
  induction m with
  | nil => simp [Sparse.erase]
  | cons c rest ih =>
    obtain ⟨a, v⟩ := c
    intro c' hc'
    by_cases h : a = k
    · rw [Sparse.erase, if_pos h] at hc'
      exact List.mem_cons_of_mem _ (ih c' hc')
    · rw [Sparse.erase, if_neg h] at hc'
      rcases List.mem_cons.mp hc' with h' | h'
      · rw [h']; exact List.mem_cons_self
      · exact List.mem_cons_of_mem _ (ih c' h')

theorem Sparse.mem_of_mem_insert {w : Nat} (m : List (Nat × BitVec w)) (k : Nat) (v : BitVec w) :
    ∀ c ∈ Sparse.insert m k v, c = (k, v) ∨ c ∈ m := by
  induction m with
  | nil => simp [Sparse.insert]
  | cons c rest ih =>
    obtain ⟨a, x⟩ := c
    intro c' hc'
    by_cases h : k < a
    · rw [Sparse.insert, if_pos h] at hc'
      exact List.mem_cons.mp hc'
    · rw [Sparse.insert, if_neg h] at hc'
      rcases List.mem_cons.mp hc' with h' | h'
      · exact Or.inr (h' ▸ List.mem_cons_self)
      · rcases ih c' h' with h'' | h''
        · exact Or.inl h''
        · exact Or.inr (List.mem_cons_of_mem _ h'')

theorem Sparse.wf_cons {w : Nat} (a : Nat) (v : BitVec w) (rest : List (Nat × BitVec w)) :
    Sparse.wf ((a, v) :: rest) = true ↔ (∀ c ∈ rest, a < c.1) ∧ v ≠ 0#w ∧ Sparse.wf rest = true := by
  simp [Sparse.wf, Sparse.above, and_assoc]

theorem Sparse.wf_erase {w : Nat} (m : List (Nat × BitVec w)) (k : Nat) (h : Sparse.wf m = true) :
    Sparse.wf (Sparse.erase m k) = true := by
  induction m with
  | nil => rfl
  | cons c rest ih =>
    obtain ⟨a, v⟩ := c
    obtain ⟨h1, h2, h3⟩ := (Sparse.wf_cons a v rest).mp h
    by_cases ha : a = k
    · rw [Sparse.erase, if_pos ha]; exact ih h3
    · rw [Sparse.erase, if_neg ha]
      exact (Sparse.wf_cons _ _ _).mpr
        ⟨fun c hc => h1 c (Sparse.mem_of_mem_erase rest k c hc), h2, ih h3⟩

theorem Sparse.wf_insert {w : Nat} (m : List (Nat × BitVec w)) (k : Nat) (v : BitVec w)
    (h : Sparse.wf m = true) (hk : ∀ c ∈ m, c.1 ≠ k) (hv : v ≠ 0#w) :
    Sparse.wf (Sparse.insert m k v) = true := by
  induction m with
  | nil => simp [Sparse.insert, Sparse.wf, Sparse.above, hv]
  | cons c rest ih =>
    obtain ⟨a, x⟩ := c
    obtain ⟨h1, h2, h3⟩ := (Sparse.wf_cons a x rest).mp h
    have ha : a ≠ k := hk (a, x) (by simp)
    by_cases hlt : k < a
    · rw [Sparse.insert, if_pos hlt]
      refine (Sparse.wf_cons _ _ _).mpr ⟨?_, hv, h⟩
      intro c hc
      rcases List.mem_cons.mp hc with h' | h'
      · rw [h']; exact hlt
      · have := h1 c h'; omega
    · rw [Sparse.insert, if_neg hlt]
      refine (Sparse.wf_cons _ _ _).mpr ⟨?_, h2, ih h3 (fun c hc => hk c (by simp [hc]))⟩
      intro c hc
      rcases Sparse.mem_of_mem_insert rest k v c hc with h' | h'
      · rw [h']; show a < k; omega
      · exact h1 c h'

/-- Setting an entry keeps the canonical form. -/
theorem Sparse.wf_set {w : Nat} (m : List (Nat × BitVec w)) (k : Nat) (v : BitVec w)
    (h : Sparse.wf m = true) : Sparse.wf (Sparse.set m k v) = true := by
  unfold Sparse.set
  split
  · exact Sparse.wf_erase m k h
  · next hv => exact Sparse.wf_insert _ _ _ (Sparse.wf_erase m k h) (Sparse.erase_ne m k) hv

/-! ## Memory -/

theorem Memory.wf_set (m : List Host.Cell) (a : Nat) (b : Byte) (h : Memory.wf m = true) :
    Memory.wf (Sparse.set m a b) = true := Sparse.wf_set m a b h

theorem writeBytes_wf (m : List Host.Cell) (a : Nat) (bs : List Byte) (h : Memory.wf m = true) :
    Memory.wf (writeBytes m a bs) = true := by
  induction bs generalizing m a with
  | nil => exact h
  | cons b bs ih => exact ih _ _ (Memory.wf_set m a b h)

theorem copyBytes_wf (m : List Host.Cell) (src dst n : Nat) (h : Memory.wf m = true) :
    Memory.wf (copyBytes m src dst n) = true := by
  induction n generalizing m src dst with
  | zero => exact h
  | succ n ih => exact ih _ _ _ (Memory.wf_set m dst _ h)

theorem freeBytes_wf (k : Nat) (m : List Host.Cell) (a n : Nat) (h : Memory.wf m = true) :
    Memory.wf (freeBytes k m a n) = true := by
  induction n with
  | zero => exact h
  | succ n ih => exact Memory.wf_set _ _ _ ih

/-- Reset's memory has the canonical form. -/
theorem reset_memory_wf : Memory.wf State.reset.mem = true := rfl

theorem get_writeBytes_outside (m : List Host.Cell) (a : Nat) (bs : List Byte) (x : Nat)
    (h : x < a ∨ a + bs.length ≤ x) : Sparse.get (writeBytes m a bs) x = Sparse.get m x := by
  induction bs generalizing m a with
  | nil => rfl
  | cons b bs ih =>
    have hl : (b :: bs).length = bs.length + 1 := rfl
    rw [writeBytes, ih _ _ (by omega), Sparse.get_set_other _ _ (by omega)]

theorem get_writeBytes_inside (m : List Host.Cell) (a : Nat) (bs : List Byte) (k : Nat) (h : k < bs.length) :
    Sparse.get (writeBytes m a bs) (a + k) = bs.getD k 0#8 := by
  induction bs generalizing m a k with
  | nil => simp at h
  | cons b bs ih =>
    cases k with
    | zero =>
      rw [writeBytes, get_writeBytes_outside _ _ _ _ (by omega)]
      simp
    | succ k =>
      have := ih (Sparse.set m a b) (a + 1) k (by simpa using h)
      rw [writeBytes, show a + (k + 1) = a + 1 + k by omega, this]
      simp

theorem get_copyBytes_outside (m : List Host.Cell) (src dst n x : Nat) (h : x < dst ∨ dst + n ≤ x) :
    Sparse.get (copyBytes m src dst n) x = Sparse.get m x := by
  induction n generalizing m src dst with
  | zero => rfl
  | succ n ih => rw [copyBytes, ih _ _ _ (by omega), Sparse.get_set_other _ _ (by omega)]

theorem get_freeBytes_outside (k : Nat) (m : List Host.Cell) (a n x : Nat) (h : x < a ∨ a + n ≤ x) :
    Sparse.get (freeBytes k m a n) x = Sparse.get m x := by
  induction n with
  | zero => rfl
  | succ n ih => rw [freeBytes, Sparse.get_set_other _ _ (by omega), ih (by omega)]

@[simp] theorem State.byteAt_store_outside (s : State) (a : Nat) (bs : List Byte) (x : Nat)
    (h : x < a ∨ a + bs.length ≤ x) : (s.store a bs).byteAt x = s.byteAt x :=
  get_writeBytes_outside _ _ _ _ h

theorem State.byteAt_store_inside (s : State) (a : Nat) (bs : List Byte) (k : Nat) (h : k < bs.length) :
    (s.store a bs).byteAt (a + k) = bs.getD k 0#8 :=
  get_writeBytes_inside _ _ _ _ h

@[simp] theorem State.byteAt_scramble_outside (s : State) (a n x : Nat) (h : x < a ∨ a + n ≤ x) :
    (s.scramble a n).byteAt x = s.byteAt x :=
  get_freeBytes_outside _ _ _ _ _ h

@[simp] theorem State.byteAt_complete (s : State) (r c : Nat) (k : BitVec 2) (x : Nat) :
    (s.complete r c k).byteAt x = s.byteAt x := rfl

@[simp] theorem State.byteAt_errorEnd (s : State) (e : ErrKind) (r c : Nat) (i : Byte) (x : Nat) :
    (s.errorEnd e r c i).byteAt x = s.byteAt x := rfl

/-! ## The source bytes -/

/-- A byte the host had made visible at GO reads as the byte in memory (R48, R53). -/
theorem State.sourceByte_seen {s : State} {a : Nat} (h : a ∉ s.unseen) : s.sourceByte a = s.byteAt a := by
  simp [State.sourceByte, h]

/-- The source bytes of a range depend on memory in that range alone, within one command. -/
theorem State.source_congr {s t : State} (a n : Nat) (hu : t.unseen = s.unseen) (hd : t.launchDraw = s.launchDraw)
    (hm : ∀ x : Nat, a ≤ x → x < a + n → t.byteAt x = s.byteAt x) : t.source a n = s.source a n := by
  induction n generalizing a with
  | zero => rfl
  | succ n ih =>
    rw [State.source, State.source, ih (a + 1) fun x h1 h2 => hm x (by omega) (by omega)]
    simp only [State.sourceByte, hu, hd, hm a (Nat.le_refl a) (by omega)]

@[simp] theorem State.length_source (s : State) (a n : Nat) : (s.source a n).length = n := by
  induction n generalizing a with
  | zero => rfl
  | succ n ih => simp [State.source, ih]

theorem State.getD_source (s : State) (a n k : Nat) (h : k < n) :
    (s.source a n).getD k 0#8 = s.sourceByte (a + k) := by
  induction n generalizing a k with
  | zero => omega
  | succ n ih =>
    cases k with
    | zero => simp [State.source]
    | succ k =>
      have := ih (a + 1) k (by omega)
      simpa [State.source, show a + (k + 1) = a + 1 + k by omega] using this

/-! ## The host's cached copies -/

/-- A range without another covers exactly the addresses it covered outside that other. -/
theorem rangeWithout_covers (base len : Nat) (r : Nat × Nat) (x : Nat) :
    (rangeWithout base len r).any (fun p => within x p.1 p.2) = (within x r.1 r.2 && !(within x base len)) := by
  obtain ⟨b, n⟩ := r
  rw [Bool.eq_iff_iff]
  simp only [rangeWithout, within, List.any_filter, List.any_cons, List.any_nil, Bool.or_false, Bool.or_eq_true,
    Bool.and_eq_true, decide_eq_true_eq, Bool.not_eq_true', Bool.and_eq_false_iff, decide_eq_false_iff_not]
  omega

/-- What stays stale after a discard: what the running command makes stale, and what was stale outside the range. -/
theorem State.hostDiscard_stale (s : State) (base len x : Nat) :
    (s.hostDiscard base len).host.stale.any (fun r => within x r.1 r.2)
      = (s.runningStale.any (fun r => within x r.1 r.2)
          || (s.host.stale.any (fun r => within x r.1 r.2) && !(within x base len))) := by
  have cut : ∀ l : List (Nat × Nat), (l.flatMap (rangeWithout base len)).any (fun r => within x r.1 r.2)
      = (l.any (fun r => within x r.1 r.2) && !(within x base len)) := by
    intro l
    induction l with
    | nil => rfl
    | cons r l ih =>
      rw [List.flatMap_cons, List.any_append, ih, rangeWithout_covers, List.any_cons, Bool.and_or_distrib_right]
  show (s.runningStale ++ s.host.stale.flatMap (rangeWithout base len)).any (fun r => within x r.1 r.2) = _
  rw [List.any_append, cut]

end Sys2Proof.Machine
end

