-- ==== Sys2Proof/Laws/Access.lean ====
section
/-!
SUPPORT. What the parameter checks and the access checks of the engine can answer, and when an access is granted.
-/
namespace Sys2Proof.Machine

/-! ## The parameter checks -/

/-- A command whose checks pass runs its operation (R128, R132). -/
theorem launch_granted {ok : Bool} {s : State} {op : Unit → Out} (hok : ok = true) (h : s.launchable = true) :
    launch ok s op = op () := by
  simp only [State.launchable, Bool.and_eq_true, Bool.not_eq_true'] at h
  simp [launch, hok, h.1.1, h.1.2, h.2]

/-- A command that fails a check completes with `InvalidParameter` (R128). -/
theorem launch_rejected {ok : Bool} {s : State} {op : Unit → Out}
    (h : ok = false ∨ s.rangesFit = false ∨ s.rangesOverlap = true) :
    launch ok s op = .next s.badParameter := by
  unfold launch
  split
  · rfl
  · split
    · rfl
    · split
      · rfl
      · simp_all

/-- Everything a launch can answer with a next state. -/
theorem launch_next {ok : Bool} {s t : State} {op : Unit → Out} (h : launch ok s op = .next t) :
    ((ok = false ∨ s.rangesFit = false ∨ s.rangesOverlap = true) ∧ t = s.badParameter)
      ∨ (ok = true ∧ s.launchable = true ∧ op () = .next t) := by
  unfold launch at h
  split at h
  · next h1 => exact .inl ⟨.inl (by simpa using h1), by cases h; rfl⟩
  · next h1 =>
    split at h
    · next h2 => exact .inl ⟨.inr (.inl (by simpa using h2)), by cases h; rfl⟩
    · next h2 =>
      split at h
      · next h3 => exact .inl ⟨.inr (.inr h3), by cases h; rfl⟩
      · next h3 =>
        split at h
        · cases h
        · next h4 =>
          refine .inr ⟨by simpa using h1, ?_, h⟩
          simp only [State.launchable, Bool.and_eq_true, Bool.not_eq_true']
          exact ⟨⟨by simpa using h2, by simpa using h3⟩, by simpa using h4⟩

/-! ## Engine accesses -/

@[simp] theorem guardAccess_granted (s : State) (k : Unit → Out) : guardAccess .granted s k = k () := rfl

/-- Everything a guarded access can answer with a next state. -/
theorem guardAccess_next {a : Access} {s t : State} {k : Unit → Out} (h : guardAccess a s k = .next t) :
    (a = .granted ∧ k () = .next t) ∨ (a = .busError ∧ t = s.busErrorEnd) := by
  cases a <;> simp [guardAccess] at h
  · exact .inl ⟨rfl, h⟩
  · exact .inr ⟨rfl, h.symm⟩

/-- A guarded access faults only on an address outside the space, or where its continuation does. -/
theorem guardAccess_fault {a : Access} {s : State} {k : Unit → Out} {f : Fault}
    (h : guardAccess a s k = .fault f) : (a = .granted ∧ k () = .fault f) ∨ a = .outsideSpace := by
  cases a <;> simp [guardAccess] at h
  · exact .inl ⟨rfl, h⟩
  · exact .inr rfl

/-- A guarded access is refused only outside the ranges, or where its continuation is. -/
theorem guardAccess_refused {a : Access} {s : State} {k : Unit → Out} {r : Refusal}
    (h : guardAccess a s k = .refused r) :
    (a = .granted ∧ k () = .refused r) ∨ (a = .outsideRanges ∧ r = .engineOutsideRanges) := by
  cases a <;> simp [guardAccess] at h
  · exact .inl ⟨rfl, h⟩
  · exact .inr ⟨rfl, h.symm⟩

/-- A source read inside the space and inside `S` without a bus error is granted (R42). -/
theorem checkSource_granted_iff (s : State) (bus : Bool) (a n : Nat) :
    s.checkSource bus a n = .granted ↔
      a + n ≤ addrSpace ∧ s.srcLo ≤ a ∧ a + n ≤ s.srcHi ∧ (bus && s.busFaultIn .read a n) = false := by
  unfold State.checkSource
  by_cases h1 : (decide (a < s.srcLo) || decide (s.srcHi < a + n)) = true
  · rw [if_pos h1]
    simp only [Bool.or_eq_true, decide_eq_true_eq] at h1
    exact ⟨fun h => (nomatch h), fun h => absurd h.2.1 (by omega)⟩
  · rw [if_neg h1]
    simp only [Bool.or_eq_true, decide_eq_true_eq, not_or, Nat.not_lt] at h1
    by_cases h2 : addrSpace < a + n
    · rw [if_pos h2]
      exact ⟨fun h => (nomatch h), fun h => absurd h.1 (by omega)⟩
    · rw [if_neg h2]
      by_cases h3 : (bus && s.busFaultIn .read a n) = true
      · rw [if_pos h3]
        exact ⟨fun h => (nomatch h), fun h => absurd h3 (by rw [h.2.2.2]; decide)⟩
      · rw [if_neg h3]
        exact ⟨fun _ => ⟨by omega, h1.1, h1.2, by simpa using h3⟩, fun _ => rfl⟩

/-- A destination access inside the space and inside `D` without a bus error is granted (R42). -/
theorem checkDest_granted_iff (s : State) (kind : BusAccess) (a n : Nat) :
    s.checkDest kind a n = .granted ↔
      a + n ≤ addrSpace ∧ s.dstLo ≤ a ∧ a + n ≤ s.dstHi ∧ s.busFaultIn kind a n = false := by
  unfold State.checkDest
  by_cases h1 : (decide (a < s.dstLo) || decide (s.dstHi < a + n)) = true
  · rw [if_pos h1]
    simp only [Bool.or_eq_true, decide_eq_true_eq] at h1
    exact ⟨fun h => (nomatch h), fun h => absurd h.2.1 (by omega)⟩
  · rw [if_neg h1]
    simp only [Bool.or_eq_true, decide_eq_true_eq, not_or, Nat.not_lt] at h1
    by_cases h2 : addrSpace < a + n
    · rw [if_pos h2]
      exact ⟨fun h => (nomatch h), fun h => absurd h.1 (by omega)⟩
    · rw [if_neg h2]
      by_cases h3 : s.busFaultIn kind a n = true
      · rw [if_pos h3]
        exact ⟨fun h => (nomatch h), fun h => absurd h3 (by rw [h.2.2.2]; decide)⟩
      · rw [if_neg h3]
        exact ⟨fun _ => ⟨by omega, h1.1, h1.2, by simpa using h3⟩, fun _ => rfl⟩

/-- Bus faults in a part of a range are bus faults in the range. -/
theorem busFaultIn_mono (s : State) (kind : BusAccess) {a n a' n' : Nat} (h : a' ≤ a) (h' : a + n ≤ a' + n')
    (hf : s.busFaultIn kind a' n' = false) : s.busFaultIn kind a n = false := by
  simp only [State.busFaultIn, List.any_eq_false, Bool.and_eq_true, decide_eq_true_eq, not_and] at hf ⊢
  rintro f hmem ⟨hk, hle⟩ hlt
  exact hf f hmem ⟨hk, by omega⟩ (by omega)

end Sys2Proof.Machine
end

