-- ==== Sys2Proof/Laws/Decode.lean ====
section
/-!
SUPPORT. What the decoders answer is well formed, and how many bytes they take.
-/
namespace Sys2Proof

/-- The token decoder on at least one byte. -/
theorem decodeToken_cons (ctrl : Byte) (rest : List Byte) :
    decodeToken (ctrl :: rest) =
      if ctrl.toNat < 0x20 then .ok (.lit (lowFive ctrl + 1), rest)
      else if ctrl.toNat < 0xE0 then
        (match rest with
        | lo :: rest' => .ok (shortRef (lenField ctrl) (offsetOf ctrl lo), rest')
        | [] => .error .truncatedToken)
      else
        (match rest with
        | ext :: lo :: rest' => .ok (.brefLong (7 + ext.toNat + 2) (offsetOf ctrl lo), rest')
        | _ => .error .truncatedToken) := rfl

/-- The unit decoder on at least one byte. -/
theorem decodeUnit_cons (b0 : Byte) (rest : List Byte) :
    decodeUnit (b0 :: rest) =
      if b0 = 0x00#8 then .ok (.term, rest)
      else
        (match rest with
        | b1 :: ty :: fields =>
          if b0 ≠ 0x5A#8 ∨ b1 ≠ 0x56#8 then .error .badHeader
          else if ty = 0x00#8 then
            (match fields with
            | u1 :: u0 :: rest' => .ok (.blkRaw (be16Value u1 u0), rest')
            | _ => .error .badHeader)
          else if ty = 0x01#8 then
            (match fields with
            | c1 :: c0 :: u1 :: u0 :: rest' => .ok (.blkCmp (be16Value c1 c0) (be16Value u1 u0), rest')
            | _ => .error .badHeader)
          else .error (.unknownType ty)
        | _ => .error .badHeader) := rfl

theorem lowFive_lt (c : Byte) : lowFive c < 32 := Nat.mod_lt _ (by decide)

theorem offsetOf_le (c lo : Byte) : offsetOf c lo ≤ Config.maxOff := by
  have h1 := lowFive_lt c
  have h2 := lo.isLt
  simp only [offsetOf, Config.maxOff]
  omega

theorem be16Value_le (hi lo : Byte) : be16Value hi lo ≤ Config.maxBlock := by
  have h1 := hi.isLt
  have h2 := lo.isLt
  simp only [be16Value, Config.maxBlock]
  omega

theorem shortRef_wellFormed (lenf off : Nat) (h : off ≤ Config.maxOff) : (shortRef lenf off).wellFormed = true := by
  unfold shortRef
  split <;> simpa [Instr.wellFormed] using h

/-- Everything the token decoder accepts is well formed. -/
theorem decodeToken_wellFormed {bs rest : List Byte} {i : Instr} (h : decodeToken bs = .ok (i, rest)) :
    i.wellFormed = true := by
  cases bs with
  | nil => simp [decodeToken] at h
  | cons ctrl bs =>
    rw [decodeToken_cons] at h
    split at h
    · cases h
      have := lowFive_lt ctrl
      simp [Instr.wellFormed, Config.maxLit]
      omega
    · split at h
      · split at h
        · cases h
          exact shortRef_wellFormed _ _ (offsetOf_le _ _)
        · cases h
      · split at h
        · next ext lo _ =>
          cases h
          have := offsetOf_le ctrl lo
          have := ext.isLt
          simp [Instr.wellFormed, Config.maxMatch]
          omega
        · cases h

/-- Everything the unit decoder accepts is well formed. -/
theorem decodeUnit_wellFormed {bs rest : List Byte} {i : Instr} (h : decodeUnit bs = .ok (i, rest)) :
    i.wellFormed = true := by
  cases bs with
  | nil => simp [decodeUnit] at h
  | cons b0 bs =>
    rw [decodeUnit_cons] at h
    split at h
    · cases h; rfl
    · split at h
      · split at h
        · cases h
        · split at h
          · split at h
            · cases h; simpa [Instr.wellFormed] using be16Value_le _ _
            · cases h
          · split at h
            · split at h
              · cases h
                simpa [Instr.wellFormed] using ⟨be16Value_le _ _, be16Value_le _ _⟩
              · cases h
            · cases h
      · cases h

/-- Every CTRL word decodes to a command or a reserved OP, which is well formed. -/
theorem decodeCtrl_wellFormed (c : BitVec 7) : (decodeCtrl c).wellFormed = true := by
  unfold decodeCtrl
  split <;> rfl

theorem decodeCtrl_language (c : BitVec 7) : (decodeCtrl c).language = .command := by
  unfold decodeCtrl
  split <;> rfl

theorem shortRef_language (lenf off : Nat) : (shortRef lenf off).language = .token := by
  unfold shortRef
  split <;> rfl

/-- The token decoder answers tokens. -/
theorem decodeToken_language {bs rest : List Byte} {i : Instr} (h : decodeToken bs = .ok (i, rest)) :
    i.language = .token := by
  cases bs with
  | nil => simp [decodeToken] at h
  | cons ctrl bs =>
    rw [decodeToken_cons] at h
    split at h
    · cases h; rfl
    · split at h
      · split at h
        · cases h; exact shortRef_language _ _
        · cases h
      · split at h
        · cases h; rfl
        · cases h

/-- The unit decoder answers block units. -/
theorem decodeUnit_language {bs rest : List Byte} {i : Instr} (h : decodeUnit bs = .ok (i, rest)) :
    i.language = .block := by
  cases bs with
  | nil => simp [decodeUnit] at h
  | cons b0 bs =>
    rw [decodeUnit_cons] at h
    split at h
    · cases h; rfl
    · split at h
      · split at h
        · cases h
        · split at h
          · split at h
            · cases h; rfl
            · cases h
          · split at h
            · split at h
              · cases h; rfl
              · cases h
            · cases h
      · cases h

end Sys2Proof
end

