-- ==== Sys2Proof/Laws/Meanings.lean ====
section
/-!
SUPPORT. Everything the shared operations can do: for each, the next states it can answer and when it answers them, so
that no proof unfolds the operation itself.
-/
namespace Sys2Proof.Machine

/-! ## The two ends that leave any values behind -/

/-- A block error after `n` bytes from `a` became any values is a failed payload (R118, R142). -/
theorem payloadFailed_scramble (s : State) (a n : Nat) :
    s.payloadFailed ((s.scramble a n).blockError .invalidData 0#8) a n := by
  have hmem : s.sameOutside ((s.scramble a n).blockError .invalidData 0#8) a n := by
    intro x hx
    unfold State.blockError
    split <;> exact get_freeBytes_outside _ _ _ _ _ hx
  refine ⟨hmem, ?_⟩
  unfold State.blockError
  cases h : s.bfc.owner <;> simp [h, State.sameAgents, State.sameEncoder, State.failedAs]

/-- `State.busErrorEnd` is the end by a bus error (R56, R142). -/
theorem busEnded_busErrorEnd (s : State) : s.busEnded s.busErrorEnd :=
  ⟨⟨rfl, rfl, rfl, rfl, rfl, rfl, rfl, rfl⟩, fun _ hx => get_freeBytes_outside _ _ _ _ _ hx,
    ⟨rfl, rfl, rfl, rfl, rfl, rfl⟩⟩

/-! ## Tokens -/

/-- Everything LIT can answer with a next state (R101, R105). -/
theorem execLit_next {len : Nat} {s t : State} (h : execLit len s = .next t) :
    (s.td.clen < s.td.ip + 1 + len ∧ t = s.startToken.tokenError .invalidData)
      ∨ (s.td.ip + 1 + len ≤ s.td.clen ∧ s.td.cap < s.td.op + len ∧ t = s.startToken.tokenError .outputTooSmall)
      ∨ t = s.startToken.busErrorEnd
      ∨ (s.td.ip + 1 + len ≤ s.td.clen ∧ s.td.op + len ≤ s.td.cap
          ∧ s.startToken.checkSource s.readsNow (s.td.srcBase + (s.td.ip + 1)) len = .granted
          ∧ s.startToken.checkDest .write (s.td.outBase + s.td.op) len = .granted
          ∧ t = s.startToken.endToken
              (writeBytes s.mem (s.td.outBase + s.td.op) (s.startToken.source (s.td.srcBase + (s.td.ip + 1)) len))
              (1 + len) len) := by
  unfold execLit at h
  dsimp only at h
  split at h
  · next h1 => exact .inl ⟨h1, by cases h; rfl⟩
  · next h1 =>
    split at h
    · next h2 => exact .inr (.inl ⟨Nat.le_of_not_lt h1, h2, by cases h; rfl⟩)
    · next h2 =>
      rcases guardAccess_next h with ⟨ha, h⟩ | ⟨-, rfl⟩
      · rcases guardAccess_next h with ⟨hb, h⟩ | ⟨-, rfl⟩
        · exact .inr (.inr (.inr ⟨Nat.le_of_not_lt h1, Nat.le_of_not_lt h2, ha, hb, by cases h; rfl⟩))
        · exact .inr (.inr (.inl rfl))
      · exact .inr (.inr (.inl rfl))

/-- Everything a back-reference can answer with a next state (R102, R103, R105). -/
theorem execReference_next {head off len : Nat} {s t : State} (h : execReference head off len s = .next t) :
    ((s.td.clen < s.td.ip + head ∨ s.td.op ≤ off) ∧ t = s.startToken.tokenError .invalidData)
      ∨ (s.td.ip + head ≤ s.td.clen ∧ off < s.td.op ∧ s.td.cap < s.td.op + len
          ∧ t = s.startToken.tokenError .outputTooSmall)
      ∨ t = s.startToken.busErrorEnd
      ∨ (s.td.ip + head ≤ s.td.clen ∧ off < s.td.op ∧ s.td.op + len ≤ s.td.cap
          ∧ s.startToken.checkDest .readBack (s.td.outBase + (s.td.op - off - 1)) len = .granted
          ∧ s.startToken.checkDest .write (s.td.outBase + s.td.op) len = .granted
          ∧ t = s.startToken.endToken
              (copyBytes s.mem (s.td.outBase + (s.td.op - off - 1)) (s.td.outBase + s.td.op) len) head len) := by
  unfold execReference at h
  dsimp only at h
  split at h
  · next h1 => exact .inl ⟨.inl h1, by cases h; rfl⟩
  · next h1 =>
    split at h
    · next h2 => exact .inl ⟨.inr h2, by cases h; rfl⟩
    · next h2 =>
      split at h
      · next h3 => exact .inr (.inl ⟨Nat.le_of_not_lt h1, Nat.lt_of_not_le h2, h3, by cases h; rfl⟩)
      · next h3 =>
        rcases guardAccess_next h with ⟨ha, h⟩ | ⟨-, rfl⟩
        · rcases guardAccess_next h with ⟨hb, h⟩ | ⟨-, rfl⟩
          · exact .inr (.inr (.inr ⟨Nat.le_of_not_lt h1, Nat.lt_of_not_le h2, Nat.le_of_not_lt h3, ha, hb,
              by cases h; rfl⟩))
          · exact .inr (.inr (.inl rfl))
        · exact .inr (.inr (.inl rfl))

/-! ## Block units -/

/-- Everything BLK_RAW can answer with a next state (R117). -/
theorem execBlkRaw_next {u : Nat} {s t : State} (h : execBlkRaw u s = .next t) :
    (s.latched.srcLen.toNat < s.bfc.ipos + 5 + u ∧ t = s.blockError .invalidData 0#8)
      ∨ (s.latched.dstCap.toNat < s.bfc.opos + u ∧ t = s.blockError .outputTooSmall 0#8)
      ∨ t = s.busErrorEnd
      ∨ (s.bfc.ipos + 5 + u ≤ s.latched.srcLen.toNat ∧ s.bfc.opos + u ≤ s.latched.dstCap.toNat
          ∧ s.checkDest .write (s.dstLo + s.bfc.opos) u = .granted
          ∧ t = (s.store (s.dstLo + s.bfc.opos) (s.source (s.srcLo + s.bfc.ipos + 5) u)).blockDone u (5 + u)) := by
  unfold execBlkRaw at h
  split at h
  · next h1 => exact .inl ⟨h1, by cases h; rfl⟩
  · next h1 =>
    split at h
    · next h2 => exact .inr (.inl ⟨h2, by cases h; rfl⟩)
    · next h2 =>
      rcases guardAccess_next h with ⟨-, h⟩ | ⟨-, rfl⟩
      · rcases guardAccess_next h with ⟨hb, h⟩ | ⟨-, rfl⟩
        · exact .inr (.inr (.inr ⟨Nat.le_of_not_lt h1, Nat.le_of_not_lt h2, hb, by cases h; rfl⟩))
        · exact .inr (.inr (.inl rfl))
      · exact .inr (.inr (.inl rfl))

/-- Everything BLK_CMP can answer: it always answers a next state (R118). -/
theorem execBlkCmp_cases (c u : Nat) (s : State) :
    (s.latched.srcLen.toNat < s.bfc.ipos + 7 + c ∧ execBlkCmp c u s = .next (s.cutShort u))
      ∨ (s.latched.dstCap.toNat < s.bfc.opos + u ∧ execBlkCmp c u s = .next (s.blockError .outputTooSmall 0#8))
      ∨ (s.bfc.ipos + 7 + c ≤ s.latched.srcLen.toNat ∧ s.bfc.opos + u ≤ s.latched.dstCap.toNat
          ∧ execBlkCmp c u s
            = .next (s.startTokens .block (s.srcLo + s.bfc.ipos + 7) c (s.dstLo + s.bfc.opos) u)) := by
  unfold execBlkCmp
  split
  · next h1 => exact .inl ⟨h1, rfl⟩
  · next h1 =>
    split
    · next h2 => exact .inr (.inl ⟨h2, rfl⟩)
    · next h2 => exact .inr (.inr ⟨Nat.le_of_not_lt h1, Nat.le_of_not_lt h2, rfl⟩)

/-- Everything the start of DECODE and DECODE_BLOCK can answer with a next state (R121, R122). -/
theorem decodeOperation_next {owner : BfcOwner} {s t : State} (h : decodeOperation owner s = .next t) :
    t = s.startBlocks owner ∨ t = s.busErrorEnd := by
  unfold decodeOperation at h
  rcases guardAccess_next h with ⟨-, h⟩ | ⟨-, rfl⟩
  · exact .inl (by cases h; rfl)
  · exact .inr rfl

/-! ## The encoding commands -/

/-- Everything the operation of COMPRESS can answer with a next state (R98). -/
theorem compressOperation_next {mode : Mode} {s t : State} (h : compressOperation mode s = .next t) :
    t = s.busErrorEnd
      ∨ ∃ r : Coded,
          r = mfCall (hash3Of s.platform.hash) mode (s.source s.srcLo s.latched.srcLen.toNat)
              s.latched.dstCap.toNat s.mf
          ∧ s.checkDest .write s.dstLo (r.count s.latched.dstCap.toNat) = .granted
          ∧ t = finishCompress s s.latched.srcLen.toNat s.latched.dstCap.toNat r := by
  unfold compressOperation at h
  rcases guardAccess_next h with ⟨-, h⟩ | ⟨-, rfl⟩
  · rcases guardAccess_next h with ⟨hb, h⟩ | ⟨-, rfl⟩
    · exact .inr ⟨_, rfl, hb, by cases h; rfl⟩
    · exact .inl rfl
  · exact .inl rfl

/-- Everything the end of ENCODE and ENCODE_BLOCK can answer with a next state (R112, R114). -/
theorem finishEncode_next {withTerm : Bool} {s t : State} (h : finishEncode withTerm s = .next t) :
    (withTerm = false ∧ t = s.complete s.bfc.opos s.bfc.ipos 0#2)
      ∨ (withTerm = true ∧ s.latched.dstCap.toNat < s.bfc.opos + 1
          ∧ t = s.errorEnd .outputTooSmall s.bfc.opos s.bfc.ipos 0#8)
      ∨ (withTerm = true ∧ t = s.busErrorEnd)
      ∨ (withTerm = true ∧ s.bfc.opos + 1 ≤ s.latched.dstCap.toNat
          ∧ s.checkDest .write (s.dstLo + s.bfc.opos) 1 = .granted
          ∧ t = (s.withBlock (encode .term) 0).complete (s.bfc.opos + 1) s.bfc.ipos 0#2) := by
  unfold finishEncode at h
  split at h
  · next h1 =>
    split at h
    · next h2 => exact .inr (.inl ⟨h1, h2, by cases h; rfl⟩)
    · next h2 =>
      rcases guardAccess_next h with ⟨hb, h⟩ | ⟨-, rfl⟩
      · exact .inr (.inr (.inr ⟨h1, Nat.le_of_not_lt h2, hb, by cases h; rfl⟩))
      · exact .inr (.inr (.inl ⟨h1, rfl⟩))
  · next h1 => exact .inl ⟨by simpa using h1, by cases h; rfl⟩

/-- Everything one turn of the chunk loop can answer with a next state (R112). -/
theorem encodeLoop_next {mode : Mode} {withTerm : Bool} {bs k : Nat} {s t : State}
    (h : encodeLoop mode withTerm bs (k + 1) s = .next t) :
    (s.latched.srcLen.toNat ≤ s.bfc.ipos ∧ finishEncode withTerm s = .next t)
      ∨ (s.bfc.ipos < s.latched.srcLen.toNat
          ∧ ∃ (u : Nat) (x : List Byte) (r : Coded),
              u = min bs (s.latched.srcLen.toNat - s.bfc.ipos) ∧ x = s.source (s.srcLo + s.bfc.ipos) u
              ∧ r = codeChunk mode s x
              ∧ (t = s.busErrorEnd ∨ t = (s.withChunk r u).busErrorEnd
                  ∨ (s.latched.dstCap.toNat < s.bfc.opos + (chunkBlock x r).length
                      ∧ t = (s.withChunk r u).errorEnd .outputTooSmall s.bfc.opos s.bfc.ipos 0#8)
                  ∨ (s.bfc.opos + (chunkBlock x r).length ≤ s.latched.dstCap.toNat
                      ∧ s.checkDest .write (s.dstLo + s.bfc.opos) (chunkBlock x r).length = .granted
                      ∧ encodeLoop mode withTerm bs k ((s.withChunk r u).withBlock (chunkBlock x r) u)
                        = .next t))) := by
  rw [encodeLoop] at h
  split at h
  · next h1 =>
    refine .inr ⟨h1, _, _, _, rfl, rfl, rfl, ?_⟩
    rcases guardAccess_next h with ⟨-, h⟩ | ⟨-, rfl⟩
    · dsimp only at h
      split at h
      · next h2 => exact .inr (.inr (.inl ⟨h2, by cases h; rfl⟩))
      · next h2 =>
        rcases guardAccess_next h with ⟨hb, h⟩ | ⟨-, rfl⟩
        · exact .inr (.inr (.inr ⟨Nat.le_of_not_lt h2, hb, h⟩))
        · exact .inr (.inl rfl)
    · exact .inl rfl
  · next h1 => exact .inl ⟨Nat.le_of_not_lt h1, h⟩

end Sys2Proof.Machine
end

