-- ==== Sys2Proof/Laws/PerInstr.lean ====
section
/-!
SUPPORT. A statement about every instruction as syntax: how many bytes its encoding has (spec/30_encoding.md R58, R66
to R68, R70), with one lemma per constructor.
-/
namespace Sys2Proof.Laws.EncodedSize

/-- The bytes of a token's head, of a block's header, of the terminator, of a command's CTRL field (R58, R66 to R68,
R70). -/
def size : Instr → Nat
  | .lit _ => 1
  | .brefShortL3 _ => 2
  | .brefShortL4 _ => 2
  | .brefShortL5 _ => 2
  | .brefShortL6 _ => 2
  | .brefShortL7 _ => 2
  | .brefShortL8 _ => 2
  | .brefLong _ _ => 3
  | .blkRaw _ => 5
  | .blkCmp _ _ => 7
  | .term => 1
  | .compress _ _ _ => 1
  | .decompress _ _ _ => 1
  | .encode _ _ _ => 1
  | .decode _ _ _ => 1
  | .encodeBlock _ _ _ => 1
  | .decodeBlock _ _ _ => 1
  | .maxsize _ _ _ => 1
  | .reservedOp0 _ _ _ => 1
  | .reservedOp8 _ _ _ => 1
  | .reservedOp9 _ _ _ => 1
  | .reservedOpA _ _ _ => 1
  | .reservedOpB _ _ _ => 1
  | .reservedOpC _ _ _ => 1
  | .reservedOpD _ _ _ => 1
  | .reservedOpE _ _ _ => 1
  | .reservedOpF _ _ _ => 1

/-- The encoding of an instruction has its size. -/
def Statement (i : Instr) : Prop := (Sys2Proof.encode i).length = size i

theorem lit (len : Nat) : Statement (.lit len) := rfl
theorem brefShortL3 (off : Nat) : Statement (.brefShortL3 off) := rfl
theorem brefShortL4 (off : Nat) : Statement (.brefShortL4 off) := rfl
theorem brefShortL5 (off : Nat) : Statement (.brefShortL5 off) := rfl
theorem brefShortL6 (off : Nat) : Statement (.brefShortL6 off) := rfl
theorem brefShortL7 (off : Nat) : Statement (.brefShortL7 off) := rfl
theorem brefShortL8 (off : Nat) : Statement (.brefShortL8 off) := rfl
theorem brefLong (len off : Nat) : Statement (.brefLong len off) := rfl
theorem blkRaw (u : Nat) : Statement (.blkRaw u) := rfl
theorem blkCmp (c u : Nat) : Statement (.blkCmp c u) := rfl
theorem term : Statement (.term) := rfl
theorem compress (m : Mode) (t i : Bool) : Statement (.compress m t i) := rfl
theorem decompress (m : Mode) (t i : Bool) : Statement (.decompress m t i) := rfl
theorem encode (m : Mode) (t i : Bool) : Statement (.encode m t i) := rfl
theorem decode (m : Mode) (t i : Bool) : Statement (.decode m t i) := rfl
theorem encodeBlock (m : Mode) (t i : Bool) : Statement (.encodeBlock m t i) := rfl
theorem decodeBlock (m : Mode) (t i : Bool) : Statement (.decodeBlock m t i) := rfl
theorem maxsize (m : Mode) (t i : Bool) : Statement (.maxsize m t i) := rfl
theorem reservedOp0 (m : Mode) (t i : Bool) : Statement (.reservedOp0 m t i) := rfl
theorem reservedOp8 (m : Mode) (t i : Bool) : Statement (.reservedOp8 m t i) := rfl
theorem reservedOp9 (m : Mode) (t i : Bool) : Statement (.reservedOp9 m t i) := rfl
theorem reservedOpA (m : Mode) (t i : Bool) : Statement (.reservedOpA m t i) := rfl
theorem reservedOpB (m : Mode) (t i : Bool) : Statement (.reservedOpB m t i) := rfl
theorem reservedOpC (m : Mode) (t i : Bool) : Statement (.reservedOpC m t i) := rfl
theorem reservedOpD (m : Mode) (t i : Bool) : Statement (.reservedOpD m t i) := rfl
theorem reservedOpE (m : Mode) (t i : Bool) : Statement (.reservedOpE m t i) := rfl
theorem reservedOpF (m : Mode) (t i : Bool) : Statement (.reservedOpF m t i) := rfl

end Sys2Proof.Laws.EncodedSize
end

