-- ==== Sys2Proof/Laws/Step.lean ====
section
/-!
SUPPORT. What one step can be, said once: a move of the host or the platform, or one step of the engine; and what the
engine reads in each control state.
-/
namespace Sys2Proof.Machine

/-- With no move pending the engine steps. -/
theorem step_of_no_moves {s : State} (h : s.host.moves = []) : step s = engineStep s := by
  simp [step, turn, h]

/-- A step is the engine's, in `s` or in `s` with the first move taken off, or a host's move, or the end of a wait. -/
theorem step_cases {s t : State} (h : step s = .next t) :
    engineStep s = .next t
      ∨ (∃ rest, s.host.moves = .engine :: rest ∧ engineStep (s.withMoves rest) = .next t)
      ∨ (∃ m rest, s.host.moves = m :: rest
          ∧ (t = s.withMoves rest ∨ hostMove m (s.withMoves rest) = .next t)) := by
  unfold step turn at h
  split at h
  · next s' heq =>
    split at heq
    · cases heq; exact .inl h
    · next rest hm => cases heq; exact .inr (.inl ⟨rest, hm, h⟩)
    · split at heq
      · cases heq; exact .inl h
      · cases heq
    · split at heq
      · cases heq
      · cases heq; exact .inl h
    · cases heq
  · next o heq =>
    split at heq
    · cases heq
    · cases heq
    · next rest hm =>
      split at heq
      · cases heq
      · cases heq; cases h; exact .inr (.inr ⟨_, _, hm, .inl rfl⟩)
    · next rest hm =>
      split at heq
      · cases heq; cases h; exact .inr (.inr ⟨_, _, hm, .inl rfl⟩)
      · cases heq
    · next m rest _ _ _ hm => cases heq; exact .inr (.inr ⟨_, _, hm, .inr h⟩)

/-- An engine step is the meaning of the instruction fetched, or what the fetch itself ended with. -/
theorem engineStep_cases {s : State} {o : Out} (h : engineStep s = o) :
    (∃ i, fetch s = .run i ∧ exec i s = o) ∨ fetch s = .over o := by
  unfold engineStep at h
  split at h
  · next i hi => exact .inl ⟨i, hi, h⟩
  · next o' ho => exact .inr (by rw [ho, h])

theorem fetch_idle {s : State} (h : s.activity = .idle) : fetch s = .over (.next s) := by simp [fetch, h]

theorem fetch_dispatch {s : State} (h : s.activity = .dispatch) :
    fetch s = .run (decodeCtrl s.latched.ctrl) := by simp [fetch, h]

theorem fetch_tokens {s : State} (h : s.activity = .tokens) : fetch s = fetchToken s := by simp [fetch, h]

theorem fetch_blocks {s : State} (h : s.activity = .blocks) : fetch s = fetchUnit s := by simp [fetch, h]

/-- An idle engine does nothing (log 23). -/
theorem engineStep_idle {s : State} (h : s.activity = .idle) : engineStep s = .next s := by
  simp [engineStep, fetch_idle h]

/-- Every instruction fetched is well formed. -/
theorem fetch_wellFormed {s : State} {i : Instr} (h : fetch s = .run i) : i.wellFormed = true := by
  unfold fetch at h
  split at h
  · cases h
  · cases h; exact decodeCtrl_wellFormed _
  · unfold fetchToken at h
    simp only at h
    split at h
    · cases h
    · unfold guardFetch at h
      split at h
      · split at h
        · cases h
        · split at h
          · split at h
            · next heq => cases h; exact decodeToken_wellFormed heq
            · cases h
          · cases h
      · cases h
  · unfold fetchUnit at h
    split at h
    · cases h
    · unfold guardFetch at h
      split at h
      · split at h
        · next heq => cases h; exact decodeUnit_wellFormed heq
        · cases h
        · cases h
      · cases h

end Sys2Proof.Machine
end

