-- ==== Sys2Proof/Tests/Slice0.lean ====
section
/-!
SUPPORT. The model's own tests: ill-formed terms that WellFormed refuses, one word of each instruction written out from
the spec's tables, steps from the spec's vectors (spec/95_test_vectors.md), the placing of the host's table words, and
for every statement with hypotheses a state and operands that meet them, clause by clause at the boundaries.
-/
namespace Sys2Proof.Tests
open Sys2Proof.Machine

-- The tests are many small kernel evaluations: one after another, not each in a thread of its own.
set_option Elab.async false

/-! ## Small states -/

/-- A command with CTRL `ctrl` accepted: source `src` at 0x1000, destination of `cap` bytes at 0x2000. -/
def commandState (ctrl : BitVec 7) (src : List Byte) (cap bs : Nat) : State :=
  { State.reset with
    activity := .dispatch
    mem := writeBytes [] 0x1000 src
    latched := ⟨ctrl, 0x1000#64, BitVec.ofNat 64 src.length, 0x2000#64, BitVec.ofNat 64 cap, BitVec.ofNat 64 bs⟩ }

/-- The token decoder running for DECOMPRESS at input offset `ip`, with the output `out` produced so far. -/
def tokenState (src : List Byte) (ip : Nat) (out : List Byte) (cap : Nat) : State :=
  { commandState 0x02#7 src cap 0 with
    activity := .tokens
    mem := writeBytes (writeBytes [] 0x1000 src) 0x2000 out
    td := ⟨.decompress, 0x1000, src.length, 0x2000, cap, ip, out.length, ip⟩ }

/-- The framing controller running at block offset `ipos`. -/
def blockState (owner : BfcOwner) (src : List Byte) (ipos opos cap : Nat) : State :=
  { commandState 0x04#7 src cap 0 with
    activity := .blocks
    bfc := ⟨owner, ipos, opos⟩ }

/-- The token decoder running on the `C` payload bytes behind the 7 header bytes of a block of `src`, at input offset
`ip` with `op` bytes of a window of `u` produced. -/
def payloadState (owner : BfcOwner) (src : List Byte) (c u ip op : Nat) : State :=
  { blockState owner src 0 0 100 with
    activity := .tokens
    td := ⟨.block, 0x1007, c, 0x2000, u, ip, op, ip⟩ }

/-- STATUS, RESULT_LEN and CONSUMED after an outcome. -/
def results (o : Out) : Option (Word × Word × Word) :=
  match o with
  | .next t => some (t.statusWord, t.resultLen, t.consumed)
  | _ => none

/-- The first `n` destination bytes after an outcome. -/
def output (o : Out) (n : Nat) : Option (List Byte) :=
  match o with
  | .next t => some ((List.range n).map fun k => t.byteAt (0x2000 + k))
  | _ => none

/-- The token decoder's cursors `ip` and `op` after an outcome. -/
def cursors (o : Out) : Option (Nat × Nat) :=
  match o with
  | .next t => some (t.td.ip, t.td.op)
  | _ => none

/-- The letter "a". -/
abbrev a : Byte := 0x61#8

/-! ## Ill-formed terms -/

theorem test_lit_zero_refused : (Instr.lit 0).wellFormed = false := by decide
theorem test_lit_33_refused : (Instr.lit 33).wellFormed = false := by decide
theorem test_short_offsets_refused :
    (Instr.brefShortL3 8192).wellFormed = false ∧ (Instr.brefShortL4 8192).wellFormed = false
      ∧ (Instr.brefShortL5 8192).wellFormed = false ∧ (Instr.brefShortL6 8192).wellFormed = false
      ∧ (Instr.brefShortL7 8192).wellFormed = false ∧ (Instr.brefShortL8 8192).wellFormed = false := by decide
theorem test_long_8_refused : (Instr.brefLong 8 0).wellFormed = false := by decide
theorem test_long_265_refused : (Instr.brefLong 265 0).wellFormed = false := by decide
theorem test_long_offset_refused : (Instr.brefLong 9 8192).wellFormed = false := by decide
theorem test_raw_65536_refused : (Instr.blkRaw 65536).wellFormed = false := by decide
theorem test_cmp_c_65536_refused : (Instr.blkCmp 65536 0).wellFormed = false := by decide
theorem test_cmp_u_65536_refused : (Instr.blkCmp 0 65536).wellFormed = false := by decide

/-! ## One word of every instruction, from the tables of R59 to R61, R66 to R68, R17 and R70 -/

theorem test_decode_lit : decodeToken [0b00000001#8, a, 0x62#8] = .ok (.lit 2, [a, 0x62#8]) := by decide
theorem test_decode_short3 : decodeToken [0b00111111#8, 0xFF#8] = .ok (.brefShortL3 8191, []) := by decide
theorem test_decode_short4 : decodeToken [0b01000001#8, 0x00#8] = .ok (.brefShortL4 256, []) := by decide
theorem test_decode_short5 : decodeToken [0b01100000#8, 0x00#8] = .ok (.brefShortL5 0, []) := by decide
theorem test_decode_short6 : decodeToken [0b10000000#8, 0x01#8] = .ok (.brefShortL6 1, []) := by decide
theorem test_decode_short7 : decodeToken [0b10100010#8, 0x03#8] = .ok (.brefShortL7 515, []) := by decide
theorem test_decode_short8 : decodeToken [0b11000000#8, 0x00#8] = .ok (.brefShortL8 0, []) := by decide
theorem test_decode_long :
    decodeToken [0b11100001#8, 0x5A#8, 0x02#8, a] = .ok (.brefLong 99 258, [a]) := by decide
theorem test_decode_raw :
    decodeUnit [0x5A#8, 0x56#8, 0x00#8, 0x01#8, 0x03#8, 0x78#8] = .ok (.blkRaw 259, [0x78#8]) := by decide
theorem test_decode_cmp :
    decodeUnit [0x5A#8, 0x56#8, 0x01#8, 0x00#8, 0x05#8, 0x01#8, 0x64#8] = .ok (.blkCmp 5 356, []) := by decide
theorem test_decode_term : decodeUnit [0x00#8, 0x5A#8] = .ok (.term, [0x5A#8]) := by decide
theorem test_decode_compress : decodeCtrl 0b1010001#7 = .compress .best false true := by decide
theorem test_decode_decompress : decodeCtrl 0b0000010#7 = .decompress .normal false false := by decide
theorem test_decode_encode : decodeCtrl 0b0100011#7 = .encode .normal true false := by decide
theorem test_decode_decode : decodeCtrl 0b1000100#7 = .decode .normal false true := by decide
theorem test_decode_encodeBlock : decodeCtrl 0b0010101#7 = .encodeBlock .best false false := by decide
theorem test_decode_decodeBlock : decodeCtrl 0b0000110#7 = .decodeBlock .normal false false := by decide
theorem test_decode_maxsize : decodeCtrl 0b0000111#7 = .maxsize .normal false false := by decide
theorem test_decode_reserved :
    decodeCtrl 0b0000000#7 = .reservedOp0 .normal false false
      ∧ decodeCtrl 0b0001000#7 = .reservedOp8 .normal false false
      ∧ decodeCtrl 0b0011001#7 = .reservedOp9 .best false false
      ∧ decodeCtrl 0b0101010#7 = .reservedOpA .normal true false
      ∧ decodeCtrl 0b1001011#7 = .reservedOpB .normal false true
      ∧ decodeCtrl 0b0001100#7 = .reservedOpC .normal false false
      ∧ decodeCtrl 0b0001101#7 = .reservedOpD .normal false false
      ∧ decodeCtrl 0b0001110#7 = .reservedOpE .normal false false
      ∧ decodeCtrl 0b1111111#7 = .reservedOpF .best true true := by decide
/-- V60, V58, V56, V29: bytes that spell nothing. -/
theorem test_decode_refuses :
    decodeUnit [0x5A#8, 0x00#8, 0x00#8, 0x00#8, 0x00#8] = .error .badHeader
      ∧ decodeUnit [0x5A#8, 0x56#8, 0x01#8, 0x00#8, 0x00#8, 0x00#8] = .error .badHeader
      ∧ decodeUnit [0x5A#8, 0x56#8, 0x02#8] = .error (.unknownType 0x02#8)
      ∧ decodeToken [0xE0#8, 0x00#8] = .error .truncatedToken := by decide

/-! ## The opcode table's words, placed and run as the first instruction (log 13) -/

theorem test_table_words :
    decodeTableWord 8 0x01 = some (.compress .normal false false)
      ∧ decodeTableWord 8 0x00 = some (.lit 1)
      ∧ decodeTableWord 16 0x0020 = some (.brefShortL3 0)
      ∧ decodeTableWord 8 0xE0 = some (.brefLong 9 0)
      ∧ decodeTableWord 24 0x5A5600 = some (.blkRaw 0)
      ∧ decodeTableWord 24 0x5A5601 = some (.blkCmp 0 0)
      ∧ decodeTableWord 40 0x5A5600 = some (.blkRaw 0)
      ∧ decodeTableWord 8 0x0F = some (.reservedOpF .normal false false) := by decide
theorem test_first_step_token : step (State.reset.withFetchWord 8 0x00)
    = exec (.lit 1) (State.reset.withFetchWord 8 0x00) := rfl
theorem test_first_step_block : step (State.reset.withFetchWord 24 0x5A5601)
    = exec (.blkCmp 0 0) (State.reset.withFetchWord 24 0x5A5601) := rfl
theorem test_first_step_command : step (State.reset.withFetchWord 8 0x07)
    = exec (.maxsize .normal false false) (State.reset.withFetchWord 8 0x07) := rfl

/-! ## Steps of single instructions, from the vectors of spec/95_test_vectors.md -/

/-- The first token of V22. -/
theorem test_lit_copies :
    cursors (exec (.lit 1) (tokenState [0x00#8, a, 0x60#8, 0x00#8] 0 [] 6)) = some (2, 1)
      ∧ output (exec (.lit 1) (tokenState [0x00#8, a, 0x60#8, 0x00#8] 0 [] 6)) 2 = some [a, 0x00#8] := by
  decide +kernel
/-- V27. -/
theorem test_lit_truncated :
    results (exec (.lit 2) (tokenState [0x01#8, a] 0 [] 5)) = some (0x24#64, 0#64, 0#64) := by decide +kernel
/-- The second token of V5: the shortest match, overlapping itself. -/
theorem test_short3_repeats :
    output (exec (.brefShortL3 0) (tokenState [0x00#8, a, 0x20#8, 0x00#8] 2 [a] 4)) 5
      = some [a, a, a, a, 0x00#8] := by decide +kernel
/-- V24. -/
theorem test_short3_before_start :
    results (exec (.brefShortL3 0) (tokenState [0x20#8, 0x00#8] 0 [] 1)) = some (0x24#64, 0#64, 0#64) := by
  decide +kernel
/-- The second token of V8. -/
theorem test_short4_copies :
    output (exec (.brefShortL4 3) (tokenState [0x03#8, a, 0x62#8, 0x63#8, 0x64#8, 0x40#8, 0x03#8] 5
      [a, 0x62#8, 0x63#8, 0x64#8] 8)) 8
      = some [a, 0x62#8, 0x63#8, 0x64#8, a, 0x62#8, 0x63#8, 0x64#8] := by decide +kernel
/-- V21: one byte short, the first token's output recorded. -/
theorem test_short5_too_small :
    results (exec (.brefShortL5 0) (tokenState [0x00#8, a, 0x60#8, 0x00#8] 2 [a] 5))
      = some (0x14#64, 1#64, 2#64) := by decide +kernel
/-- The second token of V9: a pattern of two bytes. -/
theorem test_short6_pattern :
    output (exec (.brefShortL6 1) (tokenState [0x01#8, a, 0x62#8, 0x80#8, 0x01#8] 3 [a, 0x62#8] 8)) 8
      = some [a, 0x62#8, a, 0x62#8, a, 0x62#8, a, 0x62#8] := by decide +kernel
/-- The second token of V44. -/
theorem test_short7_advances :
    cursors (exec (.brefShortL7 0) (tokenState [0x00#8, a, 0xA0#8, 0x00#8] 2 [a] 8)) = some (4, 8) := by
  decide +kernel
/-- The second token of V45. -/
theorem test_short8_advances :
    cursors (exec (.brefShortL8 0) (tokenState [0x00#8, a, 0xC0#8, 0x00#8] 2 [a] 9)) = some (4, 9) := by
  decide +kernel
/-- The second token of V29f: "abc" repeated. -/
theorem test_long_pattern :
    output (exec (.brefLong 9 2) (tokenState [0x02#8, a, 0x62#8, 0x63#8, 0xE0#8, 0x00#8, 0x02#8] 4
      [a, 0x62#8, 0x63#8] 12)) 12
      = some [a, 0x62#8, 0x63#8, a, 0x62#8, 0x63#8, a, 0x62#8, 0x63#8, a, 0x62#8, 0x63#8] := by decide +kernel
/-- V29b. -/
theorem test_long_too_small :
    results (exec (.brefLong 9 0) (tokenState [0x00#8, a, 0xE0#8, 0x00#8, 0x00#8] 2 [a] 9))
      = some (0x14#64, 1#64, 2#64) := by decide +kernel
/-- V62. -/
theorem test_raw_writes :
    output (exec (.blkRaw 3) (blockState .decodeBlock
      [0x5A#8, 0x56#8, 0x00#8, 0x00#8, 0x03#8, 0x78#8, 0x79#8, 0x7A#8] 0 0 100)) 4
      = some [0x78#8, 0x79#8, 0x7A#8, 0x00#8]
    ∧ results (exec (.blkRaw 3) (blockState .decodeBlock
      [0x5A#8, 0x56#8, 0x00#8, 0x00#8, 0x03#8, 0x78#8, 0x79#8, 0x7A#8] 0 0 100))
      = some (0x2#64, 3#64, 8#64) := by decide +kernel
/-- V61. -/
theorem test_raw_cut_short :
    results (exec (.blkRaw 3) (blockState .decode [0x5A#8, 0x56#8, 0x00#8, 0x00#8, 0x03#8, 0x78#8, 0x79#8] 0 0 100))
      = some (0x24#64, 0#64, 0#64) := by decide +kernel
/-- V67 starts its payload; V68b does not fit. -/
theorem test_cmp_starts :
    cursors (exec (.blkCmp 4 6) (blockState .decode
      [0x5A#8, 0x56#8, 0x01#8, 0x00#8, 0x04#8, 0x00#8, 0x06#8, 0x00#8, a, 0x60#8, 0x00#8] 0 0 100)) = some (0, 0)
    ∧ results (exec (.blkCmp 4 6) (blockState .decode
      [0x5A#8, 0x56#8, 0x01#8, 0x00#8, 0x04#8, 0x00#8, 0x06#8, 0x00#8, a, 0x60#8, 0x00#8] 0 0 5))
      = some (0x14#64, 0#64, 0#64) := by decide +kernel
/-- V67 cut one byte short (R118). -/
theorem test_cmp_cut_short :
    results (exec (.blkCmp 4 6) (blockState .decode
      [0x5A#8, 0x56#8, 0x01#8, 0x00#8, 0x04#8, 0x00#8, 0x06#8, 0x00#8, a, 0x60#8] 0 0 100))
      = some (0x24#64, 0#64, 0#64) := by decide +kernel
/-- V51 and, in DECODE_BLOCK, the terminator of program P3. -/
theorem test_term_ends :
    results (exec .term (blockState .decode [0x00#8] 0 0 100)) = some (0x102#64, 0#64, 1#64)
      ∧ results (exec .term (blockState .decodeBlock [0x00#8] 0 0 100)) = some (0x102#64, 0#64, 1#64) := by
  decide +kernel
/-- V6. -/
theorem test_compress_writes :
    output (exec (.compress .normal false false) (commandState 0x01#7 [a, a, a, a, a, a] 7 0)) 5
      = some [0x00#8, a, 0x60#8, 0x00#8, 0x00#8] := by decide +kernel
/-- V20b. -/
theorem test_compress_too_small :
    results (exec (.compress .best false false) (commandState 0x11#7 [a, a, a, a, a, a] 3 0))
      = some (0x14#64, 0#64, 0#64) := by decide +kernel
/-- V20: the closest of two equal matches wins. -/
theorem test_compress_best_tie :
    output (exec (.compress .best false false) (commandState 0x11#7
      [a, 0x62#8, 0x63#8, 0x58#8, a, 0x62#8, 0x63#8, 0x59#8, a, 0x62#8, 0x63#8] 12 0)) 11
      = some [0x03#8, a, 0x62#8, 0x63#8, 0x58#8, 0x20#8, 0x03#8, 0x00#8, 0x59#8, 0x20#8, 0x03#8] := by
  decide +kernel
/-- V20d starts and V85 is rejected. -/
theorem test_decompress_checks :
    cursors (exec (.decompress .normal false false) (commandState 0x02#7 [] 0 0)) = some (0, 0)
      ∧ results (exec (.decompress .normal false false)
          { commandState 0x02#7 [] 0 0 with
            latched := ⟨0x02#7, 0x1000#64, 0#64, 0xFFFFFFFFFFFFFFFF#64, 2#64, 0#64⟩ })
        = some (0x54#64, 0#64, 0#64) := by decide +kernel
/-- V44: `C = U - 4` exactly is a type-1 block, then the terminator. -/
theorem test_encode_threshold :
    output (exec (.encode .normal true false) (commandState 0x23#7 [a, a, a, a, a, a, a, a] 20 8)) 12
      = some [0x5A#8, 0x56#8, 0x01#8, 0x00#8, 0x04#8, 0x00#8, 0x08#8, 0x00#8, a, 0xA0#8, 0x00#8, 0x00#8] := by
  decide +kernel
/-- V49d: the third block does not fit. -/
theorem test_encode_too_small :
    results (exec (.encode .normal false false)
      (commandState 0x03#7 [0x30#8, 0x31#8, 0x32#8, 0x33#8, 0x34#8, 0x35#8, 0x36#8, 0x37#8, 0x38#8, 0x39#8] 20 4))
      = some (0x14#64, 18#64, 8#64) := by decide +kernel
/-- V49g: the block fits, the terminator does not. -/
theorem test_encodeBlock_terminator :
    results (exec (.encodeBlock .normal true false) (commandState 0x25#7 [a, a, a, a, a, a, a, a] 11 0))
      = some (0x14#64, 11#64, 8#64) := by decide +kernel
/-- V49h. -/
theorem test_encodeBlock_empty :
    results (exec (.encodeBlock .best false false) (commandState 0x15#7 [] 0 0)) = some (0x2#64, 0#64, 0#64) := by
  decide +kernel
/-- V50 and V54: DECODE and DECODE_BLOCK start at the first block, whatever it holds. -/
theorem test_decode_starts :
    results (exec (.decode .best true false) (commandState 0x34#7 [] 100 0)) = some (0x1#64, 0#64, 0#64)
      ∧ results (exec (.decodeBlock .normal false false) (commandState 0x06#7 [0x5A#8] 100 0))
        = some (0x1#64, 0#64, 0#64) := by decide +kernel
/-- V75 and V78. -/
theorem test_maxsize_bound :
    results (exec (.maxsize .normal false false)
      { State.reset with activity := .dispatch, latched := ⟨0x07#7, 0#64, 65535#64, 0#64, 0#64, 0#64⟩ })
      = some (0x2#64, 67583#64, 0#64)
    ∧ results (exec (.maxsize .normal false false)
      { State.reset with activity := .dispatch, latched := ⟨0x07#7, 0#64, 17887751829051686415#64, 0#64, 0#64, 0#64⟩ })
      = some (0x54#64, 0#64, 0#64) := by decide +kernel
/-- V80 and V81, and the same for every reserved OP. -/
theorem test_reserved_illegal :
    ∀ i ∈ [Instr.reservedOp0 .normal false false, .reservedOp8 .normal false false, .reservedOp9 .best false false,
        .reservedOpA .normal true false, .reservedOpB .normal false true, .reservedOpC .normal false false,
        .reservedOpD .normal false false, .reservedOpE .normal false false, .reservedOpF .best true true],
      results (exec i (commandState 0x08#7 [a] 4 0)) = some (0x74#64, 0#64, 0#64) := by decide +kernel
/-- V0a to V0c. -/
theorem test_default_hash :
    defaultHash3 a 0x62#8 0x63#8 = 0x881A#16 ∧ defaultHash3 a a a = 0x1432#16
      ∧ defaultHash3 0x00#8 0x00#8 0x00#8 = 0x0000#16 := by decide +kernel

/-! ## Witnesses: for every statement with hypotheses, values that meet them, clause by clause -/

/-- The bytes of V67: BLK_CMP of 4 payload bytes that decode to "aaaaaa". -/
abbrev v67 : List Byte := [0x5A#8, 0x56#8, 0x01#8, 0x00#8, 0x04#8, 0x00#8, 0x06#8, 0x00#8, a, 0x60#8, 0x00#8]
/-- The bytes of V22: "a", then a copy of five. -/
abbrev v22 : List Byte := [0x00#8, a, 0x60#8, 0x00#8]
/-- The bytes of V62: BLK_RAW of "xyz". -/
abbrev v62 : List Byte := [0x5A#8, 0x56#8, 0x00#8, 0x00#8, 0x03#8, 0x78#8, 0x79#8, 0x7A#8]
/-- The state with the given pending moves. -/
def pending (s : State) (moves : List HostMove) : State := s.withMoves moves
/-- The address of a register of the window of `State.reset`. -/
def regAddr (offset : Nat) : Word := BitVec.ofNat 64 (0xF000000000000000 + offset)
/-- A platform that answers every access to address `x` of the given kind with a bus error. -/
def faulty (s : State) (kind : BusAccess) (x : Nat) : State :=
  { s with platform := { s.platform with busFaults := [⟨kind, x⟩] } }

theorem witness_DecodeEncodeAgree :
    (Instr.lit 32).wellFormed = true ∧ (Instr.brefShortL3 8191).wellFormed = true
      ∧ (Instr.brefShortL8 0).wellFormed = true ∧ (Instr.brefLong 9 0).wellFormed = true
      ∧ (Instr.brefLong 264 8191).wellFormed = true ∧ (Instr.blkRaw 65535).wellFormed = true
      ∧ (Instr.blkCmp 65535 65535).wellFormed = true ∧ Instr.term.wellFormed = true
      ∧ (Instr.maxsize .best true true).wellFormed = true := by decide
theorem witness_DecodedBytesAreEncoded :
    (Language.token ≠ .command ∧ decodeIn .token [0xFF#8, 0xFF#8, 0xFF#8, a] = .ok (.brefLong 264 8191, [a]))
      ∧ (Language.block ≠ .command
        ∧ decodeIn .block [0x5A#8, 0x56#8, 0x00#8, 0xFF#8, 0xFF#8] = .ok (.blkRaw 65535, [])) := by decide
theorem witness_TokenKindsByControlByte :
    (0x1F#8 : Byte).toNat < 0x20 ∧ (0x20 ≤ (0x20#8 : Byte).toNat ∧ (0x20#8 : Byte).toNat < 0xE0)
      ∧ (0x20 ≤ (0xDF#8 : Byte).toNat ∧ (0xDF#8 : Byte).toNat < 0xE0) ∧ 0xE0 ≤ (0xE0#8 : Byte).toNat := by decide
theorem witness_DecodedBytesAreEncoded_reference :
    ((8191 ≤ 8191 ∧ 3 ≤ 8 ∧ 8 ≤ 264)
        ∧ (Instr.brefShortL8 8191).wellFormed = true ∧ (Instr.brefShortL8 8191).reference = some (2, 8191, 8))
      ∧ ((0 ≤ 8191 ∧ 3 ≤ 9 ∧ 9 ≤ 264)
        ∧ (Instr.brefLong 9 0).wellFormed = true ∧ (Instr.brefLong 9 0).reference = some (3, 0, 9)) := by decide
theorem witness_BlockStartKinds :
    2 ≤ (0x02#8 : Byte).toNat ∧ 2 ≤ (0xFF#8 : Byte).toNat
      ∧ ([0x5A#8, 0x56#8] ≠ [] ∧ [0x5A#8, 0x56#8].length < 3 ∧ [0x5A#8, 0x56#8].head? ≠ some 0x00#8)
      ∧ ((0x5A#8 : Byte) ≠ 0x00#8 ∧ ((0x5A#8, 0x00#8) : Byte × Byte) ≠ (0x5A#8, 0x56#8))
      ∧ ((0x01#8 : Byte) ≠ 0x00#8 ∧ ((0x01#8, 0x56#8) : Byte × Byte) ≠ (0x5A#8, 0x56#8))
      ∧ [0x00#8].length < 2 ∧ [0x00#8, 0x00#8, 0x00#8].length < 4 := by decide
theorem witness_StepRunsInstruction_command :
    turn (commandState 0x02#7 [] 0 0) = .engine (commandState 0x02#7 [] 0 0)
      ∧ (commandState 0x02#7 [] 0 0).activity = .dispatch := ⟨rfl, rfl⟩
theorem witness_StepRunsInstruction_token (s : State) (hs : s = tokenState [0x00#8, a, 0x60#8, 0x00#8] 2 [a] 6) :
    turn s = .engine s ∧ s.activity = .tokens ∧ s.td.ip ≤ s.td.clen
      ∧ decodeToken (s.source (s.td.srcBase + s.td.ip) (s.td.clen - s.td.ip)) = .ok (.brefShortL5 0, [])
      ∧ s.checkSource s.readsNow (s.td.srcBase + s.td.ip) (encode (.brefShortL5 0)).length = .granted := by
  subst hs; exact ⟨rfl, rfl, by decide +kernel, by decide +kernel, by decide +kernel⟩
theorem witness_StepRunsInstruction_unit (s : State) (hs : s = blockState .decode v67 0 0 6) :
    turn s = .engine s ∧ s.activity = .blocks ∧ s.bfc.ipos ≤ s.latched.srcLen.toNat
      ∧ decodeUnit (s.source (s.srcLo + s.bfc.ipos) (s.latched.srcLen.toNat - s.bfc.ipos))
        = .ok (.blkCmp 4 6, [0x00#8, a, 0x60#8, 0x00#8])
      ∧ s.checkSource false (s.srcLo + s.bfc.ipos) s.unitBytes = .granted := by
  subst hs; exact ⟨rfl, rfl, by decide +kernel, by decide +kernel, by decide +kernel⟩
/-- V28. -/
theorem witness_StepEndsMalformed_token (s : State) (hs : s = tokenState [0x00#8, a, 0x20#8] 2 [a] 5) :
    turn s = .engine s ∧ s.activity = .tokens ∧ s.td.owner = .decompress ∧ s.td.ip ≤ s.td.clen
      ∧ decodeToken (s.source (s.td.srcBase + s.td.ip) (s.td.clen - s.td.ip)) = .error .truncatedToken
      ∧ s.checkSource s.readsNow (s.td.srcBase + s.td.ip) 1 = .granted := by
  subst hs; exact ⟨rfl, rfl, rfl, by decide +kernel, by decide +kernel, by decide +kernel⟩
/-- The payload of V67 cut inside its second token, for both owners. -/
theorem witness_StepEndsMalformed_payload (owner : BfcOwner) (s : State)
    (hs : s = payloadState owner (v67.take 10) 3 6 2 1) :
    turn s = .engine s ∧ s.activity = .tokens ∧ s.td.owner = .block ∧ s.td.ip ≤ s.td.clen
      ∧ decodeToken (s.source (s.td.srcBase + s.td.ip) (s.td.clen - s.td.ip)) = .error .truncatedToken
      ∧ s.checkSource s.readsNow (s.td.srcBase + s.td.ip) 1 = .granted := by
  subst hs; cases owner <;> exact ⟨rfl, rfl, rfl, by decide +kernel, by decide +kernel, by decide +kernel⟩
/-- V69 for DECODE. -/
theorem witness_StepEndsMalformed_type (s : State)
    (hs : s = blockState .decode [0x5A#8, 0x56#8, 0x00#8, 0x00#8, 0x01#8, 0x71#8, 0x5A#8, 0x56#8, 0x03#8] 6 1 100) :
    turn s = .engine s ∧ s.activity = .blocks ∧ s.bfc.ipos ≤ s.latched.srcLen.toNat
      ∧ decodeUnit (s.source (s.srcLo + s.bfc.ipos) (s.latched.srcLen.toNat - s.bfc.ipos))
        = .error (.unknownType 0x03#8)
      ∧ DecodeError.unknownType 0x03#8 ≠ .endOfInput
      ∧ s.checkSource false (s.srcLo + s.bfc.ipos) s.unitBytes = .granted := by
  subst hs; exact ⟨rfl, rfl, by decide +kernel, by decide +kernel, by decide, by decide +kernel⟩
/-- V54 for DECODE_BLOCK. -/
theorem witness_StepEndsMalformed_header (s : State) (hs : s = blockState .decodeBlock [0x5A#8] 0 0 100) :
    turn s = .engine s ∧ s.activity = .blocks ∧ s.bfc.ipos ≤ s.latched.srcLen.toNat
      ∧ decodeUnit (s.source (s.srcLo + s.bfc.ipos) (s.latched.srcLen.toNat - s.bfc.ipos)) = .error .badHeader
      ∧ DecodeError.badHeader ≠ .endOfInput
      ∧ s.checkSource false (s.srcLo + s.bfc.ipos) s.unitBytes = .granted := by
  subst hs; exact ⟨rfl, rfl, by decide +kernel, by decide +kernel, by decide, by decide +kernel⟩
theorem witness_StepEndsStreams_blocks :
    (turn (blockState .decode v62 8 3 100) = .engine (blockState .decode v62 8 3 100)
        ∧ (blockState .decode v62 8 3 100).activity = .blocks
        ∧ (blockState .decode v62 8 3 100).latched.srcLen.toNat ≤ (blockState .decode v62 8 3 100).bfc.ipos
        ∧ (blockState .decode v62 8 3 100).bfc.owner = .decode)
      ∧ (turn (blockState .decodeBlock [] 0 0 0) = .engine (blockState .decodeBlock [] 0 0 0)
        ∧ (blockState .decodeBlock [] 0 0 0).latched.srcLen.toNat ≤ (blockState .decodeBlock [] 0 0 0).bfc.ipos
        ∧ (blockState .decodeBlock [] 0 0 0).bfc.owner = .decodeBlock) :=
  ⟨⟨rfl, rfl, by decide +kernel, rfl⟩, ⟨rfl, by decide +kernel, rfl⟩⟩
theorem witness_StepEndsStreams_tokens :
    (turn (tokenState [0x00#8, a] 2 [a] 5) = .engine (tokenState [0x00#8, a] 2 [a] 5)
        ∧ (tokenState [0x00#8, a] 2 [a] 5).activity = .tokens
        ∧ (tokenState [0x00#8, a] 2 [a] 5).td.clen ≤ (tokenState [0x00#8, a] 2 [a] 5).td.ip
        ∧ (tokenState [0x00#8, a] 2 [a] 5).td.owner = .decompress)
      ∧ (∀ owner : BfcOwner, ∀ u ∈ [6, 7],
        turn (payloadState owner v67 4 u 4 6) = .engine (payloadState owner v67 4 u 4 6)
        ∧ (payloadState owner v67 4 u 4 6).activity = .tokens
        ∧ (payloadState owner v67 4 u 4 6).td.clen ≤ (payloadState owner v67 4 u 4 6).td.ip
        ∧ (payloadState owner v67 4 u 4 6).td.owner = .block
        ∧ (payloadState owner v67 4 u 4 6).bfc.owner = owner
        ∧ ((payloadState owner v67 4 u 4 6).td.op = (payloadState owner v67 4 u 4 6).td.cap ↔ u = 6)) := by
  refine ⟨⟨rfl, rfl, by decide +kernel, rfl⟩, fun owner u hu => ⟨rfl, rfl, Nat.le_refl 4, rfl, rfl, ?_⟩⟩
  exact ⟨fun h => h.symm, fun h => h.symm⟩
theorem witness_MaxsizeResult :
    (((17887751829051686414#64 : Word).toNat * 33) >>> 5) + 1 ≤ 2 ^ 64 - 1
      ∧ 2 ^ 64 - 1 < (((17887751829051686415#64 : Word).toNat * 33) >>> 5) + 1 := by decide
theorem witness_ReservedCommandsEnd :
    (Instr.reservedOp0 .normal false false).isReserved = true ∧ (Instr.reservedOpF .best true true).isReserved = true
      ∧ ((0x70#7 : BitVec 7).toNat % 16 = 0 ∧ 8 ≤ (0x18#7 : BitVec 7).toNat % 16)
      ∧ ((Instr.maxsize .normal false false).isReserved = false ∧ (commandState 0x07#7 [] 0 0).errCode ≠ 7#4
        ∧ results (exec (.maxsize .normal false false) (commandState 0x07#7 [] 0 0)) = some (0x2#64, 1#64, 0#64)) := by
  decide +kernel
/-- V80, V49e, V49f, V82, V49i, V78, V85, a source past the top, V83: one witness for each clause. -/
theorem witness_ParameterChecks (latch : BitVec 7 → Word → Word → Word → Word → Word → State)
    (hl : latch = fun c sa sl da dc bs => { State.reset with activity := .dispatch, latched := ⟨c, sa, sl, da, dc, bs⟩ }) :
    (Instr.reservedOp8 .normal false false).isReserved = true
      ∧ (Instr.encode .normal false false).lengthsOk (latch 3 0 0 0 0 0) = false
      ∧ (Instr.encode .best true true).lengthsOk (latch 3 0 0 0 0 65536) = false
      ∧ (Instr.compress .normal false false).lengthsOk (latch 1 0 4294967296 0 0 0) = false
      ∧ (Instr.encodeBlock .normal false false).lengthsOk (latch 5 0 65536 0 0 0) = false
      ∧ (Instr.maxsize .normal false false).lengthsOk (latch 7 0 17887751829051686415 0 0 0) = false
      ∧ ((Instr.decompress .normal false false).isMemoryCommand = true
        ∧ 2 ^ 64 < (latch 2 0 0 0xFFFFFFFFFFFFFFFF 2 0).latched.dstAddr.toNat
          + (latch 2 0 0 0xFFFFFFFFFFFFFFFF 2 0).latched.dstCap.toNat)
      ∧ ((Instr.decode .normal false false).isMemoryCommand = true
        ∧ 2 ^ 64 < (latch 4 0xFFFFFFFFFFFFFFFF 2 0 0 0).latched.srcAddr.toNat
          + (latch 4 0xFFFFFFFFFFFFFFFF 2 0 0 0).latched.srcLen.toNat)
      ∧ ((Instr.compress .normal false false).isMemoryCommand = true
        ∧ ((latch 1 0x1000 16 0x100F 1 0).latched.srcAddr.toNat ≤ 0x100F
          ∧ 0x100F < (latch 1 0x1000 16 0x100F 1 0).latched.srcAddr.toNat
            + (latch 1 0x1000 16 0x100F 1 0).latched.srcLen.toNat
          ∧ (latch 1 0x1000 16 0x100F 1 0).latched.dstAddr.toNat ≤ 0x100F
          ∧ 0x100F < (latch 1 0x1000 16 0x100F 1 0).latched.dstAddr.toNat
            + (latch 1 0x1000 16 0x100F 1 0).latched.dstCap.toNat)) := by
  subst hl; decide +kernel
/-- V84 and V86: ranges that touch, and one that ends exactly at the top, pass the checks; so do empty ranges (V87). -/
theorem witness_launchable_boundaries (latch : BitVec 7 → Word → Word → Word → Word → State)
    (hl : latch = fun c sa sl da dc => { State.reset with activity := .dispatch, latched := ⟨c, sa, sl, da, dc, 0⟩ }) :
    (latch 1 0x1000 16 0x1010 1).launchable = true
      ∧ (latch 2 0x1000 2 0xFFFFFFFFFFFFFFFF 1).launchable = true
      ∧ (latch 2 0x1000 0 0x1000 0).launchable = true := by
  subst hl; decide +kernel
theorem witness_CompressResult (s : Nat → State) (hs : s = fun cap => commandState 0x01#7 [a, a, a, a, a, a] cap 0)
    (r : Nat → Coded) (hr : r = fun cap => mfCall (hash3Of (s cap).platform.hash) .normal (s cap).sourceBytes
      (s cap).latched.dstCap.toNat (s cap).mf) :
    ((s 4).latched.srcLen.toNat ≤ 4294967295 ∧ (s 4).launchable = true ∧ (s 4).busQuiet = true ∧ (r 4).fits = true)
      ∧ ((s 3).latched.srcLen.toNat ≤ 4294967295 ∧ (s 3).launchable = true ∧ (s 3).busQuiet = true
        ∧ (r 3).fits = false) := by
  subst hr; subst hs; decide +kernel
/-- V44 with room for the terminator, for the block only, and for nothing. -/
theorem witness_EncodeResult (s : Nat → State)
    (hs : s = fun cap => commandState 0x23#7 [a, a, a, a, a, a, a, a] cap 8)
    (out : Nat → List Byte) (ho : out = fun cap =>
      framed (hash3Of (s cap).platform.hash) .normal (s cap).latched.blockSize.toNat (s cap).sourceBytes
        ++ terminator true) :
    ∀ cap ∈ [12, 11, 10],
      1 ≤ (s cap).latched.blockSize.toNat ∧ (s cap).latched.blockSize.toNat ≤ 65535 ∧ (s cap).launchable = true
        ∧ (s cap).busQuiet = true
        ∧ (if cap = 12 then (out cap).length ≤ (s cap).latched.dstCap.toNat
            else (s cap).latched.dstCap.toNat < (out cap).length) := by
  subst ho; subst hs; decide +kernel
theorem witness_EncodeBlockResult (s : Nat → State)
    (hs : s = fun cap => commandState 0x25#7 [a, a, a, a, a, a, a, a] cap 0)
    (blk : Nat → List Byte) (hb : blk = fun cap => if (s cap).latched.srcLen.toNat = 0 then []
      else blockOf (hash3Of (s cap).platform.hash) .normal (s cap).sourceBytes) :
    ∀ cap ∈ [12, 11, 10],
      (s cap).latched.srcLen.toNat ≤ 65535 ∧ (s cap).launchable = true ∧ (s cap).busQuiet = true
        ∧ (if cap = 12 then (blk cap ++ terminator true).length ≤ (s cap).latched.dstCap.toNat
          else if cap = 11 then (blk cap).length ≤ (s cap).latched.dstCap.toNat
            ∧ (s cap).latched.dstCap.toNat < (blk cap ++ terminator true).length
          else (s cap).latched.dstCap.toNat < (blk cap).length) := by
  subst hb; subst hs; decide +kernel
theorem witness_DecodersLaunch (s : State) (hs : s = commandState 0x04#7 v67 6 0) :
    s.launchable = true ∧ s.busFaultIn .read s.srcLo s.latched.srcLen.toNat = false := by
  subst hs; decide +kernel
/-- V26, a run one byte past the capacity, and V29g's boundary: a run that fills the window. -/
theorem witness_LitResult :
    (0x1F#8 : Byte).toNat < 0x20
      ∧ ((tokenState [0x00#8] 0 [] 5).td.clen < (tokenState [0x00#8] 0 [] 5).td.ip + 1 + 1)
      ∧ ((tokenState [0x01#8, a, a] 0 [] 1).td.ip + 1 + 2 ≤ (tokenState [0x01#8, a, a] 0 [] 1).td.clen
        ∧ (tokenState [0x01#8, a, a] 0 [] 1).td.cap < (tokenState [0x01#8, a, a] 0 [] 1).td.op + 2)
      ∧ ∀ s ∈ [tokenState [0x01#8, a, a] 0 [] 2],
        s.td.ip + 1 + 2 ≤ s.td.clen ∧ s.td.op + 2 ≤ s.td.cap
          ∧ s.checkSource s.readsNow (s.td.srcBase + s.td.ip + 1) 2 = .granted
          ∧ s.checkDest .write (s.td.outBase + s.td.op) 2 = .granted := by decide +kernel
/-- The boundary `off = op - 1`, and the shortest overlap: V22's second token. -/
theorem witness_ReferenceResult :
    (Instr.brefShortL5 0).reference = some (2, 0, 5)
      ∧ ∀ s ∈ [tokenState [0x00#8, a, 0x60#8, 0x00#8] 2 [a] 6],
        s.td.ip + 2 ≤ s.td.clen ∧ 0 < s.td.op ∧ s.td.op + 5 ≤ s.td.cap
          ∧ s.checkDest .readBack (s.td.outBase + (s.td.op - 0 - 1)) 5 = .granted
          ∧ s.checkDest .write (s.td.outBase + s.td.op) 5 = .granted := by decide +kernel
/-- V28, V29d (off = op) and V29b. -/
theorem witness_TokenErrorOrder :
    (Instr.brefShortL3 0).tokenParts = some (2, some 0, 3)
      ∧ (∀ s ∈ [tokenState [0x00#8, a, 0x20#8] 2 [a] 5], s.td.owner = .decompress ∧ s.td.clen < s.td.ip + 2)
      ∧ (Instr.brefShortL3 1).tokenParts = some (2, some 1, 3)
      ∧ (∀ s ∈ [tokenState [0x00#8, a, 0x20#8, 0x01#8] 2 [a] 5],
        s.td.owner = .decompress ∧ s.td.ip + 2 ≤ s.td.clen ∧ s.td.op ≤ 1)
      ∧ (Instr.brefLong 9 0).tokenParts = some (3, some 0, 9)
      ∧ ∀ s ∈ [tokenState [0x00#8, a, 0xE0#8, 0x00#8, 0x00#8] 2 [a] 9],
        s.td.owner = .decompress ∧ s.td.ip + 3 ≤ s.td.clen ∧ (∀ o : Nat, some 0 = some o → o < s.td.op)
          ∧ s.td.cap < s.td.op + 9 := by
  refine ⟨rfl, by decide +kernel, rfl, by decide +kernel, rfl, ?_⟩
  intro s hs
  rw [List.mem_singleton] at hs
  subst hs
  exact ⟨rfl, by decide +kernel, fun o h => by cases h; exact Nat.zero_lt_one, by decide +kernel⟩
/-- V65, a payload token cut short, and V66, for both owners. -/
theorem witness_PayloadErrors (owner : BfcOwner) :
    ((Instr.brefShortL3 0).tokenParts = some (2, some 0, 3) ∧ (payloadState owner v67 4 6 0 0).td.owner = .block
        ∧ (payloadState owner v67 4 6 0 0).td.op ≤ 0)
      ∧ ((Instr.lit 1).tokenParts = some (2, none, 1)
        ∧ (payloadState owner v67 4 6 3 1).td.clen < (payloadState owner v67 4 6 3 1).td.ip + 2)
      ∧ ((Instr.brefShortL5 0).tokenParts = some (2, some 0, 5)
        ∧ (payloadState owner v67 4 5 2 1).td.cap < (payloadState owner v67 4 5 2 1).td.op + 5) := by
  cases owner <;> decide +kernel
/-- V61, V62 with one byte too little room, V62. -/
theorem witness_BlkRawResult (owner : BfcOwner) :
    ((blockState owner (v62.take 7) 0 0 100).latched.srcLen.toNat
        < (blockState owner (v62.take 7) 0 0 100).bfc.ipos + 5 + 3)
      ∧ ((blockState owner v62 0 0 2).bfc.ipos + 5 + 3 ≤ (blockState owner v62 0 0 2).latched.srcLen.toNat
        ∧ (blockState owner v62 0 0 2).latched.dstCap.toNat < (blockState owner v62 0 0 2).bfc.opos + 3)
      ∧ ∀ s ∈ [blockState owner v62 0 0 3],
        s.bfc.ipos + 5 + 3 ≤ s.latched.srcLen.toNat ∧ s.bfc.opos + 3 ≤ s.latched.dstCap.toNat
          ∧ s.checkSource false (s.srcLo + s.bfc.ipos + 5) 3 = .granted
          ∧ s.checkDest .write (s.dstLo + s.bfc.opos) 3 = .granted ∧ s.bfc.owner = owner := by
  cases owner <;> decide +kernel
/-- V67 cut short, V68b, V67 into exactly six bytes. -/
theorem witness_BlkCmpResult :
    ((blockState .decode (v67.take 10) 0 0 100).latched.srcLen.toNat
        < (blockState .decode (v67.take 10) 0 0 100).bfc.ipos + 7 + 4)
      ∧ ((blockState .decode v67 0 0 5).bfc.ipos + 7 + 4 ≤ (blockState .decode v67 0 0 5).latched.srcLen.toNat
        ∧ (blockState .decode v67 0 0 5).latched.dstCap.toNat < (blockState .decode v67 0 0 5).bfc.opos + 6)
      ∧ ((blockState .decode v67 0 0 6).bfc.ipos + 7 + 4 ≤ (blockState .decode v67 0 0 6).latched.srcLen.toNat
        ∧ (blockState .decode v67 0 0 6).bfc.opos + 6 ≤ (blockState .decode v67 0 0 6).latched.dstCap.toNat) := by
  decide +kernel
theorem witness_TermResult :
    (blockState .decode [0x00#8] 0 0 0).bfc.owner = .decode
      ∧ (blockState .decodeBlock [0x00#8] 0 0 0).bfc.owner = .decodeBlock := ⟨rfl, rfl⟩
/-- V22: a fault on the first byte of its second token, on the second one; on the data byte of its first token, on the
byte read back, on the last byte written. -/
theorem witness_BusErrorEndsToken :
    (∀ x ∈ [0x1002, 0x1003], ∀ s ∈ [faulty (tokenState v22 2 [a] 6) .read x],
      turn s = .engine s ∧ s.activity = .tokens ∧ s.td.owner = .decompress ∧ s.rangesFit = true
        ∧ s.tokensInRange = true ∧ s.td.ip < s.td.clen
        ∧ tokenHeadLength (s.sourceByte (s.td.srcBase + s.td.ip)) = 2
        ∧ (if x = 0x1002 then s.busFaultIn .read (s.td.srcBase + s.td.ip) 1 = true
          else s.td.ip + 2 ≤ s.td.clen ∧ s.busFaultIn .read (s.td.srcBase + s.td.ip) 2 = true)) := by
  intro x hx
  fin_cases hx <;> intro s hs <;> rw [List.mem_singleton] at hs <;> subst hs <;>
    exact ⟨rfl, rfl, rfl, by decide +kernel, by decide +kernel, by decide +kernel, by decide +kernel,
      by decide +kernel⟩
theorem witness_BusErrorEndsToken_exec :
    (∀ s ∈ [faulty (tokenState v22 0 [] 6) .read 0x1001],
      (Instr.lit 1).tokenParts = some (2, none, 1) ∧ s.td.owner = .decompress ∧ s.rangesFit = true
        ∧ s.tokensInRange = true ∧ s.td.ip + 2 ≤ s.td.clen ∧ s.td.op + 1 ≤ s.td.cap
        ∧ s.busFaultIn .read (s.td.srcBase + s.td.ip + 1) 1 = true)
      ∧ ∀ kind ∈ [BusAccess.readBack, .write],
        ∀ s ∈ [faulty (tokenState v22 2 [a] 6) kind (if kind = .write then 0x2005 else 0x2000)],
        (Instr.brefShortL5 0).tokenParts = some (2, some 0, 5) ∧ s.rangesFit = true ∧ s.tokensInRange = true
          ∧ s.td.ip + 2 ≤ s.td.clen ∧ 0 < s.td.op ∧ s.td.op + 5 ≤ s.td.cap
          ∧ s.busFaultIn kind (if kind = .write then s.td.outBase + s.td.op
              else s.td.outBase + (s.td.op - 0 - 1)) 5 = true := by decide +kernel
/-- A fault on the last source byte of COMPRESS, on the last byte it writes, on the last destination byte when its
stream does not fit; on the last byte of BLK_RAW. -/
theorem witness_BusErrorEndsCommand (r : Nat → Coded)
    (hr : r = fun cap => mfCall (hash3Of State.reset.platform.hash) .normal
      (commandState 0x01#7 [a, a, a, a, a, a] cap 0).sourceBytes cap (commandState 0x01#7 [] cap 0).mf) :
    (∀ s ∈ [faulty (commandState 0x01#7 [a, a] 4 0) .read 0x1001],
      (Instr.compress .normal false false).isMemoryCommand = true
        ∧ (Instr.compress .normal false false).lengthsOk s = true ∧ s.launchable = true
        ∧ s.busFaultIn .read s.srcLo s.latched.srcLen.toNat = true)
      ∧ (∀ cap ∈ [4, 3], ∀ s ∈ [faulty (commandState 0x01#7 [a, a, a, a, a, a] cap 0) .write (0x1FFF + cap)],
        s.latched.srcLen.toNat ≤ 4294967295 ∧ s.launchable = true ∧ ((r cap).fits = true ↔ cap = 4)
          ∧ s.busFaultIn .write s.dstLo
              (if (r cap).fits then (r cap).out.length else s.latched.dstCap.toNat) = true)
      ∧ ∀ s ∈ [faulty (blockState .decode v62 0 0 3) .write 0x2002],
        s.rangesFit = true ∧ s.blocksInRange = true ∧ s.bfc.ipos + 5 + 3 ≤ s.latched.srcLen.toNat
          ∧ s.bfc.opos + 3 ≤ s.latched.dstCap.toNat ∧ s.busFaultIn .write (s.dstLo + s.bfc.opos) 3 = true := by
  subst hr; decide +kernel
theorem witness_BusErrorEndsCommand_form (m m' : Mode) (w q w' q' : Bool) :
    Instr.compress m' w' q' ≠ .decompress m w q ∧ Instr.compress m' w' q' ≠ .encode m w q
      ∧ Instr.compress m' w' q' ≠ .encodeBlock m w q := ⟨nofun, nofun, nofun⟩
/-- Ten bytes in blocks of four, as in V49d: a fault on the first byte of the second chunk, on the last byte of the first
block, on the terminator. -/
theorem witness_BusErrorEndsCommand_encode (s : BusAccess → Nat → State)
    (hs : s = fun kind x => faulty (commandState 0x23#7 (List.replicate 10 a) 40 4) kind x)
    (out : Nat → List Byte) (ho : out = fun k => framed (hash3Of State.reset.platform.hash) .normal 4
      ((s .read 0x1004).sourceBytes.take (k * 4))) :
    ((s .read 0x1004).latched.blockSize.toNat = 4 ∧ (s .read 0x1004).launchable = true
        ∧ (out 1).length ≤ (s .read 0x1004).latched.dstCap.toNat
        ∧ 1 * 4 < (s .read 0x1004).latched.srcLen.toNat
        ∧ (s .read 0x1004).busFaultIn .read (s .read 0x1004).srcLo
            (min (s .read 0x1004).latched.srcLen.toNat (1 * 4 + 4)) = true)
      ∧ (s .write 0x2008).busFaultIn .write (s .write 0x2008).dstLo (out 1).length = true
      ∧ ((s .write 0x2019).latched.srcLen.toNat ≤ 3 * 4
        ∧ (out 3 ++ terminator true).length ≤ (s .write 0x2019).latched.dstCap.toNat
        ∧ (s .write 0x2019).busFaultIn .write (s .write 0x2019).dstLo (out 3).length = false
        ∧ (s .write 0x2019).busFaultIn .write (s .write 0x2019).dstLo (out 3 ++ terminator true).length = true) := by
  subst ho; subst hs; decide +kernel
/-- V44 as one block: a fault on its last source byte, on the block's last byte, on the terminator. -/
theorem witness_BusErrorEndsCommand_block (s : BusAccess → Nat → State)
    (hs : s = fun kind x => faulty (commandState 0x25#7 [a, a, a, a, a, a, a, a] 12 0) kind x) (blk : List Byte)
    (hb : blk = if (s .read 0x1007).latched.srcLen.toNat = 0 then []
      else blockOf (hash3Of State.reset.platform.hash) .normal (s .read 0x1007).sourceBytes) :
    ((s .read 0x1007).latched.srcLen.toNat ≤ 65535 ∧ (s .read 0x1007).launchable = true
        ∧ (s .read 0x1007).busFaultIn .read (s .read 0x1007).srcLo (s .read 0x1007).latched.srcLen.toNat = true)
      ∧ (blk.length ≤ 12 ∧ (s .write 0x200A).busFaultIn .write (s .write 0x200A).dstLo blk.length = true)
      ∧ ((blk ++ terminator true).length ≤ 12
        ∧ (s .write 0x200B).busFaultIn .write (s .write 0x200B).dstLo (blk ++ terminator true).length = true) := by
  subst hb; subst hs; decide +kernel
theorem witness_InterruptLine :
    (∀ s ∈ [{ State.reset with err := true, errCode := 7#4 }],
      (s.done = true → (0x4#64 : Word).getLsbD 1 = true) ∧ (s.err = true → (0x4#64 : Word).getLsbD 2 = true)
        ∧ s.busy = false ∧ (1#64 : Word).getLsbD 0 = true) := by decide
/-- An admitted read and write at the last slot of the window, and four accesses that are not admitted. -/
theorem witness_RegisterWindow :
    State.reset.platform.engineBase.toNat % 256 = 0
      ∧ (pending State.reset [.regRead (regAddr 0xF8) 8]).host.moves = .regRead (regAddr 0xF8) 8 :: []
      ∧ (pending State.reset [.regWrite (regAddr 0xF8) 8 1#64]).host.moves = .regWrite (regAddr 0xF8) 8 1#64 :: []
      ∧ ((regAddr 0xF8).toNat % 8 = 0
        ∧ (regAddr 0xF8).toNat / 256 = State.reset.platform.engineBase.toNat / 256)
      ∧ ¬(4 = 8 ∧ (regAddr 0x08).toNat % 8 = 0)
      ∧ ¬((regAddr 0x0C).toNat % 8 = 0)
      ∧ ¬((regAddr 0x100).toNat / 256 = State.reset.platform.engineBase.toNat / 256) := by decide +kernel
theorem witness_RegisterWrites_idle : State.reset.busy = false ∧ Reg.srcLen ≠ .go ∧ Reg.srcLen ≠ .status := by decide
theorem witness_RegisterWrites_busy :
    (tokenState [0x00#8, a] 0 [] 1).flagsHold = true ∧ (tokenState [0x00#8, a] 0 [] 1).busy = true := by
  decide +kernel
/-- GO from IDLE with bit 0 set and clear, and while BUSY. -/
theorem witness_GoAccepted :
    (regAddr 0x10).toNat = State.reset.platform.engineBase.toNat + 0x10
      ∧ (pending State.reset [.regWrite (regAddr 0x10) 8 1#64]).host.moves = .regWrite (regAddr 0x10) 8 1#64 :: []
      ∧ (pending State.reset [.regWrite (regAddr 0x10) 8 1#64]).busy = false ∧ (1#64 : Word).getLsbD 0 = true
      ∧ (2#64 : Word).getLsbD 0 = false
      ∧ (pending (commandState 0x02#7 [] 0 0) [.regWrite (regAddr 0x10) 8 1#64]).busy = true := by decide +kernel
theorem witness_ResetValues :
    (pending (commandState 0x02#7 [a] 4 0) [.reset]).host.moves = .reset :: []
      ∧ (pending (commandState 0x07#7 [] 0 0) [.reset]).runningOnMemory = false := by decide +kernel
/-- The last source byte of a running command, the byte after the destination, and a read of the byte before it. -/
theorem witness_HostMemoryAccess :
    (∀ s ∈ [pending (commandState 0x02#7 [a, a] 4 0) [.memWrite 0x1001#64 0x62#8]],
      s.onDevice (0x1001#64 : Word).toNat 1 = false ∧ s.host.moves = .memWrite 0x1001#64 0x62#8 :: []
        ∧ s.runningOnMemory = true ∧ s.srcLo ≤ (0x1001#64 : Word).toNat ∧ (0x1001#64 : Word).toNat < s.srcHi)
      ∧ (∀ s ∈ [pending (commandState 0x02#7 [a, a] 4 0) [.memWrite 0x2004#64 0x62#8]],
        s.onDevice (0x2004#64 : Word).toNat 1 = false ∧ s.host.moves = .memWrite 0x2004#64 0x62#8 :: []
          ∧ ¬(s.srcLo ≤ (0x2004#64 : Word).toNat ∧ (0x2004#64 : Word).toNat < s.srcHi)
          ∧ ¬(s.dstLo ≤ (0x2004#64 : Word).toNat ∧ (0x2004#64 : Word).toNat < s.dstHi))
      ∧ ∀ s ∈ [pending (commandState 0x02#7 [a, a] 4 0) [.memRead 0x1FFF#64]],
        s.onDevice (0x1FFF#64 : Word).toNat 1 = false ∧ s.host.moves = .memRead 0x1FFF#64 :: []
          ∧ s.readsAnyValue (0x1FFF#64 : Word).toNat = false := by decide +kernel
/-- A GO with one byte unordered and one not written back; a write, an ordering, a write-back and a discard that meets
the end of a stale range. -/
theorem witness_HostDuties (go : State)
    (hg : go = { State.reset with
      regs := ⟨0x02#7, 0x1000#64, 2#64, 0x2000#64, 4#64, 0#64⟩
      platform := { State.reset.platform with dmaCoherent := false }
      host := ⟨[], [], [0x1000], [0x1001], [(0x2000, 4)]⟩ }) :
    (go.busy = false ∧ (1#64 : Word).getLsbD 0 = true ∧ (decodeCtrl go.regs.ctrl).isMemoryCommand = true
        ∧ (go.writeReg .go 1#64).unseen = [0x1000, 0x1001] ∧ 0x1002 ∉ (go.writeReg .go 1#64).unseen)
      ∧ (∀ m ∈ [HostMove.memWrite 0x1002#64 a, .order, .cleanCache 0x1001 1, .discardCache 0x2002 2],
        (pending go [m]).host.moves = m :: [])
      ∧ results (step (pending go [.memWrite 0x1002#64 a])) = some (0#64, 0#64, 0#64) := by
  subst hg; decide +kernel
/-- An ordering and a write-back after GO come too late for the command that runs (R48, R53). -/
theorem test_order_after_go (s : State)
    (hs : s = { (commandState 0x01#7 [a, a] 4 0) with unseen := [0x1000], host := ⟨[], [], [0x1000], [0x1000], []⟩ }) :
    s.hostOrder.host.unordered = [] ∧ (s.hostClean 0x1000 1).host.uncleaned = []
      ∧ s.hostOrder.unseen = [0x1000] ∧ (s.hostClean 0x1000 1).unseen = [0x1000] := by subst hs; decide +kernel
/-- Two discards that cover a destination between them leave none of it stale; one of them leaves its other part; and
while the command runs its destination stays stale (R53). -/
theorem test_discard_in_pieces (s t : State) (hs : s = { State.reset with host := ⟨[], [], [], [], [(0x2000, 4)]⟩ })
    (ht : t = { commandState 0x02#7 [] 4 0 with
      platform := { State.reset.platform with dmaCoherent := false }
      host := ⟨[], [], [], [], [(0x2000, 4)]⟩ }) :
    (s.hostDiscard 0x2000 1).host.stale = [(0x2001, 3)]
      ∧ ((s.hostDiscard 0x2000 1).hostDiscard 0x2001 3).host.stale = []
      ∧ (t.hostDiscard 0x2000 4).readsAnyValue 0x2003 = true
      ∧ (t.hostDiscard 0x2000 4).host.stale = [(0x2000, 4)] := by subst hs; subst ht; decide +kernel
/-- A launch whose destination ends in the first byte of the register window, and one that ends just below it. -/
theorem witness_EngineNeverStops (s : Nat → State)
    (hs : s = fun cap => { State.reset with
      activity := .dispatch
      latched := ⟨0x02#7, 0x1000#64, 1#64, 0xEFFFFFFFFFFFFFFF#64, BitVec.ofNat 64 cap, 0#64⟩ }) :
    (∀ cap ∈ [1, 2], turn (s cap) = .engine (s cap) ∧ (s cap).rangesHold = true ∧ (s cap).activity = .dispatch
        ∧ (decodeCtrl (s cap).latched.ctrl).isMemoryCommand = true
        ∧ (decodeCtrl (s cap).latched.ctrl).lengthsOk (s cap) = true ∧ (s cap).rangesFit = true
        ∧ (s cap).rangesOverlap = false)
      ∧ (s 2).rangeByte 0xF000000000000000 ∧ (s 2).deviceByte 0xF000000000000000
      ∧ step (s 2) = .refused .deviceRange ∧ results (step (s 1)) = some (0x1#64, 0#64, 0#64) := by
  subst hs
  refine ⟨fun cap hc => ?_, .inr (by decide +kernel), .inl (by decide +kernel), rfl, by decide +kernel⟩
  fin_cases hc <;> exact ⟨rfl, by decide +kernel, rfl, by decide +kernel, by decide +kernel, by decide +kernel,
    by decide +kernel⟩
/-- The invariants hold in a running decoder, and it takes a step. -/
theorem witness_invariants (s : State) (hs : s = tokenState [0x00#8, a] 0 [] 1) :
    s.memoryHolds = true ∧ s.flagsHold = true ∧ s.rangesHold = true ∧ turn s = .engine s
      ∧ step s = exec (.lit 1) s ∧ cursors (step s) = some (2, 1) := by
  subst hs; exact ⟨by decide +kernel, by decide +kernel, by decide +kernel, rfl, rfl, by decide +kernel⟩
/-- The same at a block start and in the state after reset. -/
theorem witness_invariants_blocks (s : State) (hs : s = blockState .decode v62 0 0 3) :
    s.memoryHolds = true ∧ s.flagsHold = true ∧ s.rangesHold = true ∧ step s = exec (.blkRaw 3) s
      ∧ step State.reset = .next State.reset := by
  subst hs; exact ⟨by decide +kernel, by decide +kernel, by decide +kernel, rfl, rfl⟩
/-- V89: acknowledgement after `IllegalCommand`. -/
theorem witness_ResultsKeptUntilGo (s : State)
    (hs : s = pending { State.reset with err := true, errCode := 7#4 } [.regWrite (regAddr 0x18) 8 4#64]) :
    s.busy = false ∧ (∀ rest : List HostMove, s.host.moves ≠ .reset :: rest)
      ∧ results (step s) = some (0x70#64, 0#64, 0#64) := by
  subst hs; exact ⟨rfl, nofun, by decide +kernel⟩
/-- The candidate of V5, one with other bytes, and no candidate. -/
theorem witness_NormalLookup (d : List Byte) (hd : d = [a, a, a, a]) :
    (1 + 3 ≤ d.length ∧ 1 + 1 < 2 ^ 32)
      ∧ ((1 : Nat) ≠ 0 ∧ 1 - (1 - 1) - 1 ≤ 8191 ∧ (d.drop (1 - 1)).take 3 = (d.drop 1).take 3)
      ∧ ([a, 0x62#8, a, a].drop (1 - 1)).take 3 ≠ ([a, 0x62#8, a, a].drop 1).take 3
      ∧ (Sparse.get (w := 32) [(0x1432, 1#32)] 0x1432).toNat = 1
      ∧ (Sparse.get (w := 32) [] 0x1432).toNat = 0 := by
  subst hd; decide +kernel
/-- Distance 8192 is linked, distance 8193 is not, and the last two positions are not inserted. -/
theorem witness_BestInsertion (e q : Nat) (he : e = (Sparse.get (w := 32) [(7, 1#32)] 7).toNat) (hq : q = 8192) :
    e ≠ 0 ∧ q - (e - 1) ≤ 8192 ∧ e ≤ q ∧ ¬(q + 1 - (e - 1) ≤ 8192) ∧ q + 1 < 2 ^ 32
      ∧ q + 3 ≤ (List.replicate 8195 a).length ∧ [a, a].length < 0 + 3 := by
  have h1 : (Sparse.get (w := 32) [(7, 1#32)] 7).toNat = 1 := by decide
  rw [h1] at he
  rw [he, hq, List.length_replicate]
  decide
theorem witness_DecidedMatchesAgree_length :
    (0 < 1 ∧ 1 ≤ [a, a, a, a].length) ∧ mlen [a, a, a, a] 0 1 = 3
      ∧ (0 < 4 ∧ 4 ≤ [a, a, a, a].length) ∧ mlen [a, a, a, a] 0 4 = 0 := by decide
theorem witness_DecidedMatchesAgree :
    (⟨[(0x1432, 1#32)], [], [], 1, 0⟩ : MatchFinder).p + 3 ≤ [a, a, a, a].length
      ∧ (decideAt defaultHash3 .normal [a, a, a, a] ⟨[(0x1432, 1#32)], [], [], 1, 0⟩).2 = .matched 0 3
      ∧ (decideAt defaultHash3 .best [a, a, a, a] ⟨[], [(0x1432, 1#32)], [], 1, 0⟩).2 = .matched 0 3 := by
  decide +kernel
theorem witness_DecidedMatchesAgree_tables (h : Nat) :
    (Sparse.get (w := 32) [(0x1432, 1#32)] h).toNat ≤ 1 ∧ (Sparse.get (w := 32) [] h).toNat ≤ 1 := by
  refine ⟨?_, Nat.zero_le _⟩
  rw [Sparse.get]
  split
  · exact Nat.le_refl _
  · exact Nat.zero_le _
/-- "aaaa" with position 0 inserted: intact chains at 1, where the search finds it. -/
theorem witness_BestTakesClosestLongest (d : List Byte) (m : MatchFinder) (hd : d = [a, a, a, a])
    (hm : m = ⟨[], [(0x1432, 1#32)], [], 1, 0⟩) :
    chainsIntact defaultHash3 d [0] m m.p ∧ m.p + 3 ≤ d.length ∧ m.p + 1 < 2 ^ 32
      ∧ (decideBest defaultHash3 d m).2 = .matched 0 3 := by
  subst hd; subst hm
  refine ⟨⟨by decide, fun h => ?_, by decide +kernel⟩, by decide, by decide, by decide +kernel⟩
  have hh : hashAt defaultHash3 [a, a, a, a] 0 = 0x1432 := by decide +kernel
  by_cases e : h = 0x1432
  · subst e; decide +kernel
  · simp [newestBelow, Sparse.get, hh, Ne.symm e]
/-- V20: the verdict at 8 of "abcXabcYabc" is the closer of two candidates of length 3, and not the farther. -/
theorem test_best_verdict_tie (d : List Byte)
    (hd : d = [a, 0x62#8, 0x63#8, 0x58#8, a, 0x62#8, 0x63#8, 0x59#8, a, 0x62#8, 0x63#8]) :
    bestCandidate d [4, 0] 8 4 ∧ bestCandidate d [4, 0] 8 0 ∧ mlen d 4 8 = 3 ∧ mlen d 0 8 = 3
      ∧ ¬bestVerdict d [4, 0] 8 (.matched 7 3) := by
  subst hd
  refine ⟨by unfold bestCandidate; decide, by unfold bestCandidate; decide, by decide, by decide, ?_⟩
  rintro ⟨c, -, hoff, -, hall⟩
  have h4 := hall 4 (by unfold bestCandidate; decide)
  have hm : mlen [a, 0x62#8, 0x63#8, 0x58#8, a, 0x62#8, 0x63#8, 0x59#8, a, 0x62#8, 0x63#8] 4 8 = 3 := by decide
  omega
/-- V6: the match of five bytes at 1 inserts 2 and 3, and 4 is not searchable. -/
theorem witness_InteriorInsertions :
    3 ≤ 5 ∧ (⟨[], [], [], 1, 0⟩ : MatchFinder).p + 5 ≤ 2 ^ 32 ∧ interior [a, a, a, a, a, a] 1 5 = [2, 3]
      ∧ newestBelow defaultHash3 [a, a, a, a, a, a] [2, 3] 6 0x1432 = 4
      ∧ newestBelow defaultHash3 [a, a, a, a, a, a] [2, 3] 6 0 = 0 := by decide +kernel
theorem witness_InteriorInsertions_chains :
    chainsIntact defaultHash3 [a, a, a, a, a, a] [] ⟨[], [], [], 1, 0⟩ (1 + 1) :=
  ⟨nofun, fun _ => rfl, nofun⟩
/-- V6: a literal byte, a match of five, and no byte left; then inputs of no byte and of one. -/
theorem witness_CallFollowsScan (d : List Byte) (hd : d = [a, a, a, a, a, a]) (m : MatchFinder) (mode : Mode) :
    ScanEmits defaultHash3 .normal d (freshFinder .normal emptyFinder)
        (literalBytes (slice d 0 1) ++ encode (refToken 0 5) ++ literalBytes (slice d 6 6))
      ∧ ScanEmits defaultHash3 mode [] (freshFinder mode m) (literalBytes [])
      ∧ ScanEmits defaultHash3 mode [a] (freshFinder mode m) (literalBytes [a]) := by
  subst hd
  refine ⟨?_, ?_, ?_⟩
  · refine .literal _ ⟨[(0x1432, 1#32)], [], [], 0, 0⟩ _ (show 0 + 3 ≤ 6 by decide) (by decide +kernel) ?_
    refine .taken _ ⟨[(0x1432, 2#32)], [], [], 1, 0⟩ 0 5 _ (show 1 + 3 ≤ 6 by decide) (by decide +kernel) ?_
    exact .finish _ (Nat.le_refl 6)
  · cases mode <;> exact .finish _ (Nat.le_refl 0)
  · cases mode <;> exact .tail _ _ Nat.zero_lt_one (show 1 < 0 + 3 by decide) (.finish _ (Nat.le_refl 1))
/-- Runs of 1, 32 and 33 bytes. -/
theorem witness_CallFollowsScan_literals :
    (1 ≤ [a].length ∧ [a].length ≤ 32) ∧ (List.replicate 32 a).length ≤ 32 ∧ 32 < (List.replicate 33 a).length := by
  decide
theorem witness_BestIgnoresHash : [a, a, a, a].length ≤ 4294967295 := by decide
theorem witness_StreamFitsExactly :
    (mfCall defaultHash3 .best [a, a, a, a, a, a] 4 emptyFinder).fits = true
      ∧ (mfCall defaultHash3 .normal [a, a, a, a, a, a] 7 emptyFinder).fits = true := by decide +kernel
theorem witness_CapacityBound : (([a, a].length * 33) >>> 5) + 1 ≤ 3 := by decide
theorem witness_CompressionRoundTrip :
    (mfCall defaultHash3 .normal [a, a, a, a, a, a] 4 emptyFinder).fits = true
      ∧ [a, a, a, a, a, a].length ≤ 6 := by decide +kernel
/-- V22, which V21 then cuts. -/
theorem witness_CapacityRejection :
    decodeTokens (5 + 1) [0x00#8, a, 0x60#8, 0x00#8] = ⟨none, 4, [a, a, a, a, a, a]⟩
      ∧ [a, a, a, a, a, a].length = 5 + 1 := by decide +kernel
/-- V44's chunk is exactly at the threshold, V43's is below it. -/
theorem witness_BlockTypeSelection :
    ([a, a, a, a, a, a, a, a] ≠ [] ∧ [a, a, a, a, a, a, a, a].length ≤ 65535
        ∧ (mfCall defaultHash3 .normal [a, a, a, a, a, a, a, a] 9 emptyFinder).fits = true
        ∧ (mfCall defaultHash3 .normal [a, a, a, a, a, a, a, a] 9 emptyFinder).out.length + 4
          ≤ [a, a, a, a, a, a, a, a].length)
      ∧ ((mfCall defaultHash3 .normal [a, a, a, a, a, a] 7 emptyFinder).fits = true
        ∧ [a, a, a, a, a, a].length
          < (mfCall defaultHash3 .normal [a, a, a, a, a, a] 7 emptyFinder).out.length + 4) := by decide +kernel
theorem witness_BlockTypeSelection_bound : (1 ≤ 1 ∧ 1 ≤ 65535) ∧ (1 ≤ 65535 ∧ 65535 ≤ 65535) := by decide
theorem witness_ChunkingInvariance : 1 ≤ 1 ∧ [a] ≠ [] := by decide
theorem witness_FramedRoundTrip : 1 ≤ 65535 ∧ 65535 ≤ 65535 ∧ [a].length ≤ 1 := by decide
/-- V62. -/
theorem witness_TerminatorLaw :
    decodeFrames 3 v62 = ⟨none, v62.length, [0x78#8, 0x79#8, 0x7A#8], 0#2⟩ := by decide +kernel
/-- V22 and V21. -/
theorem witness_DecompressRun :
    (∀ s ∈ [commandState 0x02#7 [0x00#8, a, 0x60#8, 0x00#8] 6 0],
      s.launched = true ∧ decodeCtrl s.latched.ctrl = .decompress .normal false false
        ∧ (decodeTokens s.latched.dstCap.toNat s.sourceBytes).err = none)
      ∧ ∀ s ∈ [commandState 0x02#7 [0x00#8, a, 0x60#8, 0x00#8] 5 0],
        s.launched = true ∧ (decodeTokens s.latched.dstCap.toNat s.sourceBytes).err = some .outputTooSmall := by
  decide +kernel
/-- V67 and V68b. -/
theorem witness_DecodeRun :
    (∀ s ∈ [commandState 0x04#7 v67 6 0],
      s.launched = true ∧ decodeCtrl s.latched.ctrl = .decode .normal false false
        ∧ (decodeFrames s.latched.dstCap.toNat s.sourceBytes).err = none)
      ∧ ∀ s ∈ [commandState 0x04#7 v67 5 0],
        s.launched = true
          ∧ (decodeFrames s.latched.dstCap.toNat s.sourceBytes).err = some (.outputTooSmall, 0x00#8) := by
  decide +kernel

/-- V67 and V68b again, the end of input of V54's command, and a terminator. -/
theorem witness_DecodeBlockRun :
    (∀ s ∈ [commandState 0x06#7 v67 6 0],
      s.launched = true ∧ decodeCtrl s.latched.ctrl = .decodeBlock .normal false false
        ∧ decodeFirst s.latched.dstCap.toNat s.sourceBytes = ⟨none, 11, [a, a, a, a, a, a], 0#2⟩)
      ∧ (∀ s ∈ [commandState 0x06#7 v67 5 0],
        s.launched = true
          ∧ (decodeFirst s.latched.dstCap.toNat s.sourceBytes).err = some (.outputTooSmall, 0x00#8))
      ∧ (∀ s ∈ [commandState 0x06#7 [] 0 0],
        s.launched = true ∧ decodeFirst s.latched.dstCap.toNat s.sourceBytes = ⟨none, 0, [], 2#2⟩)
      ∧ ∀ s ∈ [commandState 0x06#7 [0x00#8, a] 0 0],
        s.launched = true ∧ decodeFirst s.latched.dstCap.toNat s.sourceBytes = ⟨none, 1, [], 1#2⟩ := by
  decide +kernel

end Sys2Proof.Tests
end

section
/-!
PROOF. The engine's writes stay inside the destination range of its command (spec/10_state.md R24, spec/20_memory.md
R42): frames that compose, then one lemma per operation, from the meanings up to the engine's step.
-/
namespace Sys2Proof.Machine

/-! ## Frames -/

theorem sameOutside_of_mem_eq {s t : State} (h : t.mem = s.mem) (a n : Nat) : s.sameOutside t a n :=
  fun x _ => congrArg (Sparse.get · x) h

/-- A frame around a window is a frame around every larger window. -/
theorem sameOutside_mono {s t : State} {a n a' n' : Nat} (h : s.sameOutside t a n) (hlo : a' ≤ a)
    (hhi : a + n ≤ a' + n') : s.sameOutside t a' n' :=
  fun x hx => h x (by omega)

theorem sameOutside_trans {s t u : State} {a n : Nat} (h₁ : s.sameOutside t a n) (h₂ : t.sameOutside u a n) :
    s.sameOutside u a n :=
  fun x hx => (h₂ x hx).trans (h₁ x hx)

theorem sameOutside_store (s : State) (a : Nat) (bs : List Byte) : s.sameOutside (s.store a bs) a bs.length :=
  fun _ hx => State.byteAt_store_outside _ _ _ _ hx

theorem sameOutside_scramble (s : State) (a n : Nat) : s.sameOutside (s.scramble a n) a n :=
  fun _ hx => State.byteAt_scramble_outside _ _ _ _ hx

/-- From `s` to `t` no byte outside the destination range of the command of `s` has changed (R24). -/
def State.writesOnlyDest (s t : State) : Prop := s.sameOutside t s.dstLo s.latched.dstCap.toNat

theorem writesOnlyDest_of_mem_eq {s t : State} (h : t.mem = s.mem) : s.writesOnlyDest t :=
  sameOutside_of_mem_eq h _ _

/-- A granted destination access names bytes of `D` alone, so writing them writes only there (R42). -/
theorem writesOnlyDest_of_granted {s t : State} {kind : BusAccess} {a n : Nat}
    (hg : s.checkDest kind a n = .granted) (h : s.sameOutside t a n) : s.writesOnlyDest t := by
  obtain ⟨-, hlo, hhi, -⟩ := (checkDest_granted_iff s kind a n).mp hg
  exact sameOutside_mono h hlo hhi

theorem writesOnlyDest_busErrorEnd (s : State) : s.writesOnlyDest s.busErrorEnd :=
  sameOutside_scramble s _ _

/-! ## The decoders' ends -/

@[simp] theorem State.blockError_mem (s : State) (e : ErrKind) (info : Byte) : (s.blockError e info).mem = s.mem := by
  unfold State.blockError
  split <;> rfl

@[simp] theorem State.blockDone_mem (s : State) (produced consumed : Nat) :
    (s.blockDone produced consumed).mem = s.mem := by
  unfold State.blockDone
  split <;> rfl

@[simp] theorem State.endBlocks_mem (s : State) : s.endBlocks.mem = s.mem := by
  unfold State.endBlocks
  split <;> rfl

/-- The token decoder's output window lies in the destination range (R106, R118). -/
def State.windowInDest (s : State) : Prop := s.dstLo ≤ s.td.outBase ∧ s.td.outBase + s.td.cap ≤ s.dstHi

/-- A running token decoder has its window in the destination range. -/
theorem windowInDest_of_rangesHold {s : State} (hr : s.rangesHold = true) (ha : s.activity = .tokens) :
    s.windowInDest := by
  simp only [State.rangesHold, ha, State.tokensInRange, Bool.and_eq_true, decide_eq_true_eq] at hr
  obtain ⟨-, ⟨⟨⟨⟨-, hlo⟩, hhi⟩, -⟩, -⟩, -⟩ := hr
  exact ⟨hlo, hhi⟩

theorem writesOnlyDest_payloadError {s : State} (hw : s.windowInDest) : s.writesOnlyDest s.payloadError :=
  sameOutside_mono (payloadFailed_scramble s _ _).1 hw.1 hw.2

theorem writesOnlyDest_tokenError {s : State} (hw : s.windowInDest) (e : ErrKind) :
    s.writesOnlyDest (s.tokenError e) := by
  unfold State.tokenError
  split
  · exact writesOnlyDest_of_mem_eq rfl
  · exact writesOnlyDest_payloadError hw

theorem writesOnlyDest_endTokens {s : State} (hw : s.windowInDest) : s.writesOnlyDest s.endTokens := by
  unfold State.endTokens
  split
  · exact writesOnlyDest_of_mem_eq rfl
  · split
    · exact writesOnlyDest_payloadError hw
    · exact writesOnlyDest_of_mem_eq (State.blockDone_mem _ _ _)

/-- The output of a block cut short is clipped to `D`, also where the block starts behind the end of `D` (log 25). -/
theorem writesOnlyDest_cutShort (s : State) (u : Nat) : s.writesOnlyDest (s.cutShort u) := by
  intro x hx
  exact (payloadFailed_scramble s _ _).1 x (by omega)

/-! ## Tokens and block units -/

theorem execLit_writesOnlyDest {len : Nat} {s t : State} (hw : s.windowInDest) (h : execLit len s = .next t) :
    s.writesOnlyDest t := by
  have hstart : s.startToken.windowInDest := hw
  rcases execLit_next h with ⟨-, rfl⟩ | ⟨-, -, rfl⟩ | rfl | ⟨-, -, -, hg, rfl⟩
  · exact writesOnlyDest_tokenError hstart _
  · exact writesOnlyDest_tokenError hstart _
  · exact writesOnlyDest_busErrorEnd s.startToken
  · exact writesOnlyDest_of_granted (s := s.startToken) hg fun x hx =>
      get_writeBytes_outside _ _ _ _ (by simpa using hx)

theorem execReference_writesOnlyDest {head off len : Nat} {s t : State} (hw : s.windowInDest)
    (h : execReference head off len s = .next t) : s.writesOnlyDest t := by
  have hstart : s.startToken.windowInDest := hw
  rcases execReference_next h with ⟨-, rfl⟩ | ⟨-, -, -, rfl⟩ | rfl | ⟨-, -, -, -, hg, rfl⟩
  · exact writesOnlyDest_tokenError hstart _
  · exact writesOnlyDest_tokenError hstart _
  · exact writesOnlyDest_busErrorEnd s.startToken
  · exact writesOnlyDest_of_granted (s := s.startToken) hg fun x hx => get_copyBytes_outside _ _ _ _ _ hx

theorem execBlkRaw_writesOnlyDest {u : Nat} {s t : State} (h : execBlkRaw u s = .next t) : s.writesOnlyDest t := by
  rcases execBlkRaw_next h with ⟨-, rfl⟩ | ⟨-, rfl⟩ | rfl | ⟨-, -, hg, rfl⟩
  · exact writesOnlyDest_of_mem_eq (State.blockError_mem _ _ _)
  · exact writesOnlyDest_of_mem_eq (State.blockError_mem _ _ _)
  · exact writesOnlyDest_busErrorEnd s
  · have hstore := sameOutside_store s (s.dstLo + s.bfc.opos) (s.source (s.srcLo + s.bfc.ipos + 5) u)
    rw [State.length_source] at hstore
    exact writesOnlyDest_of_granted hg
      (sameOutside_trans hstore (sameOutside_of_mem_eq (State.blockDone_mem _ _ _) _ _))

theorem execBlkCmp_writesOnlyDest {c u : Nat} {s t : State} (h : execBlkCmp c u s = .next t) :
    s.writesOnlyDest t := by
  rcases execBlkCmp_cases c u s with ⟨-, h'⟩ | ⟨-, h'⟩ | ⟨-, -, h'⟩ <;> cases h'.symm.trans h
  · exact writesOnlyDest_cutShort s u
  · exact writesOnlyDest_of_mem_eq (State.blockError_mem _ _ _)
  · exact writesOnlyDest_of_mem_eq rfl

theorem execTerm_writesOnlyDest {s t : State} (h : execTerm s = .next t) : s.writesOnlyDest t := by
  unfold execTerm at h
  split at h <;> cases h <;> exact writesOnlyDest_of_mem_eq rfl

/-! ## Commands -/

/-- A command writes only `D` if its operation does: a failed parameter check writes nothing (R128). -/
theorem launch_writesOnlyDest {ok : Bool} {s t : State} {op : Unit → Out} (h : launch ok s op = .next t)
    (hop : op () = .next t → s.writesOnlyDest t) : s.writesOnlyDest t := by
  rcases launch_next h with ⟨-, rfl⟩ | ⟨-, -, h⟩
  · exact writesOnlyDest_of_mem_eq rfl
  · exact hop h

theorem finishCompress_writesOnlyDest {s : State} {r : Coded} (n : Nat)
    (hg : s.checkDest .write s.dstLo (r.count s.latched.dstCap.toNat) = .granted) :
    s.writesOnlyDest (finishCompress s n s.latched.dstCap.toNat r) := by
  unfold finishCompress
  split
  · next hfits =>
    rw [Coded.count, if_pos hfits] at hg
    exact writesOnlyDest_of_granted hg (sameOutside_store (s.withCoded r s.latched.dstCap.toNat) _ _)
  · exact sameOutside_scramble (s.withCoded r s.latched.dstCap.toNat) _ _

theorem execCompress_writesOnlyDest {mode : Mode} {s t : State} (h : execCompress mode s = .next t) :
    s.writesOnlyDest t := by
  refine launch_writesOnlyDest h fun h => ?_
  rcases compressOperation_next h with rfl | ⟨r, -, hg, rfl⟩
  · exact writesOnlyDest_busErrorEnd s
  · exact finishCompress_writesOnlyDest _ hg

theorem decodeOperation_writesOnlyDest {owner : BfcOwner} {s t : State} (h : decodeOperation owner s = .next t) :
    s.writesOnlyDest t := by
  rcases decodeOperation_next h with rfl | rfl
  · exact writesOnlyDest_of_mem_eq rfl
  · exact writesOnlyDest_busErrorEnd s

theorem execDecompress_writesOnlyDest {s t : State} (h : execDecompress s = .next t) : s.writesOnlyDest t := by
  refine launch_writesOnlyDest h fun h => ?_
  cases h
  exact writesOnlyDest_of_mem_eq rfl

/-- DECODE and DECODE_BLOCK are the same launch for either owner. -/
theorem decodeLaunch_writesOnlyDest {owner : BfcOwner} {s t : State}
    (h : (launch true s fun _ => decodeOperation owner s) = .next t) : s.writesOnlyDest t :=
  launch_writesOnlyDest h decodeOperation_writesOnlyDest

theorem execMaxsize_writesOnlyDest {s t : State} (h : execMaxsize s = .next t) : s.writesOnlyDest t := by
  unfold execMaxsize at h
  split at h <;> cases h <;> exact writesOnlyDest_of_mem_eq rfl

theorem withBlock_writesOnlyDest {s : State} {blk : List Byte}
    (hg : s.checkDest .write (s.dstLo + s.bfc.opos) blk.length = .granted) (u : Nat) :
    s.writesOnlyDest (s.withBlock blk u) :=
  writesOnlyDest_of_granted hg (sameOutside_store s _ _)

theorem finishEncode_writesOnlyDest {withTerm : Bool} {s t : State} (h : finishEncode withTerm s = .next t) :
    s.writesOnlyDest t := by
  rcases finishEncode_next h with ⟨-, rfl⟩ | ⟨-, -, rfl⟩ | ⟨-, rfl⟩ | ⟨-, -, hg, rfl⟩
  · exact writesOnlyDest_of_mem_eq rfl
  · exact writesOnlyDest_of_mem_eq rfl
  · exact writesOnlyDest_busErrorEnd s
  · exact withBlock_writesOnlyDest (blk := encode .term) hg 0

/-- The chunk loop writes only `D`, by induction on the bound of its turns: each turn leaves the operands latched, so
all of them speak of the same `D`. -/
theorem encodeLoop_writesOnlyDest {mode : Mode} {withTerm : Bool} {bs : Nat} (k : Nat) {s t : State}
    (h : encodeLoop mode withTerm bs k s = .next t) : s.writesOnlyDest t := by
  induction k generalizing s with
  | zero => exact finishEncode_writesOnlyDest h
  | succ k ih =>
    rcases encodeLoop_next h with ⟨-, h⟩ | ⟨-, u, x, r, -, -, -, rfl | rfl | ⟨-, rfl⟩ | ⟨-, hg, h⟩⟩
    · exact finishEncode_writesOnlyDest h
    · exact writesOnlyDest_busErrorEnd s
    · exact writesOnlyDest_busErrorEnd (s.withChunk r u)
    · exact writesOnlyDest_of_mem_eq rfl
    · exact sameOutside_trans (withBlock_writesOnlyDest (s := s.withChunk r u) hg u) (ih h)

/-- ENCODE and ENCODE_BLOCK start the chunk loop on the same memory and operands. -/
theorem encodeLaunch_writesOnlyDest {ok : Bool} {mode : Mode} {withTerm : Bool} {bs k : Nat} {s t : State}
    (h : (launch ok s fun _ => encodeLoop mode withTerm bs k (s.withCursors 0 0)) = .next t) : s.writesOnlyDest t :=
  launch_writesOnlyDest h (encodeLoop_writesOnlyDest k)

/-! ## Every step of the engine -/

/-- No instruction writes outside `D`; a token needs the decoder's window in `D`, since a failed payload leaves any
values in the whole window (I2). -/
theorem exec_writesOnlyDest {i : Instr} {s t : State} (hw : i.language = .token → s.windowInDest)
    (h : exec i s = .next t) : s.writesOnlyDest t := by
  cases i with
  | lit len => exact execLit_writesOnlyDest (hw rfl) h
  | brefShortL3 _ | brefShortL4 _ | brefShortL5 _ | brefShortL6 _ | brefShortL7 _ | brefShortL8 _ | brefLong _ _ =>
    exact execReference_writesOnlyDest (hw rfl) h
  | blkRaw u => exact execBlkRaw_writesOnlyDest h
  | blkCmp c u => exact execBlkCmp_writesOnlyDest h
  | term => exact execTerm_writesOnlyDest h
  | compress m w q => exact execCompress_writesOnlyDest h
  | decompress m w q => exact execDecompress_writesOnlyDest h
  | encode m w q | encodeBlock m w q => exact encodeLaunch_writesOnlyDest h
  | decode m w q => exact decodeLaunch_writesOnlyDest (owner := .decode) h
  | decodeBlock m w q => exact decodeLaunch_writesOnlyDest (owner := .decodeBlock) h
  | maxsize m w q => exact execMaxsize_writesOnlyDest h
  | reservedOp0 _ _ _ | reservedOp8 _ _ _ | reservedOp9 _ _ _ | reservedOpA _ _ _ | reservedOpB _ _ _
  | reservedOpC _ _ _ | reservedOpD _ _ _ | reservedOpE _ _ _ | reservedOpF _ _ _ =>
    cases h
    exact writesOnlyDest_of_mem_eq rfl

/-- A guarded fetch reads an instruction only where its access is granted. -/
theorem guardFetch_run {a : Access} {s : State} {k : Unit → Fetched} {i : Instr}
    (h : guardFetch a s k = .run i) : k () = .run i := by
  cases a with
  | granted => exact h
  | busError | outsideSpace | outsideRanges => cases h

/-- A guarded fetch ends with a next state by a bus error, or where its continuation does. -/
theorem guardFetch_over_next {a : Access} {s t : State} {k : Unit → Fetched}
    (h : guardFetch a s k = .over (.next t)) : k () = .over (.next t) ∨ t = s.busErrorEnd := by
  cases a with
  | granted => exact .inl h
  | busError => cases h; exact .inr rfl
  | outsideSpace | outsideRanges => cases h

/-- Everything a step of TD_RUN that executes no token can answer with a next state (R100, R105). -/
theorem fetchToken_over_next {s t : State} (h : fetchToken s = .over (.next t)) :
    t = s.endTokens ∨ t = s.busErrorEnd ∨ t = s.startToken.tokenError .invalidData := by
  unfold fetchToken at h
  dsimp only at h
  split at h
  · cases h; exact .inl rfl
  · rcases guardFetch_over_next h with h | rfl
    · split at h
      · cases h; exact .inr (.inr rfl)
      · rcases guardFetch_over_next h with h | rfl
        · split at h
          · cases h
          · cases h; exact .inr (.inr rfl)
        · exact .inr (.inl rfl)
    · exact .inr (.inl rfl)

/-- Everything a step of DECODE_ONE that executes no unit can answer with a next state (R116, R120). -/
theorem fetchUnit_over_next {s t : State} (h : fetchUnit s = .over (.next t)) :
    t = s.endBlocks ∨ t = s.busErrorEnd ∨ ∃ (e : ErrKind) (info : Byte), t = s.blockError e info := by
  unfold fetchUnit at h
  split at h
  · cases h; exact .inl rfl
  · rcases guardFetch_over_next h with h | rfl
    · split at h
      · cases h
      · cases h; exact .inr (.inr ⟨_, _, rfl⟩)
      · cases h; exact .inr (.inr ⟨_, _, rfl⟩)
    · exact .inr (.inl rfl)

/-- The framing controller runs block units. -/
theorem fetchUnit_language {s : State} {i : Instr} (h : fetchUnit s = .run i) : i.language = .block := by
  unfold fetchUnit at h
  split at h
  · cases h
  · have h := guardFetch_run h
    split at h
    · next hd => cases h; exact decodeUnit_language hd
    · cases h
    · cases h

/-- Only a running token decoder executes tokens. -/
theorem fetch_token_activity {s : State} {i : Instr} (h : fetch s = .run i) (hi : i.language = .token) :
    s.activity = .tokens := by
  cases ha : s.activity with
  | idle => rw [fetch_idle ha] at h; cases h
  | dispatch =>
    rw [fetch_dispatch ha] at h
    cases h
    rw [decodeCtrl_language] at hi
    cases hi
  | tokens => rfl
  | blocks =>
    rw [fetch_blocks ha] at h
    rw [fetchUnit_language h] at hi
    cases hi

theorem fetch_over_writesOnlyDest {s t : State} (hr : s.rangesHold = true) (h : fetch s = .over (.next t)) :
    s.writesOnlyDest t := by
  cases ha : s.activity with
  | idle => rw [fetch_idle ha] at h; cases h; exact writesOnlyDest_of_mem_eq rfl
  | dispatch => rw [fetch_dispatch ha] at h; cases h
  | tokens =>
    have hw := windowInDest_of_rangesHold hr ha
    rw [fetch_tokens ha] at h
    rcases fetchToken_over_next h with rfl | rfl | rfl
    · exact writesOnlyDest_endTokens hw
    · exact writesOnlyDest_busErrorEnd s
    · exact writesOnlyDest_tokenError (s := s.startToken) hw _
  | blocks =>
    rw [fetch_blocks ha] at h
    rcases fetchUnit_over_next h with rfl | rfl | ⟨e, info, rfl⟩
    · exact writesOnlyDest_of_mem_eq (State.endBlocks_mem s)
    · exact writesOnlyDest_busErrorEnd s
    · exact writesOnlyDest_of_mem_eq (State.blockError_mem _ _ _)

theorem engineStep_writesOnlyDest {s t : State} (hr : s.rangesHold = true) (h : engineStep s = .next t) :
    s.writesOnlyDest t := by
  rcases engineStep_cases h with ⟨i, hf, hx⟩ | hf
  · exact exec_writesOnlyDest (fun hi => windowInDest_of_rangesHold hr (fetch_token_activity hf hi)) hx
  · exact fetch_over_writesOnlyDest hr hf

theorem step_of_turn_engine {s u : State} (h : turn s = .engine u) : step s = engineStep u := by
  rw [step, h]

/-- Settles O40: one step of the engine is a fetch and a meaning, and each writes inside `D` alone. -/
theorem engineWritesOnlyDestination : Obligations.EngineWritesOnlyDestination := by
  unfold Obligations.EngineWritesOnlyDestination
  intro s u t hturn hr hstep
  rw [step_of_turn_engine hturn] at hstep
  exact engineStep_writesOnlyDest hr hstep

end Sys2Proof.Machine
end

section
/-!
PROOF. The register window: which accesses it admits (spec/10_state.md R16), and what its constant, read-only and
reserved slots and bits read (R19, R26 to R29).
-/
namespace Sys2Proof.Machine

/-! ## Admitted accesses -/

/-- With a window aligned to its 256 bytes, the slot of an address is its offset in the aligned 256 bytes (R16). -/
theorem admitted_of_aligned {s : State} {addr : Word} {size : Nat} (hb : s.platform.engineBase.toNat % 256 = 0) :
    s.admitted addr size =
      if size = 8 ∧ addr.toNat % 8 = 0 ∧ addr.toNat / 256 = s.platform.engineBase.toNat / 256
      then some (regAt (addr.toNat % 256)) else none := by
  unfold State.admitted Config.registerWindow
  split
  · next h =>
    obtain ⟨hsize, hlo, hhi, hoff⟩ := h
    rw [if_pos (by omega), show addr.toNat - s.platform.engineBase.toNat = addr.toNat % 256 by omega]
  · next h => rw [if_neg (by omega)]

theorem readReg_withMoves (s : State) (moves : List HostMove) (r : Reg) :
    (s.withMoves moves).readReg r = s.readReg r := by
  cases r <;> rfl

section
variable {s : State} {addr : Word} {size : Nat} {rest : List HostMove}

theorem step_regRead_admitted {r : Reg} (hm : s.host.moves = .regRead addr size :: rest)
    (hr : s.admitted addr size = some r) : step s = .next ((s.withMoves rest).observe (s.readReg r)) := by
  have hr' : (s.withMoves rest).admitted addr size = some r := hr
  simp [step, turn, hm, hostMove, hr', readReg_withMoves]

theorem step_regWrite_admitted {r : Reg} {v : Word} (hm : s.host.moves = .regWrite addr size v :: rest)
    (hr : s.admitted addr size = some r) : step s = .next ((s.withMoves rest).writeReg r v) := by
  have hr' : (s.withMoves rest).admitted addr size = some r := hr
  simp [step, turn, hm, hostMove, hr']

theorem step_regAccess_refused {m : HostMove} {v : Word} (hk : m = .regRead addr size ∨ m = .regWrite addr size v)
    (hm : s.host.moves = m :: rest) (hr : s.admitted addr size = none) :
    step s = .refused .registerAccessNotAdmitted := by
  have hr' : (s.withMoves rest).admitted addr size = none := hr
  rcases hk with rfl | rfl <;> simp [step, turn, hm, hostMove, hr']

end

theorem regAt_reserved {o : Nat} (h : 0x60 ≤ o) : regAt o = .reserved := by
  unfold regAt
  iterate 12 rw [if_neg (by omega)]

/-- Settles O27: an access is admitted exactly at an aligned slot of the window, where it goes to that slot. -/
theorem registerWindow : Obligations.RegisterWindow := by
  unfold Obligations.RegisterWindow
  refine ⟨?_, rfl, rfl, rfl, rfl, rfl, rfl, rfl, rfl, rfl, rfl, rfl, rfl, fun _ => regAt_reserved⟩
  intro s addr v size rest m hbase hkind hmoves
  constructor
  · intro hslot
    have hr := (admitted_of_aligned (addr := addr) (size := size) hbase).trans (if_pos hslot)
    constructor
    · rintro rfl
      exact step_regRead_admitted hmoves hr
    · rintro rfl
      exact step_regWrite_admitted hmoves hr
  · intro hslot
    exact step_regAccess_refused hkind hmoves ((admitted_of_aligned hbase).trans (if_neg hslot))

/-! ## What the slots read -/

theorem ite_zero_eq_mul_toNat (b : Bool) (n : Nat) : (if b then n else 0) = n * b.toNat := by
  cases b <;> simp

/-- The fields of STATUS do not overlap and fit their word (R20). -/
theorem statusWord_toNat (s : State) :
    s.statusWord.toNat
      = s.busy.toNat + 2 * s.done.toNat + 4 * s.err.toNat + 16 * s.errCode.toNat + 256 * s.endKind.toNat := by
  have hbusy := s.busy.toNat_le
  have hdone := s.done.toNat_le
  have herr := s.err.toNat_le
  have hcode := s.errCode.isLt
  have hkind := s.endKind.isLt
  rw [State.statusWord, BitVec.toNat_ofNat]
  simp only [ite_zero_eq_mul_toNat]
  omega

/-- Bit 3 of STATUS is reserved (R20). -/
theorem statusWord_bit_three (s : State) : s.statusWord.getLsbD 3 = false := by
  have hbusy := s.busy.toNat_le
  have hdone := s.done.toNat_le
  have herr := s.err.toNat_le
  rw [BitVec.getLsbD, Nat.testBit_eq_decide_div_mod_eq, statusWord_toNat, decide_eq_false_iff_not]
  omega

/-- The bits of STATUS above END_KIND are reserved (R20). -/
theorem statusWord_bit_high (s : State) {k : Nat} (hk : 10 ≤ k) : s.statusWord.getLsbD k = false := by
  have hbusy := s.busy.toNat_le
  have hdone := s.done.toNat_le
  have herr := s.err.toNat_le
  have hcode := s.errCode.isLt
  have hkind := s.endKind.isLt
  have hword : s.statusWord.toNat < 2 ^ 10 := by
    rw [statusWord_toNat]
    omega
  exact Nat.testBit_lt_two_pow (hword.trans_le (Nat.pow_le_pow_right (by decide) hk))

/-- The bits above the `w` bits of a field widened to a register read 0. -/
theorem getLsbD_setWidth_of_le {w k : Nat} (x : BitVec w) (hk : w ≤ k) : (x.setWidth 64).getLsbD k = false := by
  rw [BitVec.getLsbD_setWidth, BitVec.getLsbD_of_ge x k hk, Bool.and_false]

/-- Settles O28: the constant and ignored slots by the definition of an access, the reserved bits by the widths of the
fields. -/
theorem readOnlyAndReserved : Obligations.ReadOnlyAndReserved := by
  unfold Obligations.ReadOnlyAndReserved
  intro s v
  exact ⟨rfl, rfl, rfl, rfl, rfl, rfl, rfl, rfl, fun _ hk => getLsbD_setWidth_of_le s.regs.ctrl hk,
    fun _ hk => getLsbD_setWidth_of_le s.errInfo hk, statusWord_bit_three s, fun _ hk => statusWord_bit_high s hk⟩

end Sys2Proof.Machine
end

section
/-!
PROOF. The reserved commands (spec/30_encoding.md R71): what they end with, which values of CTRL spell them, and that
no other instruction brings in the code of `IllegalCommand`, one lemma per operation.
-/
namespace Sys2Proof.Machine

/-! ## Reserved commands -/

theorem exec_of_isReserved {i : Instr} (hi : i.isReserved = true) (s : State) : exec i s = .next s.illegalCommand := by
  cases i with
  | reservedOp0 _ _ _ | reservedOp8 _ _ _ | reservedOp9 _ _ _ | reservedOpA _ _ _ | reservedOpB _ _ _
  | reservedOpC _ _ _ | reservedOpD _ _ _ | reservedOpE _ _ _ | reservedOpF _ _ _ => rfl
  | _ => cases hi

theorem failedAs_errorEnd (s : State) (e : ErrKind) (result consumed : Nat) (info : Byte) :
    s.failedAs (s.errorEnd e result consumed info) e result consumed info :=
  ⟨rfl, rfl, rfl, rfl, rfl, rfl, rfl, rfl⟩

/-- An error completion writes the list of R143 and nothing else. -/
theorem sameMachine_errorEnd (s : State) (e : ErrKind) (result consumed : Nat) (info : Byte) :
    s.sameMachine (s.errorEnd e result consumed info) :=
  ⟨fun _ => rfl, ⟨rfl, rfl, rfl, rfl, rfl, rfl⟩, ⟨rfl, rfl, rfl⟩, rfl, rfl, rfl⟩

theorem decodeCtrl_isReserved_iff (c : BitVec 7) :
    (decodeCtrl c).isReserved = true ↔ (ctrlOp c = 0 ∨ 8 ≤ ctrlOp c) := by
  have hop : ctrlOp c < 16 := Nat.mod_lt _ (by decide)
  unfold decodeCtrl
  interval_cases ctrlOp c <;> simp [Instr.isReserved]

/-! ## The code of `IllegalCommand` does not come in -/

@[simp] theorem ErrKind.code_eq_seven_iff (e : ErrKind) : e.code = 7#4 ↔ e = .illegalCommand := by
  cases e <;> decide

@[simp] theorem State.blockError_errCode (s : State) (e : ErrKind) (info : Byte) :
    (s.blockError e info).errCode = e.code := by
  unfold State.blockError
  split <;> rfl

@[simp] theorem State.payloadError_errCode (s : State) : s.payloadError.errCode = ErrKind.invalidData.code :=
  State.blockError_errCode _ _ _

theorem tokenError_errCode_ne (s : State) {e : ErrKind} (he : e ≠ .illegalCommand) :
    (s.tokenError e).errCode ≠ 7#4 := by
  unfold State.tokenError
  split <;> simp [he]

theorem busErrorEnd_errCode_ne (s : State) : s.busErrorEnd.errCode ≠ 7#4 := by
  simp [State.busErrorEnd]

section
variable {s t : State}

theorem execTerm_errCode_ne (h : execTerm s = .next t) : t.errCode ≠ 7#4 := by
  unfold execTerm at h
  split at h <;> cases h <;> simp

/-- A command whose operation does not bring the code in does not: a failed parameter check has a code of its own. -/
theorem launch_errCode_ne {ok : Bool} {op : Unit → Out} (h : launch ok s op = .next t)
    (hop : op () = .next t → t.errCode ≠ 7#4) : t.errCode ≠ 7#4 := by
  rcases launch_next h with ⟨-, rfl⟩ | ⟨-, -, h⟩
  · simp [State.badParameter]
  · exact hop h

theorem execCompress_errCode_ne {mode : Mode} (h : execCompress mode s = .next t) : t.errCode ≠ 7#4 := by
  refine launch_errCode_ne h fun h => ?_
  rcases compressOperation_next h with rfl | ⟨r, -, -, rfl⟩
  · exact busErrorEnd_errCode_ne s
  · unfold finishCompress
    split <;> simp

theorem execMaxsize_errCode_ne (h : execMaxsize s = .next t) : t.errCode ≠ 7#4 := by
  unfold execMaxsize at h
  split at h <;> cases h <;> simp [State.badParameter]

theorem finishEncode_errCode_ne {withTerm : Bool} (h : finishEncode withTerm s = .next t) : t.errCode ≠ 7#4 := by
  rcases finishEncode_next h with ⟨-, rfl⟩ | ⟨-, -, rfl⟩ | ⟨-, rfl⟩ | ⟨-, -, -, rfl⟩
  · simp
  · simp
  · exact busErrorEnd_errCode_ne s
  · simp

/-! ### Where ERR_CODE may stay as it was -/

variable (hs : s.errCode ≠ 7#4)
include hs

theorem blockDone_errCode_ne (produced consumed : Nat) : (s.blockDone produced consumed).errCode ≠ 7#4 := by
  unfold State.blockDone
  split
  · exact hs
  · simp

theorem execLit_errCode_ne {len : Nat} (h : execLit len s = .next t) : t.errCode ≠ 7#4 := by
  rcases execLit_next h with ⟨-, rfl⟩ | ⟨-, -, rfl⟩ | rfl | ⟨-, -, -, -, rfl⟩
  · exact tokenError_errCode_ne _ (by decide)
  · exact tokenError_errCode_ne _ (by decide)
  · exact busErrorEnd_errCode_ne _
  · exact hs

theorem execReference_errCode_ne {head off len : Nat} (h : execReference head off len s = .next t) :
    t.errCode ≠ 7#4 := by
  rcases execReference_next h with ⟨-, rfl⟩ | ⟨-, -, -, rfl⟩ | rfl | ⟨-, -, -, -, -, rfl⟩
  · exact tokenError_errCode_ne _ (by decide)
  · exact tokenError_errCode_ne _ (by decide)
  · exact busErrorEnd_errCode_ne _
  · exact hs

theorem execBlkRaw_errCode_ne {u : Nat} (h : execBlkRaw u s = .next t) : t.errCode ≠ 7#4 := by
  rcases execBlkRaw_next h with ⟨-, rfl⟩ | ⟨-, rfl⟩ | rfl | ⟨-, -, -, rfl⟩
  · simp
  · simp
  · exact busErrorEnd_errCode_ne s
  · exact blockDone_errCode_ne (s := s.store _ _) hs _ _

theorem execBlkCmp_errCode_ne {c u : Nat} (h : execBlkCmp c u s = .next t) : t.errCode ≠ 7#4 := by
  rcases execBlkCmp_cases c u s with ⟨-, h'⟩ | ⟨-, h'⟩ | ⟨-, -, h'⟩ <;> cases h'.symm.trans h
  · simp [State.cutShort]
  · simp
  · exact hs

theorem execDecompress_errCode_ne (h : execDecompress s = .next t) : t.errCode ≠ 7#4 := by
  refine launch_errCode_ne h fun h => ?_
  cases h
  exact hs

/-- DECODE and DECODE_BLOCK are the same launch for either owner. -/
theorem decodeLaunch_errCode_ne {owner : BfcOwner} (h : (launch true s fun _ => decodeOperation owner s) = .next t) :
    t.errCode ≠ 7#4 := by
  refine launch_errCode_ne h fun h => ?_
  rcases decodeOperation_next h with rfl | rfl
  · exact hs
  · exact busErrorEnd_errCode_ne s

/-- The chunk loop, by induction on the bound of its turns: a turn that goes on leaves ERR_CODE as it was. -/
theorem encodeLoop_errCode_ne {mode : Mode} {withTerm : Bool} {bs : Nat} (k : Nat)
    (h : encodeLoop mode withTerm bs k s = .next t) : t.errCode ≠ 7#4 := by
  induction k generalizing s with
  | zero => exact finishEncode_errCode_ne h
  | succ k ih =>
    rcases encodeLoop_next h with ⟨-, h⟩ | ⟨-, u, x, r, -, -, -, rfl | rfl | ⟨-, rfl⟩ | ⟨-, -, h⟩⟩
    · exact finishEncode_errCode_ne h
    · exact busErrorEnd_errCode_ne s
    · exact busErrorEnd_errCode_ne _
    · simp
    · exact ih (s := (s.withChunk r u).withBlock _ _) hs h

/-- ENCODE and ENCODE_BLOCK start the chunk loop with ERR_CODE as it was. -/
theorem encodeLaunch_errCode_ne {ok : Bool} {mode : Mode} {withTerm : Bool} {bs k : Nat}
    (h : (launch ok s fun _ => encodeLoop mode withTerm bs k (s.withCursors 0 0)) = .next t) : t.errCode ≠ 7#4 :=
  launch_errCode_ne h (encodeLoop_errCode_ne (s := s.withCursors 0 0) hs k)

/-- No instruction but a reserved command brings in the code of `IllegalCommand` (R71). -/
theorem exec_errCode_ne {i : Instr} (hi : i.isReserved = false) (h : exec i s = .next t) : t.errCode ≠ 7#4 := by
  cases i with
  | lit len => exact execLit_errCode_ne hs h
  | brefShortL3 _ | brefShortL4 _ | brefShortL5 _ | brefShortL6 _ | brefShortL7 _ | brefShortL8 _ | brefLong _ _ =>
    exact execReference_errCode_ne hs h
  | blkRaw u => exact execBlkRaw_errCode_ne hs h
  | blkCmp c u => exact execBlkCmp_errCode_ne hs h
  | term => exact execTerm_errCode_ne h
  | compress m w q => exact execCompress_errCode_ne h
  | decompress m w q => exact execDecompress_errCode_ne hs h
  | encode m w q | encodeBlock m w q => exact encodeLaunch_errCode_ne hs h
  | decode m w q => exact decodeLaunch_errCode_ne (owner := .decode) hs h
  | decodeBlock m w q => exact decodeLaunch_errCode_ne (owner := .decodeBlock) hs h
  | maxsize m w q => exact execMaxsize_errCode_ne h
  | reservedOp0 _ _ _ | reservedOp8 _ _ _ | reservedOp9 _ _ _ | reservedOpA _ _ _ | reservedOpB _ _ _
  | reservedOpC _ _ _ | reservedOpD _ _ _ | reservedOpE _ _ _ | reservedOpF _ _ _ => cases hi

end

/-- Settles O10: every reserved command is the one error completion, the decoder gives one exactly for the reserved
OPs, and the meaning of every other instruction ends, if at all, with another code. -/
theorem reservedCommandsEnd : Obligations.ReservedCommandsEnd := by
  unfold Obligations.ReservedCommandsEnd
  refine ⟨fun i s hi => ?_, decodeCtrl_isReserved_iff, fun i s t hi hs h => exec_errCode_ne hs hi h⟩
  exact ⟨s.illegalCommand, exec_of_isReserved hi s, failedAs_errorEnd s _ _ _ _, sameMachine_errorEnd s _ _ _ _⟩

end Sys2Proof.Machine
end

section
/-!
PROOF. What the bytes at a block start spell (spec/30_encoding.md R69): one lemma per way a unit is refused.
-/
namespace Sys2Proof

theorem decodeUnit_blkRaw_short {fields : List Byte} (h : fields.length < 2) :
    decodeUnit (0x5A#8 :: 0x56#8 :: 0x00#8 :: fields) = .error .badHeader := by
  match fields, h with
  | [], _ | [_], _ => rfl

theorem decodeUnit_blkCmp_short {fields : List Byte} (h : fields.length < 4) :
    decodeUnit (0x5A#8 :: 0x56#8 :: 0x01#8 :: fields) = .error .badHeader := by
  match fields, h with
  | [], _ | [_], _ | [_, _], _ | [_, _, _], _ => rfl

/-- Every type but 0 and 1 is unknown, whatever follows it (R69). -/
theorem decodeUnit_unknownType {ty : Byte} (h : 2 ≤ ty.toNat) (rest : List Byte) :
    decodeUnit (0x5A#8 :: 0x56#8 :: ty :: rest) = .error (.unknownType ty) := by
  have hraw : ty ≠ 0x00#8 := by rintro rfl; exact absurd h (by decide)
  have hcmp : ty ≠ 0x01#8 := by rintro rfl; exact absurd h (by decide)
  simp [decodeUnit_cons, hraw, hcmp]

/-- Too few bytes for the magic and the type (R116). -/
theorem decodeUnit_short {b0 : Byte} (h0 : b0 ≠ 0x00#8) {rest : List Byte} (h : rest.length < 2) :
    decodeUnit (b0 :: rest) = .error .badHeader := by
  rw [decodeUnit_cons, if_neg h0]
  match rest, h with
  | [], _ | [_], _ => rfl

/-- A wrong magic is found before a short header, so nothing is asked of the bytes after it (R116). -/
theorem decodeUnit_badMagic {b0 b1 : Byte} (h0 : b0 ≠ 0x00#8) (h : (b0, b1) ≠ (0x5A#8, 0x56#8)) (rest : List Byte) :
    decodeUnit (b0 :: b1 :: rest) = .error .badHeader := by
  have hmagic : b0 ≠ 0x5A#8 ∨ b1 ≠ 0x56#8 := by rwa [ne_eq, Prod.mk.injEq, not_and_or] at h
  rw [decodeUnit_cons, if_neg h0]
  cases rest with
  | nil => rfl
  | cons ty fields => exact if_pos hmagic

/-- Settles O5: what is accepted, by the decoder's equations; what is refused, by the lemma for its reason. -/
theorem blockStartKinds : Obligations.BlockStartKinds := by
  unfold Obligations.BlockStartKinds
  refine ⟨rfl, fun _ => rfl, fun _ _ _ => rfl, fun _ _ _ _ _ => rfl, fun _ rest h => decodeUnit_unknownType h rest,
    fun _ h => decodeUnit_blkRaw_short h, fun _ h => decodeUnit_blkCmp_short h, fun bs hne hlen hhead => ?_,
    fun _ _ rest h0 h => decodeUnit_badMagic h0 h rest⟩
  obtain ⟨b0, rest, rfl⟩ := List.exists_cons_of_ne_nil hne
  exact decodeUnit_short (fun h0 => hhead (congrArg some h0)) (Nat.lt_of_succ_lt_succ hlen)

end Sys2Proof
end

section
/-!
PROOF. The match finder's two insertions and the Normal lookup (spec/40_match_finder.md R78, R81): what each reads,
writes and leaves.
-/
namespace Sys2Proof.Machine

section
variable {d : List Byte} {q : Nat}

theorem searchable_iff : searchable d q = true ↔ q + 3 ≤ d.length := decide_eq_true_iff

theorem sameTrigram_iff {c p : Nat} : sameTrigram d c p = true ↔ (d.drop c).take 3 = (d.drop p).take 3 := by
  simp [sameTrigram, slice]

/-- A number that fits in a table's entry is read back whole. -/
theorem Sparse.get_set_ofNat_toNat {w v : Nat} (t : List (Nat × BitVec w)) (k : Nat) (h : v < 2 ^ w) :
    (Sparse.get (Sparse.set t k (BitVec.ofNat w v)) k).toNat = v := by
  rw [Sparse.get_set_same, BitVec.toNat_ofNat, Nat.mod_eq_of_lt h]

/-! ## Normal mode -/

theorem insertNormal_of_searchable (hf : Hash3) (m : MatchFinder) (h : q + 3 ≤ d.length) :
    insertNormal hf d m q = { m with ht := Sparse.set m.ht (hashAt hf d q) (BitVec.ofNat 32 (q + 1)) } :=
  if_pos (searchable_iff.mpr h)

/-- The candidate that `e ≠ 0` names is in reach of `p` and has its three bytes (R78). -/
def candidateAgrees (d : List Byte) (e p : Nat) : Prop :=
  e ≠ 0 ∧ p - (e - 1) - 1 ≤ 8191 ∧ (d.drop (e - 1)).take 3 = (d.drop p).take 3

theorem judgeNormal_of_agrees {e p : Nat} (h : candidateAgrees d e p) :
    judgeNormal d e p = .matched (p - (e - 1) - 1) (mlen d (e - 1) p) := by
  obtain ⟨he, hoff, hbytes⟩ := h
  exact if_pos ⟨he, hoff, sameTrigram_iff.mpr hbytes⟩

theorem judgeNormal_of_not_agrees {e p : Nat} (h : ¬ candidateAgrees d e p) : judgeNormal d e p = .litByte :=
  if_neg fun ⟨he, hoff, hbytes⟩ => h ⟨he, hoff, sameTrigram_iff.mp hbytes⟩

theorem not_candidateAgrees {e p : Nat}
    (h : e = 0 ∨ 8191 < p - (e - 1) - 1 ∨ (d.drop (e - 1)).take 3 ≠ (d.drop p).take 3) :
    ¬ candidateAgrees d e p := by
  rintro ⟨he, hoff, hbytes⟩
  rcases h with h0 | hfar | hdiff
  · exact he h0
  · exact absurd hoff (Nat.not_le.mpr hfar)
  · exact hdiff hbytes

/-! ## Best mode -/

theorem insertBest_of_not_searchable (hf : Hash3) (m : MatchFinder) (h : d.length < q + 3) :
    insertBest hf d m q = m :=
  if_neg (searchable_iff.not.mpr (Nat.not_le.mpr h))

theorem insertBest_of_searchable (hf : Hash3) (m : MatchFinder) (h : q + 3 ≤ d.length) :
    insertBest hf d m q =
      { m with
        prev := Sparse.set m.prev (q % 8192) (BitVec.ofNat 16 (linkOf (Sparse.get m.head (hashAt hf d q)).toNat q))
        head := Sparse.set m.head (hashAt hf d q) (BitVec.ofNat 32 (q + 1)) } :=
  if_pos (searchable_iff.mpr h)

/-- No link is longer than the window (R81). -/
theorem linkOf_le (e q : Nat) : linkOf e q ≤ 8192 := by
  unfold linkOf
  split
  · next h => exact h.2
  · exact Nat.zero_le _

theorem linkOf_lt (e q : Nat) : linkOf e q < 2 ^ 16 := Nat.lt_of_le_of_lt (linkOf_le e q) (by decide)

end

/-! ## The obligations -/

/-- Settles O43: the insertion sets one entry, and the verdict is `judgeNormal`'s on the entry read before it. -/
theorem normalLookup : Obligations.NormalLookup := by
  unfold Obligations.NormalLookup
  rintro hf d m m' v h e hp hentry rfl rfl hdecide
  obtain ⟨rfl, rfl⟩ := Prod.mk.inj hdecide
  rw [insertNormal_of_searchable hf m hp]
  exact ⟨Sparse.get_set_ofNat_toNat _ _ hentry, fun _ hj => Sparse.get_set_other _ _ hj, rfl, rfl, rfl, rfl,
    fun he hoff hbytes => judgeNormal_of_agrees ⟨he, hoff, hbytes⟩,
    fun hno => judgeNormal_of_not_agrees (not_candidateAgrees hno)⟩

/-- Settles O44: an insertion sets one entry of each table, and neither value is cut by the entry's width. -/
theorem bestInsertion : Obligations.BestInsertion := by
  unfold Obligations.BestInsertion
  refine fun hf d m q => ⟨insertBest_of_not_searchable hf m, ?_⟩
  rintro h e hq hentry rfl rfl -
  rw [insertBest_of_searchable hf m hq]
  exact ⟨Sparse.get_set_ofNat_toNat _ _ hentry, fun _ hj => Sparse.get_set_other _ _ hj,
    Sparse.get_set_ofNat_toNat _ _ (linkOf_lt _ q), fun _ hj => Sparse.get_set_other _ _ hj, rfl, rfl, rfl⟩

end Sys2Proof.Machine
end

section
/-!
PROOF. MAXSIZE (spec/41_token_encoder.md R99): the model's bound is the shift of R99, its limit on `SRC_LEN` is the
64-bit limit of RESULT_LEN, and a completion writes the results and nothing else.
-/
namespace Sys2Proof.Machine

theorem completedAs_complete (s : State) (result consumed : Nat) (endKind : BitVec 2) :
    s.completedAs (s.complete result consumed endKind) result consumed endKind :=
  ⟨rfl, rfl, rfl, rfl, rfl, rfl, rfl, rfl⟩

/-- A completion without error writes the list of R133 and nothing else. -/
theorem sameMachine_complete (s : State) (result consumed : Nat) (endKind : BitVec 2) :
    s.sameMachine (s.complete result consumed endKind) :=
  ⟨fun _ => rfl, ⟨rfl, rfl, rfl, rfl, rfl, rfl⟩, ⟨rfl, rfl, rfl⟩, rfl, rfl, rfl⟩

theorem maxCompressedSize_eq_shiftRight (n : Nat) : maxCompressedSize n = (n * 33) >>> 5 + 1 := by
  rw [maxCompressedSize, Nat.shiftRight_eq_div_pow]

/-- RESULT_LEN holds the bound exactly up to the largest `SRC_LEN` of R99. -/
theorem maxCompressedSize_le_iff (n : Nat) : maxCompressedSize n ≤ 2 ^ 64 - 1 ↔ n ≤ Config.maxMaxsizeLen := by
  unfold maxCompressedSize Config.maxMaxsizeLen
  omega

theorem execMaxsize_of_le {s : State} (h : s.latched.srcLen.toNat ≤ Config.maxMaxsizeLen) :
    execMaxsize s = .next (s.complete (maxCompressedSize s.latched.srcLen.toNat) 0 0#2) :=
  if_pos h

theorem execMaxsize_of_lt {s : State} (h : Config.maxMaxsizeLen < s.latched.srcLen.toNat) :
    execMaxsize s = .next s.badParameter :=
  if_neg (Nat.not_le.mpr h)

/-- Settles O9: the bound fits RESULT_LEN exactly where MAXSIZE completes, so what is written there is not cut by the
register's width; above that `SRC_LEN` the only end is the error completion. -/
theorem maxsizeResult : Obligations.MaxsizeResult := by
  unfold Obligations.MaxsizeResult
  intro m w q s
  rw [← maxCompressedSize_eq_shiftRight]
  have hlimit := maxCompressedSize_le_iff s.latched.srcLen.toNat
  refine ⟨hlimit, fun hfits => ?_, fun hover => ?_⟩
  · have hwidth : maxCompressedSize s.latched.srcLen.toNat < 2 ^ 64 := Nat.lt_of_le_pred (by decide) hfits
    exact ⟨_, execMaxsize_of_le (hlimit.mp hfits), sameMachine_complete s _ _ _, completedAs_complete s _ _ _,
      (BitVec.toNat_ofNat _ _).trans (Nat.mod_eq_of_lt hwidth)⟩
  · have hlong : Config.maxMaxsizeLen < s.latched.srcLen.toNat := lt_of_not_ge (hlimit.not.mp (Nat.not_le.mpr hover))
    exact ⟨s.badParameter, execMaxsize_of_lt hlong, sameMachine_errorEnd s _ _ _ _, failedAs_errorEnd s _ _ _ _⟩

end Sys2Proof.Machine
end

section
/-!
PROOF. The tokens (spec/42_token_decoder.md R101 to R105): how each check of a token ends it, in the order of R105, and
what a token whose checks pass writes and leaves.
-/
namespace Sys2Proof

theorem decodeToken_lit {ctrl : Byte} (h : ctrl.toNat < 0x20) (rest : List Byte) :
    decodeToken (ctrl :: rest) = .ok (.lit (ctrl.toNat + 1), rest) := by
  rw [decodeToken_cons, if_pos h, lowFive, Nat.mod_eq_of_lt h]

/-- A token is a literal run or a back-reference. -/
theorem Instr.tokenParts_cases {i : Instr} {n len : Nat} {off : Option Nat} (h : i.tokenParts = some (n, off, len)) :
    (i = .lit len ∧ n = 1 + len ∧ off = none) ∨ ∃ o : Nat, off = some o ∧ i.reference = some (n, o, len) := by
  unfold Instr.tokenParts at h
  split at h
  · cases h; exact .inl ⟨rfl, rfl, rfl⟩
  · next href => cases h; exact .inr ⟨_, rfl, href⟩
  · cases h

end Sys2Proof

namespace Sys2Proof.Machine

theorem exec_of_reference {i : Instr} {head off len : Nat} (h : i.reference = some (head, off, len)) (s : State) :
    exec i s = execReference head off len s := by
  cases i with
  | brefShortL3 _ | brefShortL4 _ | brefShortL5 _ | brefShortL6 _ | brefShortL7 _ | brefShortL8 _ | brefLong _ _ =>
    cases h; rfl
  | _ => cases h

/-! ## The copy of R104 -/

/-- A copy to higher addresses reads each byte as it stands after the whole copy: a byte it reads is either before the
destination, or one it has written already. -/
theorem get_copyBytes_inside {src dst k n : Nat} (m : List Host.Cell) (hlt : src < dst) (hk : k < n) :
    Sparse.get (copyBytes m src dst n) (dst + k) = Sparse.get (copyBytes m src dst n) (src + k) := by
  induction n generalizing m src dst k with
  | zero => exact absurd hk (Nat.not_lt_zero k)
  | succ n ih =>
    cases k with
    | zero =>
      rw [copyBytes, get_copyBytes_outside _ _ _ _ _ (by omega), get_copyBytes_outside _ _ _ _ _ (by omega)]
      exact (Sparse.get_set_same _ _ _).trans (Sparse.get_set_other _ _ (Nat.ne_of_lt hlt)).symm
    | succ k =>
      have hrest := ih (Sparse.set m dst (Sparse.get m src)) (Nat.succ_lt_succ hlt) (Nat.lt_of_succ_lt_succ hk)
      rwa [Nat.succ_add_eq_add_succ dst k, Nat.succ_add_eq_add_succ src k] at hrest

/-! ## A token whose checks pass -/

@[simp] theorem State.startToken_source (s : State) (a n : Nat) : s.startToken.source a n = s.source a n :=
  State.source_congr a n rfl rfl fun _ _ _ => rfl

@[simp] theorem State.startToken_readsNow (s : State) : s.startToken.readsNow = s.readsNow := rfl

@[simp] theorem State.startToken_checkSource (s : State) (bus : Bool) (a n : Nat) :
    s.startToken.checkSource bus a n = s.checkSource bus a n := rfl

@[simp] theorem State.startToken_checkDest (s : State) (kind : BusAccess) (a n : Nat) :
    s.startToken.checkDest kind a n = s.checkDest kind a n := rfl

/-- A token that ends writes memory and the token decoder's cursors, and leaves everything else (R101 to R103). -/
theorem endToken_frame {s t : State} {mem : List Host.Cell} {consumed produced : Nat}
    (ht : t = s.startToken.endToken mem consumed produced) :
    s.sameResults t ∧ t.activity = s.activity ∧ s.sameAgents t ∧ s.sameEncoder t ∧ t.bfc = s.bfc
      ∧ t.draws = s.draws := by
  subst ht
  exact ⟨⟨rfl, rfl, rfl, rfl, rfl, rfl, rfl⟩, rfl, ⟨rfl, rfl, rfl, rfl, rfl, rfl⟩, ⟨rfl, rfl, rfl⟩, rfl, rfl⟩

section
variable {s : State} {len : Nat}

theorem exec_lit_granted (hdata : s.td.ip + 1 + len ≤ s.td.clen) (hcap : s.td.op + len ≤ s.td.cap)
    (hread : s.checkSource s.readsNow (s.td.srcBase + s.td.ip + 1) len = .granted)
    (hwrite : s.checkDest .write (s.td.outBase + s.td.op) len = .granted) :
    exec (.lit len) s = .next (s.startToken.endToken
      (writeBytes s.mem (s.td.outBase + s.td.op) (s.source (s.td.srcBase + s.td.ip + 1) len)) (1 + len) len) := by
  rw [Nat.add_assoc] at hread
  refine (if_neg (Nat.not_lt.mpr hdata)).trans ((if_neg (Nat.not_lt.mpr hcap)).trans ?_)
  simp [hread, hwrite, Nat.add_assoc]

theorem exec_reference_granted {i : Instr} {head off : Nat} (hi : i.reference = some (head, off, len))
    (hhead : s.td.ip + head ≤ s.td.clen) (hoff : off < s.td.op) (hcap : s.td.op + len ≤ s.td.cap)
    (hread : s.checkDest .readBack (s.td.outBase + (s.td.op - off - 1)) len = .granted)
    (hwrite : s.checkDest .write (s.td.outBase + s.td.op) len = .granted) :
    exec i s = .next (s.startToken.endToken
      (copyBytes s.mem (s.td.outBase + (s.td.op - off - 1)) (s.td.outBase + s.td.op) len) head len) := by
  rw [exec_of_reference hi]
  refine (if_neg (Nat.not_lt.mpr hhead)).trans ((if_neg (Nat.not_le.mpr hoff)).trans
    ((if_neg (Nat.not_lt.mpr hcap)).trans ?_))
  simp [hread, hwrite]

/-! ## A token that fails a check -/

variable {i : Instr} {n : Nat} {off : Option Nat}

/-- The first check of a token: its bytes are there (R105). -/
theorem exec_token_truncated (hi : i.tokenParts = some (n, off, len)) (hcut : s.td.clen < s.td.ip + n) :
    exec i s = .next (s.startToken.tokenError .invalidData) := by
  rcases Instr.tokenParts_cases hi with ⟨rfl, rfl, -⟩ | ⟨o, -, href⟩
  · exact if_pos (by rwa [← Nat.add_assoc] at hcut)
  · rw [exec_of_reference href]
    exact if_pos hcut

/-- The second check, of a back-reference: its offset stays inside the output (R105). -/
theorem exec_token_badOffset {o : Nat} (hi : i.tokenParts = some (n, some o, len)) (hn : s.td.ip + n ≤ s.td.clen)
    (ho : s.td.op ≤ o) : exec i s = .next (s.startToken.tokenError .invalidData) := by
  rcases Instr.tokenParts_cases hi with ⟨-, -, hnone⟩ | ⟨_, hsome, href⟩
  · cases hnone
  · cases hsome
    rw [exec_of_reference href]
    exact (if_neg (Nat.not_lt.mpr hn)).trans (if_pos ho)

/-- The last check: the output it produces fits the capacity (R105). -/
theorem exec_token_tooSmall (hi : i.tokenParts = some (n, off, len)) (hn : s.td.ip + n ≤ s.td.clen)
    (hoff : ∀ o : Nat, off = some o → o < s.td.op) (hcap : s.td.cap < s.td.op + len) :
    exec i s = .next (s.startToken.tokenError .outputTooSmall) := by
  rcases Instr.tokenParts_cases hi with ⟨rfl, rfl, -⟩ | ⟨o, ho, href⟩
  · rw [← Nat.add_assoc] at hn
    exact (if_neg (Nat.not_lt.mpr hn)).trans (if_pos hcap)
  · rw [exec_of_reference href]
    exact (if_neg (Nat.not_lt.mpr hn)).trans ((if_neg (Nat.not_le.mpr (hoff o ho))).trans (if_pos hcap))

/-- A token error of DECOMPRESS records the output before the token and the token's offset, and writes no byte
(R105, R108). -/
theorem tokenError_of_decompress (hs : s.td.owner = .decompress) (e : ErrKind) :
    s.failedAs (s.startToken.tokenError e) e s.td.op s.td.ip 0#8
      ∧ s.startToken.sameMachine (s.startToken.tokenError e) := by
  have hend : s.startToken.tokenError e = s.startToken.errorEnd e s.td.op s.td.ip 0#8 := by
    simp [State.tokenError, hs]
  rw [hend]
  exact ⟨failedAs_errorEnd s.startToken _ _ _ _, sameMachine_errorEnd _ _ _ _ _⟩

end

/-! ## The obligations -/

/-- Settles O16: the two checks in order, and the write of a run whose checks pass. -/
theorem litResult : Obligations.LitResult := by
  unfold Obligations.LitResult
  refine ⟨fun ctrl rest h => decodeToken_lit h rest, fun len s => ⟨fun hcut => ?_, fun hdata hcap => ?_,
    fun hdata hcap hread hwrite => ?_⟩⟩
  · exact exec_token_truncated rfl (by rwa [← Nat.add_assoc])
  · exact exec_token_tooSmall rfl (by rwa [← Nat.add_assoc]) nofun hcap
  · refine ⟨_, exec_lit_granted hdata hcap hread hwrite, by simp [Nat.add_assoc],
      fun k hk => get_writeBytes_inside _ _ _ k hk, fun x hx => get_writeBytes_outside _ _ _ x ?_,
      endToken_frame rfl⟩
    rwa [State.length_source]

/-- Settles O17: every back-reference is the one copy, and its source starts below its destination. -/
theorem referenceResult : Obligations.ReferenceResult := by
  unfold Obligations.ReferenceResult
  intro i head off len s hi hhead hoff hcap hread hwrite
  have hbehind : s.td.outBase + (s.td.op - off - 1) < s.td.outBase + s.td.op := by omega
  exact ⟨_, exec_reference_granted hi hhead hoff hcap hread hwrite, rfl,
    fun _ hk => get_copyBytes_inside _ hbehind hk, fun _ hx => get_copyBytes_outside _ _ _ _ _ hx,
    endToken_frame rfl⟩

/-- Settles O18: each check of R105 is reached when those before it pass, and every failure ends DECOMPRESS alike. -/
theorem tokenErrorOrder : Obligations.TokenErrorOrder := by
  unfold Obligations.TokenErrorOrder
  intro i n len off s hi hs
  refine ⟨fun hcut => ?_, fun hn hbad => ?_, fun hn hoff hcap => ?_⟩
  · exact ⟨_, exec_token_truncated hi hcut, tokenError_of_decompress hs _⟩
  · obtain ⟨o, rfl, ho⟩ := hbad
    exact ⟨_, exec_token_badOffset hi hn ho, tokenError_of_decompress hs _⟩
  · exact ⟨_, exec_token_tooSmall hi hn hoff hcap, tokenError_of_decompress hs _⟩

end Sys2Proof.Machine
end

section
/-!
PROOF. The parameter checks of the commands (spec/44_commands.md R128 to R131): the ranges in the terms of R131, and
the error a failed check ends a command with.
-/
namespace Sys2Proof.Machine

theorem rangesFit_eq_false_iff (s : State) :
    s.rangesFit = false ↔ 2 ^ 64 < s.latched.srcAddr.toNat + s.latched.srcLen.toNat
      ∨ 2 ^ 64 < s.latched.dstAddr.toNat + s.latched.dstCap.toNat := by
  simp only [State.rangesFit, Bool.and_eq_false_iff, decide_eq_false_iff_not, Nat.not_le]
  rfl

/-- The model's comparison of the ends is R131's shared byte: the higher of the two starts is one. -/
theorem rangesOverlap_iff (s : State) :
    s.rangesOverlap = true ↔ ∃ x : Nat,
      s.latched.srcAddr.toNat ≤ x ∧ x < s.latched.srcAddr.toNat + s.latched.srcLen.toNat
        ∧ s.latched.dstAddr.toNat ≤ x ∧ x < s.latched.dstAddr.toNat + s.latched.dstCap.toNat := by
  simp only [State.rangesOverlap, Bool.and_eq_true, decide_eq_true_eq]
  unfold State.srcLo State.srcHi State.dstLo State.dstHi
  constructor
  · intro h
    exact ⟨max s.latched.srcAddr.toNat s.latched.dstAddr.toNat, by omega⟩
  · rintro ⟨x, hx⟩
    omega

/-- A failed check rejects every command that accesses memory: each is a launch under the length check of its own. -/
theorem exec_memoryCommand_of_failedCheck {i : Instr} {s : State} (hi : i.isMemoryCommand = true)
    (h : i.lengthsOk s = false ∨ s.rangesFit = false ∨ s.rangesOverlap = true) : exec i s = .next s.badParameter := by
  unfold exec
  cases i with
  | compress _ _ _ | decompress _ _ _ | encode _ _ _ | decode _ _ _ | encodeBlock _ _ _ | decodeBlock _ _ _ =>
    exact launch_rejected h
  | _ => cases hi

/-- MAXSIZE is the one command with a length check and no launch: it accesses no memory (R99). -/
theorem exec_of_lengthsOk_eq_false {i : Instr} {s : State} (h : i.lengthsOk s = false) :
    exec i s = .next s.badParameter := by
  cases i with
  | compress _ _ _ | encode _ _ _ | encodeBlock _ _ _ => exact exec_memoryCommand_of_failedCheck rfl (.inl h)
  | maxsize _ _ _ => exact execMaxsize_of_lt (Nat.not_le.mp (of_decide_eq_false h))
  | _ => cases h

/-- Settles O11: each row of R128's table ends in one of the two error completions, which record nothing and write
no byte. -/
theorem parameterChecks : Obligations.ParameterChecks := by
  unfold Obligations.ParameterChecks
  intro i s _
  refine ⟨fun hres => ?_, fun _ hbad => ?_⟩
  · exact ⟨s.illegalCommand, exec_of_isReserved hres s, failedAs_errorEnd s _ _ _ _, sameMachine_errorEnd s _ _ _ _⟩
  · have hexec : exec i s = .next s.badParameter := by
      obtain hlen | ⟨hmem, hranges⟩ := hbad
      · exact exec_of_lengthsOk_eq_false hlen
      · rw [← or_assoc, ← rangesFit_eq_false_iff, ← rangesOverlap_iff] at hranges
        exact exec_memoryCommand_of_failedCheck hmem (.inr hranges)
    exact ⟨s.badParameter, hexec, failedAs_errorEnd s _ _ _ _, sameMachine_errorEnd s _ _ _ _⟩

end Sys2Proof.Machine
end

section
/-!
PROOF. Error completion (spec/60_exceptions.md R141, R143) and the interrupt line (R146): what the line reads when a
flag is set, when neither is, and what the writes of GO and CTRL become while the engine is IDLE.
-/
namespace Sys2Proof.Machine

/-! ## Error completion -/

/-- Error completion returns the engine to IDLE (R143). -/
theorem busy_errorEnd (s : State) (e : ErrKind) (result consumed : Nat) (info : Byte) :
    (s.errorEnd e result consumed info).busy = false :=
  rfl

/-- Settles O23: what is written, that nothing else is, and R141's code of each error. -/
theorem errorCompletion : Obligations.ErrorCompletion := by
  unfold Obligations.ErrorCompletion
  constructor
  · intro s e result consumed info
    exact ⟨failedAs_errorEnd s e result consumed info, sameMachine_errorEnd s e result consumed info,
      busy_errorEnd s e result consumed info⟩
  · exact ⟨rfl, rfl, rfl, rfl, rfl, rfl, rfl⟩

/-! ## The interrupt line -/

theorem irq_eq (s : State) : s.irq = (s.regs.ctrl.getLsbD 6 && (s.done || s.err)) := rfl

/-- While a flag is set the line follows IRQ_EN. -/
theorem irq_of_flag {s : State} (h : s.done = true ∨ s.err = true) : s.irq = s.regs.ctrl.getLsbD 6 := by
  rw [irq_eq, (Bool.or_eq_true _ _).mpr h, Bool.and_true]

theorem irq_of_no_flag {s : State} (hdone : s.done = false) (herr : s.err = false) : s.irq = false := by
  rw [irq_eq, hdone, herr, Bool.or_false, Bool.and_false]

/-- A flag of STATUS is 0 after a write that clears it if it is set (R20). -/
theorem flag_and_not_eq_false {flag clear : Bool} (h : flag = true → clear = true) : (flag && !clear) = false := by
  cases flag with
  | false => rfl
  | true => rw [h rfl]; rfl

theorem irq_writeReg_status {s : State} {v : Word} (hdone : s.done = true → v.getLsbD 1 = true)
    (herr : s.err = true → v.getLsbD 2 = true) : (s.writeReg .status v).irq = false :=
  irq_of_no_flag (s := s.acknowledge v) (flag_and_not_eq_false hdone) (flag_and_not_eq_false herr)

/-- A write to GO with bit 0 set is accepted while IDLE (R126). -/
theorem writeReg_go_of_idle {s : State} {v : Word} (hidle : s.busy = false) (hv : v.getLsbD 0 = true) :
    s.writeReg .go v = s.accept := by
  simp [State.writeReg, hidle, hv]

/-- A write to CTRL while IDLE takes the seven bits of the register (R21, R30). -/
theorem writeReg_ctrl_of_idle {s : State} {v : Word} (hidle : s.busy = false) :
    s.writeReg .ctrl v = { s with regs := { s.regs with ctrl := v.setWidth 7 } } := by
  simp [State.writeReg, State.writeOperand, hidle]

theorem irq_writeReg_ctrl {s : State} {v : Word} (hidle : s.busy = false) :
    (s.writeReg .ctrl v).irq = (v.getLsbD 6 && (s.done || s.err)) := by
  have hbit : (v.setWidth 7).getLsbD 6 = v.getLsbD 6 := by simp
  rw [writeReg_ctrl_of_idle hidle, irq_eq, hbit]

/-- Settles O26: the two completions set a flag; acknowledgement, GO and reset leave none; a write to CTRL while IDLE
moves only the enable bit. -/
theorem interruptLine : Obligations.InterruptLine := by
  unfold Obligations.InterruptLine
  intro s
  refine ⟨irq_eq s, ?completion, ?error, ?status, ?go, ?ctrl, ?reset⟩
  case completion => exact fun result consumed kind => irq_of_flag (.inl (s.complete_done result consumed kind))
  case error => exact fun e result consumed info => irq_of_flag (.inr (s.errorEnd_err e result consumed info))
  case status => exact fun _ => irq_writeReg_status
  case go =>
    intro v hidle hv
    rw [writeReg_go_of_idle hidle hv]
    exact irq_of_no_flag s.accept_done s.accept_err
  case ctrl => exact fun _ => irq_writeReg_ctrl
  case reset => exact irq_of_no_flag s.resetMove_done s.resetMove_err

end Sys2Proof.Machine
end

section
/-!
PROOF. Reset (spec/70_reset_and_hazards.md R151, R152): the step that takes it, what the registers read after it, and
the bytes of memory it leaves.
-/
namespace Sys2Proof.Machine

variable {s : State}

theorem step_reset {rest : List HostMove} (hm : s.host.moves = .reset :: rest) :
    step s = .next (s.withMoves rest).resetMove := by
  simp [step, turn, hm, hostMove]

/-! ## The registers -/

theorem reset_readReg (r : Reg) : State.reset.readReg r = if r = .id then 0x000000004C5A4631#64 else 0#64 := by
  cases r <;> rfl

/-- No register shows what the move keeps: memory, the draws, the platform and the host's side. -/
theorem resetMove_readReg (s : State) (r : Reg) : s.resetMove.readReg r = State.reset.readReg r := by
  cases r <;> rfl

/-! ## Memory -/

theorem afterStop_of_not_running (h : s.runningOnMemory = false) : s.afterStop = s :=
  if_neg (ne_true_of_eq_false h)

/-- The bytes made free are a part of the destination range: those that lie in the address space (I5). -/
theorem writesOnlyDest_afterStop (s : State) : s.writesOnlyDest s.afterStop := by
  unfold State.afterStop
  split
  · exact sameOutside_mono (sameOutside_scramble s _ _) le_rfl (Nat.add_le_add_left (Nat.min_le_left _ _) _)
  · exact writesOnlyDest_of_mem_eq rfl

theorem byteAt_resetMove (s : State) (x : Nat) : s.resetMove.byteAt x = s.afterStop.byteAt x := rfl

theorem byteAt_resetMove_of_not_running (h : s.runningOnMemory = false) (x : Nat) :
    s.resetMove.byteAt x = s.byteAt x := by
  rw [byteAt_resetMove, afterStop_of_not_running h]

theorem resetMove_writesOnlyDest (s : State) : s.writesOnlyDest s.resetMove :=
  sameOutside_trans (writesOnlyDest_afterStop s) (sameOutside_of_mem_eq s.resetMove_mem _ _)

/-- Settles O32: the state after the move has the registers of `State.reset`, and its memory is that of the state
before but for the destination of a command it stopped. -/
theorem resetValues : Obligations.ResetValues := by
  unfold Obligations.ResetValues
  refine ⟨fun s rest hmoves => ?_, rfl, irq_of_no_flag rfl rfl, reset_readReg⟩
  refine ⟨(s.withMoves rest).resetMove, step_reset hmoves, State.resetMove_activity _, ?line, ?registers, ?memory,
    ?outside⟩
  case line => exact irq_of_no_flag (State.resetMove_done _) (State.resetMove_err _)
  case registers => exact fun r => (resetMove_readReg _ r).trans (reset_readReg r)
  case memory => exact byteAt_resetMove_of_not_running (s := s.withMoves rest)
  case outside => exact resetMove_writesOnlyDest (s.withMoves rest)

end Sys2Proof.Machine
end

section
/-!
PROOF. The three encoded languages (spec/30_encoding.md): each decoder takes back what the encoder wrote, and the token
and block decoders accept nothing else.
-/
namespace Sys2Proof

/-! ## Bytes -/

theorem toNat_byte_of_lt {n : Nat} (h : n < 256) : (BitVec.ofNat 8 n).toNat = n :=
  (BitVec.toNat_ofNat n 8).trans (Nat.mod_eq_of_lt h)

/-- A byte is the byte of every number it is the lowest digit of. -/
theorem byte_of_mod {n : Nat} {b : Byte} (h : n % 256 = b.toNat) : BitVec.ofNat 8 n = b :=
  BitVec.eq_of_toNat_eq ((BitVec.toNat_ofNat n 8).trans h)

/-! ## Short back-references -/

section
variable {lenf : Nat} (h₁ : 1 ≤ lenf) (h₆ : lenf ≤ 6)
include h₁ h₆

theorem encode_shortRef (off : Nat) : encode (shortRef lenf off) = shortRefBytes lenf off := by
  interval_cases lenf <;> rfl

theorem reference_shortRef (off : Nat) : (shortRef lenf off).reference = some (2, off, lenf + 2) := by
  interval_cases lenf <;> rfl

/-- The two bytes of BREF_SHORT hold the length field and the offset apart (R60). -/
theorem decodeToken_shortRefBytes {off : Nat} (hoff : off ≤ Config.maxOff) (rest : List Byte) :
    decodeToken (shortRefBytes lenf off ++ rest) = .ok (shortRef lenf off, rest) := by
  have hoff' : off ≤ 8191 := hoff
  have hctrl : (BitVec.ofNat 8 (lenf * 32 + off / 256)).toNat = lenf * 32 + off / 256 := toNat_byte_of_lt (by omega)
  have hlo : (BitVec.ofNat 8 (off % 256)).toNat = off % 256 := toNat_byte_of_lt (by omega)
  have hfield : lenField (BitVec.ofNat 8 (lenf * 32 + off / 256)) = lenf := by rw [lenField, hctrl]; omega
  have hoffset : offsetOf (BitVec.ofNat 8 (lenf * 32 + off / 256)) (BitVec.ofNat 8 (off % 256)) = off := by
    rw [offsetOf, lowFive, hctrl, hlo]; omega
  rw [shortRefBytes, List.cons_append, decodeToken_cons, if_neg (by omega), if_pos (by omega)]
  exact congrArg₂ (fun k o => Except.ok (shortRef k o, rest)) hfield hoffset

end

/-! ## What the encoder writes is decoded -/

theorem decodeToken_encode_lit {len : Nat} (h₁ : 1 ≤ len) (h₃₂ : len ≤ 32) (rest : List Byte) :
    decodeToken (encode (.lit len) ++ rest) = .ok (.lit len, rest) := by
  have hctrl : (BitVec.ofNat 8 (len - 1)).toNat = len - 1 := toNat_byte_of_lt (by omega)
  rw [encode, List.cons_append, List.nil_append, decodeToken_cons, if_pos (by omega), lowFive, hctrl]
  rw [show (len - 1) % 32 + 1 = len by omega]

theorem decodeToken_encode_brefLong {len off : Nat} (h₉ : 9 ≤ len) (hlen : len ≤ Config.maxMatch)
    (hoff : off ≤ Config.maxOff) (rest : List Byte) :
    decodeToken (encode (.brefLong len off) ++ rest) = .ok (.brefLong len off, rest) := by
  have hlen' : len ≤ 264 := hlen
  have hoff' : off ≤ 8191 := hoff
  have hctrl : (BitVec.ofNat 8 (7 * 32 + off / 256)).toNat = 7 * 32 + off / 256 := toNat_byte_of_lt (by omega)
  have hext : (BitVec.ofNat 8 (len - 9)).toNat = len - 9 := toNat_byte_of_lt (by omega)
  have hlo : (BitVec.ofNat 8 (off % 256)).toNat = off % 256 := toNat_byte_of_lt (by omega)
  have hlength : 7 + (BitVec.ofNat 8 (len - 9)).toNat + 2 = len := by omega
  have hoffset : offsetOf (BitVec.ofNat 8 (7 * 32 + off / 256)) (BitVec.ofNat 8 (off % 256)) = off := by
    rw [offsetOf, lowFive, hctrl, hlo]; omega
  rw [encode, List.cons_append, decodeToken_cons, if_neg (by omega), if_neg (by omega)]
  exact congrArg₂ (fun l o => Except.ok (Instr.brefLong l o, rest)) hlength hoffset

theorem be16Value_be16 {v : Nat} (h : v ≤ Config.maxBlock) :
    be16Value (BitVec.ofNat 8 (v / 256)) (BitVec.ofNat 8 (v % 256)) = v := by
  have hv : v ≤ 65535 := h
  rw [be16Value, toNat_byte_of_lt (by omega), toNat_byte_of_lt (by omega)]
  omega

theorem decodeUnit_encode_blkRaw {u : Nat} (h : u ≤ Config.maxBlock) (rest : List Byte) :
    decodeUnit (encode (.blkRaw u) ++ rest) = .ok (.blkRaw u, rest) :=
  congrArg (fun v => Except.ok (Instr.blkRaw v, rest)) (be16Value_be16 h)

theorem decodeUnit_encode_blkCmp {c u : Nat} (hc : c ≤ Config.maxBlock) (hu : u ≤ Config.maxBlock)
    (rest : List Byte) : decodeUnit (encode (.blkCmp c u) ++ rest) = .ok (.blkCmp c u, rest) :=
  congrArg₂ (fun v w => Except.ok (Instr.blkCmp v w, rest)) (be16Value_be16 hc) (be16Value_be16 hu)

/-- The fields of CTRL do not overlap, and every OP has its own command (R17, R70, R71). -/
theorem decodeCtrl_encode {j : Instr} (h : j.language = .command) :
    ∃ c : Byte, encode j = [c] ∧ decodeCtrl (c.setWidth 7) = j := by
  cases j with
  | compress m t i | decompress m t i | encode m t i | decode m t i | encodeBlock m t i | decodeBlock m t i
  | maxsize m t i | reservedOp0 m t i | reservedOp8 m t i | reservedOp9 m t i | reservedOpA m t i
  | reservedOpB m t i | reservedOpC m t i | reservedOpD m t i | reservedOpE m t i | reservedOpF m t i =>
    exact ⟨_, rfl, by cases m <;> cases t <;> cases i <;> rfl⟩
  | _ => cases h

theorem decodeIn_encode_command {j : Instr} (h : j.language = .command) (rest : List Byte) :
    decodeIn j.language (encode j ++ rest) = .ok (j, rest) := by
  obtain ⟨c, hc, hj⟩ := decodeCtrl_encode h
  rw [h, hc]
  exact congrArg (fun k => Except.ok (k, rest)) hj

/-- Settles O2: a token and a block header by the bounds on their operands, a command by its four fields. -/
theorem decodeEncodeAgree : Obligations.DecodeEncodeAgree := by
  unfold Obligations.DecodeEncodeAgree
  intro i rest hwf
  cases i with
  | lit len =>
    obtain ⟨h₁, h₃₂⟩ : 1 ≤ len ∧ len ≤ 32 := by simpa [Instr.wellFormed] using hwf
    exact decodeToken_encode_lit h₁ h₃₂ rest
  | brefShortL3 off => exact decodeToken_shortRefBytes (lenf := 1) (by decide) (by decide) (of_decide_eq_true hwf) rest
  | brefShortL4 off => exact decodeToken_shortRefBytes (lenf := 2) (by decide) (by decide) (of_decide_eq_true hwf) rest
  | brefShortL5 off => exact decodeToken_shortRefBytes (lenf := 3) (by decide) (by decide) (of_decide_eq_true hwf) rest
  | brefShortL6 off => exact decodeToken_shortRefBytes (lenf := 4) (by decide) (by decide) (of_decide_eq_true hwf) rest
  | brefShortL7 off => exact decodeToken_shortRefBytes (lenf := 5) (by decide) (by decide) (of_decide_eq_true hwf) rest
  | brefShortL8 off => exact decodeToken_shortRefBytes (lenf := 6) (by decide) (by decide) (of_decide_eq_true hwf) rest
  | brefLong len off =>
    simp only [Instr.wellFormed, Bool.and_eq_true, decide_eq_true_eq] at hwf
    obtain ⟨⟨h₉, hlen⟩, hoff⟩ := hwf
    exact decodeToken_encode_brefLong h₉ hlen hoff rest
  | blkRaw u => exact decodeUnit_encode_blkRaw (of_decide_eq_true hwf) rest
  | blkCmp c u =>
    simp only [Instr.wellFormed, Bool.and_eq_true, decide_eq_true_eq] at hwf
    exact decodeUnit_encode_blkCmp hwf.1 hwf.2 rest
  | term => rfl
  | compress _ _ _ | decompress _ _ _ | encode _ _ _ | decode _ _ _ | encodeBlock _ _ _ | decodeBlock _ _ _
  | maxsize _ _ _ | reservedOp0 _ _ _ | reservedOp8 _ _ _ | reservedOp9 _ _ _ | reservedOpA _ _ _
  | reservedOpB _ _ _ | reservedOpC _ _ _ | reservedOpD _ _ _ | reservedOpE _ _ _ | reservedOpF _ _ _ =>
    exact decodeIn_encode_command rfl rest

/-! ## Nothing else is decoded -/

/-- The token decoder gives its bytes back as an encoding: it ignores no bit (R58 to R61). -/
theorem encode_of_decodeToken {bs rest : List Byte} {i : Instr} (h : decodeToken bs = .ok (i, rest)) :
    encode i ++ rest = bs := by
  cases bs with
  | nil => cases h
  | cons ctrl bs =>
    have hc := ctrl.isLt
    rw [decodeToken_cons] at h
    split at h
    · cases h
      have h₁ : BitVec.ofNat 8 (lowFive ctrl + 1 - 1) = ctrl := byte_of_mod (by unfold lowFive; omega)
      rw [encode, h₁]
      rfl
    · split at h
      · split at h
        · next lo rest' =>
          cases h
          have hlo := lo.isLt
          rw [encode_shortRef (by unfold lenField; omega) (by unfold lenField; omega)]
          exact congrArg₂ (· :: · :: rest) (byte_of_mod (by unfold lenField offsetOf lowFive; omega))
            (byte_of_mod (by unfold offsetOf; omega))
        · cases h
      · split at h
        · next ext lo rest' =>
          cases h
          have hlo := lo.isLt
          have hext := ext.isLt
          have h₁ : BitVec.ofNat 8 (7 * 32 + offsetOf ctrl lo / 256) = ctrl :=
            byte_of_mod (by unfold offsetOf lowFive; omega)
          have h₂ : BitVec.ofNat 8 (7 + ext.toNat + 2 - 9) = ext := byte_of_mod (by omega)
          have h₃ : BitVec.ofNat 8 (offsetOf ctrl lo % 256) = lo := byte_of_mod (by unfold offsetOf; omega)
          rw [encode, h₁, h₂, h₃]
          rfl
        · cases h

theorem be16_be16Value (hi lo : Byte) : be16 (be16Value hi lo) = [hi, lo] := by
  have hhi := hi.isLt
  have hlo := lo.isLt
  exact congrArg₂ (fun a b => [a, b]) (byte_of_mod (by unfold be16Value; omega))
    (byte_of_mod (by unfold be16Value; omega))

/-- The unit decoder gives its bytes back as an encoding (R65 to R68). -/
theorem encode_of_decodeUnit {bs rest : List Byte} {i : Instr} (h : decodeUnit bs = .ok (i, rest)) :
    encode i ++ rest = bs := by
  cases bs with
  | nil => cases h
  | cons b0 bs =>
    rw [decodeUnit_cons] at h
    split at h
    · next h0 => cases h; rw [h0]; rfl
    · split at h
      · split at h
        · cases h
        · next hmagic =>
          obtain ⟨rfl, rfl⟩ : b0 = 0x5A#8 ∧ _ = 0x56#8 := by simpa [not_or] using hmagic
          split at h
          · next hty =>
            split at h
            · cases h; rw [encode, be16_be16Value, hty]; rfl
            · cases h
          · split at h
            · next hty =>
              split at h
              · cases h; rw [encode, be16_be16Value, be16_be16Value, hty]; rfl
              · cases h
            · cases h
      · cases h

/-! ## The one token of a reference -/

section
variable {off len : Nat} (h₃ : 3 ≤ len)
include h₃

theorem refToken_of_short (h₈ : len ≤ 8) : refToken off len = shortRef (len - 2) off := if_pos (by omega)

omit h₃ in
theorem refToken_of_long (h₉ : 9 ≤ len) : refToken off len = .brefLong len off := if_neg (by omega)

theorem refToken_wellFormed (hoff : off ≤ 8191) (hlen : len ≤ 264) : (refToken off len).wellFormed = true := by
  rcases Nat.lt_or_ge 8 len with h₉ | h₈
  · simpa [refToken_of_long h₉, Instr.wellFormed, hoff, hlen] using Nat.succ_le_of_lt h₉
  · rw [refToken_of_short h₃ h₈]
    exact shortRef_wellFormed _ _ hoff

theorem refToken_reference : (refToken off len).reference = some (if len ≤ 8 then 2 else 3, off, len) := by
  rcases Nat.lt_or_ge 8 len with h₉ | h₈
  · rw [refToken_of_long h₉, if_neg (Nat.not_le.mpr h₉)]
    rfl
  · rw [refToken_of_short h₃ h₈, if_pos h₈, reference_shortRef (by omega) (by omega), Nat.sub_add_cancel (by omega)]

theorem length_encode_refToken : (encode (refToken off len)).length = if len ≤ 8 then 2 else 3 := by
  rcases Nat.lt_or_ge 8 len with h₉ | h₈
  · rw [refToken_of_long h₉, if_neg (Nat.not_le.mpr h₉)]
    rfl
  · rw [refToken_of_short h₃ h₈, if_pos h₈, encode_shortRef (by omega) (by omega)]
    rfl

end

/-- BREF_LONG cannot spell the lengths of BREF_SHORT, so a reference has one well-formed token (R63). -/
theorem eq_refToken_of_reference {i : Instr} {head off len : Nat} (hwf : i.wellFormed = true)
    (h : i.reference = some (head, off, len)) : i = refToken off len := by
  cases i with
  | brefShortL3 _ | brefShortL4 _ | brefShortL5 _ | brefShortL6 _ | brefShortL7 _ | brefShortL8 _ => cases h; rfl
  | brefLong len' off' =>
    cases h
    simp only [Instr.wellFormed, Bool.and_eq_true, decide_eq_true_eq] at hwf
    exact (refToken_of_long hwf.1.1).symm
  | _ => cases h

/-- Settles O3: what a decoder accepts is well formed, of its language, and encodes to the bytes it took; a reference
has a token by its length, and no other. -/
theorem decodedBytesAreEncoded : Obligations.DecodedBytesAreEncoded := by
  unfold Obligations.DecodedBytesAreEncoded
  constructor
  · intro l bs rest i hl h
    cases l with
    | token => exact ⟨decodeToken_wellFormed h, decodeToken_language h, encode_of_decodeToken h⟩
    | block => exact ⟨decodeUnit_wellFormed h, decodeUnit_language h, encode_of_decodeUnit h⟩
    | command => exact absurd rfl hl
  · intro off len hoff h₃ hlen
    exact ⟨refToken_wellFormed h₃ hoff hlen, refToken_reference h₃, length_encode_refToken h₃,
      fun _ _ hwf href => eq_refToken_of_reference hwf href⟩

/-! ## Kinds of tokens -/

theorem tokenParts_of_reference {i : Instr} {head off len : Nat} (h : i.reference = some (head, off, len)) :
    i.tokenParts = some (head, some off, len) := by
  cases i with
  | brefShortL3 _ | brefShortL4 _ | brefShortL5 _ | brefShortL6 _ | brefShortL7 _ | brefShortL8 _ | brefLong _ _ =>
    cases h; rfl
  | _ => cases h

/-- Settles O4: one clause for each of the three kinds, which the length field of the control byte tells apart. -/
theorem tokenKindsByControlByte : Obligations.TokenKindsByControlByte := by
  unfold Obligations.TokenKindsByControlByte
  intro ctrl b1 b2 rest
  refine ⟨fun hlit => ?_, fun hlo hhi => ?_, fun hlong => ?_⟩
  · exact ⟨_, decodeToken_lit hlit rest, rfl⟩
  · refine ⟨shortRef (lenField ctrl) (offsetOf ctrl b1), offsetOf ctrl b1, ?_, ?_⟩
    · rw [decodeToken_cons, if_neg (Nat.not_lt.mpr hlo), if_pos hhi]
    · exact tokenParts_of_reference (reference_shortRef (by unfold lenField; omega) (by unfold lenField; omega) _)
  · refine ⟨.brefLong (7 + b1.toNat + 2) (offsetOf ctrl b2), offsetOf ctrl b2, ?_, ?_⟩
    · rw [decodeToken_cons, if_neg (by omega), if_neg (Nat.not_lt.mpr hlong)]
    · rw [show b1.toNat + 9 = 7 + b1.toNat + 2 by omega]
      rfl

/-- Settles O1: each word runs through its decoder. -/
theorem specWordsDecode : Obligations.SpecWordsDecode := by
  unfold Obligations.SpecWordsDecode
  exact ⟨rfl, rfl, rfl, rfl, rfl, rfl, rfl, rfl, rfl, rfl, rfl, rfl⟩

end Sys2Proof
end

section
/-!
PROOF. The host's side of the machine: STATUS and the operand registers (spec/10_state.md R17 to R30), the acceptance
of GO (spec/44_commands.md R126, R127), and system memory with the host's duties (spec/20_memory.md R48 to R53).
-/
namespace Sys2Proof.Machine

/-! ## The flags' invariant, by control state -/

theorem flagsHold_iff_of_busy {s : State} (hb : s.busy = true) :
    s.flagsHold = true ↔ s.done = false ∧ s.err = false ∧ s.errCode = 0#4 ∧ s.endKind = 0#2 ∧ s.resultLen = 0#64
      ∧ s.consumed = 0#64 ∧ s.errInfo = 0#8 := by
  simp only [State.flagsHold, hb, Bool.not_true, Bool.false_or, Bool.and_eq_true, Bool.not_eq_true', beq_iff_eq,
    decide_eq_true_eq]
  constructor
  · rintro ⟨⟨⟨⟨⟨⟨⟨⟨⟨⟨⟨⟨hdone, herr⟩, hcode⟩, hkind⟩, hlen⟩, hcons⟩, hinfo⟩, -⟩, -⟩, -⟩, -⟩, -⟩, -⟩
    exact ⟨hdone, herr, hcode, hkind, hlen, hcons, hinfo⟩
  · rintro ⟨hdone, herr, hcode, hkind, hlen, hcons, hinfo⟩
    simp [hdone, herr, hcode, hkind, hlen, hcons, hinfo]

theorem flagsHold_iff_of_idle {s : State} (hb : s.busy = false) :
    s.flagsHold = true ↔ ¬(s.done = true ∧ s.err = true) ∧ s.errCode.toNat ≤ 7 ∧ s.endKind.toNat ≤ 2
      ∧ (s.err = true → s.errCode ≠ 0#4) ∧ (s.done = true → s.errCode = 0#4)
      ∧ (s.errInfo = 0#8 ∨ s.errCode = ErrKind.unknownBlockType.code) := by
  simp only [State.flagsHold, hb, Bool.not_false, Bool.true_or, Bool.true_and, Bool.and_eq_true, Bool.or_eq_true,
    Bool.not_eq_true', Bool.and_eq_false_iff, bne_iff_ne, beq_iff_eq, decide_eq_true_eq, and_assoc, imp_iff_not_or,
    not_and_or, Bool.not_eq_true]

/-! ## STATUS -/

/-- A bit of a word from the word's number. -/
theorem getLsbD_eq_of_toNat {w : Nat} {x : BitVec w} {k : Nat} {b : Bool} (h : x.toNat / 2 ^ k % 2 = b.toNat) :
    x.getLsbD k = b := by
  rw [BitVec.getLsbD, Nat.testBit_eq_decide_div_mod_eq, h]
  cases b <;> rfl

/-- The flags and fields of STATUS stand at the bits of R20. -/
theorem statusWord_fields (s : State) :
    s.statusWord.getLsbD 0 = s.busy ∧ s.statusWord.getLsbD 1 = s.done ∧ s.statusWord.getLsbD 2 = s.err
      ∧ s.statusWord.extractLsb' 4 4 = s.errCode ∧ s.statusWord.extractLsb' 8 2 = s.endKind := by
  have hbusy := s.busy.toNat_le
  have hdone := s.done.toNat_le
  have herr := s.err.toNat_le
  have hcode := s.errCode.isLt
  have hkind := s.endKind.isLt
  refine ⟨getLsbD_eq_of_toNat ?_, getLsbD_eq_of_toNat ?_, getLsbD_eq_of_toNat ?_, BitVec.eq_of_toNat_eq ?_,
    BitVec.eq_of_toNat_eq ?_⟩ <;>
  simp only [BitVec.extractLsb'_toNat, Nat.shiftRight_eq_div_pow, statusWord_toNat] <;> omega

theorem and_not_eq_ite (flag clear : Bool) : (flag && !clear) = if clear then false else flag := by
  cases clear <;> simp

/-- Settles O29: the fields by their places in the word, and the write by the definition of acknowledgement. -/
theorem statusRegister : Obligations.StatusRegister := by
  unfold Obligations.StatusRegister
  intro s v
  obtain ⟨hbusy, hdone, herr, hcode, hkind⟩ := statusWord_fields s
  refine ⟨hbusy, hdone, herr, hcode, hkind, ?_⟩
  rw [← and_not_eq_ite, ← and_not_eq_ite]
  rfl

/-! ## The operand registers -/

section
variable {s : State}

theorem writeOperand_of_idle (hidle : s.busy = false) (regs : OperandRegs) :
    s.writeOperand regs = { s with regs := regs } :=
  if_neg (ne_true_of_eq_false hidle)

theorem writeOperand_of_busy (hbusy : s.busy = true) (regs : OperandRegs) : s.writeOperand regs = s := if_pos hbusy

/-- The seven bits of CTRL, read back as a word. -/
theorem setWidth_setWidth_seven (v : Word) : (v.setWidth 7).setWidth 64 = v &&& 0x7F#64 := by
  refine BitVec.eq_of_toNat_eq ?_
  rw [BitVec.toNat_and, BitVec.toNat_setWidth, BitVec.toNat_setWidth]
  exact (Nat.mod_eq_of_lt (by omega)).trans (Nat.and_two_pow_sub_one_eq_mod v.toNat 7).symm

/-- A write to a register other than GO and STATUS changes at most the operand registers. -/
theorem writeReg_changes_operands_only {r : Reg} (v : Word) (hidle : s.busy = false) (hgo : r ≠ .go)
    (hstatus : r ≠ .status) : { s.writeReg r v with regs := s.regs } = s := by
  cases r with
  | go => exact absurd rfl hgo
  | status => exact absurd rfl hstatus
  | ctrl | srcAddr | srcLen | dstAddr | dstCap | blockSize => simp [State.writeReg, writeOperand_of_idle hidle]
  | _ => rfl

theorem acknowledge_of_no_flag (hdone : s.done = false) (herr : s.err = false) (v : Word) : s.acknowledge v = s := by
  cases s
  cases hdone
  cases herr
  rfl

/-- While BUSY every register write is ignored: the flags STATUS could clear are 0 (R30). -/
theorem writeReg_of_busy (hflags : s.flagsHold = true) (hbusy : s.busy = true) (r : Reg) (v : Word) :
    s.writeReg r v = s := by
  obtain ⟨hdone, herr, -⟩ := (flagsHold_iff_of_busy hbusy).mp hflags
  cases r with
  | ctrl | srcAddr | srcLen | dstAddr | dstCap | blockSize => exact writeOperand_of_busy hbusy _
  | go => exact if_neg (by simp [hbusy])
  | status => exact acknowledge_of_no_flag hdone herr v
  | _ => rfl

/-- Settles O30: the write of each register while IDLE, and the flags' invariant while BUSY. -/
theorem registerWrites : Obligations.RegisterWrites := by
  unfold Obligations.RegisterWrites
  constructor
  · intro s v hidle
    have hwrite := writeOperand_of_idle hidle
    refine ⟨?ctrl, by simp [State.writeReg, hwrite], by simp [State.writeReg, hwrite],
      by simp [State.writeReg, hwrite], by simp [State.writeReg, hwrite], by simp [State.writeReg, hwrite], ?ctrlRead,
      by simp [State.writeReg, State.readReg, hwrite], by simp [State.writeReg, State.readReg, hwrite],
      by simp [State.writeReg, State.readReg, hwrite], by simp [State.writeReg, State.readReg, hwrite],
      by simp [State.writeReg, State.readReg, hwrite], fun r => writeReg_changes_operands_only v hidle⟩
    case ctrl => rw [writeReg_ctrl_of_idle hidle, BitVec.setWidth_eq_extractLsb' (by decide)]
    case ctrlRead => rw [writeReg_ctrl_of_idle hidle]; exact setWidth_setWidth_seven v
  · intro s r v hflags hbusy
    obtain ⟨hdone, herr, hcode, hkind, hlen, hcons, hinfo⟩ := (flagsHold_iff_of_busy hbusy).mp hflags
    exact ⟨writeReg_of_busy hflags hbusy r v, hlen, hcons, by simp [State.readReg, hinfo],
      by simp [State.readReg, State.statusWord, hbusy, hdone, herr, hcode, hkind]⟩

/-! ## GO -/

/-- The engine moves in the state itself, or with moves taken off. -/
theorem eq_withMoves_of_turn_engine {u : State} (h : turn s = .engine u) :
    ∃ moves : List HostMove, u = s.withMoves moves := by
  unfold turn at h
  split at h
  · cases h; exact ⟨s.host.moves, rfl⟩
  · next rest _ => cases h; exact ⟨rest, rfl⟩
  · split at h
    · cases h; exact ⟨s.host.moves, rfl⟩
    · cases h
  · split at h
    · cases h
    · cases h; exact ⟨s.host.moves, rfl⟩
  · cases h

/-- The slot at offset 0x10 is GO (R18). -/
theorem admitted_go {addr : Word} (h : addr.toNat = s.platform.engineBase.toNat + 0x10) :
    s.admitted addr 8 = some .go := by
  unfold State.admitted Config.registerWindow
  rw [if_pos (by omega), h, Nat.add_sub_cancel_left]
  rfl

theorem writeReg_go_ignored {v : Word} (h : s.busy = true ∨ v.getLsbD 0 = false) : s.writeReg .go v = s := by
  refine if_neg ?_
  rw [Bool.and_eq_true, Bool.not_eq_true']
  rcases h with h | h <;> simp only [h, Bool.true_eq_false, Bool.false_eq_true, and_false, false_and, not_false_iff]

theorem step_of_dispatch {u : State} (h : turn s = .engine u) (ha : u.activity = .dispatch) :
    step s = exec (decodeCtrl u.latched.ctrl) u := by
  rw [step_of_turn_engine h, engineStep, fetch_dispatch ha]

/-- Settles O31: the write reaches GO, where it is accepted or ignored; an accepted command is dispatched next. -/
theorem goAccepted : Obligations.GoAccepted := by
  unfold Obligations.GoAccepted
  intro s addr v rest hmoves haddr
  have hstep := step_regWrite_admitted hmoves (admitted_go haddr)
  constructor
  · intro hidle hv
    rw [writeReg_go_of_idle (s := s.withMoves rest) hidle hv] at hstep
    refine ⟨_, hstep, rfl, rfl, rfl, rfl, rfl, rfl, rfl, rfl, rfl, rfl, irq_of_no_flag rfl rfl, fun _ => rfl,
      ⟨rfl, rfl, rfl⟩, rfl, rfl, rfl, rfl, fun u hturn => ?_⟩
    obtain ⟨moves, rfl⟩ := eq_withMoves_of_turn_engine hturn
    exact step_of_dispatch hturn rfl
  · intro h
    rwa [writeReg_go_ignored (s := s.withMoves rest) h] at hstep

/-! ## System memory -/

theorem within_iff {a base len : Nat} : within a base len = true ↔ base ≤ a ∧ a < base + len := by
  simp [within]

theorem within_eq_false_iff {a base len : Nat} : within a base len = false ↔ ¬(base ≤ a ∧ a < base + len) := by
  rw [← within_iff, Bool.not_eq_true]

section
variable {addr : Word} {b : Byte} {rest : List HostMove} (hdev : s.onDevice addr.toNat 1 = false)
include hdev

theorem step_memWrite_refused (hm : s.host.moves = .memWrite addr b :: rest) (hrun : s.runningOnMemory = true)
    (h : (within addr.toNat s.srcLo s.latched.srcLen.toNat || within addr.toNat s.dstLo s.latched.dstCap.toNat)
      = true) : step s = .refused .hostWroteBusyRange := by
  have hdev' : (s.withMoves rest).onDevice addr.toNat 1 = false := hdev
  have hrun' : (s.withMoves rest).runningOnMemory = true := hrun
  simp only [step, turn, hm, hostMove, hdev', hrun', Bool.true_and, State.withMoves_srcLo, State.withMoves_dstLo,
    State.withMoves_latched, h]
  rfl

theorem step_memWrite (hm : s.host.moves = .memWrite addr b :: rest)
    (h : (s.runningOnMemory && (within addr.toNat s.srcLo s.latched.srcLen.toNat
      || within addr.toNat s.dstLo s.latched.dstCap.toNat)) = false) :
    step s = .next ((s.withMoves rest).hostWrite addr.toNat b) := by
  have hdev' : (s.withMoves rest).onDevice addr.toNat 1 = false := hdev
  have hrun : (s.withMoves rest).runningOnMemory = s.runningOnMemory := rfl
  simp only [step, turn, hm, hostMove, hdev', hrun, State.withMoves_srcLo, State.withMoves_dstLo,
    State.withMoves_latched, h]
  rfl

theorem step_memRead (hm : s.host.moves = .memRead addr :: rest) (h : s.readsAnyValue addr.toNat = false) :
    step s = .next ((s.withMoves rest).observe ((s.byteAt addr.toNat).setWidth 64)) := by
  have hdev' : (s.withMoves rest).onDevice addr.toNat 1 = false := hdev
  have h' : (s.withMoves rest).readsAnyValue addr.toNat = false := h
  simp only [step, turn, hm, hostMove, hdev', State.hostRead, h']
  rfl

end

/-- A host write is refused only for a device byte, or a byte of a running command's ranges. -/
theorem memWrite_next {addr : Word} {b : Byte} {rest : List HostMove} {t : State}
    (hm : s.host.moves = .memWrite addr b :: rest) (h : step s = .next t) :
    t = (s.withMoves rest).hostWrite addr.toNat b := by
  simp only [step, turn, hm, hostMove] at h
  split at h
  · cases h
  · split at h
    · cases h
    · cases h; rfl

theorem byteAt_hostWrite (a : Nat) (b : Byte) (x : Nat) :
    (s.hostWrite a b).byteAt x = if x = a then b else s.byteAt x :=
  Sparse.get_set _ _ _ _

/-- Settles O33: the move by the ranges it names, and the write by the law of sparse maps. -/
theorem hostMemoryAccess : Obligations.HostMemoryAccess := by
  unfold Obligations.HostMemoryAccess
  intro s addr b rest hdev
  have hranges : (within addr.toNat s.srcLo s.latched.srcLen.toNat
      || within addr.toNat s.dstLo s.latched.dstCap.toNat) = true ↔
      (s.srcLo ≤ addr.toNat ∧ addr.toNat < s.srcHi) ∨ (s.dstLo ≤ addr.toNat ∧ addr.toNat < s.dstHi) := by
    rw [Bool.or_eq_true, within_iff, within_iff]
    rfl
  refine ⟨fun hm hrun hin => ?_, fun hm hout => ?_, fun hm hread => step_memRead hdev hm hread⟩
  · exact step_memWrite_refused hdev hm hrun (hranges.mpr hin)
  · refine ⟨_, step_memWrite hdev hm ?_, ?_, fun x hx => ?_, rfl, rfl, rfl, ⟨rfl, rfl, rfl, rfl, rfl, rfl, rfl⟩⟩
    · rw [← not_or, ← hranges, Bool.not_eq_true] at hout
      rcases hout with hrun | hfree
      · rw [hrun, Bool.false_and]
      · rw [hfree, Bool.and_false]
    · rw [byteAt_hostWrite, if_pos rfl]
    · rw [byteAt_hostWrite, if_neg (by omega)]
      rfl

/-! ## The host's duties -/

theorem sourceByte_of_mem {a : Nat} (h : a ∈ s.unseen) : s.sourceByte a = Config.freeByte s.launchDraw a := by
  simp [State.sourceByte, h]

theorem usesMemory_eq_isMemoryCommand (c : BitVec 7) : usesMemory c = (decodeCtrl c).isMemoryCommand := by
  have hop : ctrlOp c < 16 := Nat.mod_lt _ (by decide)
  change (decide (1 ≤ ctrlOp c) && decide (ctrlOp c ≤ 6)) = (decodeCtrl c).isMemoryCommand
  unfold decodeCtrl
  interval_cases ctrlOp c <;> rfl

/-- A list of ranges covers the address `x`. -/
theorem any_within_iff {l : List (Nat × Nat)} {x : Nat} :
    l.any (fun r => within x r.1 r.2) = true ↔ ∃ r ∈ l, r.1 ≤ x ∧ x < r.1 + r.2 := by
  simp [List.any_eq_true, within_iff]

theorem runningStale_covers (s : State) (x : Nat) :
    s.runningStale.any (fun r => within x r.1 r.2) = true ↔
      s.runningOnMemory = true ∧ s.platform.dmaCoherent = false ∧ s.dstLo ≤ x ∧ x < s.dstHi := by
  unfold State.runningStale
  split
  · next h =>
    obtain ⟨hrun, hdma⟩ : s.runningOnMemory = true ∧ s.platform.dmaCoherent = false := by simpa using h
    simp [hrun, hdma, within_iff, State.dstHi, State.dstLo]
  · next h =>
    have h' : s.runningOnMemory = true → s.platform.dmaCoherent = true := by simpa using h
    simp only [List.any_nil, Bool.false_eq_true, false_iff]
    rintro ⟨hrun, hdma, -⟩
    rw [h' hrun] at hdma
    cases hdma

/-- What an accepted GO makes stale: the destination of a memory command where DMA is not coherent (R53). -/
theorem accept_stale (s : State) (x : Nat) :
    (∃ r ∈ s.accept.host.stale, r.1 ≤ x ∧ x < r.1 + r.2) ↔
      (∃ r ∈ s.host.stale, r.1 ≤ x ∧ x < r.1 + r.2)
        ∨ (s.platform.dmaCoherent = false ∧ (decodeCtrl s.regs.ctrl).isMemoryCommand = true
            ∧ s.regs.dstAddr.toNat ≤ x ∧ x < s.regs.dstAddr.toNat + s.regs.dstCap.toNat) := by
  rw [← usesMemory_eq_isMemoryCommand]
  show (∃ r ∈ (if s.platform.dmaCoherent || !(usesMemory s.regs.ctrl) then s.host.stale
    else (s.regs.dstAddr.toNat, s.regs.dstCap.toNat) :: s.host.stale), _) ↔ _
  cases s.platform.dmaCoherent with
  | true => simp
  | false =>
    cases usesMemory s.regs.ctrl with
    | false => simp
    | true => simp [or_comm]

theorem readsAnyValue_iff (s : State) (x : Nat) :
    s.readsAnyValue x = true ↔
      (s.runningOnMemory = true ∧ s.dstLo ≤ x ∧ x < s.dstHi) ∨ (∃ r ∈ s.host.stale, r.1 ≤ x ∧ x < r.1 + r.2) := by
  unfold State.readsAnyValue
  rw [Bool.or_eq_true, Bool.and_eq_true, within_iff, any_within_iff]
  rfl

/-- What is stale after a discard, as a set of addresses (R53). -/
theorem hostDiscard_stale_iff (s : State) (base len x : Nat) :
    (∃ r ∈ (s.hostDiscard base len).host.stale, r.1 ≤ x ∧ x < r.1 + r.2) ↔
      (s.runningOnMemory = true ∧ s.platform.dmaCoherent = false ∧ s.dstLo ≤ x ∧ x < s.dstHi)
        ∨ (∃ r ∈ s.host.stale, r.1 ≤ x ∧ x < r.1 + r.2) ∧ ¬(base ≤ x ∧ x < base + len) := by
  rw [← any_within_iff, State.hostDiscard_stale, Bool.or_eq_true, runningStale_covers, Bool.and_eq_true,
    any_within_iff, Bool.not_eq_true', within_eq_false_iff]

theorem mem_hostClean_uncleaned (s : State) (base len x : Nat) :
    x ∈ (s.hostClean base len).host.uncleaned ↔ x ∈ s.host.uncleaned ∧ ¬(base ≤ x ∧ x < base + len) := by
  show x ∈ s.host.uncleaned.filter _ ↔ _
  rw [List.mem_filter, Bool.not_eq_true', within_eq_false_iff]

theorem mem_hostWrite_uncleaned (s : State) (a : Nat) (b : Byte) (x : Nat) :
    x ∈ (s.hostWrite a b).host.uncleaned ↔ (x = a ∧ s.platform.dmaCoherent = false) ∨ x ∈ s.host.uncleaned := by
  show x ∈ (if s.platform.dmaCoherent then s.host.uncleaned else a :: s.host.uncleaned) ↔ _
  cases s.platform.dmaCoherent <;> simp

/-- Settles O34: the source byte by byte, then each move that counts for the duties, as a set of addresses. -/
theorem hostDuties : Obligations.HostDuties := by
  unfold Obligations.HostDuties
  refine ⟨?source, ?go, ?write, ?order, ?clean, ?discard⟩
  case source =>
    exact fun s a n => ⟨s.length_source a n, fun k hk => s.getD_source a n k hk, State.sourceByte_seen,
      sourceByte_of_mem⟩
  case go =>
    intro s v a hidle hv
    rw [writeReg_go_of_idle hidle hv]
    exact ⟨List.mem_append, accept_stale s a⟩
  case write =>
    intro s addr b rest t hm h
    cases memWrite_next hm h
    exact ⟨rfl, rfl, fun x => List.mem_cons, fun x => mem_hostWrite_uncleaned (s.withMoves rest) _ b x⟩
  case order =>
    intro s rest hm
    simp only [step, turn, hm, hostMove]
    rfl
  case clean =>
    intro s base len rest hm
    refine ⟨(s.withMoves rest).hostClean base len, ?_, rfl, mem_hostClean_uncleaned (s.withMoves rest) base len⟩
    simp only [step, turn, hm, hostMove]
  case discard =>
    intro s base len rest hm
    refine ⟨(s.withMoves rest).hostDiscard base len, ?_, rfl, fun x =>
      ⟨hostDiscard_stale_iff (s.withMoves rest) base len x, readsAnyValue_iff _ x⟩⟩
    simp only [step, turn, hm, hostMove]

end

/-! ## Starts and the terminator -/

theorem rangesFit_iff (s : State) : s.rangesFit = true ↔ s.srcHi ≤ addrSpace ∧ s.dstHi ≤ addrSpace := by
  simp [State.rangesFit]

theorem launchable_iff (s : State) :
    s.launchable = true ↔ s.rangesFit = true ∧ s.rangesOverlap = false ∧ s.launchOnDevice = false := by
  simp [State.launchable, and_assoc]

/-- The whole source may be read unless an access of it gets a bus error (R42). -/
theorem checkSource_whole {s : State} (hfit : s.rangesFit = true)
    (hquiet : s.busFaultIn .read s.srcLo s.latched.srcLen.toNat = false) :
    s.checkSource true s.srcLo s.latched.srcLen.toNat = .granted :=
  (checkSource_granted_iff s true _ _).mpr
    ⟨((rangesFit_iff s).mp hfit).1, Nat.le_refl _, Nat.le_refl _, by rw [hquiet]; rfl⟩

theorem execDecompress_of_launchable {s : State} (hs : s.launchable = true) :
    execDecompress s = .next
      (s.startTokens .decompress s.srcLo s.latched.srcLen.toNat s.dstLo s.latched.dstCap.toNat) := by
  rw [execDecompress, launch_granted rfl hs]

/-- DECODE and DECODE_BLOCK start alike, each under its owner (R121, R122). -/
theorem decodeLaunch_of_launchable {s : State} (owner : BfcOwner) (hs : s.launchable = true)
    (hquiet : s.busFaultIn .read s.srcLo s.latched.srcLen.toNat = false) :
    (launch true s fun _ => decodeOperation owner s) = .next (s.startBlocks owner) := by
  rw [launch_granted rfl hs, decodeOperation, checkSource_whole ((launchable_iff s).mp hs).1 hquiet,
    guardAccess_granted]

/-- Settles O15: the checks pass, and the start is what is left. -/
theorem decodersLaunch : Obligations.DecodersLaunch := by
  unfold Obligations.DecodersLaunch
  intro m w q s hs
  exact ⟨execDecompress_of_launchable hs, fun hquiet =>
    ⟨decodeLaunch_of_launchable .decode hs hquiet, decodeLaunch_of_launchable .decodeBlock hs hquiet⟩⟩

/-- Settles O22: one completion for each owner of the framing controller. -/
theorem termResult : Obligations.TermResult := by
  unfold Obligations.TermResult
  intro s
  cases howner : s.bfc.owner with
  | decode =>
    refine ⟨(s.withFramer .decode (s.bfc.ipos + 1) s.bfc.opos).complete s.bfc.opos (s.bfc.ipos + 1) 1#2, ?_,
      fun _ => rfl, ⟨rfl, rfl, rfl, rfl, rfl, rfl⟩, ⟨rfl, rfl, rfl⟩, rfl, rfl,
      fun _ => ⟨completedAs_complete _ _ _ _, rfl⟩, nofun⟩
    simp only [exec, execTerm, howner]
  | decodeBlock =>
    refine ⟨(s.withFramer .decodeBlock 1 0).complete 0 1 1#2, ?_,
      fun _ => rfl, ⟨rfl, rfl, rfl, rfl, rfl, rfl⟩, ⟨rfl, rfl, rfl⟩, rfl, rfl, nofun,
      fun _ => ⟨completedAs_complete _ _ _ _, rfl⟩⟩
    simp only [exec, execTerm, howner]

/-- Settles O38: after reset the engine is IDLE, every flag is 0 and memory lists no byte. -/
theorem resetMeetsInvariants : Obligations.ResetMeetsInvariants := by
  unfold Obligations.ResetMeetsInvariants
  exact ⟨rfl, rfl, rfl⟩

end Sys2Proof.Machine
end

section
/-!
PROOF. The match finder (spec/40_match_finder.md): match lengths (R77), the matches either mode decides (R88), the
chains of Best mode and the search over them (R81 to R86), and the insertions after a match (R79, R85).
-/
namespace Sys2Proof.Machine

/-! ## Match lengths -/

theorem agreeing_le (m : Nat) (as bs : List Byte) : agreeing m as bs ≤ m := by
  induction m generalizing as bs with
  | zero => exact Nat.le_refl 0
  | succ m ih =>
    match as, bs with
    | [], _ | _ :: _, [] => exact Nat.zero_le _
    | a :: as, b :: bs =>
      rw [agreeing]
      split
      · exact Nat.succ_le_succ (ih as bs)
      · exact Nat.zero_le _

theorem getD_eq_of_lt_agreeing {m k : Nat} {as bs : List Byte} (h : k < agreeing m as bs) :
    as.getD k 0#8 = bs.getD k 0#8 := by
  induction m generalizing as bs k with
  | zero => exact absurd h (Nat.not_lt_zero k)
  | succ m ih =>
    match as, bs with
    | [], _ | _ :: _, [] => exact absurd h (Nat.not_lt_zero k)
    | a :: as, b :: bs =>
      rw [agreeing] at h
      split at h
      · next hab =>
        cases k with
        | zero => exact hab
        | succ k => exact ih (as := as) (bs := bs) (Nat.lt_of_succ_lt_succ h)
      · exact absurd h (Nat.not_lt_zero k)

theorem le_agreeing {m l : Nat} {as bs : List Byte} (hm : l ≤ m) (ha : l ≤ as.length) (hb : l ≤ bs.length)
    (h : ∀ k : Nat, k < l → as.getD k 0#8 = bs.getD k 0#8) : l ≤ agreeing m as bs := by
  induction l generalizing m as bs with
  | zero => exact Nat.zero_le _
  | succ l ih =>
    match m, as, bs, hm, ha, hb with
    | m + 1, a :: as, b :: bs, hm, ha, hb =>
      have hhead : a = b := h 0 (Nat.succ_pos l)
      rw [agreeing, if_pos hhead]
      exact Nat.succ_le_succ (ih (Nat.le_of_succ_le_succ hm) (Nat.le_of_succ_le_succ ha) (Nat.le_of_succ_le_succ hb)
        fun k hk => h (k + 1) (Nat.succ_lt_succ hk))

section
variable {d : List Byte} {c p : Nat}

theorem getD_drop (d : List Byte) (i k : Nat) : (d.drop i).getD k 0#8 = d.getD (i + k) 0#8 := by
  simp [List.getD_eq_getElem?_getD]

theorem mlen_le (d : List Byte) (c p : Nat) : mlen d c p ≤ min 264 (d.length - p) := agreeing_le _ _ _

/-- The bytes of a match agree (R77). -/
theorem getD_eq_of_lt_mlen {k : Nat} (h : k < mlen d c p) : d.getD (c + k) 0#8 = d.getD (p + k) 0#8 := by
  rw [← getD_drop, ← getD_drop]
  exact getD_eq_of_lt_agreeing h

theorem le_mlen {l : Nat} (hc : c + l ≤ d.length) (hl : l ≤ min 264 (d.length - p))
    (h : ∀ k : Nat, k < l → d.getD (c + k) 0#8 = d.getD (p + k) 0#8) : l ≤ mlen d c p := by
  refine le_agreeing hl ?_ ?_ fun k hk => ?_
  · rw [List.length_drop]; omega
  · rw [List.length_drop]; omega
  · rw [getD_drop, getD_drop]
    exact h k hk

/-- Positions with the same three bytes agree byte by byte. -/
theorem getD_eq_of_trigram (h : (d.drop c).take 3 = (d.drop p).take 3) {k : Nat} (hk : k < 3) :
    d.getD (c + k) 0#8 = d.getD (p + k) 0#8 := by
  have hget : ∀ i : Nat, ((d.drop i).take 3).getD k 0#8 = d.getD (i + k) 0#8 := fun i => by
    simp [List.getD_eq_getElem?_getD, hk]
  rw [← hget c, ← hget p, h]

theorem trigram_inside (hp : p + 3 ≤ d.length) (h : (d.drop c).take 3 = (d.drop p).take 3) : c + 3 ≤ d.length := by
  have hlen := congrArg List.length h
  simp only [List.length_take, List.length_drop] at hlen
  omega

/-- A candidate with the same three bytes makes a match of at least three (R82). -/
theorem three_le_mlen (hp : p + 3 ≤ d.length) (h : (d.drop c).take 3 = (d.drop p).take 3) : 3 ≤ mlen d c p :=
  le_mlen (trigram_inside hp h) (by omega) fun _ hk => getD_eq_of_trigram h hk

theorem hashAt_eq_of_trigram (hf : Hash3) (h : (d.drop c).take 3 = (d.drop p).take 3) :
    hashAt hf d c = hashAt hf d p := by
  have h0 : d.getD c 0#8 = d.getD p 0#8 := getD_eq_of_trigram h (k := 0) (by decide)
  have h1 : d.getD (c + 1) 0#8 = d.getD (p + 1) 0#8 := getD_eq_of_trigram h (by decide)
  have h2 : d.getD (c + 2) 0#8 = d.getD (p + 2) 0#8 := getD_eq_of_trigram h (by decide)
  simp only [hashAt, inputAt, h0, h1, h2]

end

/-! ## Decided matches -/

/-- What the walk ends with is what it started with, or the match with a candidate it met: within the window, with the
same three bytes (R82). -/
theorem walk_of_candidates {P : BestSoFar → Prop} {d : List Byte} {prev : List (Nat × BitVec 16)} {p : Nat}
    (k : Nat) {c : Nat} {best : BestSoFar} (hbest : P best)
    (hcand : ∀ c' : Nat, c' ≤ c → p - c' ≤ 8192 → (d.drop c').take 3 = (d.drop p).take 3 →
      P ⟨mlen d c' p, p - c' - 1⟩) : P (walk d prev p k c best) := by
  induction k generalizing c best with
  | zero => exact hbest
  | succ k ih =>
    rw [walk]
    split
    · next hwindow =>
      have himprove : P (improve d p c best) := by
        unfold improve
        split
        · next h => exact hcand c (Nat.le_refl c) hwindow (sameTrigram_iff.mp h.1)
        · exact hbest
      split
      · exact himprove
      · split
        · exact himprove
        · exact ih himprove fun c' hc' => hcand c' (Nat.le_trans hc' (Nat.sub_le _ _))
    · exact hbest

/-- Either mode decides a match with a candidate that a table entry names or that lies before it: within the window,
with the same three bytes (R78, R82). -/
theorem decideAt_matched {hf : Hash3} {mode : Mode} {d : List Byte} {m m' : MatchFinder} {off len : Nat}
    (h : decideAt hf mode d m = (m', .matched off len)) :
    ∃ c j : Nat, (c < (Sparse.get m.ht j).toNat ∨ c < (Sparse.get m.head j).toNat) ∧ m.p - c ≤ 8192
      ∧ (d.drop c).take 3 = (d.drop m.p).take 3 ∧ off = m.p - c - 1 ∧ len = mlen d c m.p := by
  cases mode with
  | normal =>
    have hjudge := congrArg Prod.snd h
    simp only [decideAt, decideNormal, judgeNormal] at hjudge
    split at hjudge
    · next hc =>
      obtain ⟨he, hoff, hbytes⟩ := hc
      have hoff' : m.p - ((Sparse.get m.ht (hashAt hf d m.p)).toNat - 1) - 1 ≤ 8191 := hoff
      cases hjudge
      exact ⟨_, hashAt hf d m.p, .inl (by omega), by omega, sameTrigram_iff.mp hbytes, rfl, rfl⟩
    · cases hjudge
  | best =>
    have hjudge := congrArg Prod.snd h
    simp only [decideAt, decideBest, judgeBest] at hjudge
    split at hjudge
    · next hmin =>
      cases hjudge
      unfold searchBest at hmin ⊢
      split at hmin
      · exact absurd hmin (by decide)
      · next he =>
        rw [if_neg he]
        have hwalk := walk_of_candidates (d := d) (prev := m.prev) (p := m.p) (Config.window + 1)
          (c := (Sparse.get m.head (hashAt hf d m.p)).toNat - 1) (best := ⟨0, 0⟩)
          (P := fun b => b = ⟨0, 0⟩ ∨ ∃ c : Nat, c < (Sparse.get m.head (hashAt hf d m.p)).toNat ∧ m.p - c ≤ 8192
            ∧ (d.drop c).take 3 = (d.drop m.p).take 3 ∧ b = ⟨mlen d c m.p, m.p - c - 1⟩)
          (.inl rfl) fun c hc hwindow hbytes => .inr ⟨c, by omega, hwindow, hbytes, rfl⟩
        rcases hwalk with hzero | ⟨c, hc, hwindow, hbytes, hb⟩
        · rw [hzero] at hmin
          exact absurd hmin (by decide)
        · exact ⟨c, _, .inr hc, hwindow, hbytes, by rw [hb], by rw [hb]⟩
    · cases hjudge

theorem three_le_of_decideAt {hf : Hash3} {mode : Mode} {d : List Byte} {m m' : MatchFinder} {off len : Nat}
    (hp : m.p + 3 ≤ d.length) (h : decideAt hf mode d m = (m', .matched off len)) : 3 ≤ len := by
  obtain ⟨c, -, -, -, hbytes, -, rfl⟩ := decideAt_matched h
  exact three_le_mlen hp hbytes

/-- Settles O45: the match length by its recursion, a decided match by the candidate it is made with. -/
theorem decidedMatchesAgree : Obligations.DecidedMatchesAgree := by
  unfold Obligations.DecidedMatchesAgree
  constructor
  · intro d c p hcp hp
    exact ⟨mlen_le d c p, fun k hk => getD_eq_of_lt_mlen hk, fun l hl h => le_mlen (by omega) hl h⟩
  · intro hf mode d m m' off len hp hht hhead h
    have hmin := three_le_of_decideAt hp h
    obtain ⟨c, j, hentry, hwindow, -, rfl, rfl⟩ := decideAt_matched h
    have hle := mlen_le d c m.p
    have hcp : c < m.p := hentry.elim (fun hc => hc.trans_le (hht j)) fun hc => hc.trans_le (hhead j)
    refine ⟨by omega, hmin, by omega, by omega, by omega, fun k hk => ?_⟩
    rw [show m.p - (m.p - c - 1) - 1 = c by omega]
    exact getD_eq_of_lt_mlen hk

/-! ## The newest inserted position of a hash -/

theorem le_foldl_max {l : List Nat} {a b : Nat} (h : a ≤ b ∨ a ∈ l) : a ≤ l.foldl max b := by
  induction l generalizing b with
  | nil => exact h.resolve_right nofun
  | cons x l ih =>
    rw [List.foldl_cons]
    rcases h with h | h
    · exact ih (.inl (h.trans (Nat.le_max_left b x)))
    · rcases List.mem_cons.mp h with rfl | h
      · exact ih (.inl (Nat.le_max_right b a))
      · exact ih (.inr h)

theorem foldl_max_mem (l : List Nat) (b : Nat) : l.foldl max b = b ∨ l.foldl max b ∈ l := by
  induction l generalizing b with
  | nil => exact .inl rfl
  | cons x l ih =>
    rw [List.foldl_cons]
    rcases ih (max b x) with h | h
    · rw [h]
      rcases Nat.le_total b x with hx | hx
      · exact .inr (by simp [Nat.max_eq_right hx])
      · exact .inl (Nat.max_eq_left hx)
    · exact .inr (List.mem_cons_of_mem x h)

section
variable {hf : Hash3} {d : List Byte} {ins : List Nat} {b h : Nat}

theorem le_newestBelow {q : Nat} (hq : q ∈ ins) (hb : q < b) (hh : hashAt hf d q = h) :
    q + 1 ≤ newestBelow hf d ins b h :=
  le_foldl_max (.inr (List.mem_map_of_mem (List.mem_filter.mpr ⟨hq, by simp [hb, hh]⟩)))

theorem newestBelow_cases (hf : Hash3) (d : List Byte) (ins : List Nat) (b h : Nat) :
    newestBelow hf d ins b h = 0
      ∨ ∃ q ∈ ins, q < b ∧ hashAt hf d q = h ∧ newestBelow hf d ins b h = q + 1 := by
  rcases foldl_max_mem ((ins.filter fun q => q < b && hashAt hf d q == h).map fun q => q + 1) 0 with hz | hmem
  · exact .inl hz
  · obtain ⟨q, hq, heq⟩ := List.mem_map.mp hmem
    obtain ⟨hins, hcond⟩ := List.mem_filter.mp hq
    obtain ⟨hb, hh⟩ : q < b ∧ hashAt hf d q = h := by simpa using hcond
    exact .inr ⟨q, hins, hb, hh, heq.symm⟩

/-- The newest position is the one bound that is attained. -/
theorem newestBelow_eq {n : Nat} (hbound : ∀ q ∈ ins, q < b → hashAt hf d q = h → q + 1 ≤ n)
    (hattained : n = 0 ∨ ∃ q ∈ ins, q < b ∧ hashAt hf d q = h ∧ n = q + 1) : newestBelow hf d ins b h = n := by
  refine Nat.le_antisymm ?_ ?_
  · rcases newestBelow_cases hf d ins b h with hz | ⟨q, hq, hb, hh, heq⟩
    · rw [hz]; exact Nat.zero_le n
    · rw [heq]; exact hbound q hq hb hh
  · rcases hattained with rfl | ⟨q, hq, hb, hh, rfl⟩
    · exact Nat.zero_le _
    · exact le_newestBelow hq hb hh

theorem newestBelow_congr {ins' : List Nat} {b' : Nat} (hmem : ∀ q : Nat, (q ∈ ins ∧ q < b) ↔ (q ∈ ins' ∧ q < b')) :
    newestBelow hf d ins b h = newestBelow hf d ins' b' h := by
  refine newestBelow_eq (fun q hq hb hh => ?_) ?_
  · obtain ⟨hq', hb'⟩ := (hmem q).mp ⟨hq, hb⟩
    exact le_newestBelow hq' hb' hh
  · refine (newestBelow_cases hf d ins' b' h).imp_right ?_
    rintro ⟨q, hq', hb', hh, heq⟩
    obtain ⟨hq, hb⟩ := (hmem q).mpr ⟨hq', hb'⟩
    exact ⟨q, hq, hb, hh, heq⟩

theorem newestBelow_le : newestBelow hf d ins b h ≤ b := by
  rcases newestBelow_cases hf d ins b h with hz | ⟨q, -, hb, -, heq⟩
  · rw [hz]; exact Nat.zero_le b
  · rw [heq]; exact hb

end

/-! ## The chains of Best mode -/

section
variable {hf : Hash3} {d : List Byte} {ins : List Nat} {m : MatchFinder} {p : Nat}

/-- The link of an inserted position in the window: the distance to the newest one before it, cut at the window. -/
theorem linkOf_newestBelow (q : Nat) (h : Nat) :
    linkOf (newestBelow hf d ins q h) q
      = if newestBelow hf d ins q h ≠ 0 ∧ q + 1 - newestBelow hf d ins q h ≤ 8192
          then q + 1 - newestBelow hf d ins q h else 0 := by
  have hle : newestBelow hf d ins q h ≤ q := newestBelow_le
  unfold linkOf Config.window
  by_cases h0 : newestBelow hf d ins q h = 0
  · simp [h0]
  · rw [show q - (newestBelow hf d ins q h - 1) = q + 1 - newestBelow hf d ins q h by omega]

/-- Intact chains, with the links as the insertion wrote them (R81). -/
theorem chainsIntact_iff :
    chainsIntact hf d ins m p ↔ (∀ q ∈ ins, q < p ∧ q + 3 ≤ d.length)
      ∧ (∀ h : Nat, (Sparse.get m.head h).toNat = newestBelow hf d ins p h)
      ∧ ∀ q ∈ ins, p - q ≤ 8192 →
          (Sparse.get m.prev (q % 8192)).toNat = linkOf (newestBelow hf d ins q (hashAt hf d q)) q := by
  simp only [linkOf_newestBelow]
  rfl

theorem chainsIntact_fresh (hf : Hash3) (d : List Byte) (m : MatchFinder) :
    chainsIntact hf d [] (freshFinder .best m) 0 :=
  ⟨nofun, fun _ => rfl, nofun⟩

/-- Intact chains speak of the inserted positions as a set. -/
theorem chainsIntact_congr {ins' : List Nat} (hmem : ∀ q : Nat, q ∈ ins' ↔ q ∈ ins)
    (hc : chainsIntact hf d ins m p) : chainsIntact hf d ins' m p := by
  obtain ⟨hins, hhead, hprev⟩ := chainsIntact_iff.mp hc
  have hnew : ∀ b h : Nat, newestBelow hf d ins' b h = newestBelow hf d ins b h := fun b h =>
    newestBelow_congr fun q => and_congr_left fun _ => hmem q
  refine chainsIntact_iff.mpr ⟨fun q hq => hins q ((hmem q).mp hq), fun h => ?_, fun q hq hwindow => ?_⟩
  · rw [hnew]; exact hhead h
  · rw [hnew]; exact hprev q ((hmem q).mp hq) hwindow

/-- Passing over positions leaves the chains intact (R90). -/
theorem chainsIntact_mono {p' : Nat} (hc : chainsIntact hf d ins m p) (hp : p ≤ p') :
    chainsIntact hf d ins m p' := by
  obtain ⟨hins, hhead, hprev⟩ := chainsIntact_iff.mp hc
  refine chainsIntact_iff.mpr ⟨fun q hq => ⟨(hins q hq).1.trans_le hp, (hins q hq).2⟩, fun h => ?_,
    fun q hq hwindow => hprev q hq (by omega)⟩
  rw [hhead]
  exact newestBelow_congr fun q => ⟨fun ⟨hq, hb⟩ => ⟨hq, hb.trans_le hp⟩, fun ⟨hq, _⟩ => ⟨hq, (hins q hq).1⟩⟩

/-- The insertion of the next position, in the tables as sets of entries (R81). -/
theorem chainsIntact_insert_searchable (hc : chainsIntact hf d ins m p) (hp : p + 3 ≤ d.length)
    (hwidth : p + 1 < 2 ^ 32) : chainsIntact hf d (p :: ins) (insertBest hf d m p) (p + 1) := by
  obtain ⟨hins, hhead, hprev⟩ := chainsIntact_iff.mp hc
  have hbelow : ∀ q : Nat, q ≤ p → ∀ h : Nat, newestBelow hf d (p :: ins) q h = newestBelow hf d ins q h :=
    fun q hq h => newestBelow_congr fun r => by
      rw [List.mem_cons]
      exact ⟨fun ⟨hr, hlt⟩ => ⟨hr.resolve_left (by omega), hlt⟩, fun ⟨hr, hlt⟩ => ⟨.inr hr, hlt⟩⟩
  rw [insertBest_of_searchable hf m hp]
  refine chainsIntact_iff.mpr ⟨fun q hq => ?_, fun h => ?_, fun q hq hwindow => ?_⟩
  · rcases List.mem_cons.mp hq with rfl | hq
    · exact ⟨Nat.lt_succ_self q, hp⟩
    · exact ⟨(hins q hq).1.trans (Nat.lt_succ_self p), (hins q hq).2⟩
  · by_cases hh : h = hashAt hf d p
    · subst hh
      rw [Sparse.get_set_ofNat_toNat _ _ hwidth]
      refine (newestBelow_eq (fun q _ hq _ => hq) (.inr ⟨p, List.mem_cons_self, Nat.lt_succ_self p, rfl, rfl⟩)).symm
    · rw [Sparse.get_set_other _ _ hh, hhead]
      refine (newestBelow_eq (fun q hq _ hqh => ?_) ?_).symm
      · rcases List.mem_cons.mp hq with rfl | hq
        · exact absurd hqh.symm hh
        · exact le_newestBelow hq (hins q hq).1 hqh
      · refine (newestBelow_cases hf d ins p h).imp_right ?_
        rintro ⟨q, hq, hqp, hqh, heq⟩
        exact ⟨q, List.mem_cons_of_mem p hq, hqp.trans (Nat.lt_succ_self p), hqh, heq⟩
  · rcases List.mem_cons.mp hq with rfl | hq
    · rw [Sparse.get_set_ofNat_toNat _ _ (linkOf_lt _ q), hbelow q (Nat.le_refl q), hhead]
    · have hqp := (hins q hq).1
      rw [Sparse.get_set_other _ _ (by omega), hbelow q (Nat.le_of_lt hqp)]
      exact hprev q hq (by omega)

theorem chainsIntact_insert (hc : chainsIntact hf d ins m p) (hwidth : p + 1 < 2 ^ 32) :
    chainsIntact hf d (if p + 3 ≤ d.length then p :: ins else ins) (insertBest hf d m p) (p + 1) := by
  split
  · next hp => exact chainsIntact_insert_searchable hc hp hwidth
  · next hp =>
    rw [insertBest_of_not_searchable hf m (Nat.lt_of_not_le hp)]
    exact chainsIntact_mono hc (Nat.le_succ p)

/-! ## The search over the chains -/

/-- `best` is the verdict of R86 on the candidates from position `lo` on. -/
def bestFrom (d : List Byte) (ins : List Nat) (p lo : Nat) (best : BestSoFar) : Prop :=
  (∀ c : Nat, bestCandidate d ins p c → lo ≤ c → mlen d c p ≤ best.len)
    ∧ (best = ⟨0, 0⟩ ∨ ∃ c : Nat, bestCandidate d ins p c ∧ lo ≤ c ∧ best = ⟨mlen d c p, p - c - 1⟩
        ∧ ∀ c' : Nat, bestCandidate d ins p c' → lo ≤ c' → mlen d c' p = mlen d c p → c' ≤ c)

/-- Positions without a candidate among them may be added to those searched. -/
theorem bestFrom_extend {lo lo' : Nat} {best : BestSoFar} (hb : bestFrom d ins p lo best) (hlo : lo' ≤ lo)
    (hnone : ∀ c : Nat, lo' ≤ c → c < lo → ¬bestCandidate d ins p c) : bestFrom d ins p lo' best := by
  have hin : ∀ c : Nat, bestCandidate d ins p c → lo' ≤ c → lo ≤ c := fun c hc hc' =>
    Nat.le_of_not_lt fun hlt => hnone c hc' hlt hc
  refine ⟨fun c hc hc' => hb.1 c hc (hin c hc hc'), hb.2.imp_right ?_⟩
  rintro ⟨c, hc, hge, heq, htie⟩
  exact ⟨c, hc, hlo.trans hge, heq, fun c' hc' hge' => htie c' hc' (hin c' hc' hge')⟩

/-- One more candidate is taken only if it is strictly longer (R82, R83; C1). -/
theorem bestFrom_improve {c : Nat} {best : BestSoFar} (hins : c ∈ ins) (hwindow : p - c ≤ 8192)
    (hb : bestFrom d ins p (c + 1) best) : bestFrom d ins p c (improve d p c best) := by
  unfold improve
  split
  · next h =>
    obtain ⟨hbytes, hlonger⟩ := h
    have hcand : bestCandidate d ins p c := ⟨hins, hwindow, sameTrigram_iff.mp hbytes⟩
    refine ⟨fun c' hc' hge => ?_, .inr ⟨c, hcand, Nat.le_refl c, rfl, fun c' hc' hge heq => ?_⟩⟩
    · rcases Nat.eq_or_lt_of_le hge with rfl | hgt
      · exact Nat.le_refl _
      · exact (hb.1 c' hc' hgt).trans (Nat.le_of_lt hlonger)
    · refine Nat.le_of_not_lt fun hgt => ?_
      have hle := hb.1 c' hc' hgt
      omega
  · next h =>
    refine ⟨fun c' hc' hge => ?_, hb.2.imp_right ?_⟩
    · rcases Nat.eq_or_lt_of_le hge with rfl | hgt
      · exact Nat.le_of_not_lt fun hlt => h ⟨sameTrigram_iff.mpr hc'.2.2, hlt⟩
      · exact hb.1 c' hc' hgt
    · rintro ⟨c₀, hc₀, hge₀, heq, htie⟩
      exact ⟨c₀, hc₀, Nat.le_of_succ_le hge₀, heq, fun c' hc' _ hlen =>
        (Nat.lt_or_ge c c').elim (fun hgt => htie c' hc' hgt hlen) fun hle => hle.trans (Nat.le_of_succ_le hge₀)⟩

/-- A match of the greatest possible length ends the search (R84). -/
theorem bestFrom_of_maxlen {lo : Nat} {best : BestSoFar} (hb : bestFrom d ins p lo best)
    (hmax : best.len = maxlen d p) (hpos : 0 < maxlen d p) : bestFrom d ins p 0 best := by
  refine ⟨fun c _ _ => hmax ▸ mlen_le d c p, .inr ?_⟩
  rcases hb.2 with rfl | ⟨c, hc, hge, heq, htie⟩
  · exact absurd hmax (Nat.ne_of_lt hpos)
  · exact ⟨c, hc, Nat.zero_le c, heq, fun c' hc' _ hlen =>
      (Nat.lt_or_ge c' lo).elim (fun hlt => Nat.le_of_lt (hlt.trans_le hge)) fun hle => htie c' hc' hle hlen⟩

/-- Candidates farther than the window are none. -/
theorem bestFrom_of_far {lo : Nat} {best : BestSoFar} (hb : bestFrom d ins p (lo + 1) best) (hfar : 8192 < p - lo) :
    bestFrom d ins p 0 best :=
  bestFrom_extend hb (Nat.zero_le _) fun c _ hc ⟨_, hwindow, _⟩ => by omega

/-- A link of 0 says that no earlier position with the same hash is in the window; any other leads to the newest
one (R81). -/
theorem linkOf_newestBelow_cases (hf : Hash3) (d : List Byte) (ins : List Nat) (c h : Nat) :
    (linkOf (newestBelow hf d ins c h) c = 0 ∧ ∀ q ∈ ins, q < c → hashAt hf d q = h → 8192 < c - q)
      ∨ ∃ q ∈ ins, q < c ∧ hashAt hf d q = h ∧ linkOf (newestBelow hf d ins c h) c = c - q
          ∧ ∀ r ∈ ins, r < c → hashAt hf d r = h → r ≤ q := by
  rcases newestBelow_cases hf d ins c h with hz | ⟨q, hq, hqc, hqh, heq⟩
  · refine .inl ⟨by rw [hz]; rfl, fun q hq hqc hqh => ?_⟩
    have hle := le_newestBelow hq hqc hqh
    omega
  · have hnewest : ∀ r ∈ ins, r < c → hashAt hf d r = h → r ≤ q := fun r hr hrc hrh =>
      Nat.le_of_succ_le_succ ((le_newestBelow hr hrc hrh).trans_eq heq)
    rw [heq, linkOf, Nat.add_sub_cancel]
    split
    · exact .inr ⟨q, hq, hqc, hqh, rfl, hnewest⟩
    · next hfar =>
      refine .inl ⟨rfl, fun r hr hrc hrh => ?_⟩
      have hle := hnewest r hr hrc hrh
      have hfar' : ¬c - q ≤ 8192 := fun hnear => hfar ⟨Nat.succ_ne_zero q, hnear⟩
      omega

/-- The walk meets every candidate of the window, from the newest on, so it ends with the verdict on all of them. -/
theorem walk_bestFrom (hc : chainsIntact hf d ins m p) (hp : p + 3 ≤ d.length) (k : Nat) {c : Nat}
    {best : BestSoFar} (hins : c ∈ ins) (hhash : hashAt hf d c = hashAt hf d p)
    (hb : bestFrom d ins p (c + 1) best) (hfuel : 8194 ≤ p - c + k) :
    bestFrom d ins p 0 (walk d m.prev p k c best) := by
  obtain ⟨hall, -, hprev⟩ := chainsIntact_iff.mp hc
  induction k generalizing c best with
  | zero => exact bestFrom_of_far hb (by omega)
  | succ k ih =>
    have hcp := (hall c hins).1
    rw [walk]
    split
    · next hwindow =>
      have hb' := bestFrom_improve hins hwindow hb
      split
      · next h => exact bestFrom_of_maxlen hb' h.2 (by unfold maxlen Config.maxMatch; omega)
      · rw [show c % Config.window = c % 8192 from rfl, hprev c hins hwindow]
        rcases linkOf_newestBelow_cases hf d ins c (hashAt hf d c)
          with ⟨hzero, hfar⟩ | ⟨q, hq, hqc, hqhash, hlink, hnew⟩
        · rw [if_pos hzero]
          refine bestFrom_extend hb' (Nat.zero_le _) fun c' _ hc' ⟨hins', hwindow', hbytes⟩ => ?_
          have := hfar c' hins' hc' ((hashAt_eq_of_trigram hf hbytes).trans hhash.symm)
          omega
        · rw [hlink, if_neg (by omega), Nat.sub_sub_self (Nat.le_of_lt hqc)]
          refine ih hq (hqhash.trans hhash) (bestFrom_extend hb' hqc fun c' hqc' hc' ⟨hins', _, hbytes⟩ => ?_)
            (by omega)
          exact Nat.not_lt.mpr (hnew c' hins' hc' ((hashAt_eq_of_trigram hf hbytes).trans hhash.symm)) hqc'
    · next hfar => exact bestFrom_of_far hb (Nat.lt_of_not_le hfar)

theorem searchBest_bestFrom (hc : chainsIntact hf d ins m p) (hp : p + 3 ≤ d.length) :
    bestFrom d ins p 0 (searchBest d m.prev p (Sparse.get m.head (hashAt hf d p)).toNat) := by
  obtain ⟨hall, hhead, -⟩ := chainsIntact_iff.mp hc
  have hcand : ∀ c : Nat, bestCandidate d ins p c → c + 1 ≤ newestBelow hf d ins p (hashAt hf d p) :=
    fun c ⟨hins, _, hbytes⟩ => le_newestBelow hins (hall c hins).1 (hashAt_eq_of_trigram hf hbytes)
  rw [hhead, searchBest]
  rcases newestBelow_cases hf d ins p (hashAt hf d p) with hz | ⟨q, hq, hqp, hqhash, heq⟩
  · rw [if_pos hz]
    exact ⟨fun c hcc _ => absurd (hcand c hcc) (by omega), .inl rfl⟩
  · rw [heq] at hcand ⊢
    rw [if_neg (Nat.succ_ne_zero q), Nat.add_sub_cancel]
    refine walk_bestFrom hc hp _ hq hqhash ⟨fun c hcc hge => ?_, .inl rfl⟩ ?_
    · exact absurd (hcand c hcc) (by omega)
    · show 8194 ≤ p - q + 8193
      omega

/-- A match of at least three bytes is decided exactly if there is a candidate, which makes one (R82, R86). -/
theorem judgeBest_verdict {best : BestSoFar} (hp : p + 3 ≤ d.length) (hb : bestFrom d ins p 0 best) :
    bestVerdict d ins p (judgeBest best) := by
  obtain ⟨hmax, hbest⟩ := hb
  unfold judgeBest
  split
  · next hmin =>
    rcases hbest with rfl | ⟨c, hc, -, rfl, htie⟩
    · exact absurd hmin (by decide)
    · refine ⟨c, hc, rfl, rfl, fun c' hc' => ?_⟩
      rcases Nat.lt_or_eq_of_le (hmax c' hc' (Nat.zero_le c')) with hlt | heq
      · exact .inl hlt
      · exact .inr ⟨heq, htie c' hc' (Nat.zero_le c') heq⟩
  · next hmin =>
    intro c hc
    exact hmin ((three_le_mlen hp hc.2.2).trans (hmax c hc (Nat.zero_le c)))

/-- Settles O46: the chains are intact at the start and after each insertion, and the walk over intact chains ends with
the verdict on every candidate. -/
theorem bestTakesClosestLongest : Obligations.BestTakesClosestLongest := by
  unfold Obligations.BestTakesClosestLongest
  refine fun hf d => ⟨chainsIntact_fresh hf d, fun _ _ _ => chainsIntact_insert, fun _ _ _ _ => chainsIntact_mono, ?_⟩
  intro ins m m' v hc hp hdecide
  obtain ⟨rfl, rfl⟩ := Prod.mk.inj hdecide
  exact ⟨rfl, judgeBest_verdict hp (searchBest_bestFrom hc hp)⟩

end

/-! ## The insertions after a match -/

section
variable {hf : Hash3} {d : List Byte} {m : MatchFinder}

@[simp] theorem insertAt_p (hf : Hash3) (mode : Mode) (d : List Byte) (m : MatchFinder) (q : Nat) :
    (insertAt hf mode d m q).p = m.p := by
  cases mode with
  | normal => simp only [insertAt, insertNormal]; split <;> rfl
  | best => simp only [insertAt, insertBest]; split <;> rfl

@[simp] theorem insertAt_ls (hf : Hash3) (mode : Mode) (d : List Byte) (m : MatchFinder) (q : Nat) :
    (insertAt hf mode d m q).ls = m.ls := by
  cases mode with
  | normal => simp only [insertAt, insertNormal]; split <;> rfl
  | best => simp only [insertAt, insertBest]; split <;> rfl

/-- What every insertion keeps, a span of them keeps. -/
theorem insertSpan_keeps {mode : Mode} {P : MatchFinder → Prop}
    (hkeep : ∀ (m : MatchFinder) (q : Nat), P m → P (insertAt hf mode d m q)) (n : Nat) {q : Nat} (hm : P m) :
    P (insertSpan hf mode d m q n) := by
  induction n generalizing m q with
  | zero => exact hm
  | succ n ih => exact ih (hkeep m q hm)

/-- Normal mode inserts into HT alone (R78). -/
theorem insertNormal_other_tables (hf : Hash3) (d : List Byte) (m : MatchFinder) (q : Nat) :
    (insertNormal hf d m q).head = m.head ∧ (insertNormal hf d m q).prev = m.prev := by
  unfold insertNormal
  split <;> exact ⟨rfl, rfl⟩

/-- Best mode leaves HT as it is (R81). -/
theorem insertBest_ht (hf : Hash3) (d : List Byte) (m : MatchFinder) (q : Nat) : (insertBest hf d m q).ht = m.ht := by
  unfold insertBest
  split <;> rfl

/-- The searchable positions among the `n` from `q` on (R75). -/
def searchableSpan (d : List Byte) (q n : Nat) : List Nat :=
  (List.range' q n).filter (fun r => r + 3 ≤ d.length)

theorem mem_searchableSpan {q n r : Nat} : r ∈ searchableSpan d q n ↔ q ≤ r ∧ r < q + n ∧ r + 3 ≤ d.length := by
  rw [searchableSpan, List.mem_filter, decide_eq_true_eq, List.mem_range'_1, and_assoc]

theorem interior_eq_searchableSpan (d : List Byte) (p len : Nat) :
    interior d p len = searchableSpan d (p + 1) (len - 2) :=
  rfl

/-- The first position of a span is the oldest, so the others hide it where they share its hash. -/
theorem newestBelow_searchableSpan_succ (hf : Hash3) (d : List Byte) (q n h : Nat) :
    newestBelow hf d (searchableSpan d q (n + 1)) (q + (n + 1)) h =
      if newestBelow hf d (searchableSpan d (q + 1) n) (q + 1 + n) h ≠ 0
      then newestBelow hf d (searchableSpan d (q + 1) n) (q + 1 + n) h
      else if q + 3 ≤ d.length ∧ hashAt hf d q = h then q + 1 else 0 := by
  refine newestBelow_eq (fun r hr hb hh => ?_) ?_
  · obtain ⟨hlo, hhi, hsearch⟩ := mem_searchableSpan.mp hr
    rcases Nat.eq_or_lt_of_le hlo with rfl | hgt
    · split
      · next hne =>
        rcases newestBelow_cases hf d (searchableSpan d (q + 1) n) (q + 1 + n) h with hz | ⟨r, hr, -, -, heq⟩
        · exact absurd hz hne
        · have := (mem_searchableSpan.mp hr).1
          omega
      · rw [if_pos ⟨hsearch, hh⟩]
    · have hle : r + 1 ≤ newestBelow hf d (searchableSpan d (q + 1) n) (q + 1 + n) h :=
        le_newestBelow (mem_searchableSpan.mpr ⟨hgt, by omega, hsearch⟩) (by omega) hh
      rwa [if_pos (by omega)]
  · split
    · next hne =>
      refine (newestBelow_cases hf d (searchableSpan d (q + 1) n) (q + 1 + n) h).imp_right ?_
      rintro ⟨r, hr, hb, hh, heq⟩
      obtain ⟨hlo, hhi, hsearch⟩ := mem_searchableSpan.mp hr
      exact ⟨r, mem_searchableSpan.mpr ⟨by omega, by omega, hsearch⟩, by omega, hh, heq⟩
    · split
      · next hq => exact .inr ⟨q, mem_searchableSpan.mpr ⟨le_rfl, by omega, hq.1⟩, by omega, hq.2, rfl⟩
      · exact .inl rfl

theorem get_insertNormal (m : MatchFinder) {q : Nat} (hwidth : q + 1 < 2 ^ 32) (h : Nat) :
    (Sparse.get (insertNormal hf d m q).ht h).toNat =
      if q + 3 ≤ d.length ∧ hashAt hf d q = h then q + 1 else (Sparse.get m.ht h).toNat := by
  by_cases hq : q + 3 ≤ d.length
  · rw [insertNormal_of_searchable hf m hq]
    by_cases hh : hashAt hf d q = h
    · rw [if_pos ⟨hq, hh⟩, ← hh, Sparse.get_set_ofNat_toNat _ _ hwidth]
    · rw [if_neg fun hc => hh hc.2, Sparse.get_set_other _ _ (Ne.symm hh)]
  · rw [if_neg fun hc => hq hc.1, insertNormal, if_neg (searchable_iff.not.mpr hq)]

/-- After a span of Normal insertions an entry names the last of them with its hash, and else is as it was (R79). -/
theorem get_insertSpan_normal (n : Nat) {q : Nat} (hwidth : q + n < 2 ^ 32) (h : Nat) :
    (Sparse.get (insertSpan hf .normal d m q n).ht h).toNat =
      if newestBelow hf d (searchableSpan d q n) (q + n) h = 0 then (Sparse.get m.ht h).toNat
      else newestBelow hf d (searchableSpan d q n) (q + n) h := by
  induction n generalizing m q with
  | zero => rfl
  | succ n ih =>
    have hrest := ih (m := insertNormal hf d m q) (q := q + 1) (by omega)
    rw [get_insertNormal m (by omega)] at hrest
    rw [newestBelow_searchableSpan_succ]
    refine hrest.trans ?_
    by_cases hlater : newestBelow hf d (searchableSpan d (q + 1) n) (q + 1 + n) h = 0
    · by_cases hfirst : q + 3 ≤ d.length ∧ hashAt hf d q = h <;> simp [hlater, hfirst]
    · simp [hlater]

/-- A span of Best insertions keeps the chains intact, with the span inserted (R85). -/
theorem chainsIntact_insertSpan {ins : List Nat} (n : Nat) {q : Nat} (hc : chainsIntact hf d ins m q)
    (hwidth : q + n < 2 ^ 32) :
    chainsIntact hf d (searchableSpan d q n ++ ins) (insertSpan hf .best d m q n) (q + n) := by
  induction n generalizing m q ins with
  | zero => exact hc
  | succ n ih =>
    have hrest := ih (chainsIntact_insert hc (by omega)) (by omega)
    rw [Nat.add_right_comm] at hrest
    refine chainsIntact_congr (fun r => ?_) hrest
    simp only [List.mem_append, mem_searchableSpan]
    split
    · next hq => rw [List.mem_cons, ← or_assoc]; exact or_congr_left (by omega)
    · next hq => exact or_congr_left (by omega)

/-- The update after a match keeps the chains intact, with its interior inserted (R85). -/
theorem chainsIntact_afterMatch {ins : List Nat} {len : Nat} (hc : chainsIntact hf d ins m (m.p + 1))
    (hlen : 3 ≤ len) (hwidth : m.p + len ≤ 2 ^ 32) :
    chainsIntact hf d (interior d m.p len ++ ins) (afterMatch hf .best d m len) (m.p + len) :=
  chainsIntact_mono (chainsIntact_insertSpan (len - 2) hc (by omega)) (by omega)

/-- Settles O47: the cursors by the update, the entries of each mode by the span of insertions. -/
theorem interiorInsertions : Obligations.InteriorInsertions := by
  unfold Obligations.InteriorInsertions
  intro hf d m len hlen hwidth
  refine ⟨fun mode => ⟨rfl, rfl⟩, fun h => ?normal, ?head, ?prev, ?ht, fun ins hc =>
    chainsIntact_afterMatch hc hlen hwidth⟩
  case normal =>
    have hspanEntry := get_insertSpan_normal (hf := hf) (d := d) (m := m) (len - 2) (q := m.p + 1) (by omega) h
    have hbound : newestBelow hf d (interior d m.p len) (m.p + len) h
        = newestBelow hf d (searchableSpan d (m.p + 1) (len - 2)) (m.p + 1 + (len - 2)) h :=
      newestBelow_congr fun q => by rw [interior_eq_searchableSpan, mem_searchableSpan]; omega
    rw [hbound]
    exact hspanEntry
  case head =>
    exact insertSpan_keeps (mode := .normal) (P := fun m' => m'.head = m.head)
      (fun m' q h => (insertNormal_other_tables hf d m' q).1.trans h) _ rfl
  case prev =>
    exact insertSpan_keeps (mode := .normal) (P := fun m' => m'.prev = m.prev)
      (fun m' q h => (insertNormal_other_tables hf d m' q).2.trans h) _ rfl
  case ht =>
    exact insertSpan_keeps (mode := .best) (P := fun m' => m'.ht = m.ht)
      (fun m' q h => (insertBest_ht hf d m' q).trans h) _ rfl

end

end Sys2Proof.Machine
end

section
/-!
PROOF. The compression call (spec/40_match_finder.md R90, spec/41_token_encoder.md R91 to R97): its bytes are those of
the scan relation, they depend on no table from before and in Best mode not on HASH3, and they are at most MAXSIZE.
-/
namespace Sys2Proof.Machine

/-! ## Emission -/

/-- Emission against the capacity, while what is out fits (R91). -/
theorem emit_eq {cap : Nat} {out : List Byte} (bs : List Byte) (hout : out.length ≤ cap) :
    emit cap out bs = if out.length + bs.length ≤ cap then some (out ++ bs) else none := by
  induction bs generalizing out with
  | nil => rw [List.length_nil, Nat.add_zero, if_pos hout, List.append_nil, emit]
  | cons b bs ih =>
    rw [emit]
    split
    · next hfull => rw [if_neg (by rw [List.length_cons]; omega)]
    · next hroom =>
      have hlen : (out ++ [b]).length = out.length + 1 := List.length_append
      rw [ih (by omega), hlen, List.append_assoc, List.length_cons, Nat.add_assoc, Nat.add_comm 1]
      rfl

/-- A call that left `r` emitted `bs` as far as the capacity allows (R94). -/
def Coded.emits (r : Coded) (cap : Nat) (bs : List Byte) : Prop :=
  (r.fits = true ↔ bs.length ≤ cap) ∧ (r.fits = true → r.out = bs)

theorem lastEmission_emits {cap : Nat} (m : MatchFinder) {out : List Byte} (bs : List Byte)
    (hout : out.length ≤ cap) : (lastEmission cap m out bs).emits cap (out ++ bs) := by
  rw [lastEmission, emit_eq bs hout, Coded.emits, List.length_append]
  by_cases hfits : out.length + bs.length ≤ cap <;> simp [hfits]

/-! ## The groups of a literal run -/

theorem literalGroups_fuel {k k' : Nat} {run : List Byte} (hk : run.length ≤ k) (hk' : run.length ≤ k') :
    literalGroups k run = literalGroups k' run := by
  induction k generalizing k' run with
  | zero =>
    obtain rfl := List.length_eq_zero_iff.mp (Nat.le_zero.mp hk)
    cases k' <;> rfl
  | succ k ih =>
    match k', run, hk' with
    | 0, [], _ | _ + 1, [], _ => rfl
    | k' + 1, b :: bs, hk' =>
      have hdrop : ((b :: bs).drop Config.maxLit).length ≤ bs.length := by
        rw [List.length_drop]
        simp [Config.maxLit]
      rw [literalGroups, literalGroups, ih (hdrop.trans (Nat.le_of_succ_le_succ hk))
        (hdrop.trans (Nat.le_of_succ_le_succ hk'))]

/-- A run goes out as its first group of at most 32 bytes and the rest (R92). -/
theorem literalBytes_of_ne_nil {run : List Byte} (h : run ≠ []) :
    literalBytes run = encode (.lit (min 32 run.length)) ++ run.take 32 ++ literalBytes (run.drop 32) := by
  obtain ⟨b, bs, rfl⟩ := List.exists_cons_of_ne_nil h
  have hdrop : ((b :: bs).drop 32).length ≤ bs.length := by
    rw [List.length_drop, List.length_cons]
    omega
  show literalGroups (bs.length + 1) (b :: bs) = _ ++ literalGroups ((b :: bs).drop 32).length ((b :: bs).drop 32)
  rw [literalGroups, literalGroups_fuel (run := (b :: bs).drop Config.maxLit) hdrop (Nat.le_refl _)]

theorem literalBytes_nil : literalBytes [] = [] := rfl

/-- A literal run costs one byte for each of its groups (R92, R97). -/
theorem length_literalBytes_le (run : List Byte) : 32 * (literalBytes run).length ≤ 33 * run.length + 31 := by
  induction hn : run.length using Nat.strong_induction_on generalizing run with
  | _ n ih =>
    by_cases h : run = []
    · subst h
      rw [literalBytes_nil, List.length_nil]
      omega
    · have hpos := List.length_pos_iff.mpr h
      have hrest := ih (run.drop 32).length (by rw [List.length_drop]; omega) (run.drop 32) rfl
      have hlit : (encode (.lit (min 32 run.length))).length = 1 := rfl
      rw [literalBytes_of_ne_nil h, List.length_append, List.length_append, hlit, List.length_take]
      rw [List.length_drop] at hrest
      rcases Nat.lt_or_ge 32 run.length with hlong | hshort
      · omega
      · rw [List.drop_eq_nil_of_le hshort, literalBytes_nil, List.length_nil]
        omega

/-! ## The steps of the scan -/

section
variable {hf : Hash3} {mode : Mode} {d : List Byte} {m m' : MatchFinder}

theorem decideAt_fst (hf : Hash3) (mode : Mode) (d : List Byte) (m : MatchFinder) :
    (decideAt hf mode d m).1 = insertAt hf mode d m m.p := by
  cases mode <;> rfl

/-- A decision moves no cursor (R74). -/
theorem decideAt_cursors {v : Decision} (h : decideAt hf mode d m = (m', v)) : m'.p = m.p ∧ m'.ls = m.ls := by
  have hm : m' = insertAt hf mode d m m.p := (congrArg Prod.fst h).symm.trans (decideAt_fst hf mode d m)
  rw [hm, insertAt_p, insertAt_ls]
  exact ⟨rfl, rfl⟩

/-- A decided match ends inside the input (R77). -/
theorem decideAt_len_le {off len : Nat} (hp : m.p + 3 ≤ d.length) (h : decideAt hf mode d m = (m', .matched off len)) :
    3 ≤ len ∧ m.p + len ≤ d.length := by
  have hmin := three_le_of_decideAt hp h
  obtain ⟨c, -, -, -, -, -, rfl⟩ := decideAt_matched h
  have hle := mlen_le d c m.p
  omega

section
variable {cap : Nat} {out : List Byte}

theorem scan_done (k : Nat) (h : d.length ≤ m.p) :
    scan hf mode d cap k m out = lastEmission cap m out (literalBytes (slice d m.ls d.length)) := by
  cases k with
  | zero => rfl
  | succ k => rw [scan, if_neg (Nat.not_lt.mpr h)]

theorem scan_tail (k : Nat) (h : m.p < d.length) (ht : d.length < m.p + 3) :
    scan hf mode d cap (k + 1) m out = scan hf mode d cap k { m with p := m.p + 1 } out := by
  rw [scan, if_pos h, if_neg (searchable_iff.not.mpr (Nat.not_le.mpr ht))]

theorem scan_literal (k : Nat) (hp : m.p + 3 ≤ d.length) (h : decideAt hf mode d m = (m', .litByte)) :
    scan hf mode d cap (k + 1) m out = scan hf mode d cap k { m' with p := m.p + 1 } out := by
  rw [scan, if_pos (by omega), if_pos (searchable_iff.mpr hp), h, ← (decideAt_cursors h).1]

theorem scan_taken (k : Nat) {off len : Nat} {out' : List Byte} (hp : m.p + 3 ≤ d.length)
    (h : decideAt hf mode d m = (m', .matched off len))
    (hroom : emit cap out (literalBytes (slice d m.ls m.p) ++ matchBytes off len) = some out') :
    scan hf mode d cap (k + 1) m out = scan hf mode d cap k (afterMatch hf mode d m' len) out' := by
  simp only [scan, if_pos (show m.p < d.length by omega), searchable_iff.mpr hp, if_true, h, hroom]

theorem scan_stopped (k : Nat) {off len : Nat} (hp : m.p + 3 ≤ d.length)
    (h : decideAt hf mode d m = (m', .matched off len))
    (hfull : emit cap out (literalBytes (slice d m.ls m.p) ++ matchBytes off len) = none) :
    scan hf mode d cap (k + 1) m out = ⟨m', out, false⟩ := by
  simp only [scan, if_pos (show m.p < d.length by omega), searchable_iff.mpr hp, if_true, h, hfull]

end

/-! ## The scan relation -/

/-- The bytes of the scan are what a call emits, as far as its capacity allows (R94). -/
theorem scan_emits {bs : List Byte} (h : ScanEmits hf mode d m bs) {cap k : Nat} {out : List Byte}
    (hk : d.length ≤ m.p + k) (hout : out.length ≤ cap) : (scan hf mode d cap k m out).emits cap (out ++ bs) := by
  induction h generalizing k out with
  | finish m hp =>
    rw [scan_done k hp]
    exact lastEmission_emits m _ hout
  | tail m bs hp ht _ ih =>
    obtain ⟨k, rfl⟩ : ∃ j, k = j + 1 := ⟨k - 1, by omega⟩
    rw [scan_tail k hp ht]
    exact ih (by dsimp only; omega) hout
  | literal m m' bs hp hd _ ih =>
    obtain ⟨k, rfl⟩ : ∃ j, k = j + 1 := ⟨k - 1, by omega⟩
    rw [scan_literal k hp hd]
    exact ih (by dsimp only; omega) hout
  | taken m m' off len bs hp hd _ ih =>
    obtain ⟨k, rfl⟩ : ∃ j, k = j + 1 := ⟨k - 1, by omega⟩
    have hmin := (decideAt_len_le hp hd).1
    have hnext : (afterMatch hf mode d m' len).p = m.p + len := congrArg (· + len) (decideAt_cursors hd).1
    have hemit := emit_eq (literalBytes (slice d m.ls m.p) ++ matchBytes off len) hout
    split at hemit
    · next hroom =>
      rw [scan_taken k hp hd hemit]
      have hrest := ih (k := k) (by omega) (out := out ++ _) (by rwa [List.length_append])
      rwa [List.append_assoc out] at hrest
    · next hfull =>
      rw [scan_stopped k hp hd hemit]
      refine ⟨⟨nofun, fun hfits => absurd ?_ hfull⟩, nofun⟩
      rw [List.length_append, List.length_append] at hfits
      exact (Nat.add_le_add_left (Nat.le_add_right _ _) _).trans hfits

/-- The scan ends: every decision moves the position on (R80). -/
theorem scanEmits_exists (hf : Hash3) (mode : Mode) (d : List Byte) (m : MatchFinder) :
    ∃ bs : List Byte, ScanEmits hf mode d m bs := by
  induction hn : d.length - m.p using Nat.strong_induction_on generalizing m with
  | _ n ih =>
    rcases Nat.lt_or_ge m.p d.length with hp | hend
    · rcases Nat.lt_or_ge d.length (m.p + 3) with ht | hs
      · obtain ⟨bs, hbs⟩ := ih (d.length - (m.p + 1)) (by omega) { m with p := m.p + 1 } rfl
        exact ⟨bs, .tail m bs hp ht hbs⟩
      · rcases hd : decideAt hf mode d m with ⟨m', v⟩
        cases v with
        | litByte =>
          obtain ⟨bs, hbs⟩ := ih (d.length - (m.p + 1)) (by omega) { m' with p := m.p + 1 } rfl
          exact ⟨bs, .literal m m' bs hs hd hbs⟩
        | matched off len =>
          have hmin := (decideAt_len_le hs hd).1
          have hnext : (afterMatch hf mode d m' len).p = m.p + len := congrArg (· + len) (decideAt_cursors hd).1
          obtain ⟨bs, hbs⟩ := ih (d.length - (m.p + len)) (by omega) (afterMatch hf mode d m' len) (by rw [hnext])
          exact ⟨_, .taken m m' off len bs hs hd hbs⟩
    · exact ⟨_, .finish m hend⟩

theorem freshFinder_cursors (mode : Mode) (m : MatchFinder) :
    (freshFinder mode m).p = 0 ∧ (freshFinder mode m).ls = 0 := by
  cases mode <;> exact ⟨rfl, rfl⟩

theorem mfCall_emits {bs : List Byte} (cap : Nat) (h : ScanEmits hf mode d (freshFinder mode m) bs) :
    (mfCall hf mode d cap m).emits cap bs :=
  scan_emits h (Nat.le_add_left _ _) (Nat.zero_le cap)

/-- A call that fits emits at most its capacity. -/
theorem length_out_mfCall_le {cap : Nat} (h : (mfCall hf mode d cap m).fits = true) :
    (mfCall hf mode d cap m).out.length ≤ cap := by
  obtain ⟨bs, hbs⟩ := scanEmits_exists hf mode d (freshFinder mode m)
  obtain ⟨hfits, hout⟩ := mfCall_emits cap hbs
  rw [hout h]
  exact hfits.mp h

/-- Settles O50: the scan ends, and a call emits its bytes as far as they fit; a run of literal bytes by its first
group. -/
theorem callFollowsScan : Obligations.CallFollowsScan := by
  unfold Obligations.CallFollowsScan
  refine ⟨fun hf mode d cap m => ⟨scanEmits_exists hf mode d _, fun out h => mfCall_emits cap h⟩, literalBytes_nil,
    fun run => ⟨fun hpos hshort => ?_, fun hlong => ?_⟩⟩
  · rw [literalBytes_of_ne_nil (List.length_pos_iff.mp hpos), Nat.min_eq_right hshort, List.take_of_length_le hshort,
      List.drop_eq_nil_of_le hshort, literalBytes_nil, List.append_nil]
    rfl
  · rw [literalBytes_of_ne_nil (List.length_pos_iff.mp (by omega)), Nat.min_eq_left (Nat.le_of_lt hlong)]
    rfl

end

/-! ## What the bytes of a call do not depend on -/

/-- Two finder states that decide alike now and in every later turn of the scan. -/
structure ScanBisimulation (hf hf' : Hash3) (mode : Mode) (d : List Byte) (R : MatchFinder → MatchFinder → Prop) :
    Prop where
  cursors : ∀ {m m' : MatchFinder}, R m m' → m.p = m'.p ∧ m.ls = m'.ls
  tail : ∀ {m m' : MatchFinder}, R m m' → R { m with p := m.p + 1 } { m' with p := m'.p + 1 }
  verdict : ∀ {m m' : MatchFinder}, R m m' → m.p + 3 ≤ d.length →
    (decideAt hf mode d m).2 = (decideAt hf' mode d m').2
  literal : ∀ {m m' : MatchFinder}, R m m' → m.p + 3 ≤ d.length →
    R { insertAt hf mode d m m.p with p := m.p + 1 } { insertAt hf' mode d m' m.p with p := m.p + 1 }
  taken : ∀ {m m' : MatchFinder} (len : Nat), R m m' → m.p + 3 ≤ d.length → 3 ≤ len → m.p + len ≤ d.length →
    R (afterMatch hf mode d (insertAt hf mode d m m.p) len) (afterMatch hf' mode d (insertAt hf' mode d m' m.p) len)

section
variable {hf hf' : Hash3} {mode : Mode} {d : List Byte} {R : MatchFinder → MatchFinder → Prop}

theorem decideAt_eq_of_snd {m : MatchFinder} {v : Decision} (h : (decideAt hf mode d m).2 = v) :
    decideAt hf mode d m = (insertAt hf mode d m m.p, v) :=
  Prod.ext (decideAt_fst hf mode d m) h

theorem lastEmission_congr {cap : Nat} (m m' : MatchFinder) (out bs : List Byte) :
    (lastEmission cap m out bs).out = (lastEmission cap m' out bs).out
      ∧ (lastEmission cap m out bs).fits = (lastEmission cap m' out bs).fits := by
  unfold lastEmission
  split <;> exact ⟨rfl, rfl⟩

/-- Scans that decide alike emit the same bytes, also where they do not fit. -/
theorem scan_congr (hR : ScanBisimulation hf hf' mode d R) (cap k : Nat) {m m' : MatchFinder} (h : R m m')
    (out : List Byte) :
    (scan hf mode d cap k m out).out = (scan hf' mode d cap k m' out).out
      ∧ (scan hf mode d cap k m out).fits = (scan hf' mode d cap k m' out).fits := by
  induction k generalizing m m' out with
  | zero =>
    rw [scan, scan, (hR.cursors h).2]
    exact lastEmission_congr m m' out _
  | succ k ih =>
    obtain ⟨hp, hls⟩ := hR.cursors h
    rcases Nat.lt_or_ge m.p d.length with hlt | hend
    · rcases Nat.lt_or_ge d.length (m.p + 3) with ht | hs
      · rw [scan_tail k hlt ht, scan_tail k (hp ▸ hlt) (hp ▸ ht)]
        exact ih (hR.tail h) out
      · have hv := hR.verdict h hs
        cases hd : (decideAt hf mode d m).2 with
        | litByte =>
          rw [scan_literal k hs (decideAt_eq_of_snd hd),
            scan_literal k (hp ▸ hs) (decideAt_eq_of_snd (hv.symm.trans hd)), ← hp]
          exact ih (hR.literal h hs) out
        | matched off len =>
          have hdec := decideAt_eq_of_snd hd
          have hdec' := decideAt_eq_of_snd (hv.symm.trans hd)
          obtain ⟨hmin, hin⟩ := decideAt_len_le hs hdec
          have hsame : literalBytes (slice d m'.ls m'.p) = literalBytes (slice d m.ls m.p) := by rw [hp, hls]
          cases hemit : emit cap out (literalBytes (slice d m.ls m.p) ++ matchBytes off len) with
          | some out' =>
            rw [scan_taken k hs hdec hemit, scan_taken k (hp ▸ hs) hdec' (hsame ▸ hemit), ← hp]
            exact ih (hR.taken len h hs hmin hin) _
          | none =>
            rw [scan_stopped k hs hdec hemit, scan_stopped k (hp ▸ hs) hdec' (hsame ▸ hemit)]
            exact ⟨rfl, rfl⟩
    · rw [scan_done _ hend, scan_done _ (hp ▸ hend), hls]
      exact lastEmission_congr m m' out _

end

/-! ### The tables of earlier calls -/

/-- The cursors and the tables the selected mode reads are the same (R35). -/
def sameTables : Mode → MatchFinder → MatchFinder → Prop
  | .normal, m, m' => m.p = m'.p ∧ m.ls = m'.ls ∧ m.ht = m'.ht
  | .best, m, m' => m.p = m'.p ∧ m.ls = m'.ls ∧ m.head = m'.head ∧ m.prev = m'.prev

section
variable {hf : Hash3} {mode : Mode} {d : List Byte} {m m' : MatchFinder}

theorem sameTables_fresh (mode : Mode) (m m' : MatchFinder) :
    sameTables mode (freshFinder mode m) (freshFinder mode m') := by
  cases mode with
  | normal => exact ⟨rfl, rfl, rfl⟩
  | best => exact ⟨rfl, rfl, rfl, rfl⟩

theorem sameTables_cursors (h : sameTables mode m m') : m.p = m'.p ∧ m.ls = m'.ls := by
  cases mode with
  | normal => exact ⟨h.1, h.2.1⟩
  | best => exact ⟨h.1, h.2.1⟩

theorem sameTables_withCursors {p ls p' ls' : Nat} (h : sameTables mode m m') (hp : p = p') (hls : ls = ls') :
    sameTables mode { m with p := p, ls := ls } { m' with p := p', ls := ls' } := by
  cases mode with
  | normal => exact ⟨hp, hls, h.2.2⟩
  | best => exact ⟨hp, hls, h.2.2⟩

theorem sameTables_insertAt (q : Nat) (h : sameTables mode m m') :
    sameTables mode (insertAt hf mode d m q) (insertAt hf mode d m' q) := by
  cases mode with
  | normal =>
    obtain ⟨hp, hls, hht⟩ := h
    unfold insertAt insertNormal
    dsimp only
    split
    · exact ⟨hp, hls, by rw [hht]⟩
    · exact ⟨hp, hls, hht⟩
  | best =>
    obtain ⟨hp, hls, hhead, hprev⟩ := h
    unfold insertAt insertBest
    dsimp only
    split
    · exact ⟨hp, hls, by rw [hhead], by rw [hhead, hprev]⟩
    · exact ⟨hp, hls, hhead, hprev⟩

theorem sameTables_insertSpan (n : Nat) {q : Nat} (h : sameTables mode m m') :
    sameTables mode (insertSpan hf mode d m q n) (insertSpan hf mode d m' q n) := by
  induction n generalizing m m' q with
  | zero => exact h
  | succ n ih => exact ih (sameTables_insertAt q h)

theorem sameTables_verdict (h : sameTables mode m m') :
    (decideAt hf mode d m).2 = (decideAt hf mode d m').2 := by
  cases mode with
  | normal =>
    obtain ⟨hp, -, hht⟩ := h
    simp only [decideAt, decideNormal, hp, hht]
  | best =>
    obtain ⟨hp, -, hhead, hprev⟩ := h
    simp only [decideAt, decideBest, hp, hhead, hprev]

theorem sameTables_bisimulation (hf : Hash3) (mode : Mode) (d : List Byte) :
    ScanBisimulation hf hf mode d (sameTables mode) where
  cursors := sameTables_cursors
  tail h := by
    obtain ⟨hp, hls⟩ := sameTables_cursors h
    exact sameTables_withCursors h (congrArg (· + 1) hp) hls
  verdict h _ := sameTables_verdict h
  literal {m m'} h _ := by
    have hins := sameTables_insertAt (hf := hf) (d := d) m.p h
    exact sameTables_withCursors hins rfl (sameTables_cursors hins).2
  taken {m m'} len h _ _ _ := by
    have hins := sameTables_insertAt (hf := hf) (d := d) m.p h
    unfold afterMatch
    rw [← (sameTables_cursors hins).1]
    exact sameTables_withCursors (sameTables_insertSpan _ hins) rfl rfl

/-- A call does not depend on what earlier calls left in the tables (R35). -/
theorem mfCall_tables (hf : Hash3) (mode : Mode) (d : List Byte) (cap : Nat) (m m' : MatchFinder) :
    (mfCall hf mode d cap m).out = (mfCall hf mode d cap m').out
      ∧ (mfCall hf mode d cap m).fits = (mfCall hf mode d cap m').fits :=
  scan_congr (sameTables_bisimulation hf mode d) cap d.length (sameTables_fresh mode m m') []

/-- Settles O49: both calls emit the bytes of the same scan, each up to its own capacity. -/
theorem streamFitsExactly : Obligations.StreamFitsExactly := by
  unfold Obligations.StreamFitsExactly
  intro hf mode d cap big m m' hbig
  obtain ⟨bs, hbs⟩ := scanEmits_exists hf mode d (freshFinder mode m)
  obtain ⟨hfits, hout⟩ := mfCall_emits cap hbs
  obtain ⟨htables, htablesFit⟩ := mfCall_tables hf mode d cap m' m
  rw [htables, htablesFit, (mfCall_emits big hbs).2 hbig]
  exact ⟨hfits, hout⟩

end

/-! ### HASH3 in Best mode -/

section
variable {hf hf' : Hash3} {d : List Byte}

/-- Best mode with two hash functions: the same positions are inserted, and both chains name them. -/
def sameChains (hf hf' : Hash3) (d : List Byte) (m m' : MatchFinder) : Prop :=
  m.p = m'.p ∧ m.ls = m'.ls
    ∧ ∃ ins : List Nat, chainsIntact hf d ins m m.p ∧ chainsIntact hf' d ins m' m'.p

/-- The verdict of R86 is one: the greatest length and the closest candidate of it are. -/
theorem bestVerdict_unique {ins : List Nat} {p : Nat} {v v' : Decision} (h : bestVerdict d ins p v)
    (h' : bestVerdict d ins p v') : v = v' := by
  cases v with
  | litByte =>
    cases v' with
    | litByte => rfl
    | matched _ _ => obtain ⟨c, hc, -⟩ := h'; exact absurd hc (h c)
  | matched off len =>
    obtain ⟨c, hc, rfl, rfl, hmax⟩ := h
    cases v' with
    | litByte => exact absurd hc (h' c)
    | matched off' len' =>
      obtain ⟨c', hc', rfl, rfl, hmax'⟩ := h'
      have h₁ := hmax c' hc'
      have h₂ := hmax' c hc
      obtain ⟨rfl, hlen⟩ : c = c' ∧ mlen d c p = mlen d c' p := by omega
      rfl

theorem decideAt_best_verdict {ins : List Nat} {m : MatchFinder} (hc : chainsIntact hf d ins m m.p)
    (hp : m.p + 3 ≤ d.length) : bestVerdict d ins m.p (decideAt hf .best d m).2 :=
  judgeBest_verdict hp (searchBest_bestFrom hc hp)

/-- A match decided at `p` leaves the chains intact behind it, with `p` and its interior inserted (R82, R85). -/
theorem chainsIntact_decided {ins : List Nat} {m : MatchFinder} {p len : Nat} (hc : chainsIntact hf d ins m p)
    (hs : p + 3 ≤ d.length) (hcur : (insertAt hf .best d m p).p = p) (hmin : 3 ≤ len) (hlen : p + len ≤ 2 ^ 32) :
    chainsIntact hf d (interior d p len ++ (p :: ins)) (afterMatch hf .best d (insertAt hf .best d m p) len)
      (afterMatch hf .best d (insertAt hf .best d m p) len).p := by
  have hins : chainsIntact hf d (p :: ins) (insertAt hf .best d m p) (p + 1) :=
    chainsIntact_insert_searchable hc hs (by omega)
  have hafter := chainsIntact_afterMatch (m := insertAt hf .best d m p) (len := len) (by rwa [hcur]) hmin
    (by rwa [hcur])
  rw [show (afterMatch hf .best d (insertAt hf .best d m p) len).p = (insertAt hf .best d m p).p + len from rfl]
  rwa [hcur] at hafter ⊢

theorem sameChains_bisimulation (hf hf' : Hash3) (hd : d.length ≤ Config.maxRawLen) :
    ScanBisimulation hf hf' .best d (sameChains hf hf' d) where
  cursors h := ⟨h.1, h.2.1⟩
  tail {m m'} h := by
    obtain ⟨hp, hls, ins, hc, hc'⟩ := h
    exact ⟨congrArg (· + 1) hp, hls, ins, chainsIntact_mono hc (Nat.le_succ _), chainsIntact_mono hc' (Nat.le_succ _)⟩
  verdict {m m'} h hs := by
    obtain ⟨hp, -, ins, hc, hc'⟩ := h
    have hv' := decideAt_best_verdict hc' (hp ▸ hs)
    rw [← hp] at hv'
    exact bestVerdict_unique (decideAt_best_verdict hc hs) hv'
  literal {m m'} h hs := by
    obtain ⟨hp, hls, ins, hc, hc'⟩ := h
    have hd' : d.length ≤ 4294967295 := hd
    rw [← hp] at hc'
    exact ⟨rfl, by simpa only [insertAt_ls] using hls, m.p :: ins,
      chainsIntact_insert_searchable hc hs (by omega), chainsIntact_insert_searchable hc' hs (by omega)⟩
  taken {m m'} len h hs hmin hin := by
    obtain ⟨hp, -, ins, hc, hc'⟩ := h
    rw [← hp] at hc'
    have hcur : (insertAt hf .best d m m.p).p = m.p := insertAt_p hf .best d m m.p
    have hcur' : (insertAt hf' .best d m' m.p).p = m.p := (insertAt_p hf' .best d m' m.p).trans hp.symm
    have hsame : (insertAt hf .best d m m.p).p + len = (insertAt hf' .best d m' m.p).p + len := by rw [hcur, hcur']
    have hlen : m.p + len ≤ 2 ^ 32 := hin.trans (hd.trans (by decide))
    exact ⟨hsame, hsame, interior d m.p len ++ (m.p :: ins),
      chainsIntact_decided hc hs hcur hmin hlen, chainsIntact_decided hc' hs hcur' hmin hlen⟩

/-- Settles O48: with either hash function the chains name the same positions, so the verdict of R86 is the same at
each. -/
theorem bestIgnoresHash : Obligations.BestIgnoresHash := by
  unfold Obligations.BestIgnoresHash
  intro hf hf' d cap m m' hd
  have hfresh : sameChains hf hf' d (freshFinder .best m) (freshFinder .best m') :=
    ⟨rfl, rfl, [], chainsIntact_fresh hf d m, chainsIntact_fresh hf' d m'⟩
  exact scan_congr (sameChains_bisimulation hf hf' hd) cap d.length hfresh []

end

/-! ## The size of a call -/

section
variable {hf : Hash3} {mode : Mode} {d : List Byte} {m : MatchFinder}

theorem length_slice (d : List Byte) {i j : Nat} (hj : j ≤ d.length) : (slice d i j).length = j - i := by
  rw [slice, List.length_take, List.length_drop]
  omega

/-- Every literal byte costs 33/32 bytes, every match less than the bytes it stands for, so that only the last group
of literal bytes is rounded up (R97). -/
theorem scanEmits_length {bs : List Byte} (h : ScanEmits hf mode d m bs) (hls : m.ls ≤ m.p) (hp : m.p ≤ d.length) :
    32 * bs.length ≤ 33 * (d.length - m.ls) + 31 := by
  induction h with
  | finish m _ =>
    have hlit := length_literalBytes_le (slice d m.ls d.length)
    rwa [length_slice d (Nat.le_refl _)] at hlit
  | tail m bs hlt _ _ ih => exact ih (Nat.le_succ_of_le hls) hlt
  | literal m m' bs hs hd _ ih =>
    have hcur := (decideAt_cursors hd).2
    have := ih (by dsimp only; omega) (by dsimp only; omega)
    dsimp only at this
    omega
  | taken m m' off len bs hs hd _ ih =>
    obtain ⟨hmin, hin⟩ := decideAt_len_le hs hd
    have hcur := (decideAt_cursors hd).1
    have hrest : 32 * bs.length ≤ 33 * (d.length - (m'.p + len)) + 31 :=
      ih (Nat.le_refl _) (by simp only [afterMatch]; omega)
    have hlit := length_literalBytes_le (slice d m.ls m.p)
    rw [length_slice d hp] at hlit
    rw [List.length_append, List.length_append, length_encode_refToken hmin]
    split <;> omega

/-- Settles O51: the bytes of the scan are at most MAXSIZE, and the call emits them all. -/
theorem capacityBound : Obligations.CapacityBound := by
  unfold Obligations.CapacityBound
  intro hf mode d cap m hcap
  obtain ⟨bs, hbs⟩ := scanEmits_exists hf mode d (freshFinder mode m)
  obtain ⟨hp, hls⟩ := freshFinder_cursors mode m
  have hlen := scanEmits_length hbs (by omega) (by omega)
  have hbound : bs.length ≤ (d.length * 33) >>> 5 + 1 := by
    rw [Nat.shiftRight_eq_div_pow]
    omega
  obtain ⟨hfits, hout⟩ := mfCall_emits cap hbs
  have hfit := hfits.mpr (hbound.trans hcap)
  exact ⟨hfit, (hout hfit).symm ▸ hbound⟩

end

end Sys2Proof.Machine
end

section
/-!
PROOF. TD_RUN on byte sequences (spec/42_token_decoder.md R100 to R107): its turns, token by token; it decodes the
bytes of a compression call to their input (R95), and a capacity one byte too small is rejected (R107).
-/
namespace Sys2Proof

/-! ## What the token decoder answers -/

/-- Everything the token decoder can answer: nothing left, a head cut short, a literal run, or a back-reference. -/
theorem decodeToken_cases (t : List Byte) :
    t = [] ∨ decodeToken t = .error .truncatedToken
      ∨ (∃ (len : Nat) (rest : List Byte), decodeToken t = .ok (.lit len, rest) ∧ 1 ≤ len
          ∧ t.length = rest.length + 1)
      ∨ ∃ (i : Instr) (head off len : Nat) (rest : List Byte), decodeToken t = .ok (i, rest)
          ∧ i.reference = some (head, off, len) ∧ 2 ≤ head ∧ 3 ≤ len ∧ t.length = rest.length + head := by
  cases t with
  | nil => exact .inl rfl
  | cons ctrl t =>
    refine .inr ?_
    rcases Nat.lt_or_ge ctrl.toNat 0x20 with hlit | hlo
    · exact .inr (.inl ⟨_, _, decodeToken_lit hlit t, Nat.succ_pos _, rfl⟩)
    · rw [decodeToken_cons, if_neg (Nat.not_lt.mpr hlo)]
      rcases Nat.lt_or_ge ctrl.toNat 0xE0 with hshort | hlong
      · rw [if_pos hshort]
        match t with
        | [] => exact .inl rfl
        | lo :: rest =>
          exact .inr (.inr ⟨_, 2, _, lenField ctrl + 2, rest, rfl,
            reference_shortRef (by unfold lenField; omega) (by unfold lenField; omega) _, le_rfl,
            by unfold lenField; omega, rfl⟩)
      · rw [if_neg (Nat.not_lt.mpr hlong)]
        match t with
        | [] | [_] => exact .inl rfl
        | ext :: lo :: rest => exact .inr (.inr ⟨_, 3, _, _, rest, rfl, rfl, by decide, by omega, rfl⟩)

end Sys2Proof

namespace Sys2Proof.Machine

/-! ## One token of TD_RUN -/

section
variable {cap : Nat} {t : List Byte}

theorem tdRun_nil (cap k ip : Nat) (out : List Byte) : tdRun cap k ip [] out = ⟨none, ip, out⟩ := by
  cases k <;> rfl

theorem tdRun_truncated (h : decodeToken t = .error .truncatedToken) (k ip : Nat) (out : List Byte) :
    tdRun cap (k + 1) ip t out = ⟨some .invalidData, ip, out⟩ := by
  simp only [tdRun, h]

theorem tdRun_lit {len : Nat} {rest : List Byte} (h : decodeToken t = .ok (.lit len, rest)) (k ip : Nat)
    (out : List Byte) :
    tdRun cap (k + 1) ip t out =
      if rest.length < len then ⟨some .invalidData, ip, out⟩
      else if cap < out.length + len then ⟨some .outputTooSmall, ip, out⟩
      else tdRun cap k (ip + (1 + len)) (rest.drop len) (out ++ rest.take len) := by
  simp only [tdRun, h]

theorem tdRun_reference {i : Instr} {head off len : Nat} {rest : List Byte} (h : decodeToken t = .ok (i, rest))
    (hi : i.reference = some (head, off, len)) (k ip : Nat) (out : List Byte) :
    tdRun cap (k + 1) ip t out =
      if out.length ≤ off then ⟨some .invalidData, ip, out⟩
      else if cap < out.length + len then ⟨some .outputTooSmall, ip, out⟩
      else tdRun cap k (ip + head) rest (copyOut out off len) := by
  rw [tdRun, h]
  cases i with
  | brefShortL3 _ | brefShortL4 _ | brefShortL5 _ | brefShortL6 _ | brefShortL7 _ | brefShortL8 _ | brefLong _ _ =>
    cases hi; rfl
  | _ => cases hi

/-- The number of turns is no bound of its own: every token takes at least one byte. -/
theorem tdRun_fuel {k k' ip : Nat} {out : List Byte} (hk : t.length ≤ k) (hk' : t.length ≤ k') :
    tdRun cap k ip t out = tdRun cap k' ip t out := by
  induction k generalizing k' ip t out with
  | zero =>
    obtain rfl := List.length_eq_zero_iff.mp (Nat.le_zero.mp hk)
    rw [tdRun_nil, tdRun_nil]
  | succ k ih =>
    rcases decodeToken_cases t with rfl | h | ⟨len, rest, h, hlen, hsize⟩
      | ⟨i, head, off, len, rest, h, hi, hhead, -, hsize⟩
    · rw [tdRun_nil, tdRun_nil]
    · obtain ⟨k', rfl⟩ : ∃ j, k' = j + 1 :=
        Nat.exists_eq_succ_of_ne_zero fun h0 => by
          obtain rfl := List.length_eq_zero_iff.mp (Nat.le_zero.mp (h0 ▸ hk'))
          cases h
      rw [tdRun_truncated h, tdRun_truncated h]
    · obtain ⟨k', rfl⟩ : ∃ j, k' = j + 1 := ⟨k' - 1, by omega⟩
      have hdrop : (rest.drop len).length ≤ rest.length := List.length_drop ▸ Nat.sub_le _ _
      rw [tdRun_lit h, tdRun_lit h, ih (k' := k') (by omega) (by omega)]
    · obtain ⟨k', rfl⟩ : ∃ j, k' = j + 1 := ⟨k' - 1, by omega⟩
      rw [tdRun_reference h hi, tdRun_reference h hi, ih (k' := k') (by omega) (by omega)]

/-- TD_RUN on all the token bytes `t`, the next at offset `ip`, after the output `out`. -/
def tdFrom (cap ip : Nat) (t out : List Byte) : TdEnd := tdRun cap t.length ip t out

theorem decodeTokens_eq_tdFrom (cap : Nat) (t : List Byte) : decodeTokens cap t = tdFrom cap 0 t [] := rfl

theorem tdFrom_nil (cap ip : Nat) (out : List Byte) : tdFrom cap ip [] out = ⟨none, ip, out⟩ := tdRun_nil _ _ _ _

theorem tdFrom_truncated (h : decodeToken t = .error .truncatedToken) (ip : Nat) (out : List Byte) :
    tdFrom cap ip t out = ⟨some .invalidData, ip, out⟩ := by
  cases t with
  | nil => cases h
  | cons b t => exact tdRun_truncated h _ _ _

theorem tdFrom_lit {len : Nat} {rest : List Byte} (h : decodeToken t = .ok (.lit len, rest))
    (hsize : t.length = rest.length + 1) (ip : Nat) (out : List Byte) :
    tdFrom cap ip t out =
      if rest.length < len then ⟨some .invalidData, ip, out⟩
      else if cap < out.length + len then ⟨some .outputTooSmall, ip, out⟩
      else tdFrom cap (ip + (1 + len)) (rest.drop len) (out ++ rest.take len) := by
  have hdrop : (rest.drop len).length ≤ rest.length := List.length_drop ▸ Nat.sub_le _ _
  rw [tdFrom, hsize, tdRun_lit h, tdRun_fuel hdrop (Nat.le_refl _)]
  rfl

theorem tdFrom_reference {i : Instr} {head off len : Nat} {rest : List Byte} (h : decodeToken t = .ok (i, rest))
    (hi : i.reference = some (head, off, len)) (hhead : 1 ≤ head) (hsize : t.length = rest.length + head) (ip : Nat)
    (out : List Byte) :
    tdFrom cap ip t out =
      if out.length ≤ off then ⟨some .invalidData, ip, out⟩
      else if cap < out.length + len then ⟨some .outputTooSmall, ip, out⟩
      else tdFrom cap (ip + head) rest (copyOut out off len) := by
  obtain ⟨k, hk⟩ : ∃ k, t.length = k + 1 := ⟨t.length - 1, by omega⟩
  rw [tdFrom, hk, tdRun_reference h hi, tdRun_fuel (k := k) (by omega) (Nat.le_refl _)]
  rfl

/-! ## The copy -/

@[simp] theorem length_copyOut (out : List Byte) (off n : Nat) : (copyOut out off n).length = out.length + n := by
  induction n generalizing out with
  | zero => rfl
  | succ n ih =>
    rw [copyOut, ih, List.length_append, List.length_singleton]
    omega

theorem take_succ_eq_append_getD (d : List Byte) {p : Nat} (h : p < d.length) :
    d.take (p + 1) = d.take p ++ [d.getD p 0#8] := by
  rw [List.take_add_one, List.getElem?_eq_getElem h, List.getD_eq_getElem _ _ h]
  rfl

/-- A copy whose source agrees with the input goes on along the input (R104). -/
theorem copyOut_take {d : List Byte} {p off n : Nat} (hoff : off < p) (hn : p + n ≤ d.length)
    (h : ∀ k : Nat, k < n → d.getD (p - off - 1 + k) 0#8 = d.getD (p + k) 0#8) :
    copyOut (d.take p) off n = d.take (p + n) := by
  induction n generalizing p with
  | zero => rfl
  | succ n ih =>
    have hlen : (d.take p).length = p := List.length_take_of_le (by omega)
    have hbyte : (d.take p).getD (p - off - 1) 0#8 = d.getD p 0#8 := by
      have hlt : p - off - 1 < p := by omega
      have hagree : d.getD (p - off - 1) 0#8 = d.getD p 0#8 := h 0 (Nat.succ_pos n)
      rw [← hagree, List.getD_eq_getElem?_getD, List.getD_eq_getElem?_getD, List.getElem?_take_of_lt hlt]
    rw [copyOut, hlen, hbyte, ← take_succ_eq_append_getD d (by omega), ih (by omega) (by omega) fun k hk => ?_,
      Nat.add_assoc, Nat.add_comm 1]
    have := h (k + 1) (Nat.succ_lt_succ hk)
    rwa [show p + 1 - off - 1 + k = p - off - 1 + (k + 1) by omega, Nat.add_assoc, Nat.add_comm 1]

end

/-! ## The decoder on the encoder's tokens -/

section
variable {cap : Nat}

/-- The groups of a literal run decode to the run (R92, R101). -/
theorem tdFrom_literalBytes (run rest out : List Byte) (ip : Nat) (hcap : out.length + run.length ≤ cap) :
    tdFrom cap ip (literalBytes run ++ rest) out
      = tdFrom cap (ip + (literalBytes run).length) rest (out ++ run) := by
  induction hn : run.length using Nat.strong_induction_on generalizing run out ip with
  | _ n ih =>
    by_cases hrun : run = []
    · subst hrun
      rw [literalBytes_nil, List.nil_append, List.append_nil]
      rfl
    · have hpos := List.length_pos_iff.mpr hrun
      have htake : (run.take 32).length = min 32 run.length := List.length_take
      have hsplit : literalBytes run ++ rest
          = encode (.lit (min 32 run.length)) ++ (run.take 32 ++ (literalBytes (run.drop 32) ++ rest)) := by
        rw [literalBytes_of_ne_nil hrun, List.append_assoc, List.append_assoc]
      have hdec := decodeToken_encode_lit (len := min 32 run.length) (by omega) (by omega)
        (run.take 32 ++ (literalBytes (run.drop 32) ++ rest))
      have hlen : (literalBytes run).length = 1 + min 32 run.length + (literalBytes (run.drop 32)).length := by
        rw [literalBytes_of_ne_nil hrun, List.length_append, List.length_append, htake]
        rfl
      rw [hsplit, tdFrom_lit hdec (List.length_append.trans (Nat.add_comm _ _)), ← htake, if_neg, if_neg,
        List.drop_left, List.take_left,
        ih (run.drop 32).length _ _ _ _ _ rfl, List.append_assoc, List.take_append_drop, hlen, htake, Nat.add_assoc]
      · rw [List.length_drop]; omega
      · rw [List.length_append, List.length_drop, htake]; omega
      · rw [htake]; omega
      · rw [List.length_append]; omega

theorem refToken_language (off len : Nat) : (refToken off len).language = .token := by
  unfold refToken
  split
  · exact shortRef_language _ _
  · rfl

/-- The token of a reference decodes to its copy (R93, R102). -/
theorem tdFrom_refToken {off len : Nat} (hoff : off ≤ 8191) (hmin : 3 ≤ len) (hmax : len ≤ 264)
    (rest out : List Byte) (ip : Nat) (hback : off < out.length) (hcap : out.length + len ≤ cap) :
    tdFrom cap ip (encode (refToken off len) ++ rest) out
      = tdFrom cap (ip + (encode (refToken off len)).length) rest (copyOut out off len) := by
  have hdec : decodeToken (encode (refToken off len) ++ rest) = .ok (refToken off len, rest) := by
    have hagree := decodeEncodeAgree (refToken off len) rest (refToken_wellFormed hmin hoff hmax)
    rwa [refToken_language] at hagree
  rw [tdFrom_reference hdec (refToken_reference hmin) (by split <;> decide)
      (by rw [List.length_append, length_encode_refToken hmin, Nat.add_comm]),
    if_neg (Nat.not_le.mpr hback), if_neg (Nat.not_lt.mpr hcap), length_encode_refToken hmin]

end

/-! ## The round trip -/

/-- Every entry of the two hash tables names a position before `b`. -/
def tablesBelow (m : MatchFinder) (b : Nat) : Prop :=
  ∀ j : Nat, (Sparse.get m.ht j).toNat ≤ b ∧ (Sparse.get m.head j).toNat ≤ b

section
variable {hf : Hash3} {mode : Mode} {d : List Byte} {m : MatchFinder} {b : Nat}

theorem tablesBelow_mono {b' : Nat} (h : tablesBelow m b) (hb : b ≤ b') : tablesBelow m b' :=
  fun j => ⟨(h j).1.trans hb, (h j).2.trans hb⟩

/-- An entry cut by its width is still below the position it was written for. -/
theorem get_set_ofNat_le {w : Nat} {t : List (Nat × BitVec w)} {k v j : Nat} (hv : v ≤ b)
    (ht : (Sparse.get t j).toNat ≤ b) : (Sparse.get (Sparse.set t k (BitVec.ofNat w v)) j).toNat ≤ b := by
  rw [Sparse.get_set]
  split
  · rw [BitVec.toNat_ofNat]
    exact (Nat.mod_le _ _).trans hv
  · exact ht

theorem tablesBelow_insertAt {q : Nat} (h : tablesBelow m b) (hq : q < b) :
    tablesBelow (insertAt hf mode d m q) b := by
  intro j
  cases mode with
  | normal =>
    simp only [insertAt, insertNormal]
    split
    · exact ⟨get_set_ofNat_le hq (h j).1, (h j).2⟩
    · exact h j
  | best =>
    simp only [insertAt, insertBest]
    split
    · exact ⟨(h j).1, get_set_ofNat_le hq (h j).2⟩
    · exact h j

theorem tablesBelow_insertSpan (n : Nat) {q : Nat} (h : tablesBelow m b) (hq : q + n ≤ b) :
    tablesBelow (insertSpan hf mode d m q n) b := by
  induction n generalizing m q with
  | zero => exact h
  | succ n ih => exact ih (tablesBelow_insertAt h (by omega)) (by omega)

theorem tablesBelow_decideAt {m' : MatchFinder} {v : Decision} (h : tablesBelow m m.p)
    (hd : decideAt hf mode d m = (m', v)) : tablesBelow m' (m.p + 1) := by
  have hm : m' = insertAt hf mode d m m.p := (congrArg Prod.fst hd).symm.trans (decideAt_fst hf mode d m)
  rw [hm]
  exact tablesBelow_insertAt (tablesBelow_mono h (Nat.le_succ _)) (Nat.lt_succ_self _)

theorem take_append_slice (d : List Byte) {i j : Nat} (h : i ≤ j) : d.take i ++ slice d i j = d.take j := by
  rw [slice, List.take_add.symm.trans (by rw [Nat.add_sub_cancel' h])]

/-- Decoding the bytes of the scan, after the input before the pending literal bytes, gives the input (R95). -/
theorem scanEmits_decodes {bs : List Byte} (h : ScanEmits hf mode d m bs) {cap : Nat} (ip : Nat) (hls : m.ls ≤ m.p)
    (hp : m.p ≤ d.length) (htables : tablesBelow m m.p) (hcap : d.length ≤ cap) :
    tdFrom cap ip bs (d.take m.ls) = ⟨none, ip + bs.length, d⟩ := by
  induction h generalizing ip with
  | finish m hend =>
    have hroom : (d.take m.ls).length + (slice d m.ls d.length).length ≤ cap := by
      rw [List.length_take, length_slice d (Nat.le_refl _)]
      omega
    rw [← List.append_nil (literalBytes _), tdFrom_literalBytes _ _ _ _ hroom, tdFrom_nil, List.append_nil,
      take_append_slice d (by omega), List.take_length]
  | tail m bs hlt _ _ ih =>
    exact ih ip (Nat.le_succ_of_le hls) hlt (tablesBelow_mono htables (Nat.le_succ _))
  | literal m m' bs hs hd _ ih =>
    have hcur := (decideAt_cursors hd).2
    rw [← hcur] at hls ⊢
    have htables' : tablesBelow m' (m.p + 1) := tablesBelow_decideAt htables hd
    exact ih ip (Nat.le_succ_of_le hls) (by dsimp only; omega) htables'
  | taken m m' off len bs hs hd _ ih =>
    obtain ⟨hoff, hmin, hmax, hin, hback, hagree⟩ := decidedMatchesAgree.2 hf mode d m m' off len hs
      (fun j => (htables j).1) (fun j => (htables j).2) hd
    have hcur := (decideAt_cursors hd).1
    have hafter : (afterMatch hf mode d m' len).ls = m.p + len := congrArg (· + len) hcur
    have hafterP : (afterMatch hf mode d m' len).p = m.p + len := hafter
    have hlit : (d.take m.ls).length + (slice d m.ls m.p).length ≤ cap := by
      rw [List.length_take, length_slice d hp]
      omega
    have htake : (d.take m.p).length = m.p := List.length_take_of_le hp
    have htables' : tablesBelow (afterMatch hf mode d m' len) (m.p + len) :=
      tablesBelow_insertSpan (m := m') (len - 2) (tablesBelow_mono (tablesBelow_decideAt htables hd) (by omega))
        (by omega)
    have hrest := ih (ip + (literalBytes (slice d m.ls m.p)).length + (encode (refToken off len)).length)
      (by rw [hafter, hafterP]) (hafterP ▸ hin) (hafterP ▸ htables')
    rw [List.append_assoc, tdFrom_literalBytes _ _ _ _ hlit, take_append_slice d hls,
      tdFrom_refToken hoff hmin hmax _ _ _ (by omega) (by omega), copyOut_take (by omega) hin hagree, ← hafter, hrest]
    simp only [List.length_append, Nat.add_assoc]

/-- Settles O52: a call emits the bytes of the scan from empty tables, and those decode to the input. -/
theorem compressionRoundTrip : Obligations.CompressionRoundTrip := by
  unfold Obligations.CompressionRoundTrip
  intro hf mode d cap dcap m hfits hcap
  obtain ⟨hout, hfit⟩ := mfCall_tables hf mode d cap m emptyFinder
  rw [hfit] at hfits
  obtain ⟨bs, hbs⟩ := scanEmits_exists hf mode d (freshFinder mode emptyFinder)
  have hfresh : freshFinder mode emptyFinder = emptyFinder := by cases mode <;> rfl
  rw [hout, (mfCall_emits cap hbs).2 hfits, decodeTokens_eq_tdFrom]
  rw [hfresh] at hbs
  have hdec := scanEmits_decodes hbs 0 (Nat.le_refl _) (Nat.zero_le _) (fun _ => ⟨le_rfl, le_rfl⟩) hcap
  rwa [Nat.zero_add] at hdec

end

/-! ## A capacity too small -/

/-- The two capacities part at the token that produces the last byte (R107). -/
theorem tdRun_tooSmall {n : Nat} (k : Nat) {ip ip' : Nat} {t out out' : List Byte}
    (h : tdRun (n + 1) k ip t out = ⟨none, ip', out'⟩) (hout' : out'.length = n + 1) (hout : out.length ≤ n) :
    (tdRun n k ip t out).err = some .outputTooSmall := by
  induction k generalizing ip t out with
  | zero => cases h; omega
  | succ k ih =>
    rcases decodeToken_cases t with rfl | hd | ⟨len, rest, hd, -, -⟩ | ⟨i, head, off, len, rest, hd, hi, -, -, -⟩
    · rw [tdRun_nil] at h
      cases h
      omega
    · rw [tdRun_truncated hd] at h
      cases h
    · rw [tdRun_lit hd] at h ⊢
      split at h
      · cases h
      · next hdata =>
        rw [if_neg hdata]
        split at h
        · cases h
        · split
          · rfl
          · next hroom => exact ih h (by rw [List.length_append, List.length_take]; omega)
    · rw [tdRun_reference hd hi] at h ⊢
      split at h
      · cases h
      · next hoff =>
        rw [if_neg hoff]
        split at h
        · cases h
        · split
          · rfl
          · next hroom => exact ih h (by rw [length_copyOut]; omega)

/-- Settles O53: the runs are alike up to the token that produces the last byte. -/
theorem capacityRejection : Obligations.CapacityRejection := by
  unfold Obligations.CapacityRejection
  intro t out n ip h hout
  exact tdRun_tooSmall t.length h hout (Nat.zero_le n)

end Sys2Proof.Machine
end

section
/-!
PROOF. Block framing on byte sequences (spec/43_block_framing.md R109 to R124): the encoder's blocks and their size, the
units of the block parser, the round trip, and the terminator.
-/
namespace Sys2Proof

/-! ## What the decoders answer -/

/-- A decoder that accepts bytes accepts them whatever follows. -/
theorem decodeIn_append {l : Language} {bs rest : List Byte} {i : Instr} (hl : l ≠ .command)
    (h : decodeIn l bs = .ok (i, rest)) (more : List Byte) : decodeIn l (bs ++ more) = .ok (i, rest ++ more) := by
  obtain ⟨hwf, hlang, hbytes⟩ := decodedBytesAreEncoded.1 l bs rest i hl h
  rw [← hbytes, List.append_assoc, ← hlang]
  exact decodeEncodeAgree i (rest ++ more) hwf

theorem decodeUnit_append {bs rest : List Byte} {i : Instr} (h : decodeUnit bs = .ok (i, rest)) (more : List Byte) :
    decodeUnit (bs ++ more) = .ok (i, rest ++ more) :=
  decodeIn_append (l := .block) nofun h more

/-- The error of a block start that spells no unit, with the byte for ERR_INFO (R116). -/
def DecodeError.headerError : DecodeError → Machine.ErrKind × Byte
  | .unknownType ty => (.unknownBlockType, ty)
  | _ => (.invalidHeader, 0#8)

/-- Everything the unit decoder can answer: nothing left, a bad header, the terminator, or one of the two blocks. -/
theorem decodeUnit_cases (f : List Byte) :
    f = [] ∨ (∃ e : DecodeError, decodeUnit f = .error e ∧ e ≠ .endOfInput)
      ∨ (∃ rest : List Byte, decodeUnit f = .ok (.term, rest) ∧ f.length = rest.length + 1)
      ∨ (∃ (u : Nat) (rest : List Byte), decodeUnit f = .ok (.blkRaw u, rest) ∧ f.length = rest.length + 5)
      ∨ ∃ (c u : Nat) (rest : List Byte), decodeUnit f = .ok (.blkCmp c u, rest) ∧ f.length = rest.length + 7 := by
  rcases h : decodeUnit f with e | ⟨i, rest⟩
  · cases f with
    | nil => exact .inl rfl
    | cons b f =>
      refine .inr (.inl ⟨e, rfl, ?_⟩)
      rintro rfl
      rw [decodeUnit_cons] at h
      split at h
      · cases h
      · split at h
        · split at h
          · cases h
          · split at h
            · split at h <;> cases h
            · split at h
              · split at h <;> cases h
              · cases h
        · cases h
  · have hlen : f.length = rest.length + (encode i).length := by
      rw [← encode_of_decodeUnit h, List.length_append, Nat.add_comm]
    have hlang := decodeUnit_language h
    cases i with
    | blkRaw u => exact .inr (.inr (.inr (.inl ⟨u, rest, rfl, hlen⟩)))
    | blkCmp c u => exact .inr (.inr (.inr (.inr ⟨c, u, rest, rfl, hlen⟩)))
    | term => exact .inr (.inr (.inl ⟨rest, rfl, hlen⟩))
    | _ => cases hlang

end Sys2Proof

namespace Sys2Proof.Machine

/-! ## One unit of the block parser -/

section
variable {cap : Nat} {f : List Byte}

theorem unframe_nil (cap k ipos : Nat) (out : List Byte) : unframe cap k ipos [] out = ⟨none, ipos, out, 0#2⟩ := by
  cases k <;> rfl

theorem unframe_error {e : DecodeError} (h : decodeUnit f = .error e) (he : e ≠ .endOfInput) (k ipos : Nat)
    (out : List Byte) : unframe cap (k + 1) ipos f out = ⟨some e.headerError, ipos, out, 0#2⟩ := by
  simp only [unframe, h]
  cases e with
  | endOfInput => exact absurd rfl he
  | _ => rfl

theorem unframe_term {rest : List Byte} (h : decodeUnit f = .ok (.term, rest)) (k ipos : Nat) (out : List Byte) :
    unframe cap (k + 1) ipos f out = ⟨none, ipos + 1, out, 1#2⟩ := by
  simp only [unframe, h]

theorem unframe_blkRaw {u : Nat} {rest : List Byte} (h : decodeUnit f = .ok (.blkRaw u, rest)) (k ipos : Nat)
    (out : List Byte) :
    unframe cap (k + 1) ipos f out =
      if rest.length < u then ⟨some (.invalidData, 0#8), ipos, out, 0#2⟩
      else if cap < out.length + u then ⟨some (.outputTooSmall, 0#8), ipos, out, 0#2⟩
      else unframe cap k (ipos + (5 + u)) (rest.drop u) (out ++ rest.take u) := by
  simp only [unframe, h]

theorem unframe_blkCmp {c u : Nat} {rest : List Byte} (h : decodeUnit f = .ok (.blkCmp c u, rest)) (k ipos : Nat)
    (out : List Byte) :
    unframe cap (k + 1) ipos f out =
      if rest.length < c then ⟨some (.invalidData, 0#8), ipos, out, 0#2⟩
      else if cap < out.length + u then ⟨some (.outputTooSmall, 0#8), ipos, out, 0#2⟩
      else if (decodeTokens u (rest.take c)).err ≠ none ∨ (decodeTokens u (rest.take c)).out.length ≠ u
      then ⟨some (.invalidData, 0#8), ipos, out, 0#2⟩
      else unframe cap k (ipos + (7 + c)) (rest.drop c) (out ++ (decodeTokens u (rest.take c)).out) := by
  simp only [unframe, h]

/-- The number of units is no bound of its own: every unit takes at least one byte. -/
theorem unframe_fuel {k k' ipos : Nat} {out : List Byte} (hk : f.length ≤ k) (hk' : f.length ≤ k') :
    unframe cap k ipos f out = unframe cap k' ipos f out := by
  induction k generalizing k' ipos f out with
  | zero =>
    obtain rfl := List.length_eq_zero_iff.mp (Nat.le_zero.mp hk)
    rw [unframe_nil, unframe_nil]
  | succ k ih =>
    by_cases hf : f = []
    · rw [hf, unframe_nil, unframe_nil]
    obtain ⟨k', rfl⟩ : ∃ j, k' = j + 1 :=
      ⟨k' - 1, by have := List.length_pos_iff.mpr hf; omega⟩
    rcases decodeUnit_cases f with h | ⟨e, h, he⟩ | ⟨rest, h, hsize⟩ | ⟨u, rest, h, hsize⟩ | ⟨c, u, rest, h, hsize⟩
    · exact absurd h hf
    · rw [unframe_error h he, unframe_error h he]
    · rw [unframe_term h, unframe_term h]
    · have hdrop : (rest.drop u).length ≤ rest.length := List.length_drop ▸ Nat.sub_le _ _
      rw [unframe_blkRaw h, unframe_blkRaw h, ih (k' := k') (by omega) (by omega)]
    · have hdrop : (rest.drop c).length ≤ rest.length := List.length_drop ▸ Nat.sub_le _ _
      rw [unframe_blkCmp h, unframe_blkCmp h, ih (k' := k') (by omega) (by omega)]

/-- The loop of DECODE on all the block bytes `f`, the next at offset `ipos`, after the output `out`. -/
def unframeFrom (cap ipos : Nat) (f out : List Byte) : FrameEnd := unframe cap f.length ipos f out

theorem decodeFrames_eq_unframeFrom (cap : Nat) (f : List Byte) : decodeFrames cap f = unframeFrom cap 0 f [] :=
  unframe_fuel (Nat.le_succ _) (Nat.le_refl _)

theorem unframeFrom_nil (cap ipos : Nat) (out : List Byte) : unframeFrom cap ipos [] out = ⟨none, ipos, out, 0#2⟩ :=
  unframe_nil _ _ _ _

/-- Where the parser finds anything, its first unit decides, and the rest is parsed after it. -/
theorem unframeFrom_eq_unframe_succ {k : Nat} (hk : f.length ≤ k + 1) (ipos : Nat) (out : List Byte) :
    unframeFrom cap ipos f out = unframe cap (k + 1) ipos f out :=
  unframe_fuel (Nat.le_refl _) hk

theorem unframeFrom_error {e : DecodeError} (h : decodeUnit f = .error e) (he : e ≠ .endOfInput) (ipos : Nat)
    (out : List Byte) : unframeFrom cap ipos f out = ⟨some e.headerError, ipos, out, 0#2⟩ :=
  (unframeFrom_eq_unframe_succ (Nat.le_succ _) ipos out).trans (unframe_error h he _ _ _)

theorem unframeFrom_term {rest : List Byte} (h : decodeUnit f = .ok (.term, rest)) (ipos : Nat) (out : List Byte) :
    unframeFrom cap ipos f out = ⟨none, ipos + 1, out, 1#2⟩ :=
  (unframeFrom_eq_unframe_succ (Nat.le_succ _) ipos out).trans (unframe_term h _ _ _)

theorem unframeFrom_blkRaw {u : Nat} {rest : List Byte} (h : decodeUnit f = .ok (.blkRaw u, rest))
    (hsize : f.length = rest.length + 5) (ipos : Nat) (out : List Byte) :
    unframeFrom cap ipos f out =
      if rest.length < u then ⟨some (.invalidData, 0#8), ipos, out, 0#2⟩
      else if cap < out.length + u then ⟨some (.outputTooSmall, 0#8), ipos, out, 0#2⟩
      else unframeFrom cap (ipos + (5 + u)) (rest.drop u) (out ++ rest.take u) := by
  have hdrop : (rest.drop u).length ≤ rest.length + 4 := by rw [List.length_drop]; omega
  rw [unframeFrom_eq_unframe_succ hsize.le, unframe_blkRaw h, unframe_fuel hdrop (Nat.le_refl _)]
  rfl

theorem unframeFrom_blkCmp {c u : Nat} {rest : List Byte} (h : decodeUnit f = .ok (.blkCmp c u, rest))
    (hsize : f.length = rest.length + 7) (ipos : Nat) (out : List Byte) :
    unframeFrom cap ipos f out =
      if rest.length < c then ⟨some (.invalidData, 0#8), ipos, out, 0#2⟩
      else if cap < out.length + u then ⟨some (.outputTooSmall, 0#8), ipos, out, 0#2⟩
      else if (decodeTokens u (rest.take c)).err ≠ none ∨ (decodeTokens u (rest.take c)).out.length ≠ u
      then ⟨some (.invalidData, 0#8), ipos, out, 0#2⟩
      else unframeFrom cap (ipos + (7 + c)) (rest.drop c) (out ++ (decodeTokens u (rest.take c)).out) := by
  have hdrop : (rest.drop c).length ≤ rest.length + 6 := by rw [List.length_drop]; omega
  rw [unframeFrom_eq_unframe_succ hsize.le, unframe_blkCmp h, unframe_fuel hdrop (Nat.le_refl _)]
  rfl

end

/-! ## The terminator -/

/-- Whole blocks parse as before with a terminator behind them, which ends the stream (R119). -/
theorem unframeFrom_terminator {cap : Nat} {f out out' : List Byte} {ipos : Nat} (trailing : List Byte)
    (h : unframeFrom cap ipos f out = ⟨none, ipos + f.length, out', 0#2⟩) :
    unframeFrom cap ipos (f ++ 0x00#8 :: trailing) out = ⟨none, ipos + f.length + 1, out', 1#2⟩ := by
  induction hn : f.length using Nat.strong_induction_on generalizing f ipos out with
  | _ n ih =>
    subst hn
    rcases decodeUnit_cases f with rfl | ⟨e, hd, he⟩ | ⟨rest, hd, -⟩ | ⟨u, rest, hd, hsize⟩ | ⟨c, u, rest, hd, hsize⟩
    · obtain rfl : out = out' := congrArg FrameEnd.out h
      exact unframeFrom_term (rest := trailing) rfl ipos out
    · rw [unframeFrom_error hd he] at h
      cases congrArg FrameEnd.err h
    · rw [unframeFrom_term hd] at h
      exact absurd (congrArg FrameEnd.endKind h) (show 1#2 ≠ 0#2 by decide)
    · rw [unframeFrom_blkRaw hd hsize] at h
      rw [unframeFrom_blkRaw (decodeUnit_append hd _) (by simp only [List.length_append]; omega)]
      split at h
      · cases h
      · next hdata =>
        have hle := Nat.le_of_not_lt hdata
        have hlen : (rest.drop u).length = rest.length - u := List.length_drop
        rw [if_neg (by rw [List.length_append]; omega)]
        split at h
        · cases h
        · next hroom =>
          rw [if_neg hroom, List.drop_append_of_le_length hle, List.take_append_of_le_length hle]
          have := ih (rest.drop u).length (by omega) (ipos := ipos + (5 + u)) (by rw [h, hlen]; congr 1; omega) rfl
          rw [this, hlen]
          congr 1
          omega
    · rw [unframeFrom_blkCmp hd hsize] at h
      rw [unframeFrom_blkCmp (decodeUnit_append hd _) (by simp only [List.length_append]; omega)]
      split at h
      · cases h
      · next hdata =>
        have hle := Nat.le_of_not_lt hdata
        have hlen : (rest.drop c).length = rest.length - c := List.length_drop
        rw [if_neg (by rw [List.length_append]; omega), List.take_append_of_le_length hle]
        split at h
        · cases h
        · next hroom =>
          rw [if_neg hroom]
          split at h
          · cases h
          · next hpayload =>
            rw [if_neg hpayload, List.drop_append_of_le_length hle]
            have := ih (rest.drop c).length (by omega) (ipos := ipos + (7 + c)) (by rw [h, hlen]; congr 1; omega) rfl
            rw [this, hlen]
            congr 1
            omega

/-- Settles O57: the units before the terminator parse alike, and the terminator ends the stream. -/
theorem terminatorLaw : Obligations.TerminatorLaw := by
  unfold Obligations.TerminatorLaw
  intro cap f out trailing h
  rw [decodeFrames_eq_unframeFrom] at h ⊢
  have hterm := unframeFrom_terminator trailing (ipos := 0) (by rwa [Nat.zero_add])
  rwa [Nat.zero_add] at hterm

/-! ## The blocks of an input -/

section
variable {hf : Hash3} {mode : Mode} {bs : Nat}

theorem framedBlocks_fuel (hbs : 1 ≤ bs) {k k' : Nat} {d : List Byte} (hk : d.length ≤ k) (hk' : d.length ≤ k') :
    framedBlocks hf mode bs k d = framedBlocks hf mode bs k' d := by
  induction k generalizing k' d with
  | zero =>
    obtain rfl := List.length_eq_zero_iff.mp (Nat.le_zero.mp hk)
    cases k' <;> rfl
  | succ k ih =>
    match k', d, hk' with
    | 0, [], _ | _ + 1, [], _ => rfl
    | k' + 1, b :: d, hk' =>
      rw [List.length_cons] at hk hk'
      have hdrop : ((b :: d).drop bs).length ≤ d.length := by rw [List.length_drop, List.length_cons]; omega
      rw [framedBlocks, framedBlocks, ih (k' := k') (by omega) (by omega)]

theorem framed_nil (hf : Hash3) (mode : Mode) (bs : Nat) : framed hf mode bs [] = [] := rfl

/-- The block of the first chunk, then the blocks of the rest (R111). -/
theorem framed_of_ne_nil (hbs : 1 ≤ bs) {d : List Byte} (hd : d ≠ []) :
    framed hf mode bs d = blockOf hf mode (d.take bs) ++ framed hf mode bs (d.drop bs) := by
  obtain ⟨b, d, rfl⟩ := List.exists_cons_of_ne_nil hd
  have hdrop : ((b :: d).drop bs).length ≤ d.length := by rw [List.length_drop, List.length_cons]; omega
  show framedBlocks hf mode bs (d.length + 1) (b :: d) = _
  rw [framedBlocks, framedBlocks_fuel hbs hdrop (Nat.le_refl _)]
  rfl

/-- The blocks of an input cut at a multiple of the block size are those of its two parts (R115). -/
theorem framed_take_append_drop (hbs : 1 ≤ bs) (k : Nat) (d : List Byte) :
    framed hf mode bs d = framed hf mode bs (d.take (k * bs)) ++ framed hf mode bs (d.drop (k * bs)) := by
  induction k generalizing d with
  | zero =>
    rw [Nat.zero_mul, List.take_zero, List.drop_zero, framed_nil, List.nil_append]
  | succ k ih =>
    by_cases hd : d = []
    · subst hd
      rw [List.take_nil, List.drop_nil, framed_nil, List.nil_append]
    · have hcut : (k + 1) * bs = bs + k * bs := by rw [Nat.succ_mul, Nat.add_comm]
      have hne : d.take ((k + 1) * bs) ≠ [] := by
        rw [hcut]
        exact fun h => hd ((List.take_eq_nil_iff.mp h).resolve_left (by omega))
      rw [framed_of_ne_nil hbs hd, framed_of_ne_nil hbs hne, List.append_assoc, ih (d.drop bs), List.drop_drop,
        List.take_take, Nat.min_eq_left (by omega), List.drop_take, hcut, Nat.add_sub_cancel_left]

/-- Settles O55: the first chunk by the definition of the blocks, the cuts by induction on the chunks before them. -/
theorem chunkingInvariance : Obligations.ChunkingInvariance := by
  unfold Obligations.ChunkingInvariance
  exact fun hf mode bs d hbs => ⟨framed_of_ne_nil hbs, fun k => framed_take_append_drop hbs k d⟩

/-! ## The type and the size of a block -/

/-- The token stream of a non-empty input is not empty, since it decodes to the input. -/
theorem length_mfCall_pos {x : List Byte} {cap : Nat} {m : MatchFinder} (hx : x ≠ [])
    (hfits : (mfCall hf mode x cap m).fits = true) : 0 < (mfCall hf mode x cap m).out.length := by
  refine List.length_pos_iff.mpr fun hnil => hx ?_
  have hdec := compressionRoundTrip hf mode x cap x.length m hfits (Nat.le_refl _)
  rw [hnil, decodeTokens_eq_tdFrom, tdFrom_nil] at hdec
  exact (congrArg TdEnd.out hdec).symm

theorem blockOf_of_fits {x : List Byte}
    (h : (mfCall hf mode x (scratchBudget x.length) emptyFinder).fits = true) :
    blockOf hf mode x
      = encode (.blkCmp (mfCall hf mode x (scratchBudget x.length) emptyFinder).out.length x.length)
          ++ (mfCall hf mode x (scratchBudget x.length) emptyFinder).out :=
  if_pos h

theorem blockOf_of_not_fits {x : List Byte}
    (h : ¬(mfCall hf mode x (scratchBudget x.length) emptyFinder).fits = true) :
    blockOf hf mode x = encode (.blkRaw x.length) ++ x :=
  if_neg h

/-- A chunk grows by at most the header of BLK_RAW (R113). -/
theorem length_blockOf_le {x : List Byte} (hx : x ≠ []) : (blockOf hf mode x).length ≤ x.length + 5 := by
  by_cases h : (mfCall hf mode x (scratchBudget x.length) emptyFinder).fits = true
  · have hle := length_out_mfCall_le h
    have hpos := length_mfCall_pos hx h
    have hhead : ∀ c u : Nat, (encode (.blkCmp c u)).length = 7 := fun _ _ => rfl
    rw [blockOf_of_fits h, List.length_append, hhead]
    unfold scratchBudget at hle hpos ⊢
    omega
  · have hhead : ∀ u : Nat, (encode (.blkRaw u)).length = 5 := fun _ => rfl
    rw [blockOf_of_not_fits h, List.length_append, hhead, Nat.add_comm]

/-- One chunk of the input makes one more of the chunks counted by rounding up. -/
theorem ceilDiv_chunk (n : Nat) (hbs : 1 ≤ bs) (hn : 1 ≤ n) :
    (n - bs + bs - 1) / bs + 1 ≤ (n + bs - 1) / bs := by
  rcases Nat.lt_or_ge n bs with hlt | hge
  · rw [Nat.sub_eq_zero_of_le (Nat.le_of_lt hlt), Nat.zero_add, Nat.div_eq_of_lt (by omega)]
    exact (Nat.one_le_div_iff (by omega)).mpr (by omega)
  · rw [Nat.sub_add_cancel hge, ← Nat.add_div_right _ hbs, Nat.sub_add_comm hn]

theorem length_framed_le (hbs : 1 ≤ bs) (d : List Byte) :
    (framed hf mode bs d).length ≤ d.length + 5 * ((d.length + bs - 1) / bs) := by
  induction hn : d.length using Nat.strong_induction_on generalizing d with
  | _ n ih =>
    by_cases hd : d = []
    · rw [hd, framed_nil, List.length_nil]
      exact Nat.zero_le _
    · have hpos := List.length_pos_iff.mpr hd
      have hne : d.take bs ≠ [] := fun h => hd ((List.take_eq_nil_iff.mp h).resolve_left (by omega))
      have hblock := length_blockOf_le (hf := hf) (mode := mode) hne
      have hdrop : (d.drop bs).length = n - bs := hn ▸ List.length_drop
      have hrest := ih (n - bs) (by omega) (d.drop bs) hdrop
      have hchunks := ceilDiv_chunk n hbs (by omega)
      rw [List.length_take] at hblock
      rw [framed_of_ne_nil hbs hd, List.length_append]
      omega

/-- Settles O54: the budget of SCRATCH decides the type, and every chunk grows by at most five bytes. -/
theorem blockTypeSelection : Obligations.BlockTypeSelection := by
  unfold Obligations.BlockTypeSelection
  constructor
  · intro hf mode x big m hx _ hbig
    obtain ⟨hiff, hout⟩ := streamFitsExactly hf mode x (scratchBudget x.length) big m emptyFinder hbig
    have hpos := length_mfCall_pos hx hbig
    constructor
    · intro hsmall
      have hfits := hiff.mpr (Nat.le_sub_of_add_le hsmall)
      have hblock := blockOf_of_fits hfits
      rw [hout hfits] at hblock
      refine ⟨hblock, ?_⟩
      have hhead : ∀ c u : Nat, (encode (.blkCmp c u)).length = 7 := fun _ _ => rfl
      rw [hblock, List.length_append, hhead]
      omega
    · intro hlarge
      have hblock := blockOf_of_not_fits (hf := hf) (mode := mode) (x := x) fun hfits => by
        have hle := hiff.mp hfits
        unfold scratchBudget at hle
        omega
      refine ⟨hblock, ?_⟩
      rw [hblock, List.length_append, Nat.add_comm]
      rfl
  · intro hf mode bs d w hbs _
    have hterm : (terminator w).length = if w then 1 else 0 := by cases w <;> rfl
    rw [List.length_append, hterm]
    exact Nat.add_le_add_right (length_framed_le hbs d) _

/-! ## The round trip -/

section
variable {cap : Nat} {x : List Byte}

/-- A block parses to its chunk, with both types (R109, R117, R118). -/
theorem unframeFrom_blockOf (hx : x.length ≤ Config.maxBlock) (rest out : List Byte) (ipos : Nat)
    (hcap : out.length + x.length ≤ cap) :
    unframeFrom cap ipos (blockOf hf mode x ++ rest) out
      = unframeFrom cap (ipos + (blockOf hf mode x).length) rest (out ++ x) := by
  by_cases h : (mfCall hf mode x (scratchBudget x.length) emptyFinder).fits = true
  · rw [blockOf_of_fits h]
    have hle := length_out_mfCall_le h
    have hdec := compressionRoundTrip hf mode x _ x.length _ h (Nat.le_refl _)
    generalize (mfCall hf mode x (scratchBudget x.length) emptyFinder).out = payload at hle hdec ⊢
    have hunit := decodeUnit_encode_blkCmp (hle.trans ((Nat.sub_le _ _).trans hx)) hx (payload ++ rest)
    rw [List.append_assoc, unframeFrom_blkCmp hunit (List.length_append.trans (Nat.add_comm _ _)),
      List.take_left, List.drop_left, hdec, if_neg (by rw [List.length_append]; omega), if_neg (by omega),
      if_neg (by simp), List.length_append]
    rfl
  · have hunit := decodeUnit_encode_blkRaw hx (x ++ rest)
    rw [blockOf_of_not_fits h, List.append_assoc,
      unframeFrom_blkRaw hunit (List.length_append.trans (Nat.add_comm _ _)), List.take_left, List.drop_left,
      if_neg (by rw [List.length_append]; omega), if_neg (by omega), List.length_append]
    rfl

theorem unframeFrom_framed (hbs : 1 ≤ bs) (hmax : bs ≤ Config.maxBlock) (d rest out : List Byte) (ipos : Nat)
    (hcap : out.length + d.length ≤ cap) :
    unframeFrom cap ipos (framed hf mode bs d ++ rest) out
      = unframeFrom cap (ipos + (framed hf mode bs d).length) rest (out ++ d) := by
  induction hn : d.length using Nat.strong_induction_on generalizing d out ipos with
  | _ n ih =>
    by_cases hd : d = []
    · rw [hd, framed_nil, List.nil_append, List.append_nil]
      rfl
    · have hpos := List.length_pos_iff.mpr hd
      have htake : (d.take bs).length = min bs d.length := List.length_take
      have hdrop : (d.drop bs).length = d.length - bs := List.length_drop
      rw [framed_of_ne_nil hbs hd, List.append_assoc, unframeFrom_blockOf (by omega) _ _ _ (by omega),
        ih _ (by omega) (d.drop bs) (out ++ d.take bs) _ (by rw [List.length_append]; omega) rfl, List.append_assoc,
        List.take_append_drop, List.length_append, Nat.add_assoc]

end

/-- Settles O56: the blocks parse to their chunks, and then the input or the terminator ends the stream. -/
theorem framedRoundTrip : Obligations.FramedRoundTrip := by
  unfold Obligations.FramedRoundTrip
  intro hf mode bs d w cap hbs hmax hcap
  rw [decodeFrames_eq_unframeFrom, unframeFrom_framed hbs hmax d _ _ _ (by rwa [List.length_nil, Nat.zero_add]),
    List.length_append, Nat.zero_add, List.nil_append]
  cases w with
  | false => exact unframeFrom_nil _ _ _
  | true => exact unframeFrom_term (rest := []) rfl _ _

end

end Sys2Proof.Machine
end

section
/-!
PROOF. What every step leaves of the host's registers and of the results (spec/10_state.md R20, R30,
spec/60_exceptions.md R141, R145): a step of the engine goes on with them unchanged or ends in one of the two
completions, and a move of the host leaves the running command alone or is GO, an acknowledgement or reset.
-/
namespace Sys2Proof.Machine

/-! ## A step of the engine -/

/-- The host's registers, the latched operands, the platform, the host's side and the results are unchanged. -/
def State.sameOutward (s u : State) : Prop := s.sameAgents u ∧ s.sameResults u

/-- Where the engine gets to from `s`: on with the command, its completion, or its error completion, where ERR_INFO is
that of an `UnknownBlockType` (R133, R143). -/
inductive State.ranTo (s : State) : State → Prop
  | goesOn {t : State} : s.sameOutward t → (s.busy = true → t.busy = true) → s.ranTo t
  | completes {u : State} {result consumed : Nat} {endKind : BitVec 2} : s.sameOutward u → endKind.toNat ≤ 2 →
      s.ranTo (u.complete result consumed endKind)
  | fails {u : State} {e : ErrKind} {result consumed : Nat} {info : Byte} : s.sameOutward u →
      (info = 0#8 ∨ e = .unknownBlockType) → s.ranTo (u.errorEnd e result consumed info)

section
variable {s t u : State}

theorem sameAgents_trans (h₁ : s.sameAgents u) (h₂ : u.sameAgents t) : s.sameAgents t := by
  obtain ⟨h1, h2, h3, h4, h5, h6⟩ := h₁
  obtain ⟨k1, k2, k3, k4, k5, k6⟩ := h₂
  exact ⟨k1.trans h1, k2.trans h2, k3.trans h3, k4.trans h4, k5.trans h5, k6.trans h6⟩

theorem sameResults_trans (h₁ : s.sameResults u) (h₂ : u.sameResults t) : s.sameResults t := by
  obtain ⟨h1, h2, h3, h4, h5, h6, h7⟩ := h₁
  obtain ⟨k1, k2, k3, k4, k5, k6, k7⟩ := h₂
  exact ⟨k1.trans h1, k2.trans h2, k3.trans h3, k4.trans h4, k5.trans h5, k6.trans h6, k7.trans h7⟩

theorem sameOutward_trans (h₁ : s.sameOutward u) (h₂ : u.sameOutward t) : s.sameOutward t :=
  ⟨sameAgents_trans h₁.1 h₂.1, sameResults_trans h₁.2 h₂.2⟩

/-- The engine's own fields are no part of what the host sees. -/
theorem sameOutward_inner (s : State) (activity : Activity) (mf : MatchFinder) (teCount : Nat) (scratch : List Byte)
    (td : TokenDecoder) (bfc : BlockFramer) (mem : List Host.Cell) (draws : Nat) :
    s.sameOutward { s with
      activity := activity, mf := mf, teCount := teCount, scratch := scratch, td := td, bfc := bfc, mem := mem
      draws := draws } :=
  ⟨⟨rfl, rfl, rfl, rfl, rfl, rfl⟩, ⟨rfl, rfl, rfl, rfl, rfl, rfl, rfl⟩⟩

theorem sameOutward_refl (s : State) : s.sameOutward s := sameOutward_inner s _ _ _ _ _ _ _ _

theorem sameOutward_scramble (s : State) (a n : Nat) : s.sameOutward (s.scramble a n) :=
  sameOutward_inner s _ _ _ _ _ _ _ _

theorem sameOutward_startToken (s : State) : s.sameOutward s.startToken := sameOutward_inner s _ _ _ _ _ _ _ _

theorem sameOutward_withChunk (s : State) (r : Coded) (n : Nat) : s.sameOutward (s.withChunk r n) :=
  sameOutward_inner s _ _ _ _ _ _ _ _

theorem sameOutward_withBlock (s : State) (blk : List Byte) (n : Nat) : s.sameOutward (s.withBlock blk n) :=
  sameOutward_inner s _ _ _ _ _ _ _ _

theorem ranTo_of_sameOutward (hu : s.sameOutward u) (hb : s.busy = true → u.busy = true) (h : u.ranTo t) :
    s.ranTo t := by
  cases h with
  | goesOn ht hbt => exact .goesOn (sameOutward_trans hu ht) (hbt ∘ hb)
  | completes ht hk => exact .completes (sameOutward_trans hu ht) hk
  | fails ht hi => exact .fails (sameOutward_trans hu ht) hi

/-! ### The ends -/

theorem ranTo_busErrorEnd (hu : s.sameOutward u) : s.ranTo u.busErrorEnd :=
  .fails (sameOutward_trans hu (sameOutward_scramble u _ _)) (.inl rfl)

theorem ranTo_badParameter (s : State) : s.ranTo s.badParameter := .fails (sameOutward_refl s) (.inl rfl)

theorem ranTo_blockError {e : ErrKind} {info : Byte} (hu : s.sameOutward u)
    (hi : info = 0#8 ∨ e = .unknownBlockType) : s.ranTo (u.blockError e info) := by
  unfold State.blockError
  split <;> exact .fails hu hi

theorem ranTo_payloadError (hu : s.sameOutward u) : s.ranTo u.payloadError :=
  ranTo_blockError (sameOutward_trans hu (sameOutward_scramble u _ _)) (.inl rfl)

theorem ranTo_tokenError (hu : s.sameOutward u) (e : ErrKind) : s.ranTo (u.tokenError e) := by
  unfold State.tokenError
  split
  · exact .fails hu (.inl rfl)
  · exact ranTo_payloadError hu

theorem ranTo_blockDone (hu : s.sameOutward u) (produced consumed : Nat) : s.ranTo (u.blockDone produced consumed) := by
  unfold State.blockDone
  split
  · exact .goesOn (sameOutward_trans hu (sameOutward_inner u _ _ _ _ _ _ _ _)) fun _ => rfl
  · exact .completes hu (by decide)

theorem ranTo_endTokens (s : State) : s.ranTo s.endTokens := by
  unfold State.endTokens
  split
  · exact .completes (sameOutward_refl s) (by decide)
  · split
    · exact ranTo_payloadError (sameOutward_refl s)
    · exact ranTo_blockDone (sameOutward_refl s) _ _

theorem ranTo_endBlocks (s : State) : s.ranTo s.endBlocks := by
  unfold State.endBlocks
  split <;> exact .completes (sameOutward_refl s) (by decide)

/-! ### The meanings -/

theorem execLit_ranTo {len : Nat} (h : execLit len s = .next t) : s.ranTo t := by
  have hstart := sameOutward_startToken s
  rcases execLit_next h with ⟨-, rfl⟩ | ⟨-, -, rfl⟩ | rfl | ⟨-, -, -, -, rfl⟩
  · exact ranTo_tokenError hstart _
  · exact ranTo_tokenError hstart _
  · exact ranTo_busErrorEnd hstart
  · exact .goesOn (sameOutward_inner s _ _ _ _ _ _ _ _) id

theorem execReference_ranTo {head off len : Nat} (h : execReference head off len s = .next t) : s.ranTo t := by
  have hstart := sameOutward_startToken s
  rcases execReference_next h with ⟨-, rfl⟩ | ⟨-, -, -, rfl⟩ | rfl | ⟨-, -, -, -, -, rfl⟩
  · exact ranTo_tokenError hstart _
  · exact ranTo_tokenError hstart _
  · exact ranTo_busErrorEnd hstart
  · exact .goesOn (sameOutward_inner s _ _ _ _ _ _ _ _) id

theorem execBlkRaw_ranTo {n : Nat} (h : execBlkRaw n s = .next t) : s.ranTo t := by
  rcases execBlkRaw_next h with ⟨-, rfl⟩ | ⟨-, rfl⟩ | rfl | ⟨-, -, -, rfl⟩
  · exact ranTo_blockError (sameOutward_refl s) (.inl rfl)
  · exact ranTo_blockError (sameOutward_refl s) (.inl rfl)
  · exact ranTo_busErrorEnd (sameOutward_refl s)
  · exact ranTo_blockDone (sameOutward_inner s _ _ _ _ _ _ _ _) _ _

theorem execBlkCmp_ranTo {c n : Nat} (h : execBlkCmp c n s = .next t) : s.ranTo t := by
  rcases execBlkCmp_cases c n s with ⟨-, h'⟩ | ⟨-, h'⟩ | ⟨-, -, h'⟩ <;> cases h'.symm.trans h
  · exact ranTo_blockError (sameOutward_scramble s _ _) (.inl rfl)
  · exact ranTo_blockError (sameOutward_refl s) (.inl rfl)
  · exact .goesOn (sameOutward_inner s _ _ _ _ _ _ _ _) fun _ => rfl

theorem execTerm_ranTo (h : execTerm s = .next t) : s.ranTo t := by
  unfold execTerm at h
  split at h <;> cases h <;> exact .completes (sameOutward_inner s _ _ _ _ _ _ _ _) (by decide)

/-- A command ends with a failed parameter check or does what its operation does (R128). -/
theorem launch_ranTo {ok : Bool} {op : Unit → Out} (h : launch ok s op = .next t) (hop : op () = .next t → s.ranTo t) :
    s.ranTo t := by
  rcases launch_next h with ⟨-, rfl⟩ | ⟨-, -, h⟩
  · exact ranTo_badParameter s
  · exact hop h

theorem execCompress_ranTo {mode : Mode} (h : execCompress mode s = .next t) : s.ranTo t := by
  refine launch_ranTo h fun h => ?_
  rcases compressOperation_next h with rfl | ⟨r, -, -, rfl⟩
  · exact ranTo_busErrorEnd (sameOutward_refl s)
  · unfold finishCompress
    split
    · exact .completes (sameOutward_inner s _ _ _ _ _ _ _ _) (by decide)
    · exact .fails (sameOutward_inner s _ _ _ _ _ _ _ _) (.inl rfl)

theorem execDecompress_ranTo (h : execDecompress s = .next t) : s.ranTo t := by
  refine launch_ranTo h fun h => ?_
  cases h
  exact .goesOn (sameOutward_inner s _ _ _ _ _ _ _ _) fun _ => rfl

theorem decodeLaunch_ranTo {owner : BfcOwner} (h : (launch true s fun _ => decodeOperation owner s) = .next t) :
    s.ranTo t := by
  refine launch_ranTo h fun h => ?_
  rcases decodeOperation_next h with rfl | rfl
  · exact .goesOn (sameOutward_inner s _ _ _ _ _ _ _ _) fun _ => rfl
  · exact ranTo_busErrorEnd (sameOutward_refl s)

theorem execMaxsize_ranTo (h : execMaxsize s = .next t) : s.ranTo t := by
  unfold execMaxsize at h
  split at h <;> cases h
  · exact .completes (sameOutward_refl s) (by decide)
  · exact ranTo_badParameter s

theorem finishEncode_ranTo {withTerm : Bool} (h : finishEncode withTerm s = .next t) : s.ranTo t := by
  rcases finishEncode_next h with ⟨-, rfl⟩ | ⟨-, -, rfl⟩ | ⟨-, rfl⟩ | ⟨-, -, -, rfl⟩
  · exact .completes (sameOutward_refl s) (by decide)
  · exact .fails (sameOutward_refl s) (.inl rfl)
  · exact ranTo_busErrorEnd (sameOutward_refl s)
  · exact .completes (sameOutward_withBlock s _ _) (by decide)

/-- The chunk loop, by induction on the bound of its turns. -/
theorem encodeLoop_ranTo {mode : Mode} {withTerm : Bool} {bs : Nat} (k : Nat)
    (h : encodeLoop mode withTerm bs k s = .next t) : s.ranTo t := by
  induction k generalizing s with
  | zero => exact finishEncode_ranTo h
  | succ k ih =>
    rcases encodeLoop_next h with ⟨-, h⟩ | ⟨-, n, x, r, -, -, -, rfl | rfl | ⟨-, rfl⟩ | ⟨-, -, h⟩⟩
    · exact finishEncode_ranTo h
    · exact ranTo_busErrorEnd (sameOutward_refl s)
    · exact ranTo_busErrorEnd (sameOutward_withChunk s r n)
    · exact .fails (sameOutward_withChunk s r n) (.inl rfl)
    · exact ranTo_of_sameOutward (sameOutward_trans (sameOutward_withChunk s r n) (sameOutward_withBlock _ _ _)) id
        (ih h)

theorem encodeLaunch_ranTo {ok : Bool} {mode : Mode} {withTerm : Bool} {bs k : Nat}
    (h : (launch ok s fun _ => encodeLoop mode withTerm bs k (s.withCursors 0 0)) = .next t) : s.ranTo t :=
  launch_ranTo h fun h =>
    ranTo_of_sameOutward (u := s.withCursors 0 0) (sameOutward_inner s _ _ _ _ _ _ _ _) id (encodeLoop_ranTo k h)

theorem exec_ranTo {i : Instr} (h : exec i s = .next t) : s.ranTo t := by
  cases i with
  | lit len => exact execLit_ranTo h
  | brefShortL3 _ | brefShortL4 _ | brefShortL5 _ | brefShortL6 _ | brefShortL7 _ | brefShortL8 _ | brefLong _ _ =>
    exact execReference_ranTo h
  | blkRaw n => exact execBlkRaw_ranTo h
  | blkCmp c n => exact execBlkCmp_ranTo h
  | term => exact execTerm_ranTo h
  | compress m w q => exact execCompress_ranTo h
  | decompress m w q => exact execDecompress_ranTo h
  | encode m w q | encodeBlock m w q => exact encodeLaunch_ranTo h
  | decode m w q => exact decodeLaunch_ranTo (owner := .decode) h
  | decodeBlock m w q => exact decodeLaunch_ranTo (owner := .decodeBlock) h
  | maxsize m w q => exact execMaxsize_ranTo h
  | reservedOp0 _ _ _ | reservedOp8 _ _ _ | reservedOp9 _ _ _ | reservedOpA _ _ _ | reservedOpB _ _ _
  | reservedOpC _ _ _ | reservedOpD _ _ _ | reservedOpE _ _ _ | reservedOpF _ _ _ =>
    cases h
    exact .fails (sameOutward_refl s) (.inl rfl)

/-! ### The fetch -/

theorem fetchUnit_over_ranTo (h : fetchUnit s = .over (.next t)) : s.ranTo t := by
  unfold fetchUnit at h
  split at h
  · cases h; exact ranTo_endBlocks s
  · rcases guardFetch_over_next h with h | rfl
    · split at h
      · cases h
      · cases h; exact ranTo_blockError (sameOutward_refl s) (.inr rfl)
      · cases h; exact ranTo_blockError (sameOutward_refl s) (.inl rfl)
    · exact ranTo_busErrorEnd (sameOutward_refl s)

theorem fetch_over_ranTo (h : fetch s = .over (.next t)) : s.ranTo t := by
  cases ha : s.activity with
  | idle => rw [fetch_idle ha] at h; cases h; exact .goesOn (sameOutward_refl s) id
  | dispatch => rw [fetch_dispatch ha] at h; cases h
  | tokens =>
    rw [fetch_tokens ha] at h
    rcases fetchToken_over_next h with rfl | rfl | rfl
    · exact ranTo_endTokens s
    · exact ranTo_busErrorEnd (sameOutward_refl s)
    · exact ranTo_tokenError (sameOutward_startToken s) _
  | blocks => rw [fetch_blocks ha] at h; exact fetchUnit_over_ranTo h

theorem engineStep_ranTo (h : engineStep s = .next t) : s.ranTo t := by
  rcases engineStep_cases h with ⟨i, -, hx⟩ | hf
  · exact exec_ranTo hx
  · exact fetch_over_ranTo hf

/-- Neither completion touches what the host set (R133, R143). -/
theorem sameAgents_of_ranTo (h : s.ranTo t) : s.sameAgents t := by
  cases h with
  | goesOn ht _ => exact ht.1
  | completes ht _ => exact ht.1
  | fails ht _ => exact ht.1

/-- Settles O41: wherever a step of the engine gets to, it leaves the agents' part alone. -/
theorem engineKeepsOperands : Obligations.EngineKeepsOperands := by
  unfold Obligations.EngineKeepsOperands
  intro s u t hturn hstep
  rw [step_of_turn_engine hturn] at hstep
  exact sameAgents_of_ranTo (engineStep_ranTo hstep)

/-! ## A move of the host -/

/-- What a move of the host leaves of a running command: everything but a byte of memory (R30, R50). -/
structure State.sameRun (s t : State) : Prop where
  results : s.sameResults t
  activity : t.activity = s.activity
  latched : t.latched = s.latched
  td : t.td = s.td
  bfc : t.bfc = s.bfc
  mem : t.mem = s.mem ∨ ∃ (a : Nat) (b : Byte), a < addrSpace ∧ t.mem = Sparse.set s.mem a b

/-- The host's side, the platform and the operand registers are no part of a running command. -/
theorem sameRun_outer (s : State) (regs : OperandRegs) (platform : Platform) (host : HostSide) (draws : Nat) :
    s.sameRun { s with regs := regs, platform := platform, host := host, draws := draws } :=
  ⟨⟨rfl, rfl, rfl, rfl, rfl, rfl, rfl⟩, rfl, rfl, rfl, rfl, .inl rfl⟩

theorem sameRun_writeOperand (s : State) (regs : OperandRegs) : s.sameRun (s.writeOperand regs) := by
  unfold State.writeOperand
  split
  · exact sameRun_outer s _ _ _ _
  · exact sameRun_outer s _ _ _ _

/-- Everything a register write can do: GO accepted while IDLE, an acknowledgement, or nothing to the running
command. -/
theorem writeReg_cases (s : State) (r : Reg) (v : Word) :
    s.sameRun (s.writeReg r v) ∨ (s.busy = false ∧ s.writeReg r v = s.accept) ∨ s.writeReg r v = s.acknowledge v := by
  cases r with
  | ctrl | srcAddr | srcLen | dstAddr | dstCap | blockSize => exact .inl (sameRun_writeOperand s _)
  | status => exact .inr (.inr rfl)
  | go =>
    by_cases h : (v.getLsbD 0 && !s.busy) = true
    · obtain ⟨hv, hidle⟩ : v.getLsbD 0 = true ∧ s.busy = false := by simpa using h
      exact .inr (.inl ⟨hidle, writeReg_go_of_idle hidle hv⟩)
    · have hkept : s.writeReg .go v = s := if_neg h
      rw [hkept]
      exact .inl (sameRun_outer s _ _ _ _)
  | _ => exact .inl (sameRun_outer s _ _ _ _)

/-- Everything a move of the host can answer with a next state. -/
theorem hostMove_next {m : HostMove} (h : hostMove m s = .next t) :
    s.sameRun t ∨ (s.busy = false ∧ t = s.accept) ∨ (∃ v : Word, t = s.acknowledge v)
      ∨ (m = .reset ∧ t = s.resetMove) := by
  cases m with
  | regRead addr size =>
    simp only [hostMove] at h
    split at h
    · cases h; exact .inl (sameRun_outer s _ _ _ _)
    · cases h
  | regWrite addr size value =>
    simp only [hostMove] at h
    split at h
    · next r _ =>
      cases h
      rcases writeReg_cases s r value with hrun | ⟨hidle, hgo⟩ | hack
      · exact .inl hrun
      · exact .inr (.inl ⟨hidle, hgo⟩)
      · exact .inr (.inr (.inl ⟨value, hack⟩))
    · cases h
  | memRead addr =>
    simp only [hostMove] at h
    split at h
    · cases h
    · cases h
      unfold State.hostRead
      split <;> exact .inl (sameRun_outer s _ _ _ _)
  | memWrite addr value =>
    simp only [hostMove] at h
    split at h
    · cases h
    · split at h
      · cases h
      · cases h
        exact .inl ⟨⟨rfl, rfl, rfl, rfl, rfl, rfl, rfl⟩, rfl, rfl, rfl, rfl, .inr ⟨_, value, addr.isLt, rfl⟩⟩
  | reset => cases h; exact .inr (.inr (.inr ⟨rfl, rfl⟩))
  | order | cleanCache _ _ | discardCache _ _ | observeIrq | setBusFaults _ | engine | wait | waitIrq =>
    cases h
    exact .inl (sameRun_outer s _ _ _ _)

/-- Everything a step can be, with the moves it took off: a step of the engine, or a move of the host. -/
theorem step_next (h : step s = .next t) :
    ∃ moves : List HostMove, engineStep (s.withMoves moves) = .next t
      ∨ (s.withMoves moves).sameRun t ∨ ((s.withMoves moves).busy = false ∧ t = (s.withMoves moves).accept)
      ∨ (∃ v : Word, t = (s.withMoves moves).acknowledge v)
      ∨ ((∃ rest, s.host.moves = .reset :: rest) ∧ t = (s.withMoves moves).resetMove) := by
  rcases step_cases h with he | ⟨rest, -, he⟩ | ⟨m, rest, hm, rfl | hh⟩
  · exact ⟨s.host.moves, .inl he⟩
  · exact ⟨rest, .inl he⟩
  · exact ⟨rest, .inr (.inl (sameRun_outer _ _ _ _ _))⟩
  · refine ⟨rest, .inr ?_⟩
    rcases hostMove_next hh with hrun | hgo | hack | ⟨rfl, hreset⟩
    · exact .inl hrun
    · exact .inr (.inl hgo)
    · exact .inr (.inr (.inl hack))
    · exact .inr (.inr (.inr ⟨⟨rest, hm⟩, hreset⟩))

/-! ## The results after a command -/

/-- Settles O42: from IDLE the engine does nothing, and of the host's moves only GO and reset touch the results. -/
theorem resultsKeptUntilGo : Obligations.ResultsKeptUntilGo := by
  unfold Obligations.ResultsKeptUntilGo
  intro s t hidle hreset hstep hidle'
  have hactivity : s.activity = .idle := by simpa [State.busy] using hidle
  obtain ⟨moves, he | hrun | ⟨-, rfl⟩ | ⟨v, rfl⟩ | ⟨⟨rest, hm⟩, -⟩⟩ := step_next hstep
  · rw [engineStep_idle (s := s.withMoves moves) hactivity] at he
    cases he
    exact ⟨rfl, rfl, rfl, rfl, rfl⟩
  · obtain ⟨hlen, hcons, hinfo, -, -, hcode, hkind⟩ := hrun.results
    exact ⟨hcode, hlen, hcons, hinfo, hkind⟩
  · cases hidle'
  · exact ⟨rfl, rfl, rfl, rfl, rfl⟩
  · exact absurd hm (hreset rest)

/-! ## The flags -/

theorem busy_of_activity_eq (h : t.activity = s.activity) : t.busy = s.busy := by
  rw [State.busy, h, State.busy]

/-- The flags' invariant speaks of BUSY and the results alone. -/
theorem flagsHold_of_sameResults (h : s.sameResults t) (hb : t.busy = s.busy) (hs : s.flagsHold = true) :
    t.flagsHold = true := by
  obtain ⟨h1, h2, h3, h4, h5, h6, h7⟩ := h
  unfold State.flagsHold at hs ⊢
  rwa [hb, h1, h2, h3, h4, h5, h6, h7]

theorem flagsHold_acknowledge (v : Word) (hs : s.flagsHold = true) : (s.acknowledge v).flagsHold = true := by
  have hb : (s.acknowledge v).busy = s.busy := rfl
  cases hbusy : s.busy with
  | true =>
    obtain ⟨hdone, herr, -⟩ := (flagsHold_iff_of_busy hbusy).mp hs
    rwa [acknowledge_of_no_flag hdone herr v]
  | false =>
    obtain ⟨hboth, hcode, hkind, herr, hdone, hinfo⟩ := (flagsHold_iff_of_idle hbusy).mp hs
    refine (flagsHold_iff_of_idle (hb.trans hbusy)).mpr ⟨?_, hcode, hkind, fun h => herr ?_, fun h => hdone ?_, hinfo⟩
    · rintro ⟨h₁, h₂⟩
      exact hboth ⟨(Bool.and_eq_true _ _ ▸ h₁).1, (Bool.and_eq_true _ _ ▸ h₂).1⟩
    · exact (Bool.and_eq_true _ _ ▸ h).1
    · exact (Bool.and_eq_true _ _ ▸ h).1

theorem ErrKind.code_bounds (e : ErrKind) : e.code.toNat ≤ 7 ∧ e.code ≠ 0#4 := by
  cases e <;> decide

/-- A completion of a command that was running, and so had every flag 0, leaves the invariant. -/
theorem flagsHold_of_ranTo (hbusy : s.busy = true) (hs : s.flagsHold = true) (h : s.ranTo t) : t.flagsHold = true := by
  obtain ⟨hdone, herr, -, -, -, -, hinfo⟩ := (flagsHold_iff_of_busy hbusy).mp hs
  cases h with
  | goesOn ht hb => exact flagsHold_of_sameResults ht.2 ((hb hbusy).trans hbusy.symm) hs
  | @completes u result consumed endKind ht hk =>
    obtain ⟨-, -, -, hinfo', -, herr', -, -⟩ := ht
    refine (flagsHold_iff_of_idle rfl).mpr
      ⟨fun h => ?_, by simp, hk, fun h => ?_, fun _ => rfl, .inl (hinfo'.trans hinfo)⟩
    · exact absurd ((herr'.trans herr).symm.trans h.2) Bool.false_ne_true
    · exact absurd ((herr'.trans herr).symm.trans h) Bool.false_ne_true
  | @fails u e result consumed info ht hi =>
    obtain ⟨-, -, -, -, hdone', -, -, -⟩ := ht
    refine (flagsHold_iff_of_idle rfl).mpr ⟨fun h => ?_, e.code_bounds.1, by simp, fun _ => e.code_bounds.2,
      fun h => ?_,
      hi.imp_right (congrArg ErrKind.code)⟩
    · exact absurd ((hdone'.trans hdone).symm.trans h.1) Bool.false_ne_true
    · exact absurd ((hdone'.trans hdone).symm.trans h) Bool.false_ne_true

theorem flagsHold_engineStep (hs : s.flagsHold = true) (h : engineStep s = .next t) : t.flagsHold = true := by
  cases hbusy : s.busy with
  | true => exact flagsHold_of_ranTo hbusy hs (engineStep_ranTo h)
  | false =>
    rw [engineStep_idle (by simpa [State.busy] using hbusy)] at h
    cases h
    exact hs

/-- Settles O36: a running command ends with one flag and its code, and of the host's moves GO and reset clear every
flag and an acknowledgement clears some. -/
theorem flagsKept : Obligations.FlagsKept := by
  unfold Obligations.FlagsKept
  intro s t hs hstep
  obtain ⟨moves, he | hrun | ⟨-, rfl⟩ | ⟨v, rfl⟩ | ⟨-, rfl⟩⟩ := step_next hstep
  · exact flagsHold_engineStep (s := s.withMoves moves) hs he
  · exact flagsHold_of_sameResults (s := s.withMoves moves) hrun.results (busy_of_activity_eq hrun.activity) hs
  · exact (flagsHold_iff_of_busy rfl).mpr ⟨rfl, rfl, rfl, rfl, rfl, rfl, rfl⟩
  · exact flagsHold_acknowledge (s := s.withMoves moves) v hs
  · exact (flagsHold_iff_of_idle rfl).mpr ⟨nofun, by simp, by simp, nofun, nofun, .inl rfl⟩

end

end Sys2Proof.Machine
end

section
/-!
PROOF. Every step keeps memory well formed and the running decoder inside its ranges, and no access of the engine
leaves them (spec/20_memory.md R41, R42, spec/44_commands.md R131, R137): one lemma per operation, on its outcome.
-/
namespace Sys2Proof.Machine

/-! ## Memory -/

/-- The canonical form of memory, with every listed byte in the address space (R41). -/
def Memory.holds (m : List Host.Cell) : Prop := Memory.wf m = true ∧ ∀ c ∈ m, c.1 < addrSpace

theorem memoryHolds_iff (s : State) : s.memoryHolds = true ↔ Memory.holds s.mem := by
  simp [State.memoryHolds, Memory.holds, Memory.inSpace]

section
variable {m : List Host.Cell} {a n : Nat}

theorem Memory.holds_set (h : Memory.holds m) (ha : a < addrSpace) (b : Byte) : Memory.holds (Sparse.set m a b) := by
  refine ⟨Memory.wf_set m a b h.1, fun c hc => ?_⟩
  unfold Sparse.set at hc
  split at hc
  · exact h.2 c (Sparse.mem_of_mem_erase m a c hc)
  · rcases Sparse.mem_of_mem_insert _ _ _ c hc with rfl | hc
    · exact ha
    · exact h.2 c (Sparse.mem_of_mem_erase m a c hc)

theorem Memory.holds_writeBytes (bs : List Byte) (h : Memory.holds m) (ha : a + bs.length ≤ addrSpace) :
    Memory.holds (writeBytes m a bs) := by
  induction bs generalizing m a with
  | nil => exact h
  | cons b bs ih =>
    rw [List.length_cons] at ha
    exact ih (Memory.holds_set h (by omega) b) (by omega)

theorem Memory.holds_copyBytes (src : Nat) (h : Memory.holds m) (ha : a + n ≤ addrSpace) :
    Memory.holds (copyBytes m src a n) := by
  induction n generalizing m src a with
  | zero => exact h
  | succ n ih => exact ih (src + 1) (Memory.holds_set h (by omega) _) (by omega)

theorem Memory.holds_freeBytes (k : Nat) (h : Memory.holds m) (ha : a + n ≤ addrSpace) :
    Memory.holds (freeBytes k m a n) := by
  induction n with
  | zero => exact h
  | succ n ih => exact Memory.holds_set (ih (by omega)) (by omega) _

end

/-! ## The invariant's terms -/

theorem tokensInRange_iff (s : State) :
    s.tokensInRange = true ↔ s.srcLo ≤ s.td.srcBase ∧ s.td.srcBase + s.td.clen ≤ s.srcHi ∧ s.dstLo ≤ s.td.outBase
      ∧ s.td.outBase + s.td.cap ≤ s.dstHi ∧ s.td.ip ≤ s.td.clen ∧ s.td.op ≤ s.td.cap
      ∧ (s.td.owner = .decompress
          ∨ s.bfc.ipos + 7 + s.td.clen ≤ s.latched.srcLen.toNat ∧ s.bfc.opos + s.td.cap ≤ s.latched.dstCap.toNat) := by
  simp only [State.tokensInRange, Bool.and_eq_true, Bool.or_eq_true, beq_iff_eq, decide_eq_true_eq, and_assoc]

theorem blocksInRange_iff (s : State) :
    s.blocksInRange = true ↔ s.bfc.ipos ≤ s.latched.srcLen.toNat ∧ s.bfc.opos ≤ s.latched.dstCap.toNat := by
  simp [State.blocksInRange]

section
variable {s t u : State}

theorem rangesHold_iff_of_tokens (ha : s.activity = .tokens) :
    s.rangesHold = true ↔ s.rangesFit = true ∧ s.rangesOverlap = false ∧ s.tokensInRange = true := by
  simp [State.rangesHold, ha, and_assoc]

theorem rangesHold_iff_of_blocks (ha : s.activity = .blocks) :
    s.rangesHold = true ↔ s.rangesFit = true ∧ s.rangesOverlap = false ∧ s.blocksInRange = true := by
  simp [State.rangesHold, ha, and_assoc]

theorem rangesHold_of_idle (ha : s.activity = .idle) : s.rangesHold = true := by
  simp [State.rangesHold, ha]

/-- The ranges invariant speaks of the control state, the operands and the cursors alone. -/
theorem rangesHold_congr (hactivity : t.activity = s.activity) (hlatched : t.latched = s.latched) (htd : t.td = s.td)
    (hbfc : t.bfc = s.bfc) (hs : s.rangesHold = true) : t.rangesHold = true := by
  unfold State.rangesHold State.rangesFit State.rangesOverlap State.tokensInRange State.blocksInRange State.srcLo
    State.srcHi State.dstLo State.dstHi at hs ⊢
  rwa [hactivity, hlatched, htd, hbfc]

/-! ## Outcomes -/

/-- The outcome is a next state, and it meets `P`. -/
def Meets (P : State → Prop) : Out → Prop
  | .next t => P t
  | .fault _ => False
  | .refused _ => False

theorem Meets.exists_next {P : State → Prop} {o : Out} (h : Meets P o) : ∃ t : State, o = .next t ∧ P t := by
  cases o with
  | next t => exact ⟨t, rfl, h⟩
  | fault _ | refused _ => cases h

/-- Memory stays well formed and the ranges invariant holds in `t`. -/
def State.soundTo (s t : State) : Prop :=
  (s.memoryHolds = true → t.memoryHolds = true) ∧ t.rangesHold = true

/-- A command that ends is at IDLE, where only memory is asked for. -/
theorem soundTo_of_idle (ha : t.activity = .idle) (hm : Memory.holds s.mem → Memory.holds t.mem) : s.soundTo t :=
  ⟨fun h => (memoryHolds_iff t).mpr (hm ((memoryHolds_iff s).mp h)), rangesHold_of_idle ha⟩

theorem soundTo_of_mem_eq (hr : t.rangesHold = true) (hm : t.mem = s.mem) : s.soundTo t :=
  ⟨fun h => by rwa [memoryHolds_iff, hm, ← memoryHolds_iff], hr⟩

theorem soundTo_trans (h₁ : Memory.holds s.mem → Memory.holds u.mem) (h₂ : u.soundTo t) : s.soundTo t :=
  ⟨fun h => h₂.1 ((memoryHolds_iff u).mpr (h₁ ((memoryHolds_iff s).mp h))), h₂.2⟩

/-! ### Accesses -/

/-- A source access inside `S` is granted or gets a bus error (R42, R56). -/
theorem checkSource_inside (hfit : s.rangesFit = true) (bus : Bool) {a n : Nat} (hlo : s.srcLo ≤ a)
    (hhi : a + n ≤ s.srcHi) :
    s.checkSource bus a n = .granted ∧ (bus && s.busFaultIn .read a n) = false
      ∨ s.checkSource bus a n = .busError ∧ (bus && s.busFaultIn .read a n) = true := by
  have hspace := ((rangesFit_iff s).mp hfit).1
  unfold State.checkSource
  rw [if_neg (by simp; omega), if_neg (by omega)]
  cases (bus && s.busFaultIn .read a n) <;> simp

/-- A destination access inside `D` is granted or gets a bus error (R42, R56). -/
theorem checkDest_inside (hfit : s.rangesFit = true) (kind : BusAccess) {a n : Nat} (hlo : s.dstLo ≤ a)
    (hhi : a + n ≤ s.dstHi) :
    s.checkDest kind a n = .granted ∧ s.busFaultIn kind a n = false
      ∨ s.checkDest kind a n = .busError ∧ s.busFaultIn kind a n = true := by
  have hspace := ((rangesFit_iff s).mp hfit).2
  unfold State.checkDest
  rw [if_neg (by simp; omega), if_neg (by omega)]
  cases s.busFaultIn kind a n <;> simp

/-- A guarded access inside the ranges goes on or ends with a bus error. -/
theorem guardAccess_meets {P : State → Prop} {a : Access} {c e : Prop} {k : Unit → Out}
    (ha : a = .granted ∧ c ∨ a = .busError ∧ e) (hbus : P s.busErrorEnd) (hk : c → Meets P (k ())) :
    Meets P (guardAccess a s k) := by
  rcases ha with ⟨rfl, hc⟩ | ⟨rfl, -⟩
  · exact hk hc
  · exact hbus

/-! ### Ends -/

theorem soundTo_busErrorEnd (hfit : s.rangesFit = true) : s.soundTo s.busErrorEnd :=
  soundTo_of_idle rfl fun h => Memory.holds_freeBytes _ h ((rangesFit_iff s).mp hfit).2

theorem blockError_activity (s : State) (e : ErrKind) (info : Byte) : (s.blockError e info).activity = .idle := by
  unfold State.blockError
  split <;> rfl

theorem soundTo_blockError (s : State) (e : ErrKind) (info : Byte) : s.soundTo (s.blockError e info) :=
  soundTo_of_idle (blockError_activity s e info) fun h => by rwa [State.blockError_mem]

theorem soundTo_payloadError (h : s.td.outBase + s.td.cap ≤ addrSpace) : s.soundTo s.payloadError :=
  soundTo_of_idle (blockError_activity _ _ _) fun hm => by
    rw [State.payloadError, State.blockError_mem]
    exact Memory.holds_freeBytes _ hm h

theorem soundTo_tokenError (h : s.td.outBase + s.td.cap ≤ addrSpace) (e : ErrKind) : s.soundTo (s.tokenError e) := by
  unfold State.tokenError
  split
  · exact soundTo_of_idle rfl id
  · exact soundTo_payloadError h

/-! ## Tokens -/

section
variable (hr : s.rangesHold = true) (ha : s.activity = .tokens)
include hr ha

/-- The output window of a running token decoder lies in the address space. -/
theorem window_le_addrSpace : s.td.outBase + s.td.cap ≤ addrSpace := by
  obtain ⟨hfit, -, htok⟩ := (rangesHold_iff_of_tokens ha).mp hr
  obtain ⟨-, -, -, hhi, -⟩ := (tokensInRange_iff s).mp htok
  exact hhi.trans ((rangesFit_iff s).mp hfit).2

/-- A token that ends inside its windows keeps the ranges. -/
theorem rangesHold_endToken (mem : List Host.Cell) {consumed produced : Nat} (hin : s.td.ip + consumed ≤ s.td.clen)
    (hout : s.td.op + produced ≤ s.td.cap) : (s.startToken.endToken mem consumed produced).rangesHold = true := by
  obtain ⟨hfit, hov, htok⟩ := (rangesHold_iff_of_tokens ha).mp hr
  obtain ⟨h1, h2, h3, h4, -, -, h7⟩ := (tokensInRange_iff s).mp htok
  exact (rangesHold_iff_of_tokens (s := s.startToken.endToken mem consumed produced) ha).mpr
    ⟨hfit, hov, (tokensInRange_iff _).mpr ⟨h1, h2, h3, h4, hin, hout, h7⟩⟩

theorem execLit_meets (len : Nat) : Meets s.soundTo (execLit len s) := by
  obtain ⟨hfit, -, htok⟩ := (rangesHold_iff_of_tokens ha).mp hr
  obtain ⟨hslo, hshi, hdlo, hdhi, -⟩ := (tokensInRange_iff s).mp htok
  have hwindow := window_le_addrSpace hr ha
  have herror : ∀ e : ErrKind, s.soundTo (s.startToken.tokenError e) := fun e =>
    soundTo_trans id (soundTo_tokenError (s := s.startToken) hwindow e)
  unfold execLit
  dsimp only
  split
  · exact herror _
  · next hdata =>
    split
    · exact herror _
    · next hcap =>
      simp only [State.startToken_td] at hdata hcap ⊢
      refine guardAccess_meets (checkSource_inside hfit _ (by omega) (by omega))
        (soundTo_busErrorEnd (s := s.startToken) hfit) fun _ =>
        guardAccess_meets (checkDest_inside hfit _ (by omega) (by omega))
          (soundTo_busErrorEnd (s := s.startToken) hfit) fun _ => ?_
      refine ⟨fun hm => (memoryHolds_iff _).mpr ?_, rangesHold_endToken hr ha _ (by omega) (by omega)⟩
      exact Memory.holds_writeBytes _ ((memoryHolds_iff s).mp hm) (by rw [State.length_source]; omega)

theorem execReference_meets (head off len : Nat) : Meets s.soundTo (execReference head off len s) := by
  obtain ⟨hfit, -, htok⟩ := (rangesHold_iff_of_tokens ha).mp hr
  obtain ⟨hslo, hshi, hdlo, hdhi, -⟩ := (tokensInRange_iff s).mp htok
  have hwindow := window_le_addrSpace hr ha
  have herror : ∀ e : ErrKind, s.soundTo (s.startToken.tokenError e) := fun e =>
    soundTo_trans id (soundTo_tokenError (s := s.startToken) hwindow e)
  unfold execReference
  dsimp only
  split
  · exact herror _
  · next hhead =>
    split
    · exact herror _
    · next hoff =>
      split
      · exact herror _
      · next hcap =>
        simp only [State.startToken_td] at hhead hoff hcap ⊢
        refine guardAccess_meets (checkDest_inside hfit _ (by omega) (by omega))
          (soundTo_busErrorEnd (s := s.startToken) hfit) fun _ =>
          guardAccess_meets (checkDest_inside hfit _ (by omega) (by omega))
            (soundTo_busErrorEnd (s := s.startToken) hfit) fun _ => ?_
        refine ⟨fun hm => (memoryHolds_iff _).mpr ?_, rangesHold_endToken hr ha _ (by omega) (by omega)⟩
        exact Memory.holds_copyBytes _ ((memoryHolds_iff s).mp hm) (by omega)

theorem exec_token_meets {i : Instr} (hi : i.language = .token) : Meets s.soundTo (exec i s) := by
  cases i with
  | lit len => exact execLit_meets hr ha len
  | brefShortL3 _ | brefShortL4 _ | brefShortL5 _ | brefShortL6 _ | brefShortL7 _ | brefShortL8 _ | brefLong _ _ =>
    exact execReference_meets hr ha _ _ _
  | _ => cases hi

/-- The end of a payload leaves the framing controller behind the block, whose bytes were there (R118). -/
theorem soundTo_endTokens : s.soundTo s.endTokens := by
  obtain ⟨hfit, hov, htok⟩ := (rangesHold_iff_of_tokens ha).mp hr
  obtain ⟨-, -, -, -, -, -, howner⟩ := (tokensInRange_iff s).mp htok
  unfold State.endTokens
  split
  · exact soundTo_of_idle rfl id
  · next hblock =>
    split
    · exact soundTo_payloadError (window_le_addrSpace hr ha)
    · obtain ⟨hin, hout⟩ := howner.resolve_left (by rw [hblock]; nofun)
      unfold State.blockDone
      split
      · refine soundTo_of_mem_eq ((rangesHold_iff_of_blocks rfl).mpr
          ⟨hfit, hov, (blocksInRange_iff _).mpr ⟨?_, hout⟩⟩) rfl
        dsimp only
        omega
      · exact soundTo_of_idle rfl id

end

/-! ## The engine's step as one outcome -/

/-- What the engine does with what it fetched. -/
def runFetched (f : Fetched) (s : State) : Out :=
  match f with
  | .run i => exec i s
  | .over o => o

theorem engineStep_eq_runFetched (s : State) : engineStep s = runFetched (fetch s) s := by
  unfold engineStep runFetched
  cases fetch s <;> rfl

/-- A guarded fetch is a guarded access before the rest of the step. -/
theorem runFetched_guardFetch (a : Access) (s : State) (k : Unit → Fetched) :
    runFetched (guardFetch a s k) s = guardAccess a s fun _ => runFetched (k ()) s := by
  cases a <;> rfl

theorem engineStep_dispatch (ha : s.activity = .dispatch) : engineStep s = exec (decodeCtrl s.latched.ctrl) s := by
  rw [engineStep_eq_runFetched, fetch_dispatch ha]
  rfl

theorem engineStep_tokens (ha : s.activity = .tokens) : engineStep s = runFetched (fetchToken s) s := by
  rw [engineStep_eq_runFetched, fetch_tokens ha]

theorem engineStep_blocks (ha : s.activity = .blocks) : engineStep s = runFetched (fetchUnit s) s := by
  rw [engineStep_eq_runFetched, fetch_blocks ha]

theorem tokenHeadLength_pos (b : Byte) : 1 ≤ tokenHeadLength b := by
  unfold tokenHeadLength
  split
  · decide
  · split <;> decide

theorem engineStep_tokens_meets (hr : s.rangesHold = true) (ha : s.activity = .tokens) :
    Meets s.soundTo (engineStep s) := by
  obtain ⟨hfit, -, htok⟩ := (rangesHold_iff_of_tokens ha).mp hr
  obtain ⟨hslo, hshi, -⟩ := (tokensInRange_iff s).mp htok
  have herror : s.soundTo (s.startToken.tokenError .invalidData) :=
    soundTo_trans id (soundTo_tokenError (s := s.startToken) (window_le_addrSpace hr ha) _)
  rw [engineStep_tokens ha]
  unfold fetchToken
  dsimp only
  split
  · exact soundTo_endTokens hr ha
  · next hin =>
    rw [runFetched_guardFetch]
    refine guardAccess_meets (checkSource_inside hfit _ (by omega) (by omega)) (soundTo_busErrorEnd hfit) fun _ => ?_
    split
    · exact herror
    · next hhead =>
      rw [runFetched_guardFetch]
      refine guardAccess_meets (checkSource_inside hfit _ (by omega) (by omega)) (soundTo_busErrorEnd hfit) fun _ => ?_
      split
      · next hd => exact exec_token_meets hr ha (decodeToken_language hd)
      · exact herror

/-! ## Block units -/

section
variable (hr : s.rangesHold = true) (ha : s.activity = .blocks)
include hr ha

theorem execBlkRaw_meets (n : Nat) : Meets s.soundTo (execBlkRaw n s) := by
  obtain ⟨hfit, hov, hin⟩ := (rangesHold_iff_of_blocks ha).mp hr
  obtain ⟨hsrc, hdst⟩ := (rangesFit_iff s).mp hfit
  unfold execBlkRaw
  split
  · exact soundTo_blockError _ _ _
  · next hdata =>
    split
    · exact soundTo_blockError _ _ _
    · next hcap =>
      have hwrite : s.dstLo + s.bfc.opos + n ≤ s.dstHi := by unfold State.dstHi State.dstLo; omega
      refine guardAccess_meets (checkSource_inside hfit _ (by omega) (by unfold State.srcHi State.srcLo; omega))
        (soundTo_busErrorEnd hfit) fun _ =>
        guardAccess_meets (checkDest_inside hfit _ (by omega) hwrite) (soundTo_busErrorEnd hfit) fun _ => ?_
      refine soundTo_trans (u := s.store (s.dstLo + s.bfc.opos) (s.source (s.srcLo + s.bfc.ipos + 5) n))
        (fun hm => Memory.holds_writeBytes _ hm (by rw [State.length_source]; exact hwrite.trans hdst)) ?_
      unfold State.blockDone
      split
      · refine soundTo_of_mem_eq ((rangesHold_iff_of_blocks rfl).mpr ⟨hfit, hov, (blocksInRange_iff _).mpr ?_⟩) rfl
        dsimp only [State.store_bfc, State.store_latched]
        omega
      · exact soundTo_of_idle rfl id

theorem execBlkCmp_meets (c n : Nat) : Meets s.soundTo (execBlkCmp c n s) := by
  obtain ⟨hfit, hov, hin⟩ := (rangesHold_iff_of_blocks ha).mp hr
  obtain ⟨hsrc, hdst⟩ := (rangesFit_iff s).mp hfit
  obtain ⟨-, hopos⟩ := (blocksInRange_iff s).mp hin
  rcases execBlkCmp_cases c n s with ⟨-, h⟩ | ⟨-, h⟩ | ⟨hsize, hcap, h⟩ <;> rw [h]
  · refine soundTo_of_idle (blockError_activity _ _ _) fun hm => ?_
    rw [State.cutShort, State.blockError_mem]
    refine Memory.holds_freeBytes _ hm ?_
    unfold State.dstHi at hdst
    unfold State.dstLo
    omega
  · exact soundTo_blockError _ _ _
  · refine soundTo_of_mem_eq ((rangesHold_iff_of_tokens rfl).mpr ⟨hfit, hov, (tokensInRange_iff _).mpr ?_⟩) rfl
    simp only [State.startTokens_td, State.startTokens_bfc, State.startTokens_latched, State.startTokens_srcLo,
      State.startTokens_srcHi, State.startTokens_dstLo, State.startTokens_dstHi]
    refine ⟨by omega, ?_, by omega, ?_, by omega, by omega, .inr ⟨hsize, hcap⟩⟩
    · unfold State.srcHi State.srcLo; omega
    · unfold State.dstHi State.dstLo; omega

omit hr ha in
theorem execTerm_meets (s : State) : Meets s.soundTo (execTerm s) := by
  unfold execTerm
  split <;> exact soundTo_of_idle rfl id

theorem exec_unit_meets {i : Instr} (hi : i.language = .block) : Meets s.soundTo (exec i s) := by
  cases i with
  | blkRaw n => exact execBlkRaw_meets hr ha n
  | blkCmp c n => exact execBlkCmp_meets hr ha c n
  | term => exact execTerm_meets s
  | _ => cases hi

theorem engineStep_blocks_meets : Meets s.soundTo (engineStep s) := by
  obtain ⟨hfit, -, hin⟩ := (rangesHold_iff_of_blocks ha).mp hr
  rw [engineStep_blocks ha]
  unfold fetchUnit
  split
  · unfold State.endBlocks
    split <;> exact soundTo_of_idle rfl id
  · next hmore =>
    have hread : s.srcLo + s.bfc.ipos + s.unitBytes ≤ s.srcHi := by
      unfold State.unitBytes State.srcHi State.srcLo
      omega
    rw [runFetched_guardFetch]
    refine guardAccess_meets (checkSource_inside hfit _ (by omega) hread) (soundTo_busErrorEnd hfit) fun _ => ?_
    split
    · next hd => exact exec_unit_meets hr ha (decodeUnit_language hd)
    · exact soundTo_blockError _ _ _
    · exact soundTo_blockError _ _ _

end

/-! ## Commands -/

/-- A launch whose checks pass names device registers: it is refused (R46; log 15). -/
def deviceLaunch (ok : Bool) (s : State) : Prop :=
  ok = true ∧ s.rangesFit = true ∧ s.rangesOverlap = false ∧ s.launchOnDevice = true

theorem launch_of_deviceLaunch {ok : Bool} (h : deviceLaunch ok s) (op : Unit → Out) :
    launch ok s op = .refused .deviceRange := by
  obtain ⟨hok, hfit, hov, hdev⟩ := h
  simp [launch, hok, hfit, hov, hdev]

theorem launch_meets {P : State → Prop} {ok : Bool} (hdev : ¬deviceLaunch ok s) {op : Unit → Out}
    (hbad : P s.badParameter) (hop : s.launchable = true → Meets P (op ())) : Meets P (launch ok s op) := by
  by_cases hfail : ok = false ∨ s.rangesFit = false ∨ s.rangesOverlap = true
  · rw [launch_rejected hfail]
    exact hbad
  · obtain ⟨hok, hfit, hov⟩ : ok = true ∧ s.rangesFit = true ∧ s.rangesOverlap = false := by simpa using hfail
    have hlaunch : s.launchable = true :=
      (launchable_iff s).mpr ⟨hfit, hov, by simpa [deviceLaunch, hok, hfit, hov] using hdev⟩
    rw [launch_granted hok hlaunch]
    exact hop hlaunch

theorem soundTo_badParameter (s : State) : s.soundTo s.badParameter := soundTo_of_idle rfl id

theorem count_mfCall_le (hf : Hash3) (mode : Mode) (d : List Byte) (cap : Nat) (m : MatchFinder) :
    (mfCall hf mode d cap m).count cap ≤ cap := by
  unfold Coded.count
  split
  · next hfits => exact length_out_mfCall_le hfits
  · exact Nat.le_refl _

theorem compressOperation_meets (mode : Mode) (hfit : s.rangesFit = true) :
    Meets s.soundTo (compressOperation mode s) := by
  obtain ⟨-, hdst⟩ := (rangesFit_iff s).mp hfit
  unfold compressOperation
  dsimp only
  refine guardAccess_meets (checkSource_inside hfit _ (Nat.le_refl _) (Nat.le_refl _)) (soundTo_busErrorEnd hfit)
    fun _ => ?_
  have hcount := count_mfCall_le (hash3Of s.platform.hash) mode (s.source s.srcLo s.latched.srcLen.toNat)
    s.latched.dstCap.toNat s.mf
  generalize mfCall _ _ _ _ _ = r at hcount ⊢
  refine guardAccess_meets (checkDest_inside hfit _ (Nat.le_refl _) (Nat.add_le_add_left hcount _))
    (soundTo_busErrorEnd hfit) fun _ => ?_
  unfold finishCompress
  unfold Coded.count at hcount
  unfold State.dstHi at hdst
  split
  · next hfits =>
    rw [if_pos hfits] at hcount
    exact soundTo_of_idle rfl fun hm => Memory.holds_writeBytes _ hm (by unfold State.dstLo; omega)
  · exact soundTo_of_idle rfl fun hm => Memory.holds_freeBytes _ hm hdst

theorem decodeOperation_meets (owner : BfcOwner) (hs : s.launchable = true) :
    Meets s.soundTo (decodeOperation owner s) := by
  obtain ⟨hfit, hov, -⟩ := (launchable_iff s).mp hs
  unfold decodeOperation
  refine guardAccess_meets (checkSource_inside hfit _ (Nat.le_refl _) (Nat.le_refl _)) (soundTo_busErrorEnd hfit)
    fun _ => ?_
  exact soundTo_of_mem_eq ((rangesHold_iff_of_blocks rfl).mpr
    ⟨hfit, hov, (blocksInRange_iff _).mpr ⟨Nat.zero_le _, Nat.zero_le _⟩⟩) rfl

theorem startTokens_decompress_meets (hs : s.launchable = true) :
    s.soundTo (s.startTokens .decompress s.srcLo s.latched.srcLen.toNat s.dstLo s.latched.dstCap.toNat) := by
  obtain ⟨hfit, hov, -⟩ := (launchable_iff s).mp hs
  exact soundTo_of_mem_eq ((rangesHold_iff_of_tokens rfl).mpr ⟨hfit, hov, (tokensInRange_iff _).mpr
    ⟨Nat.le_refl _, Nat.le_refl _, Nat.le_refl _, Nat.le_refl _, Nat.zero_le _, Nat.zero_le _, .inl rfl⟩⟩) rfl

theorem execMaxsize_meets (s : State) : Meets s.soundTo (execMaxsize s) := by
  unfold execMaxsize
  split
  · exact soundTo_of_idle rfl id
  · exact soundTo_badParameter s

theorem finishEncode_meets (withTerm : Bool) (hfit : s.rangesFit = true) :
    Meets s.soundTo (finishEncode withTerm s) := by
  obtain ⟨-, hdst⟩ := (rangesFit_iff s).mp hfit
  unfold finishEncode
  split
  · split
    · exact soundTo_of_idle rfl id
    · next hcap =>
      have hwrite : s.dstLo + s.bfc.opos + 1 ≤ s.dstHi := by unfold State.dstHi State.dstLo; omega
      exact guardAccess_meets (checkDest_inside hfit _ (by omega) hwrite) (soundTo_busErrorEnd hfit) fun _ =>
        soundTo_of_idle rfl fun hm => Memory.holds_writeBytes (encode .term) hm (hwrite.trans hdst)
  · exact soundTo_of_idle rfl id

/-- The chunk loop, by induction on the bound of its turns: each reads a chunk inside `S` and writes a block that
fits `D`. -/
theorem encodeLoop_meets (mode : Mode) (withTerm : Bool) (bs k : Nat) (hfit : s.rangesFit = true) :
    Meets s.soundTo (encodeLoop mode withTerm bs k s) := by
  induction k generalizing s with
  | zero => exact finishEncode_meets withTerm hfit
  | succ k ih =>
    obtain ⟨-, hdst⟩ := (rangesFit_iff s).mp hfit
    rw [encodeLoop]
    split
    · next hmore =>
      dsimp only
      have hread : s.srcLo + s.bfc.ipos + min bs (s.latched.srcLen.toNat - s.bfc.ipos) ≤ s.srcHi := by
        unfold State.srcHi State.srcLo
        omega
      refine guardAccess_meets (checkSource_inside hfit _ (by omega) hread) (soundTo_busErrorEnd hfit) fun _ => ?_
      generalize s.source _ _ = x
      generalize codeChunk mode s x = r
      generalize min bs (s.latched.srcLen.toNat - s.bfc.ipos) = n
      split
      · exact soundTo_of_idle rfl id
      · next hcap =>
        have hwrite : s.dstLo + s.bfc.opos + (chunkBlock x r).length ≤ s.dstHi := by
          unfold State.dstHi State.dstLo
          omega
        refine guardAccess_meets (checkDest_inside hfit _ (by omega) hwrite)
          (soundTo_trans id (soundTo_busErrorEnd (s := s.withChunk r n) hfit)) fun _ => ?_
        have hrest := ih (s := (s.withChunk r n).withBlock (chunkBlock x r) n) hfit
        obtain ⟨t, ht, hsound⟩ := hrest.exists_next
        rw [ht]
        exact soundTo_trans (fun hm => Memory.holds_writeBytes (chunkBlock x r) hm (hwrite.trans hdst)) hsound
    · exact finishEncode_meets withTerm hfit

theorem encodeOperation_meets (mode : Mode) (withTerm : Bool) (bs k : Nat) (hs : s.launchable = true) :
    Meets s.soundTo (encodeLoop mode withTerm bs k (s.withCursors 0 0)) := by
  obtain ⟨t, ht, hsound⟩ := (encodeLoop_meets (s := s.withCursors 0 0) mode withTerm bs k
    ((launchable_iff s).mp hs).1).exists_next
  rw [ht]
  exact soundTo_trans (u := s.withCursors 0 0) id hsound

/-- A command is refused as a launch on device registers, or its outcome is sound. -/
theorem exec_command_meets {i : Instr} (hi : i.language = .command)
    (hdev : i.isMemoryCommand = true → ¬deviceLaunch (i.lengthsOk s) s) : Meets s.soundTo (exec i s) := by
  have hbad := soundTo_badParameter s
  unfold exec
  cases i with
  | compress m w q =>
    exact launch_meets (hdev rfl) hbad fun hs => compressOperation_meets m ((launchable_iff s).mp hs).1
  | decompress m w q => exact launch_meets (hdev rfl) hbad startTokens_decompress_meets
  | encode m w q | encodeBlock m w q => exact launch_meets (hdev rfl) hbad (encodeOperation_meets m w _ _)
  | decode m w q => exact launch_meets (hdev rfl) hbad (decodeOperation_meets .decode)
  | decodeBlock m w q => exact launch_meets (hdev rfl) hbad (decodeOperation_meets .decodeBlock)
  | maxsize m w q => exact execMaxsize_meets s
  | reservedOp0 _ _ _ | reservedOp8 _ _ _ | reservedOp9 _ _ _ | reservedOpA _ _ _ | reservedOpB _ _ _
  | reservedOpC _ _ _ | reservedOpD _ _ _ | reservedOpE _ _ _ | reservedOpF _ _ _ => exact soundTo_of_idle rfl id
  | _ => cases hi

theorem exec_of_deviceLaunch {i : Instr} (hi : i.isMemoryCommand = true) (h : deviceLaunch (i.lengthsOk s) s) :
    exec i s = .refused .deviceRange := by
  unfold exec
  cases i with
  | compress _ _ _ | decompress _ _ _ | encode _ _ _ | decode _ _ _ | encodeBlock _ _ _ | decodeBlock _ _ _ =>
    exact launch_of_deviceLaunch h _
  | _ => cases hi

/-! ## Every step of the engine -/

/-- The engine stands at a launch on device registers. -/
def State.atDeviceLaunch (s : State) : Prop :=
  s.activity = .dispatch ∧ (decodeCtrl s.latched.ctrl).isMemoryCommand = true
    ∧ deviceLaunch ((decodeCtrl s.latched.ctrl).lengthsOk s) s

theorem engineStep_of_atDeviceLaunch (h : s.atDeviceLaunch) : engineStep s = .refused .deviceRange := by
  obtain ⟨ha, hmem, hdev⟩ := h
  rw [engineStep_dispatch ha]
  exact exec_of_deviceLaunch hmem hdev

/-- A step of the engine inside the invariant is sound, but for a launch on device registers (R41, R137). -/
theorem engineStep_meets (hr : s.rangesHold = true) (hdev : ¬s.atDeviceLaunch) : Meets s.soundTo (engineStep s) := by
  cases ha : s.activity with
  | idle => rw [engineStep_idle ha]; exact soundTo_of_idle ha id
  | dispatch =>
    rw [engineStep_dispatch ha]
    exact exec_command_meets (decodeCtrl_language _) fun hmem h => hdev ⟨ha, hmem, h⟩
  | tokens => exact engineStep_tokens_meets hr ha
  | blocks => exact engineStep_blocks_meets hr ha

theorem soundTo_of_engineStep (hr : s.rangesHold = true) (h : engineStep s = .next t) : s.soundTo t := by
  have hdev : ¬s.atDeviceLaunch := fun hdev => nomatch (engineStep_of_atDeviceLaunch hdev).symm.trans h
  have hmeets := engineStep_meets hr hdev
  rwa [h] at hmeets

/-! ## The obligations -/

/-- Reset leaves memory as it is, or frees the bytes of a destination that lie in the address space (I5). -/
theorem memory_afterStop (s : State) (hm : Memory.holds s.mem) : Memory.holds s.afterStop.mem := by
  unfold State.afterStop
  split
  · refine Memory.holds_freeBytes _ hm ?_
    exact (Nat.add_le_add_left (Nat.min_le_right _ _) _).trans_eq
      (Nat.add_sub_of_le (Nat.le_of_lt s.latched.dstAddr.isLt))
  · exact hm

/-- Settles O35: the engine stores inside checked ranges, the host and reset inside the address space. -/
theorem memoryFormKept : Obligations.MemoryFormKept := by
  unfold Obligations.MemoryFormKept
  intro s t hm hr hstep
  obtain ⟨moves, he | hrun | ⟨-, rfl⟩ | ⟨v, rfl⟩ | ⟨-, rfl⟩⟩ := step_next hstep
  · exact (soundTo_of_engineStep (s := s.withMoves moves) hr he).1 hm
  · have hm' : Memory.holds (s.withMoves moves).mem := (memoryHolds_iff s).mp hm
    rw [memoryHolds_iff]
    rcases hrun.mem with heq | ⟨a, b, ha, heq⟩ <;> rw [heq]
    · exact hm'
    · exact Memory.holds_set hm' ha b
  · exact hm
  · exact hm
  · exact (memoryHolds_iff _).mpr (memory_afterStop (s.withMoves moves) ((memoryHolds_iff s).mp hm))

/-- Settles O37: the engine keeps its cursors inside the ranges, and no move of the host touches a running command but
reset, which ends it. -/
theorem rangesKept : Obligations.RangesKept := by
  unfold Obligations.RangesKept
  intro s t hr hstep
  obtain ⟨moves, he | hrun | ⟨-, rfl⟩ | ⟨v, rfl⟩ | ⟨-, rfl⟩⟩ := step_next hstep
  · exact (soundTo_of_engineStep (s := s.withMoves moves) hr he).2
  · exact rangesHold_congr (s := s.withMoves moves) hrun.activity hrun.latched hrun.td hrun.bfc hr
  · rfl
  · exact hr
  · rfl

/-! ### No stop inside the invariant -/

/-- Two ranges share a byte as the model compares their ends. -/
theorem touches_iff (a n base size : Nat) :
    touches a n base size = true ↔ ∃ x : Nat, (a ≤ x ∧ x < a + n) ∧ base ≤ x ∧ x < base + size := by
  simp only [touches, Bool.and_eq_true, decide_eq_true_eq]
  constructor
  · intro h
    exact ⟨max a base, by omega⟩
  · rintro ⟨x, hx⟩
    omega

theorem onDevice_iff (s : State) (a n : Nat) :
    s.onDevice a n = true ↔ ∃ x : Nat, (a ≤ x ∧ x < a + n) ∧ s.deviceByte x := by
  simp only [State.onDevice, State.deviceByte, Bool.or_eq_true, List.any_eq_true, touches_iff]
  constructor
  · rintro (⟨x, hx, hwindow⟩ | ⟨d, hd, x, hx, hdev⟩)
    · exact ⟨x, hx, .inl hwindow⟩
    · exact ⟨x, hx, .inr ⟨d, hd, hdev⟩⟩
  · rintro ⟨x, hx, hwindow | ⟨d, hd, hdev⟩⟩
    · exact .inl ⟨x, hx, hwindow⟩
    · exact .inr ⟨d, hd, x, hx, hdev⟩

theorem launchOnDevice_iff (s : State) : s.launchOnDevice = true ↔ ∃ x : Nat, s.rangeByte x ∧ s.deviceByte x := by
  rw [State.launchOnDevice, Bool.or_eq_true, onDevice_iff, onDevice_iff, ← exists_or]
  simp only [← or_and_right]
  rfl

/-- The host's moves are refused for reasons of their own, and none faults. -/
theorem hostMove_outcome (m : HostMove) (s : State) :
    (∃ t : State, hostMove m s = .next t)
      ∨ ∃ r : Refusal, hostMove m s = .refused r
          ∧ (r = .registerAccessNotAdmitted ∨ r = .deviceRange ∨ r = .hostWroteBusyRange) := by
  cases m with
  | regRead addr size | regWrite addr size value =>
    simp only [hostMove]
    cases s.admitted addr size with
    | some r => exact .inl ⟨_, rfl⟩
    | none => exact .inr ⟨_, rfl, .inl rfl⟩
  | memRead addr =>
    simp only [hostMove]
    split
    · exact .inr ⟨_, rfl, .inr (.inl rfl)⟩
    · exact .inl ⟨_, rfl⟩
  | memWrite addr value =>
    simp only [hostMove]
    split
    · exact .inr ⟨_, rfl, .inr (.inl rfl)⟩
    · split
      · exact .inr ⟨_, rfl, .inr (.inr rfl)⟩
      · exact .inl ⟨_, rfl⟩
  | order | cleanCache _ _ | discardCache _ _ | observeIrq | reset | setBusFaults _ | engine | wait | waitIrq =>
    exact .inl ⟨_, rfl⟩

/-- A turn that is not the engine's is the end of a wait or a move of the host. -/
theorem turn_host {o : Out} (h : turn s = .host o) :
    (∃ t : State, o = .next t) ∨ ∃ (m : HostMove) (u : State), o = hostMove m u := by
  unfold turn at h
  split at h
  · cases h
  · cases h
  · split at h
    · cases h
    · cases h; exact .inl ⟨_, rfl⟩
  · split at h
    · cases h; exact .inl ⟨_, rfl⟩
    · cases h
  · cases h; exact .inr ⟨_, _, rfl⟩

/-- Everything a step inside the invariant can answer. -/
theorem step_outcome (hr : s.rangesHold = true) :
    (∃ t : State, step s = .next t)
      ∨ ∃ r : Refusal, step s = .refused r
          ∧ (r = .registerAccessNotAdmitted ∨ r = .deviceRange ∨ r = .hostWroteBusyRange) := by
  unfold step
  cases hturn : turn s with
  | engine u =>
    obtain ⟨moves, rfl⟩ := eq_withMoves_of_turn_engine hturn
    by_cases hdev : (s.withMoves moves).atDeviceLaunch
    · exact .inr ⟨_, engineStep_of_atDeviceLaunch hdev, .inr (.inl rfl)⟩
    · obtain ⟨t, ht, -⟩ := (engineStep_meets (s := s.withMoves moves) hr hdev).exists_next
      exact .inl ⟨t, ht⟩
  | host o =>
    rcases turn_host hturn with ht | ⟨m, u, rfl⟩
    · exact .inl ht
    · exact hostMove_outcome m u

/-- Settles O39: an engine step inside the invariant has a next state unless it is a launch on device registers, and a
device launch is a byte in common. -/
theorem engineNeverStops : Obligations.EngineNeverStops := by
  unfold Obligations.EngineNeverStops
  constructor
  · intro s hr
    rcases step_outcome hr with ⟨t, ht⟩ | ⟨r, hstep, hr'⟩
    · rw [ht]
      exact ⟨nofun, nofun, nofun⟩
    · rw [hstep]
      refine ⟨nofun, ?_, ?_⟩
      · rintro ⟨⟩
        simp at hr'
      · rintro name ⟨⟩
        simp at hr'
  · rintro s u i r hturn hr rfl
    rw [step_of_turn_engine hturn, ← launchOnDevice_iff]
    constructor
    · intro hstep
      by_cases hdev : u.atDeviceLaunch
      · rw [engineStep_of_atDeviceLaunch hdev] at hstep
        cases hstep
        obtain ⟨ha, hmem, hlaunch⟩ := hdev
        exact ⟨rfl, ha, hmem, hlaunch⟩
      · obtain ⟨t, ht, -⟩ := (engineStep_meets hr hdev).exists_next
        cases ht.symm.trans hstep
    · rintro ⟨rfl, ha, hmem, hlaunch⟩
      exact engineStep_of_atDeviceLaunch ⟨ha, hmem, hlaunch⟩

end

end Sys2Proof.Machine
end

section
/-!
PROOF. What the bytes at the decoder's cursor make the engine do (spec/42_token_decoder.md R100, R105, R108,
spec/43_block_framing.md R116 to R122): the bytes the engine looks at decide as all the bytes that are left do, so a
step is the meaning of what they decode to, or its end; then the block units, and the errors inside a block.
-/
namespace Sys2Proof

/-! ## The bytes a decoder looks at -/

/-- A token's control byte tells whether its head is there, and the head alone decodes (R58). -/
theorem decodeToken_head (ctrl : Byte) (rest : List Byte) :
    (rest.length + 1 < tokenHeadLength ctrl ∧ decodeToken (ctrl :: rest) = .error .truncatedToken)
      ∨ tokenHeadLength ctrl ≤ rest.length + 1
        ∧ ∃ i : Instr, decodeToken ((ctrl :: rest).take (tokenHeadLength ctrl)) = .ok (i, []) := by
  unfold tokenHeadLength
  split
  · next hlit => exact .inr ⟨Nat.succ_pos _, _, decodeToken_lit hlit []⟩
  · next hlo =>
    split
    · next hshort =>
      match rest with
      | [] => exact .inl ⟨Nat.lt_succ_self 1, by rw [decodeToken_cons, if_neg hlo, if_pos hshort]⟩
      | lo :: rest =>
        exact .inr ⟨Nat.le_add_left 2 _, _, (decodeToken_cons ctrl [lo]).trans ((if_neg hlo).trans (if_pos hshort))⟩
    · next hlong =>
      match rest with
      | [] | [_] => exact .inl ⟨by simp, by rw [decodeToken_cons, if_neg hlo, if_neg hlong]⟩
      | ext :: lo :: rest =>
        exact .inr ⟨Nat.le_add_left 3 _, _,
          (decodeToken_cons ctrl [ext, lo]).trans ((if_neg hlo).trans (if_neg hlong))⟩

/-- The longest header has 7 bytes: what they do not spell, no longer bytes do (R116). -/
theorem decodeUnit_error_of_take {f : List Byte} {e : DecodeError} (h : decodeUnit (f.take 7) = .error e) :
    decodeUnit f = .error e := by
  match f with
  | [] | [_] | [_, _] | [_, _, _] | [_, _, _, _] | [_, _, _, _, _] | [_, _, _, _, _, _] => exact h
  | b0 :: b1 :: ty :: b3 :: b4 :: b5 :: b6 :: rest =>
    simp only [List.take_succ_cons, List.take_zero, decodeUnit_cons] at h ⊢
    split at h
    · cases h
    · next h0 =>
      rw [if_neg h0]
      split at h
      · next hmagic => rw [if_pos hmagic, h]
      · next hmagic =>
        rw [if_neg hmagic]
        split at h
        · cases h
        · next hraw =>
          rw [if_neg hraw]
          split at h
          · cases h
          · next hcmp => rw [if_neg hcmp, h]

/-- The first 7 bytes at a block start decide as all the bytes do (R116). -/
theorem decodeUnit_take {f : List Byte} :
    (∃ e : DecodeError, decodeUnit f = .error e ∧ decodeUnit (f.take 7) = .error e)
      ∨ ∃ (i : Instr) (r rest : List Byte), decodeUnit f = .ok (i, rest) ∧ decodeUnit (f.take 7) = .ok (i, r) := by
  rcases h : decodeUnit (f.take 7) with e | ⟨i, r⟩
  · exact .inl ⟨e, decodeUnit_error_of_take h, rfl⟩
  · exact .inr ⟨i, r, r ++ f.drop 7, by simpa using decodeUnit_append h (f.drop 7), rfl⟩

end Sys2Proof

namespace Sys2Proof.Machine

section
variable {s u t : State}

theorem source_add (s : State) (a n k : Nat) : s.source a (n + k) = s.source a n ++ s.source (a + n) k := by
  induction n generalizing a with
  | zero => simp [State.source]
  | succ n ih =>
    rw [Nat.succ_add, State.source, State.source, ih (a + 1), List.cons_append, Nat.succ_add_eq_add_succ a n]

theorem take_source (s : State) (a : Nat) {n k : Nat} (h : k ≤ n) : (s.source a n).take k = s.source a k := by
  obtain ⟨j, rfl⟩ := Nat.exists_eq_add_of_le h
  rw [source_add, List.take_left' (State.length_source s a k)]

theorem drop_source (s : State) (a : Nat) {n k : Nat} (h : k ≤ n) :
    (s.source a n).drop k = s.source (a + k) (n - k) := by
  obtain ⟨j, rfl⟩ := Nat.exists_eq_add_of_le h
  rw [source_add, List.drop_left' (State.length_source s a k), Nat.add_sub_cancel_left]

/-! ## A step inside a token stream -/

/-- The bytes of the token stream that are left. -/
def State.tokensLeft (s : State) : List Byte := s.source (s.td.srcBase + s.td.ip) (s.td.clen - s.td.ip)

theorem checkSource_granted_mono {bus : Bool} {a n k : Nat} (h : s.checkSource bus a n = .granted) (hk : k ≤ n) :
    s.checkSource bus a k = .granted := by
  obtain ⟨hspace, hlo, hhi, hbus⟩ := (checkSource_granted_iff s bus a n).mp h
  refine (checkSource_granted_iff s bus a k).mpr ⟨by omega, hlo, by omega, ?_⟩
  cases bus
  · rfl
  · exact busFaultIn_mono s .read (Nat.le_refl a) (by omega) hbus

theorem engineStep_tokens_end (ha : s.activity = .tokens) (hend : s.td.clen ≤ s.td.ip) :
    engineStep s = .next s.endTokens := by
  rw [engineStep_tokens ha]
  unfold fetchToken
  rw [if_pos hend]
  rfl

/-- The head of the next token is cut short, or is there and decodes to the instruction all the bytes decode to. -/
theorem tokensLeft_head (hmore : s.td.ip < s.td.clen) :
    (s.td.clen < s.td.ip + tokenHeadLength (s.sourceByte (s.td.srcBase + s.td.ip))
        ∧ decodeToken s.tokensLeft = .error .truncatedToken)
      ∨ s.td.ip + tokenHeadLength (s.sourceByte (s.td.srcBase + s.td.ip)) ≤ s.td.clen
        ∧ ∃ (i : Instr) (rest : List Byte), decodeToken s.tokensLeft = .ok (i, rest)
          ∧ (encode i).length = tokenHeadLength (s.sourceByte (s.td.srcBase + s.td.ip))
          ∧ decodeToken (s.source (s.td.srcBase + s.td.ip) (tokenHeadLength (s.sourceByte (s.td.srcBase + s.td.ip))))
            = .ok (i, []) := by
  obtain ⟨n, hn⟩ := Nat.exists_eq_succ_of_ne_zero (Nat.sub_ne_zero_of_lt hmore)
  have hleft : s.tokensLeft
      = s.sourceByte (s.td.srcBase + s.td.ip) :: s.source (s.td.srcBase + s.td.ip + 1) n := by
    rw [State.tokensLeft, hn, State.source]
  have hlen : s.tokensLeft.length = s.td.clen - s.td.ip := State.length_source _ _ _
  rcases decodeToken_head (s.sourceByte (s.td.srcBase + s.td.ip)) (s.source (s.td.srcBase + s.td.ip + 1) n)
    with ⟨hcut, herror⟩ | ⟨hhead, i, hok⟩ <;> rw [State.length_source] at *
  · exact .inl ⟨by omega, hleft ▸ herror⟩
  · rw [← hleft] at hok
    have hfull := decodeIn_append (l := .token) nofun hok
      (s.tokensLeft.drop (tokenHeadLength (s.sourceByte (s.td.srcBase + s.td.ip))))
    rw [List.take_append_drop] at hfull
    have hbytes := congrArg List.length (encode_of_decodeToken hok)
    rw [List.append_nil, List.length_take] at hbytes
    refine .inr ⟨by omega, i, _, hfull, by omega, ?_⟩
    rwa [State.tokensLeft, take_source _ _ (by omega)] at hok

theorem ip_lt_of_tokensLeft (h : decodeToken s.tokensLeft ≠ .error .endOfInput) : s.td.ip < s.td.clen := by
  by_contra hend
  rw [State.tokensLeft, Nat.sub_eq_zero_of_le (Nat.le_of_not_lt hend)] at h
  exact h rfl

theorem engineStep_tokens_run (ha : s.activity = .tokens) {i : Instr} {rest : List Byte}
    (hd : decodeToken s.tokensLeft = .ok (i, rest))
    (hread : s.checkSource s.readsNow (s.td.srcBase + s.td.ip) (encode i).length = .granted) :
    engineStep s = exec i s := by
  have hmore := ip_lt_of_tokensLeft (s := s) (by rw [hd]; nofun)
  rcases tokensLeft_head hmore with ⟨-, herror⟩ | ⟨hhead, j, _, hj, hlen, hdj⟩
  · cases hd.symm.trans herror
  · obtain ⟨rfl, rfl⟩ : j = i ∧ _ = rest := by simpa using hj.symm.trans hd
    rw [hlen] at hread
    rw [engineStep_tokens ha]
    unfold fetchToken
    dsimp only
    rw [if_neg (Nat.not_le.mpr hmore), checkSource_granted_mono hread (tokenHeadLength_pos _)]
    simp only [guardFetch]
    rw [if_neg (Nat.not_lt.mpr hhead), hread]
    simp only [hdj]
    rfl

theorem engineStep_tokens_truncated (ha : s.activity = .tokens)
    (hd : decodeToken s.tokensLeft = .error .truncatedToken)
    (hread : s.checkSource s.readsNow (s.td.srcBase + s.td.ip) 1 = .granted) :
    engineStep s = .next (s.startToken.tokenError .invalidData) := by
  have hmore := ip_lt_of_tokensLeft (s := s) (by rw [hd]; nofun)
  rcases tokensLeft_head hmore with ⟨hcut, -⟩ | ⟨-, _, _, hok, -⟩
  · rw [engineStep_tokens ha]
    unfold fetchToken
    dsimp only
    rw [if_neg (Nat.not_le.mpr hmore), hread]
    simp only [guardFetch]
    rw [if_pos hcut]
    rfl
  · cases hd.symm.trans hok

/-! ## A step at a block start -/

/-- The source bytes from the block start on. -/
def State.unitsLeft (s : State) : List Byte := s.source (s.srcLo + s.bfc.ipos) (s.latched.srcLen.toNat - s.bfc.ipos)

theorem engineStep_blocks_end (ha : s.activity = .blocks) (hend : s.latched.srcLen.toNat ≤ s.bfc.ipos) :
    engineStep s = .next s.endBlocks := by
  rw [engineStep_blocks ha]
  unfold fetchUnit
  rw [if_pos hend]
  rfl

theorem ipos_lt_of_unitsLeft (h : decodeUnit s.unitsLeft ≠ .error .endOfInput) :
    s.bfc.ipos < s.latched.srcLen.toNat := by
  by_contra hend
  rw [State.unitsLeft, Nat.sub_eq_zero_of_le (Nat.le_of_not_lt hend)] at h
  exact h rfl

theorem take_unitsLeft (s : State) : s.unitsLeft.take 7 = s.source (s.srcLo + s.bfc.ipos) s.unitBytes := by
  unfold State.unitsLeft State.unitBytes
  rcases Nat.le_total 7 (s.latched.srcLen.toNat - s.bfc.ipos) with h | h
  · rw [Nat.min_eq_left h, take_source _ _ h]
  · rw [Nat.min_eq_right h, List.take_of_length_le (by rwa [State.length_source])]

theorem engineStep_blocks_run (ha : s.activity = .blocks) {i : Instr} {rest : List Byte}
    (hd : decodeUnit s.unitsLeft = .ok (i, rest))
    (hread : s.checkSource false (s.srcLo + s.bfc.ipos) s.unitBytes = .granted) : engineStep s = exec i s := by
  rcases decodeUnit_take (f := s.unitsLeft) with ⟨e, herror, -⟩ | ⟨j, r, rest', hok, hhead⟩
  · cases hd.symm.trans herror
  · obtain ⟨rfl, rfl⟩ : i = j ∧ rest = rest' := by simpa using hd.symm.trans hok
    rw [take_unitsLeft] at hhead
    rw [engineStep_blocks ha]
    unfold fetchUnit
    rw [if_neg (Nat.not_le.mpr (ipos_lt_of_unitsLeft (by rw [hd]; nofun))), hread]
    simp only [guardFetch, hhead]
    rfl

theorem engineStep_blocks_error (ha : s.activity = .blocks) {e : DecodeError}
    (hd : decodeUnit s.unitsLeft = .error e) (he : e ≠ .endOfInput)
    (hread : s.checkSource false (s.srcLo + s.bfc.ipos) s.unitBytes = .granted) :
    engineStep s = .next (s.blockError e.headerError.1 e.headerError.2) := by
  rcases decodeUnit_take (f := s.unitsLeft) with ⟨e', herror, hhead⟩ | ⟨j, r, rest', hok, -⟩
  · obtain rfl : e = e' := by simpa using hd.symm.trans herror
    rw [take_unitsLeft] at hhead
    have hmore : s.bfc.ipos < s.latched.srcLen.toNat :=
      ipos_lt_of_unitsLeft (by rw [hd]; exact fun h => he (Except.error.inj h))
    rw [engineStep_blocks ha]
    unfold fetchUnit
    rw [if_neg (Nat.not_le.mpr hmore), hread]
    cases e <;> simp only [guardFetch, hhead] <;> rfl
  · cases hd.symm.trans hok

/-- Settles O6: the bytes the engine looks at decide as all the bytes that are left do. -/
theorem stepRunsInstruction : Obligations.StepRunsInstruction := by
  unfold Obligations.StepRunsInstruction
  refine ⟨fun s u h ha => step_of_dispatch h ha, fun s u i rest h ha _ hd hread => ?_,
    fun s u i rest h ha _ hd hread => ?_⟩ <;> rw [step_of_turn_engine h]
  · exact engineStep_tokens_run ha hd hread
  · exact engineStep_blocks_run ha hd hread

/-! ## The ends -/

theorem blockError_of_decode (hs : s.bfc.owner = .decode) (e : ErrKind) (info : Byte) :
    s.blockError e info = s.errorEnd e s.bfc.opos s.bfc.ipos info := by
  rw [State.blockError, hs]

theorem blockError_of_decodeBlock (hs : s.bfc.owner = .decodeBlock) (e : ErrKind) (info : Byte) :
    s.blockError e info = s.errorEnd e 0 0 info := by
  rw [State.blockError, hs]

theorem sameMachine_blockError (s : State) (e : ErrKind) (info : Byte) : s.sameMachine (s.blockError e info) := by
  unfold State.blockError
  split <;> exact sameMachine_errorEnd s _ _ _ _

/-- In a block's payload every token error is the payload's error (R118). -/
theorem tokenError_of_block (hs : s.td.owner = .block) (e : ErrKind) : s.tokenError e = s.payloadError := by
  rw [State.tokenError, hs]

/-- A token error inside a block fails the payload, and only the block's output may differ (R118, R142). -/
theorem payloadFailed_tokenError (hs : s.td.owner = .block) (e : ErrKind) :
    s.payloadFailed (s.startToken.tokenError e) s.td.outBase s.td.cap := by
  rw [tokenError_of_block (s := s.startToken) hs]
  exact payloadFailed_scramble s.startToken _ _

/-- Settles O7: each end is the decoder's error at the cursor; the owner says what is recorded. -/
theorem stepEndsMalformed : Obligations.StepEndsMalformed := by
  unfold Obligations.StepEndsMalformed
  refine ⟨fun s u h ha howner _ hd hread => ?_, fun s u h ha howner _ hd hread => ?_,
    fun s u e h ha _ hd he hread => ?_⟩ <;> rw [step_of_turn_engine h]
  · exact ⟨_, engineStep_tokens_truncated ha hd hread, tokenError_of_decompress howner _⟩
  · exact ⟨_, engineStep_tokens_truncated ha hd hread, payloadFailed_tokenError howner _⟩
  · refine ⟨_, engineStep_blocks_error ha hd he hread, sameMachine_blockError u _ _, ?_⟩
    cases howner : u.bfc.owner with
    | decode => rw [blockError_of_decode howner]; cases e <;> exact failedAs_errorEnd u _ _ _ _
    | decodeBlock => rw [blockError_of_decodeBlock howner]; cases e <;> exact failedAs_errorEnd u _ _ _ _

theorem endBlocks_of_decode (hs : s.bfc.owner = .decode) : s.endBlocks = s.complete s.bfc.opos s.bfc.ipos 0#2 := by
  rw [State.endBlocks, hs]

theorem endBlocks_of_decodeBlock (hs : s.bfc.owner = .decodeBlock) : s.endBlocks = s.complete 0 0 2#2 := by
  rw [State.endBlocks, hs]

theorem endTokens_of_decompress (hs : s.td.owner = .decompress) :
    s.endTokens = s.complete s.td.op s.td.clen 0#2 := by
  rw [State.endTokens, hs]

theorem endTokens_of_done (hs : s.td.owner = .block) (hdone : s.td.op = s.td.cap) :
    s.endTokens = s.blockDone s.td.cap (7 + s.td.clen) := by
  simp [State.endTokens, hs, hdone]

theorem endTokens_of_short (hs : s.td.owner = .block) (hshort : s.td.op ≠ s.td.cap) :
    s.endTokens = s.payloadError := by
  simp [State.endTokens, hs, hshort]

theorem blockDone_of_decode (hs : s.bfc.owner = .decode) (produced consumed : Nat) :
    s.blockDone produced consumed
      = { s with bfc := ⟨.decode, s.bfc.ipos + consumed, s.bfc.opos + produced⟩, activity := .blocks } := by
  simp [State.blockDone, hs]

theorem blockDone_of_decodeBlock (hs : s.bfc.owner = .decodeBlock) (produced consumed : Nat) :
    s.blockDone produced consumed = s.complete produced consumed 0#2 := by
  rw [State.blockDone, hs]

/-- Settles O8: the end of the input by its owner, and the end of a token stream by its owner and its output. -/
theorem stepEndsStreams : Obligations.StepEndsStreams := by
  unfold Obligations.StepEndsStreams
  refine ⟨fun s u h ha hend => ?_, fun s u h ha hend => ?_⟩ <;> rw [step_of_turn_engine h]
  · rw [engineStep_blocks_end ha hend]
    cases howner : u.bfc.owner with
    | decode =>
      rw [endBlocks_of_decode howner]
      exact ⟨_, rfl, sameMachine_complete u _ _ _, fun _ => completedAs_complete u _ _ _, nofun⟩
    | decodeBlock =>
      rw [endBlocks_of_decodeBlock howner]
      exact ⟨_, rfl, sameMachine_complete u _ _ _, nofun, fun _ => completedAs_complete u _ _ _⟩
  · rw [engineStep_tokens_end ha hend]
    refine ⟨fun howner => ?_, fun howner hdone hdecode => ?_, fun howner hdone hone => ?_, fun howner hshort => ?_⟩
    · rw [endTokens_of_decompress howner]
      exact ⟨_, rfl, completedAs_complete u _ _ _, sameMachine_complete u _ _ _⟩
    · rw [endTokens_of_done howner hdone, blockDone_of_decode hdecode]
    · rw [endTokens_of_done howner hdone, blockDone_of_decodeBlock hone]
      exact ⟨_, rfl, completedAs_complete u _ _ _, sameMachine_complete u _ _ _⟩
    · rw [endTokens_of_short howner hshort]
      exact ⟨_, rfl, payloadFailed_scramble u _ _⟩

/-- Settles O19: every check a token of a payload fails is the payload's error. -/
theorem payloadErrors : Obligations.PayloadErrors := by
  unfold Obligations.PayloadErrors
  intro i n len off s hi howner hbad
  by_cases hcut : s.td.clen < s.td.ip + n
  · exact ⟨_, exec_token_truncated hi hcut, payloadFailed_tokenError howner _⟩
  have hn : s.td.ip + n ≤ s.td.clen := Nat.le_of_not_lt hcut
  by_cases hfar : ∃ o : Nat, off = some o ∧ s.td.op ≤ o
  · obtain ⟨o, rfl, ho⟩ := hfar
    exact ⟨_, exec_token_badOffset hi hn ho, payloadFailed_tokenError howner _⟩
  have hoff : ∀ o : Nat, off = some o → o < s.td.op := fun o ho => Nat.lt_of_not_le fun hle => hfar ⟨o, ho, hle⟩
  have hcap : s.td.cap < s.td.op + len := (hbad.resolve_left hcut).resolve_left hfar
  exact ⟨_, exec_token_tooSmall hi hn hoff hcap, payloadFailed_tokenError howner _⟩

/-! ## Block units -/

theorem exec_blkRaw_granted {n : Nat} (hdata : s.bfc.ipos + 5 + n ≤ s.latched.srcLen.toNat)
    (hcap : s.bfc.opos + n ≤ s.latched.dstCap.toNat)
    (hread : s.checkSource false (s.srcLo + s.bfc.ipos + 5) n = .granted)
    (hwrite : s.checkDest .write (s.dstLo + s.bfc.opos) n = .granted) :
    exec (.blkRaw n) s = .next
      ((s.store (s.dstLo + s.bfc.opos) (s.source (s.srcLo + s.bfc.ipos + 5) n)).blockDone n (5 + n)) := by
  refine (if_neg (Nat.not_lt.mpr hdata)).trans ((if_neg (Nat.not_lt.mpr hcap)).trans ?_)
  simp [hread, hwrite]

theorem exec_blkRaw_cut {n : Nat} (hcut : s.latched.srcLen.toNat < s.bfc.ipos + 5 + n) :
    exec (.blkRaw n) s = .next (s.blockError .invalidData 0#8) :=
  if_pos hcut

theorem exec_blkRaw_tooSmall {n : Nat} (hdata : s.bfc.ipos + 5 + n ≤ s.latched.srcLen.toNat)
    (hcap : s.latched.dstCap.toNat < s.bfc.opos + n) :
    exec (.blkRaw n) s = .next (s.blockError .outputTooSmall 0#8) :=
  (if_neg (Nat.not_lt.mpr hdata)).trans (if_pos hcap)

theorem exec_blkCmp_cut {c n : Nat} (hcut : s.latched.srcLen.toNat < s.bfc.ipos + 7 + c) :
    exec (.blkCmp c n) s = .next (s.cutShort n) :=
  if_pos hcut

theorem exec_blkCmp_tooSmall {c n : Nat} (hdata : s.bfc.ipos + 7 + c ≤ s.latched.srcLen.toNat)
    (hcap : s.latched.dstCap.toNat < s.bfc.opos + n) :
    exec (.blkCmp c n) s = .next (s.blockError .outputTooSmall 0#8) :=
  (if_neg (Nat.not_lt.mpr hdata)).trans (if_pos hcap)

theorem exec_blkCmp_granted {c n : Nat} (hdata : s.bfc.ipos + 7 + c ≤ s.latched.srcLen.toNat)
    (hcap : s.bfc.opos + n ≤ s.latched.dstCap.toNat) :
    exec (.blkCmp c n) s
      = .next (s.startTokens .block (s.srcLo + s.bfc.ipos + 7) c (s.dstLo + s.bfc.opos) n) :=
  (if_neg (Nat.not_lt.mpr hdata)).trans (if_neg (Nat.not_lt.mpr hcap))

/-- Settles O20: the two checks in order, and the write of a payload whose checks pass. -/
theorem blkRawResult : Obligations.BlkRawResult := by
  unfold Obligations.BlkRawResult
  refine fun n s => ⟨exec_blkRaw_cut, exec_blkRaw_tooSmall, fun hdata hcap hread hwrite =>
    ⟨_, exec_blkRaw_granted hdata hcap hread hwrite, ?_⟩⟩
  have hin : ∀ k : Nat, k < (s.source (s.srcLo + s.bfc.ipos + 5) n).length → _ :=
    fun k hk => get_writeBytes_inside s.mem (s.dstLo + s.bfc.opos) _ k hk
  have hout := sameOutside_store s (s.dstLo + s.bfc.opos) (s.source (s.srcLo + s.bfc.ipos + 5) n)
  rw [State.length_source] at hout
  cases howner : s.bfc.owner with
  | decode =>
    rw [blockDone_of_decode (s := s.store _ _) howner]
    exact ⟨hin, hout, ⟨rfl, rfl, rfl, rfl, rfl, rfl⟩, ⟨rfl, rfl, rfl⟩, rfl, rfl,
      fun _ => ⟨⟨rfl, rfl, rfl, rfl, rfl, rfl, rfl⟩, rfl, rfl⟩, nofun⟩
  | decodeBlock =>
    rw [blockDone_of_decodeBlock (s := s.store _ _) howner]
    exact ⟨hin, hout, ⟨rfl, rfl, rfl, rfl, rfl, rfl⟩, ⟨rfl, rfl, rfl⟩, rfl, rfl, nofun,
      fun _ => ⟨⟨rfl, rfl, rfl, rfl, rfl, rfl, rfl, rfl⟩, rfl⟩⟩

/-- Settles O21: the two checks in order, and the start of the token decoder. -/
theorem blkCmpResult : Obligations.BlkCmpResult := by
  unfold Obligations.BlkCmpResult
  refine fun c n s => ⟨fun hcut => ⟨_, exec_blkCmp_cut hcut, ?_, payloadFailed_scramble s _ _⟩,
    exec_blkCmp_tooSmall, exec_blkCmp_granted⟩
  exact (sameMachine_blockError (s.scramble _ _) _ _).2.2.2.1

/-! ## Bus errors of the token decoder -/

theorem readsNow_of_decompress (hs : s.td.owner = .decompress) : s.readsNow = true := by
  simp [State.readsNow, hs]

/-- A token whose checks pass ends the command if one of its accesses gets a bus error (R56). -/
theorem exec_token_busEnded {i : Instr} {n len : Nat} {off : Option Nat} (hi : i.tokenParts = some (n, off, len))
    (hfit : s.rangesFit = true) (hrange : s.tokensInRange = true) (hn : s.td.ip + n ≤ s.td.clen)
    (hoff : ∀ o : Nat, off = some o → o < s.td.op) (hcap : s.td.op + len ≤ s.td.cap)
    (hfault : (off = none ∧ s.td.owner = .decompress ∧ s.busFaultIn .read (s.td.srcBase + s.td.ip + 1) len = true)
      ∨ (∃ o : Nat, off = some o ∧ s.busFaultIn .readBack (s.td.outBase + (s.td.op - o - 1)) len = true)
      ∨ s.busFaultIn .write (s.td.outBase + s.td.op) len = true) : Meets s.busEnded (exec i s) := by
  obtain ⟨hslo, hshi, hdlo, hdhi, -⟩ := (tokensInRange_iff s).mp hrange
  have hbus : s.busEnded s.startToken.busErrorEnd := busEnded_busErrorEnd s.startToken
  have hwrite := checkDest_inside hfit .write (a := s.td.outBase + s.td.op) (n := len) (by omega) (by omega)
  rcases Instr.tokenParts_cases hi with ⟨rfl, rfl, rfl⟩ | ⟨o, rfl, href⟩
  · have hread := checkSource_inside hfit s.readsNow (a := s.td.srcBase + (s.td.ip + 1)) (n := len) (by omega)
      (by omega)
    show Meets _ (execLit len s)
    unfold execLit
    dsimp only
    rw [if_neg (by simp only [State.startToken_td]; omega), if_neg (by simp only [State.startToken_td]; omega)]
    refine guardAccess_meets hread hbus fun hr => guardAccess_meets hwrite hbus fun hw => ?_
    rcases hfault with ⟨-, howner, hf⟩ | ⟨o, ho, -⟩ | hf
    · rw [readsNow_of_decompress howner, Bool.true_and, ← Nat.add_assoc, hf] at hr
      cases hr
    · cases ho
    · cases hf.symm.trans hw
  · have hback := checkDest_inside hfit .readBack (a := s.td.outBase + (s.td.op - o - 1)) (n := len) (by omega)
      (by omega)
    have ho := hoff o rfl
    rw [exec_of_reference href]
    unfold execReference
    dsimp only
    rw [if_neg (by simp only [State.startToken_td]; omega), if_neg (by simp only [State.startToken_td]; omega),
      if_neg (by simp only [State.startToken_td]; omega)]
    refine guardAccess_meets hback hbus fun hr => guardAccess_meets hwrite hbus fun hw => ?_
    rcases hfault with ⟨hnone, -⟩ | ⟨_, ⟨⟩, hf⟩ | hf
    · cases hnone
    · cases hf.symm.trans hr
    · cases hf.symm.trans hw

/-- A fetch of DECOMPRESS ends the command if the control byte or the rest of the head gets a bus error (R56). -/
theorem engineStep_tokens_busEnded (ha : s.activity = .tokens) (howner : s.td.owner = .decompress)
    (hfit : s.rangesFit = true) (hrange : s.tokensInRange = true) (hmore : s.td.ip < s.td.clen)
    (hfault : s.busFaultIn .read (s.td.srcBase + s.td.ip) 1 = true
      ∨ s.td.ip + tokenHeadLength (s.sourceByte (s.td.srcBase + s.td.ip)) ≤ s.td.clen
        ∧ s.busFaultIn .read (s.td.srcBase + s.td.ip) (tokenHeadLength (s.sourceByte (s.td.srcBase + s.td.ip)))
          = true) :
    Meets s.busEnded (engineStep s) := by
  obtain ⟨hslo, hshi, -⟩ := (tokensInRange_iff s).mp hrange
  have hbus := busEnded_busErrorEnd s
  rw [engineStep_tokens ha]
  unfold fetchToken
  dsimp only
  rw [if_neg (Nat.not_le.mpr hmore), runFetched_guardFetch, readsNow_of_decompress howner]
  refine guardAccess_meets (checkSource_inside hfit _ (by omega) (by omega)) hbus fun hfirst => ?_
  rw [Bool.true_and] at hfirst
  obtain ⟨hhead, hrest⟩ := hfault.resolve_left (by rw [hfirst]; nofun)
  rw [if_neg (Nat.not_lt.mpr hhead), runFetched_guardFetch]
  refine guardAccess_meets (checkSource_inside hfit _ (by omega) (by omega)) hbus fun hall => ?_
  cases hrest.symm.trans hall

/-- Settles O24: a fetch's two reads, and the accesses of a token whose checks pass. -/
theorem busErrorEndsToken : Obligations.BusErrorEndsToken := by
  unfold Obligations.BusErrorEndsToken
  refine ⟨fun s u head h ha howner hfit hrange hmore hhead hfault => ?_,
    fun i n len off s hi hfit hrange hn hoff hcap hfault =>
      (exec_token_busEnded hi hfit hrange hn hoff hcap hfault).exists_next⟩
  subst hhead
  rw [step_of_turn_engine h]
  exact (engineStep_tokens_busEnded ha howner hfit hrange hmore hfault).exists_next

end

end Sys2Proof.Machine
end

section
/-!
PROOF. The encoding commands (spec/41_token_encoder.md R98, spec/43_block_framing.md R111, R112, R114): the chunk loop
writes block after block of the source's framing, up to the first that does not fit or to a bus error.
-/
namespace Sys2Proof.Machine

section
variable {s u t : State} {a : Nat} {out bs : List Byte}

/-! ## The output written so far -/

/-- From `s` to `u` the bytes `out` were written at `a`, and nothing else in memory. -/
def State.wrote (s u : State) (a : Nat) (out : List Byte) : Prop := u.holds a out ∧ s.sameOutside u a out.length

theorem wrote_nil (h : u.mem = s.mem) : s.wrote u a [] :=
  ⟨nofun, sameOutside_of_mem_eq h a 0⟩

/-- More bytes behind those written. -/
theorem wrote_append (h : s.wrote u a out) (hin : t.holds (a + out.length) bs)
    (hout : u.sameOutside t (a + out.length) bs.length) : s.wrote t a (out ++ bs) := by
  obtain ⟨hholds, houtside⟩ := h
  refine ⟨fun k hk => ?_, fun x hx => ?_⟩
  · rw [List.length_append] at hk
    rcases Nat.lt_or_ge k out.length with hlt | hge
    · rw [List.getD_append _ _ _ _ hlt, hout _ (by omega), hholds k hlt]
    · rw [List.getD_append_right _ _ _ _ hge, ← hin _ (by omega), Nat.add_assoc, Nat.add_sub_cancel' hge]
  · rw [List.length_append] at hx
    rw [hout x (by omega), houtside x (by omega)]

theorem wrote_writeBytes (h : s.wrote u a out) (ht : t.mem = writeBytes u.mem (a + out.length) bs) :
    s.wrote t a (out ++ bs) := by
  refine wrote_append h (fun k hk => ?_) fun x hx => ?_
  · rw [State.byteAt, ht, get_writeBytes_inside _ _ _ _ hk]
  · rw [State.byteAt, ht, get_writeBytes_outside _ _ _ _ hx, State.byteAt]

/-! ## The source and the accesses of a running command -/

theorem busFaultIn_iff (s : State) (kind : BusAccess) (a n : Nat) :
    s.busFaultIn kind a n = true ↔ ∃ f ∈ s.platform.busFaults, f.kind = kind ∧ a ≤ f.addr ∧ f.addr < a + n := by
  simp only [State.busFaultIn, List.any_eq_true, Bool.and_eq_true, decide_eq_true_eq, and_assoc]

theorem busFaultIn_add (s : State) (kind : BusAccess) (a n k : Nat) :
    s.busFaultIn kind a (n + k) = (s.busFaultIn kind a n || s.busFaultIn kind (a + n) k) := by
  rw [Bool.eq_iff_iff, Bool.or_eq_true, busFaultIn_iff, busFaultIn_iff, busFaultIn_iff]
  constructor
  · rintro ⟨f, hf, hkind, hlo, hhi⟩
    rcases Nat.lt_or_ge f.addr (a + n) with hlt | hge
    · exact .inl ⟨f, hf, hkind, hlo, hlt⟩
    · exact .inr ⟨f, hf, hkind, hge, by omega⟩
  · rintro (⟨f, hf, hkind, hlo, hhi⟩ | ⟨f, hf, hkind, hlo, hhi⟩)
    · exact ⟨f, hf, hkind, hlo, by omega⟩
    · exact ⟨f, hf, hkind, by omega, by omega⟩

theorem busFaultIn_zero (s : State) (kind : BusAccess) (a : Nat) : s.busFaultIn kind a 0 = false := by
  rw [Bool.eq_false_iff, ne_eq, busFaultIn_iff]
  rintro ⟨f, -, -, hlo, hhi⟩
  omega

theorem busQuiet_iff (s : State) :
    s.busQuiet = true ↔ s.busFaultIn .read s.srcLo s.latched.srcLen.toNat = false
      ∧ s.busFaultIn .write s.dstLo s.latched.dstCap.toNat = false
      ∧ s.busFaultIn .readBack s.dstLo s.latched.dstCap.toNat = false := by
  simp [State.busQuiet, and_assoc]

section
variable (h : s.sameAgents u)
include h

theorem latched_of_sameAgents : u.latched = s.latched := h.2.1

theorem busFaultIn_of_sameAgents (kind : BusAccess) (a n : Nat) : u.busFaultIn kind a n = s.busFaultIn kind a n := by
  obtain ⟨-, -, hplatform, -⟩ := h
  rw [State.busFaultIn, hplatform, State.busFaultIn]

theorem srcLo_of_sameAgents : u.srcLo = s.srcLo := by rw [State.srcLo, latched_of_sameAgents h, State.srcLo]

theorem dstLo_of_sameAgents : u.dstLo = s.dstLo := by rw [State.dstLo, latched_of_sameAgents h, State.dstLo]

theorem srcHi_of_sameAgents : u.srcHi = s.srcHi := by rw [State.srcHi, latched_of_sameAgents h, State.srcHi]

theorem dstHi_of_sameAgents : u.dstHi = s.dstHi := by rw [State.dstHi, latched_of_sameAgents h, State.dstHi]

theorem checkSource_of_sameAgents (bus : Bool) (a n : Nat) : u.checkSource bus a n = s.checkSource bus a n := by
  rw [State.checkSource, srcLo_of_sameAgents h, srcHi_of_sameAgents h, busFaultIn_of_sameAgents h, State.checkSource]

theorem checkDest_of_sameAgents (kind : BusAccess) (a n : Nat) : u.checkDest kind a n = s.checkDest kind a n := by
  rw [State.checkDest, dstLo_of_sameAgents h, dstHi_of_sameAgents h, busFaultIn_of_sameAgents h, State.checkDest]

/-- Writes inside `D` leave the source bytes, since the ranges share none (R131). -/
theorem source_of_wrote (hov : s.rangesOverlap = false) (hwrote : s.wrote u s.dstLo out)
    (hcap : out.length ≤ s.latched.dstCap.toNat) {a n : Nat} (hlo : s.srcLo ≤ a) (hhi : a + n ≤ s.srcHi) :
    u.source a n = s.source a n := by
  obtain ⟨-, -, -, -, hdraw, hunseen⟩ := h
  refine State.source_congr a n hunseen hdraw fun x hx hx' => hwrote.2 x ?_
  by_contra hin
  have hshare := (rangesOverlap_iff s).mpr ⟨x, by unfold State.srcLo at hlo; omega, by unfold State.srcHi at hhi; omega,
    by unfold State.dstLo at hin; omega, by unfold State.dstLo at hin; omega⟩
  cases hov.symm.trans hshare

end

/-- The bytes of a part of the source. -/
theorem source_eq_sourceBytes (s : State) {i n : Nat} (h : i ≤ s.latched.srcLen.toNat) :
    s.source (s.srcLo + i) (min n (s.latched.srcLen.toNat - i)) = (s.sourceBytes.drop i).take n := by
  rw [State.sourceBytes, drop_source _ _ h]
  rcases Nat.le_total n (s.latched.srcLen.toNat - i) with hn | hn
  · rw [Nat.min_eq_left hn, take_source _ _ hn]
  · rw [Nat.min_eq_right hn, List.take_of_length_le (by rwa [State.length_source])]

@[simp] theorem length_sourceBytes (s : State) : s.sourceBytes.length = s.latched.srcLen.toNat :=
  State.length_source _ _ _

/-- A bus error that ends the command where some of the state has moved on (R56). -/
theorem busEnded_of_wrote (h : s.sameAgents u) (hdone : u.done = s.done) (hwrote : s.wrote u s.dstLo out)
    (hcap : out.length ≤ s.latched.dstCap.toNat) : s.busEnded u.busErrorEnd := by
  obtain ⟨hfail, houtside, hagents⟩ := busEnded_busErrorEnd u
  rw [dstLo_of_sameAgents h, latched_of_sameAgents h] at houtside
  refine ⟨?_, sameOutside_trans (sameOutside_mono hwrote.2 (Nat.le_refl _) (by omega)) houtside,
    sameAgents_trans h hagents⟩
  rwa [State.failedAs, hdone] at hfail

/-- A completion after a run that left the results alone. -/
theorem completedAs_of_sameOutward (h : s.sameOutward u) (result consumed : Nat) (endKind : BitVec 2) :
    s.completedAs (u.complete result consumed endKind) result consumed endKind := by
  obtain ⟨-, -, -, hinfo, -, herr, -⟩ := h
  exact ⟨rfl, rfl, rfl, rfl, rfl, herr, hinfo, rfl⟩

theorem failedAs_of_sameOutward (h : s.sameOutward u) (e : ErrKind) (result consumed : Nat) (info : Byte) :
    s.failedAs (u.errorEnd e result consumed info) e result consumed info := by
  obtain ⟨-, -, -, -, hdone, -⟩ := h
  exact ⟨rfl, rfl, rfl, rfl, rfl, rfl, hdone, rfl⟩

/-! ## COMPRESS -/

theorem busQuiet_eq_false_of_read {a n : Nat} (hlo : s.srcLo ≤ a) (hhi : a + n ≤ s.srcHi)
    (hfault : s.busFaultIn .read a n = true) : s.busQuiet = false := by
  rw [Bool.eq_false_iff]
  intro hquiet
  cases hfault.symm.trans (busFaultIn_mono s .read hlo hhi ((busQuiet_iff s).mp hquiet).1)

theorem busQuiet_eq_false_of_write {a n : Nat} (hlo : s.dstLo ≤ a) (hhi : a + n ≤ s.dstHi)
    (hfault : s.busFaultIn .write a n = true) : s.busQuiet = false := by
  rw [Bool.eq_false_iff]
  intro hquiet
  cases hfault.symm.trans (busFaultIn_mono s .write hlo hhi ((busQuiet_iff s).mp hquiet).2.1)

/-- COMPRESS ends with its one result, or with a bus error on the source or on the bytes it writes (R98, R56). -/
theorem exec_compress_meets {P : State → Prop} {mode : Mode} {w q : Bool} (hlen : s.latched.srcLen.toNat ≤ 4294967295)
    (hs : s.launchable = true) {r : Coded}
    (hr : r = mfCall (hash3Of s.platform.hash) mode s.sourceBytes s.latched.dstCap.toNat s.mf)
    (hbus : s.busFaultIn .read s.srcLo s.latched.srcLen.toNat = true
      ∨ s.busFaultIn .write s.dstLo (r.count s.latched.dstCap.toNat) = true → P s.busErrorEnd)
    (hdone : s.busFaultIn .read s.srcLo s.latched.srcLen.toNat = false →
      s.busFaultIn .write s.dstLo (r.count s.latched.dstCap.toNat) = false →
      P (finishCompress s s.latched.srcLen.toNat s.latched.dstCap.toNat r)) :
    Meets P (exec (.compress mode w q) s) := by
  have hfit := ((launchable_iff s).mp hs).1
  show Meets P (execCompress mode s)
  unfold execCompress
  rw [launch_granted (decide_eq_true hlen) hs]
  unfold compressOperation
  dsimp only
  rw [← State.sourceBytes, ← hr]
  have hcount : s.dstLo + r.count s.latched.dstCap.toNat ≤ s.dstHi :=
    Nat.add_le_add_left (hr ▸ count_mfCall_le _ _ _ _ _) _
  rcases checkSource_inside hfit true (Nat.le_refl _) (Nat.le_refl _) with ⟨h, hquietr⟩ | ⟨h, hfault⟩
  · rw [h]
    rcases checkDest_inside hfit .write (Nat.le_refl _) hcount with ⟨h, hquiet⟩ | ⟨h, hfault⟩
    · rw [h]
      exact hdone hquietr hquiet
    · rw [h]
      exact hbus (.inr hfault)
  · rw [h]
    exact hbus (.inl hfault)

/-- Settles O12: without a bus error COMPRESS ends with its one result, which is read off `finishCompress`. -/
theorem compressResult : Obligations.CompressResult := by
  unfold Obligations.CompressResult
  intro m w q s r hlen hs hquiet hr
  obtain ⟨hread, hwrite, -⟩ := (busQuiet_iff s).mp hquiet
  have hcount : r.count s.latched.dstCap.toNat ≤ s.latched.dstCap.toNat := hr ▸ count_mfCall_le _ _ _ _ _
  refine (exec_compress_meets hlen hs hr (fun hfault => ?_) fun _ _ => ?_).exists_next
  · rw [hread, busFaultIn_mono s .write (Nat.le_refl _) (Nat.add_le_add_left hcount _) hwrite] at hfault
    simp at hfault
  · unfold finishCompress
    cases hfits : r.fits with
    | true =>
      exact ⟨⟨rfl, rfl, rfl, rfl, rfl, rfl⟩, rfl, rfl, rfl, fun _ => ⟨completedAs_complete (State.store _ _ _) _ _ _,
        fun k hk => get_writeBytes_inside _ _ _ k hk, sameOutside_store (s.withCoded r _) _ _⟩, nofun⟩
    | false =>
      exact ⟨⟨rfl, rfl, rfl, rfl, rfl, rfl⟩, rfl, rfl, rfl, nofun,
        fun _ => ⟨failedAs_errorEnd (State.scramble _ _ _) _ _ _ _, sameOutside_scramble (s.withCoded r _) _ _⟩⟩

end

end Sys2Proof.Machine
end

section
/-!
PROOF. The chunk loop of ENCODE and ENCODE_BLOCK (spec/43_block_framing.md R111, R112, R114): it writes the blocks of
the source's framing one behind the other, and ends behind the last, before the first that does not fit, or with a bus
error.
-/
namespace Sys2Proof.Machine

/-! ## The units of a framing -/

section
variable {hf : Hash3} {mode : Mode} {bs : Nat} {withTerm : Bool} {d : List Byte}

/-- The loop stops at a chunk's start or at the end of the input. -/
def chunkStart (bs n ipos : Nat) : Prop := ipos % bs = 0 ∧ ipos < n ∨ ipos = n

/-- What the encoder writes at input offset `ipos`: the block of the chunk there, or the terminator behind the last. -/
def unitAt (hf : Hash3) (mode : Mode) (bs : Nat) (withTerm : Bool) (d : List Byte) (ipos : Nat) : List Byte :=
  if ipos < d.length then blockOf hf mode ((d.drop ipos).take bs) else terminator withTerm

theorem length_terminator_le (withTerm : Bool) : (terminator withTerm).length ≤ 1 := by cases withTerm <;> decide

/-- The blocks up to the end of one more chunk (R111). -/
theorem framed_take_succ (hbs : 1 ≤ bs) {k : Nat} (hk : k * bs < d.length) :
    framed hf mode bs (d.take (k * bs + bs))
      = framed hf mode bs (d.take (k * bs)) ++ blockOf hf mode ((d.drop (k * bs)).take bs) := by
  have hne : (d.drop (k * bs)).take bs ≠ [] := by
    rw [ne_eq, List.take_eq_nil_iff, List.drop_eq_nil_iff]
    omega
  rw [framed_take_append_drop hbs k (d.take (k * bs + bs)), List.take_take, Nat.min_eq_left (Nat.le_add_right _ _),
    List.drop_take, Nat.add_sub_cancel_left, framed_of_ne_nil hbs hne, List.take_take, Nat.min_self, List.drop_take,
    Nat.sub_self, List.take_zero, framed_nil, List.append_nil]

/-- The blocks of a longer part of the input begin with those of its whole chunks (R115). -/
theorem length_framed_take_le (hbs : 1 ≤ bs) {k i : Nat} (h : k * bs ≤ i) :
    (framed hf mode bs (d.take (k * bs))).length ≤ (framed hf mode bs (d.take i)).length := by
  rw [framed_take_append_drop hbs k (d.take i), List.take_take, Nat.min_eq_left h, List.length_append]
  exact Nat.le_add_right _ _

theorem length_framed_take_le_all (hbs : 1 ≤ bs) (k : Nat) :
    (framed hf mode bs (d.take (k * bs))).length ≤ (framed hf mode bs d).length := by
  rw [framed_take_append_drop hbs k d, List.length_append]
  exact Nat.le_add_right _ _

/-- What the loop has written where it stops, and the next unit, are the beginning of all it is to write. -/
theorem length_unitAt_le (hbs : 1 ≤ bs) {ipos : Nat} (hpos : chunkStart bs d.length ipos) :
    (framed hf mode bs (d.take ipos)).length + (unitAt hf mode bs withTerm d ipos).length
      ≤ (framed hf mode bs d ++ terminator withTerm).length := by
  unfold unitAt
  rw [List.length_append]
  rcases hpos with ⟨hmod, hlt⟩ | rfl
  · obtain ⟨k, rfl⟩ : ∃ k, ipos = k * bs := ⟨ipos / bs, (Nat.div_mul_cancel (Nat.dvd_of_mod_eq_zero hmod)).symm⟩
    rw [if_pos hlt, ← List.length_append, ← framed_take_succ hbs hlt, ← Nat.succ_mul]
    exact Nat.le_add_right_of_le (length_framed_take_le_all hbs (k + 1))
  · rw [if_neg (Nat.lt_irrefl _), List.take_length]

/-- Where the next unit is one too many, at least the whole chunks that fit are written. -/
theorem le_of_not_fits (hbs : 1 ≤ bs) {cap k ipos : Nat} (hpos : chunkStart bs d.length ipos)
    (hfit : (framed hf mode bs (d.take (k * bs))).length ≤ cap)
    (hover : cap < (framed hf mode bs (d.take ipos)).length + (unitAt hf mode bs withTerm d ipos).length) :
    k * bs ≤ ipos ∨ ipos = d.length := by
  rcases hpos with ⟨hmod, hlt⟩ | hend
  · obtain ⟨j, rfl⟩ : ∃ j, ipos = j * bs := ⟨ipos / bs, (Nat.div_mul_cancel (Nat.dvd_of_mod_eq_zero hmod)).symm⟩
    refine .inl (Nat.mul_le_mul_right bs (Nat.le_of_not_lt fun hjk => ?_))
    rw [unitAt, if_pos hlt, ← List.length_append, ← framed_take_succ hbs hlt, ← Nat.succ_mul] at hover
    have hle := length_framed_take_le (hf := hf) (mode := mode) (d := d) hbs (Nat.mul_le_mul_right bs hjk)
    omega
  · exact .inr hend

end

/-! ## Where the loop ends -/

/-- The chunk loop of the command that started in `s` stands in `u` at input offset `ipos`, the bytes `out` written,
and no access so far got a bus error. -/
structure State.encodedTo (s u : State) (ipos : Nat) (out : List Byte) : Prop where
  outward : s.sameOutward u
  td : u.td = s.td
  ipos_eq : u.bfc.ipos = ipos
  opos_eq : u.bfc.opos = out.length
  wrote : s.wrote u s.dstLo out
  readQuiet : s.busFaultIn .read s.srcLo ipos = false
  writeQuiet : s.busFaultIn .write s.dstLo out.length = false

/-- How ENCODE ends with chunks of `bs` bytes (R112): with a bus error, with everything written, or before the first
unit that does not fit. -/
inductive State.encodes (s : State) (hf : Hash3) (mode : Mode) (bs : Nat) (withTerm : Bool) : State → Prop
  | busError {t : State} : s.busEnded t → s.busQuiet = false → s.encodes hf mode bs withTerm t
  | done {u : State} : s.encodedTo u s.latched.srcLen.toNat (framed hf mode bs s.sourceBytes ++ terminator withTerm) →
      (framed hf mode bs s.sourceBytes ++ terminator withTerm).length ≤ s.latched.dstCap.toNat →
      s.encodes hf mode bs withTerm
        (u.complete (framed hf mode bs s.sourceBytes ++ terminator withTerm).length s.latched.srcLen.toNat 0#2)
  | full {u : State} {ipos : Nat} : chunkStart bs s.latched.srcLen.toNat ipos →
      s.encodedTo u ipos (framed hf mode bs (s.sourceBytes.take ipos)) →
      (framed hf mode bs (s.sourceBytes.take ipos)).length ≤ s.latched.dstCap.toNat →
      s.latched.dstCap.toNat < (framed hf mode bs (s.sourceBytes.take ipos)).length
        + (unitAt hf mode bs withTerm s.sourceBytes ipos).length →
      s.busFaultIn .read s.srcLo (min s.latched.srcLen.toNat (ipos + bs)) = false →
      s.encodes hf mode bs withTerm
        (u.errorEnd .outputTooSmall (framed hf mode bs (s.sourceBytes.take ipos)).length ipos 0#8)

section
variable {s u : State} {ipos : Nat} {out blk : List Byte}

/-- A unit written behind the others. -/
theorem encodedTo_withBlock (h : s.encodedTo u ipos out) {n : Nat}
    (hread : s.busFaultIn .read s.srcLo (ipos + n) = false)
    (hwrite : s.busFaultIn .write (s.dstLo + out.length) blk.length = false) :
    s.encodedTo (u.withBlock blk n) (ipos + n) (out ++ blk) where
  outward := sameOutward_trans h.outward (sameOutward_withBlock u blk n)
  td := h.td
  ipos_eq := congrArg (· + n) h.ipos_eq
  opos_eq := by rw [List.length_append, ← h.opos_eq]; rfl
  wrote := wrote_writeBytes h.wrote (by
    rw [← h.opos_eq, ← dstLo_of_sameAgents h.outward.1]
    rfl)
  readQuiet := hread
  writeQuiet := by rw [List.length_append, busFaultIn_add, h.writeQuiet, hwrite]; rfl

theorem encodedTo_withChunk (h : s.encodedTo u ipos out) (r : Coded) (n : Nat) :
    s.encodedTo (u.withChunk r n) ipos out where
  outward := sameOutward_trans h.outward (sameOutward_withChunk u r n)
  td := h.td
  ipos_eq := h.ipos_eq
  opos_eq := h.opos_eq
  wrote := h.wrote
  readQuiet := h.readQuiet
  writeQuiet := h.writeQuiet

theorem encodedTo_withCursors (s : State) : s.encodedTo (s.withCursors 0 0) 0 [] where
  outward := sameOutward_inner s _ _ _ _ _ _ _ _
  td := rfl
  ipos_eq := rfl
  opos_eq := rfl
  wrote := wrote_nil rfl
  readQuiet := busFaultIn_zero _ _ _
  writeQuiet := busFaultIn_zero _ _ _

theorem busEnded_of_encodedTo (h : s.encodedTo u ipos out) (hcap : out.length ≤ s.latched.dstCap.toNat) :
    s.busEnded u.busErrorEnd := by
  obtain ⟨-, -, -, hdone, -⟩ := h.outward.2
  exact busEnded_of_wrote h.outward.1 hdone h.wrote hcap

/-- What a chunk's block is does not depend on the tables an earlier call left (R35, R109). -/
theorem chunkBlock_codeChunk (mode : Mode) (u : State) (x : List Byte) :
    chunkBlock x (codeChunk mode u x) = blockOf (hash3Of u.platform.hash) mode x := by
  obtain ⟨hout, hfits⟩ := mfCall_tables (hash3Of u.platform.hash) mode x (scratchBudget x.length) u.mf emptyFinder
  rw [blockOf, chunkBlock, chunkBlock, codeChunk, hout, hfits]

section
variable {hf : Hash3} {mode : Mode} {bs : Nat} {withTerm : Bool}

theorem take_sourceBytes_length (s : State) : s.sourceBytes.take s.latched.srcLen.toNat = s.sourceBytes :=
  List.take_of_length_le (length_sourceBytes s).le

/-- The end of the loop: the terminator if there is one and it fits (R112). -/
theorem finishEncode_encodes (hfit : s.rangesFit = true)
    (h : s.encodedTo u s.latched.srcLen.toNat (framed hf mode bs s.sourceBytes))
    (hcap : (framed hf mode bs s.sourceBytes).length ≤ s.latched.dstCap.toNat) :
    Meets (s.encodes hf mode bs withTerm) (finishEncode withTerm u) := by
  have hagents := h.outward.1
  have hall := take_sourceBytes_length s
  unfold finishEncode
  rw [h.opos_eq, h.ipos_eq, latched_of_sameAgents hagents, dstLo_of_sameAgents hagents,
    checkDest_of_sameAgents hagents]
  cases withTerm with
  | false =>
    have hdone := State.encodes.done (withTerm := false) (u := u) (hf := hf) (mode := mode) (bs := bs) (s := s)
    rw [terminator, if_neg Bool.false_ne_true, List.append_nil] at hdone
    exact hdone h hcap
  | true =>
    rw [if_pos rfl]
    split
    · next hover =>
      have hfull := State.encodes.full (withTerm := true) (u := u) (.inr rfl) (hall.symm ▸ h) (hall.symm ▸ hcap)
        (by rw [hall, unitAt, if_neg (by rw [length_sourceBytes]; omega)]; exact hover)
        (by rw [Nat.min_eq_left (Nat.le_add_right _ _)]; exact h.readQuiet)
      rwa [hall] at hfull
    · next hroom =>
      have hwrite : s.dstLo + (framed hf mode bs s.sourceBytes).length + 1 ≤ s.dstHi := by
        unfold State.dstHi State.dstLo
        omega
      rcases checkDest_inside hfit .write (a := s.dstLo + (framed hf mode bs s.sourceBytes).length) (by omega) hwrite
        with ⟨hgrant, hquiet⟩ | ⟨hbus, hfault⟩
      · rw [hgrant]
        have hblock := encodedTo_withBlock (blk := encode .term) (n := 0) h h.readQuiet hquiet
        have hdone := State.encodes.done (withTerm := true) hblock
          (by rw [List.length_append]; exact Nat.le_of_not_lt hroom)
        rwa [List.length_append] at hdone
      · rw [hbus]
        exact .busError (busEnded_of_encodedTo h hcap) (busQuiet_eq_false_of_write (by omega) hwrite hfault)

/-- A turn of the loop ends the command before the chunk, or writes its block and goes on behind it (R112). -/
theorem encodeLoop_turn (hfit : s.rangesFit = true) (hov : s.rangesOverlap = false)
    (hhash : hf = hash3Of s.platform.hash) (hbs : 1 ≤ bs) {j k : Nat} (hmore : j * bs < s.latched.srcLen.toNat)
    (h : s.encodedTo u (j * bs) (framed hf mode bs (s.sourceBytes.take (j * bs))))
    (hcap : (framed hf mode bs (s.sourceBytes.take (j * bs))).length ≤ s.latched.dstCap.toNat)
    (hrest : ∀ u' : State, s.encodedTo u' (min s.latched.srcLen.toNat (j * bs + bs))
        (framed hf mode bs (s.sourceBytes.take (j * bs + bs))) →
      (framed hf mode bs (s.sourceBytes.take (j * bs + bs))).length ≤ s.latched.dstCap.toNat →
      Meets (s.encodes hf mode bs withTerm) (encodeLoop mode withTerm bs k u')) :
    Meets (s.encodes hf mode bs withTerm) (encodeLoop mode withTerm bs (k + 1) u) := by
  have hagents := h.outward.1
  have hsucc := framed_take_succ (hf := hf) (mode := mode) hbs (hmore.trans_eq (length_sourceBytes s).symm)
  have hread : s.srcLo + j * bs + min bs (s.latched.srcLen.toNat - j * bs) ≤ s.srcHi := by
    unfold State.srcHi State.srcLo
    omega
  have hnext : j * bs + min bs (s.latched.srcLen.toNat - j * bs) = min s.latched.srcLen.toNat (j * bs + bs) := by
    omega
  have hx : u.source (s.srcLo + j * bs) (min bs (s.latched.srcLen.toNat - j * bs))
      = (s.sourceBytes.drop (j * bs)).take bs :=
    (source_of_wrote hagents hov h.wrote hcap (by omega) hread).trans (source_eq_sourceBytes s (Nat.le_of_lt hmore))
  rw [encodeLoop, h.ipos_eq, h.opos_eq, latched_of_sameAgents hagents, srcLo_of_sameAgents hagents,
    dstLo_of_sameAgents hagents, if_pos hmore]
  dsimp only
  rw [checkSource_of_sameAgents hagents]
  rcases checkSource_inside hfit true (a := s.srcLo + j * bs) (by omega) hread with ⟨hgrant, hquiet⟩ | ⟨hbus, hfault⟩
  · have hhash' : hash3Of u.platform.hash = hf := by rw [hhash, hagents.2.2.1]
    rw [hgrant, guardAccess_granted, hx, chunkBlock_codeChunk, hhash']
    have hreadTo : s.busFaultIn .read s.srcLo (min s.latched.srcLen.toNat (j * bs + bs)) = false := by
      rw [← hnext, busFaultIn_add, h.readQuiet, Bool.false_or]
      exact hquiet
    have hchunk := encodedTo_withChunk h (codeChunk mode u ((s.sourceBytes.drop (j * bs)).take bs))
      (min bs (s.latched.srcLen.toNat - j * bs))
    split
    · next hover =>
      refine .full (.inl ⟨Nat.mul_mod_left _ _, hmore⟩) hchunk hcap ?_ hreadTo
      rwa [unitAt, length_sourceBytes, if_pos hmore]
    · next hroom =>
      have hwrite : s.dstLo + (framed hf mode bs (s.sourceBytes.take (j * bs))).length
          + (blockOf hf mode ((s.sourceBytes.drop (j * bs)).take bs)).length ≤ s.dstHi := by
        unfold State.dstHi State.dstLo
        omega
      rw [checkDest_of_sameAgents hagents]
      rcases checkDest_inside hfit .write (a := s.dstLo + (framed hf mode bs (s.sourceBytes.take (j * bs))).length)
        (by omega) hwrite with ⟨hgrant, hquietw⟩ | ⟨hbus, hfault⟩
      · rw [hgrant]
        have hblock := encodedTo_withBlock hchunk (hnext ▸ hreadTo) hquietw
        rw [← hsucc, hnext] at hblock
        refine hrest _ hblock ?_
        rw [hsucc, List.length_append]
        exact Nat.le_of_not_lt hroom
      · rw [hbus]
        exact .busError (busEnded_of_encodedTo hchunk hcap) (busQuiet_eq_false_of_write (by omega) hwrite hfault)
  · rw [hbus]
    exact .busError (busEnded_of_encodedTo h hcap) (busQuiet_eq_false_of_read (by omega) hread hfault)

/-- The chunk loop, by induction on the bound of its turns. -/
theorem encodeLoop_encodes (hfit : s.rangesFit = true) (hov : s.rangesOverlap = false)
    (hhash : hf = hash3Of s.platform.hash) (hbs : 1 ≤ bs) {j k : Nat} (hk : s.latched.srcLen.toNat ≤ j * bs + k)
    (h : s.encodedTo u (min s.latched.srcLen.toNat (j * bs)) (framed hf mode bs (s.sourceBytes.take (j * bs))))
    (hcap : (framed hf mode bs (s.sourceBytes.take (j * bs))).length ≤ s.latched.dstCap.toNat) :
    Meets (s.encodes hf mode bs withTerm) (encodeLoop mode withTerm bs k u) := by
  have hfinish : ∀ {u : State} {j : Nat},
      s.encodedTo u (min s.latched.srcLen.toNat (j * bs)) (framed hf mode bs (s.sourceBytes.take (j * bs))) →
      (framed hf mode bs (s.sourceBytes.take (j * bs))).length ≤ s.latched.dstCap.toNat →
      s.latched.srcLen.toNat ≤ j * bs → Meets (s.encodes hf mode bs withTerm) (finishEncode withTerm u) := by
    intro u j h hcap hend
    rw [Nat.min_eq_left hend] at h
    rw [List.take_of_length_le ((length_sourceBytes s).trans_le hend)] at h hcap
    exact finishEncode_encodes hfit h hcap
  induction k generalizing u j with
  | zero => exact hfinish h hcap hk
  | succ k ih =>
    rcases Nat.lt_or_ge (j * bs) s.latched.srcLen.toNat with hmore | hend
    · rw [Nat.min_eq_right (Nat.le_of_lt hmore)] at h
      refine encodeLoop_turn hfit hov hhash hbs hmore h hcap fun u' h' hcap' => ?_
      rw [← Nat.succ_mul] at h' hcap'
      exact ih (by rw [Nat.succ_mul]; omega) h' hcap'
    · rw [encodeLoop, if_neg (by rw [h.ipos_eq, latched_of_sameAgents h.outward.1]; omega)]
      exact hfinish h hcap hend

/-- ENCODE and ENCODE_BLOCK run the loop from the start of the source (R112, R114). -/
theorem encodeOperation_encodes (hs : s.launchable = true) (hhash : hf = hash3Of s.platform.hash) (hbs : 1 ≤ bs) :
    Meets (s.encodes hf mode bs withTerm)
      (encodeLoop mode withTerm bs s.latched.srcLen.toNat (s.withCursors 0 0)) := by
  obtain ⟨hfit, hov, -⟩ := (launchable_iff s).mp hs
  refine encodeLoop_encodes (j := 0) hfit hov hhash hbs (Nat.le_add_left _ _) ?_ ?_
  · rw [Nat.zero_mul, Nat.min_zero, List.take_zero, framed_nil]
    exact encodedTo_withCursors s
  · rw [Nat.zero_mul, List.take_zero, framed_nil]
    exact Nat.zero_le _

end

/-! ## What the commands record -/

section
variable {t : State} {hf : Hash3} {mode : Mode} {bs : Nat} {withTerm : Bool}

/-- A part of what is written was written without a bus error. -/
theorem writeQuiet_of_le (h : s.encodedTo u ipos out) {n : Nat} (hn : n ≤ out.length) :
    s.busFaultIn .write s.dstLo n = false :=
  busFaultIn_mono s .write (Nat.le_refl _) (Nat.add_le_add_left hn _) h.writeQuiet

/-- A command whose accesses up to the end of chunk `k` would not all be granted has ended with a bus error: a chunk's
block that fits is written before anything later is looked at (R144). -/
theorem busEnded_of_encodes (hbs : 1 ≤ bs) {k : Nat} (h : s.encodes hf mode bs withTerm t)
    (hcap : (framed hf mode bs (s.sourceBytes.take (k * bs))).length ≤ s.latched.dstCap.toNat)
    (hfault : (k * bs < s.latched.srcLen.toNat
        ∧ s.busFaultIn .read s.srcLo (min s.latched.srcLen.toNat (k * bs + bs)) = true)
      ∨ s.busFaultIn .write s.dstLo (framed hf mode bs (s.sourceBytes.take (k * bs))).length = true
      ∨ (s.latched.srcLen.toNat ≤ k * bs
          ∧ (framed hf mode bs (s.sourceBytes.take (k * bs)) ++ terminator withTerm).length ≤ s.latched.dstCap.toNat
          ∧ s.busFaultIn .write s.dstLo (framed hf mode bs (s.sourceBytes.take (k * bs)) ++ terminator withTerm).length
            = true)) : s.busEnded t := by
  cases h with
  | busError hended _ => exact hended
  | done hu _ =>
    exfalso
    have hle := length_framed_take_le_all (hf := hf) (mode := mode) (d := s.sourceBytes) hbs k
    rcases hfault with ⟨-, hf⟩ | hf | ⟨-, -, hf⟩
    · cases hf.symm.trans (busFaultIn_mono s .read (Nat.le_refl _) (by omega) hu.readQuiet)
    · cases hf.symm.trans (writeQuiet_of_le hu (by rw [List.length_append]; omega))
    · cases hf.symm.trans (writeQuiet_of_le hu (by rw [List.length_append, List.length_append]; omega))
  | @full u ipos hpos hu hfits hover hread =>
    exfalso
    have hlen := length_sourceBytes s
    have hpos' : chunkStart bs s.sourceBytes.length ipos := hlen.symm ▸ hpos
    have hfar := le_of_not_fits hbs hpos' hcap hover
    have hle : (framed hf mode bs (s.sourceBytes.take (k * bs))).length
        ≤ (framed hf mode bs (s.sourceBytes.take ipos)).length := by
      rcases hfar with hle | rfl
      · exact length_framed_take_le hbs hle
      · rw [List.take_length]
        exact length_framed_take_le_all hbs k
    rcases hfault with ⟨hmore, hf⟩ | hf | ⟨hend, hfit, -⟩
    · cases hf.symm.trans (busFaultIn_mono s .read (Nat.le_refl _) (by omega) hread)
    · cases hf.symm.trans (writeQuiet_of_le hu hle)
    · rw [List.take_of_length_le (hlen.trans_le hend)] at hfit
      have hall := length_unitAt_le (hf := hf) (mode := mode) (withTerm := withTerm) hbs hpos'
      omega

theorem exec_encode (hbs : 1 ≤ s.latched.blockSize.toNat) (hmax : s.latched.blockSize.toNat ≤ 65535)
    (hs : s.launchable = true) (q : Bool) :
    exec (.encode mode withTerm q) s
      = encodeLoop mode withTerm s.latched.blockSize.toNat s.latched.srcLen.toNat (s.withCursors 0 0) :=
  launch_granted (op := fun _ => encodeLoop _ _ _ _ _)
    (Bool.and_eq_true_iff.mpr ⟨decide_eq_true hbs, decide_eq_true hmax⟩) hs

theorem exec_encodeBlock (hlen : s.latched.srcLen.toNat ≤ 65535) (hs : s.launchable = true) (q : Bool) :
    exec (.encodeBlock mode withTerm q) s
      = encodeLoop mode withTerm 65535 s.latched.srcLen.toNat (s.withCursors 0 0) :=
  launch_granted (op := fun _ => encodeLoop _ _ _ _ _) (decide_eq_true hlen) hs

/-- Settles O13: the loop's end is one of two, told apart by whether everything fits. -/
theorem encodeResult : Obligations.EncodeResult := by
  unfold Obligations.EncodeResult
  rintro m w q s hf bs rfl hbs hmax hs hquiet hhash
  obtain ⟨t, ht, hencodes⟩ := (encodeOperation_encodes (mode := m) (withTerm := w) hs hhash hbs).exists_next
  refine ⟨t, (exec_encode hbs hmax hs q).trans ht, ?_⟩
  cases hencodes with
  | busError _ hbus => cases hquiet.symm.trans hbus
  | done hu hfits =>
    exact ⟨hu.outward.1, hu.td, fun _ => ⟨completedAs_of_sameOutward hu.outward _ _ _, hu.wrote⟩,
      fun hover => absurd hover (Nat.not_lt.mpr hfits)⟩
  | @full u ipos hpos hu hfits hover _ =>
    have hall := length_unitAt_le (hf := hf) (mode := m) (withTerm := w) hbs ((length_sourceBytes s).symm ▸ hpos)
    refine ⟨hu.outward.1, hu.td, fun hroom => absurd hover (by omega), fun _ =>
      ⟨ipos, _, hpos, rfl, hfits, ?_, failedAs_of_sameOutward hu.outward _ _ _ _, hu.wrote⟩⟩
    rw [unitAt, length_sourceBytes] at hover
    split at hover
    · next hlt => rwa [if_pos hlt]
    · next hend =>
      rw [if_neg hend]
      exact hover.trans_le (Nat.add_le_add_left (length_terminator_le w) _)

/-! ### ENCODE_BLOCK: one chunk -/

/-- With chunks of 65535 bytes a source of at most as many is one block, or none if it is empty (R114). -/
theorem framed_eq_blockOf (hlen : s.latched.srcLen.toNat ≤ 65535) :
    framed hf mode 65535 s.sourceBytes
      = if s.latched.srcLen.toNat = 0 then [] else blockOf hf mode s.sourceBytes := by
  rw [← length_sourceBytes] at hlen ⊢
  split
  · next hempty => rw [List.length_eq_zero_iff.mp hempty, framed_nil]
  · next hne =>
    rw [framed_of_ne_nil (by decide) (mt List.length_eq_zero_iff.mpr hne), List.take_of_length_le hlen,
      List.drop_of_length_le hlen, framed_nil, List.append_nil]

/-- The one block does not fit, or the terminator behind it does not (R114). -/
theorem encodeBlock_full (hlen : s.latched.srcLen.toNat ≤ 65535) (hpos : chunkStart 65535 s.latched.srcLen.toNat ipos)
    (hover : s.latched.dstCap.toNat < (framed hf mode 65535 (s.sourceBytes.take ipos)).length
      + (unitAt hf mode 65535 withTerm s.sourceBytes ipos).length) :
    ipos = 0 ∧ framed hf mode 65535 (s.sourceBytes.take ipos) = []
        ∧ s.latched.dstCap.toNat < (framed hf mode 65535 s.sourceBytes).length
      ∨ ipos = s.latched.srcLen.toNat
        ∧ framed hf mode 65535 (s.sourceBytes.take ipos) = framed hf mode 65535 s.sourceBytes := by
  rcases hpos with ⟨hmod, hlt⟩ | rfl
  · obtain rfl : ipos = 0 := by omega
    have hall : s.sourceBytes.take 65535 = s.sourceBytes :=
      List.take_of_length_le ((length_sourceBytes s).trans_le hlen)
    refine .inl ⟨rfl, by rw [List.take_zero, framed_nil], ?_⟩
    rw [List.take_zero, framed_nil, unitAt, length_sourceBytes, if_pos hlt, List.drop_zero, hall] at hover
    rw [framed_eq_blockOf hlen, if_neg (by omega)]
    simpa using hover
  · exact .inr ⟨rfl, by rw [take_sourceBytes_length]⟩

/-- Settles O14: the loop of one chunk, told apart by how much fits. -/
theorem encodeBlockResult : Obligations.EncodeBlockResult := by
  unfold Obligations.EncodeBlockResult
  intro m w q s blk hlen hs hquiet hblk
  rw [← framed_eq_blockOf hlen] at hblk
  subst hblk
  obtain ⟨t, ht, hencodes⟩ :=
    (encodeOperation_encodes (mode := m) (withTerm := w) (bs := 65535) hs rfl (by decide)).exists_next
  refine ⟨t, (exec_encodeBlock hlen hs q).trans ht, ?_⟩
  cases hencodes with
  | busError _ hbus => cases hquiet.symm.trans hbus
  | done hu hfits =>
    refine ⟨hu.outward.1, hu.td, fun _ => ⟨completedAs_of_sameOutward hu.outward _ _ _, hu.wrote⟩, fun hover => ?_,
      fun _ hover => absurd hover (Nat.not_lt.mpr hfits)⟩
    rw [List.length_append] at hfits
    omega
  | @full u ipos hpos hu hfits hover _ =>
    have hall := length_unitAt_le (hf := hash3Of s.platform.hash) (mode := m) (withTerm := w) (by decide)
      ((length_sourceBytes s).symm ▸ hpos)
    refine ⟨hu.outward.1, hu.td, fun hroom => absurd hover (by omega), ?_⟩
    rcases encodeBlock_full hlen hpos hover with ⟨rfl, hnone, hblock⟩ | ⟨rfl, hwhole⟩
    · rw [hnone] at hu ⊢
      exact ⟨fun _ => ⟨failedAs_of_sameOutward hu.outward _ _ _ _, fun x _ => hu.wrote.2 x (Nat.lt_or_ge x _)⟩,
        fun hroom => absurd hblock (Nat.not_lt.mpr hroom)⟩
    · rw [hwhole] at hu hfits ⊢
      exact ⟨fun hblock => absurd hblock (Nat.not_lt.mpr hfits),
        fun _ _ => ⟨failedAs_of_sameOutward hu.outward _ _ _ _, hu.wrote⟩⟩

/-! ### Bus errors -/

theorem decodeLaunch_busEnded (owner : BfcOwner) (hs : s.launchable = true)
    (hfault : s.busFaultIn .read s.srcLo s.latched.srcLen.toNat = true) :
    Meets s.busEnded (launch true s fun _ => decodeOperation owner s) := by
  rw [launch_granted rfl hs]
  unfold decodeOperation
  refine guardAccess_meets (checkSource_inside ((launchable_iff s).mp hs).1 true (Nat.le_refl _) (Nat.le_refl _))
    (busEnded_busErrorEnd s) fun hquiet => ?_
  cases hfault.symm.trans hquiet

/-- The commands that read their whole source at once end with a bus error on it (R56). -/
theorem exec_busEnded_of_read {i : Instr} (hi : i.isMemoryCommand = true) (hok : i.lengthsOk s = true)
    (hkind : ∀ (m : Mode) (w q : Bool), i ≠ .decompress m w q ∧ i ≠ .encode m w q ∧ i ≠ .encodeBlock m w q)
    (hs : s.launchable = true) (hfault : s.busFaultIn .read s.srcLo s.latched.srcLen.toNat = true) :
    Meets s.busEnded (exec i s) := by
  cases i with
  | compress m w q =>
    refine exec_compress_meets (of_decide_eq_true hok) hs rfl (fun _ => busEnded_busErrorEnd s) fun hquiet _ => ?_
    cases hfault.symm.trans hquiet
  | decode m w q => exact decodeLaunch_busEnded .decode hs hfault
  | decodeBlock m w q => exact decodeLaunch_busEnded .decodeBlock hs hfault
  | decompress m w q => exact absurd rfl (hkind m w q).1
  | encode m w q => exact absurd rfl (hkind m w q).2.1
  | encodeBlock m w q => exact absurd rfl (hkind m w q).2.2
  | _ => cases hi

theorem exec_blkRaw_busEnded {n : Nat} (hfit : s.rangesFit = true) (hdata : s.bfc.ipos + 5 + n ≤ s.latched.srcLen.toNat)
    (hcap : s.bfc.opos + n ≤ s.latched.dstCap.toNat) (hfault : s.busFaultIn .write (s.dstLo + s.bfc.opos) n = true) :
    Meets s.busEnded (exec (.blkRaw n) s) := by
  show Meets _ (execBlkRaw n s)
  unfold execBlkRaw
  rw [if_neg (Nat.not_lt.mpr hdata), if_neg (Nat.not_lt.mpr hcap)]
  refine guardAccess_meets (checkSource_inside hfit false (by omega) (by unfold State.srcHi State.srcLo; omega))
    (busEnded_busErrorEnd s) fun _ => guardAccess_meets
    (checkDest_inside hfit .write (by omega) (by unfold State.dstHi State.dstLo; omega)) (busEnded_busErrorEnd s)
    fun hquiet => ?_
  cases hfault.symm.trans hquiet

/-- Settles O25: the reads of the whole source, the writes of COMPRESS and BLK_RAW, and the accesses of the chunk loop
up to the chunk the statement names. -/
theorem busErrorEndsCommand : Obligations.BusErrorEndsCommand := by
  unfold Obligations.BusErrorEndsCommand
  refine ⟨fun i s hi hok hkind hs hfault => (exec_busEnded_of_read hi hok hkind hs hfault).exists_next,
    fun m w q s r hlen hs hr hfault => ?_,
    fun n s hfit _ hdata hcap hfault => (exec_blkRaw_busEnded hfit hdata hcap hfault).exists_next,
    fun m w q s hf bs k out hbs h1 hmax hs hhash hout hcap hfault => ?_, fun m w q s blk hlen hs hblk hfault => ?_⟩
  · refine (exec_compress_meets hlen hs hr (fun _ => busEnded_busErrorEnd s) fun _ hquiet => ?_).exists_next
    cases hfault.symm.trans hquiet
  · subst hbs hout
    obtain ⟨t, ht, hencodes⟩ := (encodeOperation_encodes (mode := m) (withTerm := w) hs hhash h1).exists_next
    exact ⟨t, (exec_encode h1 hmax hs q).trans ht, busEnded_of_encodes h1 hencodes hcap hfault⟩
  · rw [← framed_eq_blockOf hlen] at hblk
    subst hblk
    obtain ⟨t, ht, hencodes⟩ :=
      (encodeOperation_encodes (mode := m) (withTerm := w) (bs := 65535) hs rfl (by decide)).exists_next
    have hwhole : s.sourceBytes.take (1 * 65535) = s.sourceBytes :=
      List.take_of_length_le ((length_sourceBytes s).trans_le hlen)
    refine ⟨t, (exec_encodeBlock hlen hs q).trans ht, ?_⟩
    rcases hfault with hread | ⟨hfits, hwrite⟩ | ⟨hfits, hwrite⟩
    · have hmore : 0 < s.latched.srcLen.toNat := by
        refine Nat.pos_of_ne_zero fun hzero => ?_
        rw [hzero, busFaultIn_zero] at hread
        cases hread
      refine busEnded_of_encodes (k := 0) (by decide) hencodes ?_ (.inl ⟨by rwa [Nat.zero_mul], ?_⟩)
      · rw [Nat.zero_mul, List.take_zero, framed_nil]
        exact Nat.zero_le _
      · rwa [Nat.zero_mul, Nat.zero_add, Nat.min_eq_left hlen]
    · exact busEnded_of_encodes (k := 1) (by decide) hencodes (by rwa [hwhole]) (.inr (.inl (by rwa [hwhole])))
    · refine busEnded_of_encodes (k := 1) (by decide) hencodes ?_
        (.inr (.inr ⟨hlen, by rwa [hwhole], by rwa [hwhole]⟩))
      rw [hwhole]
      rw [List.length_append] at hfits
      omega

end

end

end Sys2Proof.Machine
end

section
/-!
PROOF. The token decoder as a machine (spec/42_token_decoder.md R100 to R108, spec/44_commands.md R134): step by step it
follows TD_RUN on the bytes of its window, for DECOMPRESS and for the payload of a block alike.
-/
namespace Sys2Proof.Machine

/-! ## Runs -/

section
variable {Q : State → Prop} {u v : State} {k : Nat}

theorem run_step (hm : u.host.moves = []) (h : engineStep u = .next v) (hrun : Meets Q (runFor k v)) :
    Meets Q (runFor (k + 1) u) := by
  simp only [runFor, step_of_no_moves hm, h]
  exact hrun

/-- At IDLE nothing more happens. -/
theorem run_idle (hm : u.host.moves = []) (ha : u.activity = .idle) (hQ : Q u) (k : Nat) : Meets Q (runFor k u) := by
  induction k with
  | zero => exact hQ
  | succ k ih => exact run_step hm (engineStep_idle ha) ih

/-- A step that ends the command. -/
theorem run_last (hm : u.host.moves = []) (h : engineStep u = .next v) (hv : v.host.moves = [])
    (ha : v.activity = .idle) (hQ : Q v) (hk : 1 ≤ k) : Meets Q (runFor k u) := by
  obtain ⟨k, rfl⟩ := Nat.exists_eq_add_of_le' hk
  exact run_step hm h (run_idle hv ha hQ k)

end

section
variable {s u v : State}

theorem launched_iff (s : State) :
    s.launched = true ↔ s.activity = .dispatch ∧ s.host.moves = [] ∧ s.launchable = true ∧ s.busQuiet = true := by
  simp [State.launched, and_assoc]

theorem moves_of_sameAgents (h : s.sameAgents u) (hm : s.host.moves = []) : u.host.moves = [] := by
  obtain ⟨-, -, -, hhost, -⟩ := h
  rw [hhost, hm]

/-! ## Accesses of a command that gets no bus error -/

theorem checkSource_of_busQuiet (hfit : s.rangesFit = true) (hquiet : s.busQuiet = true) (bus : Bool) {a n : Nat}
    (hlo : s.srcLo ≤ a) (hhi : a + n ≤ s.srcHi) : s.checkSource bus a n = .granted := by
  rcases checkSource_inside hfit bus hlo hhi with ⟨h, -⟩ | ⟨-, hfault⟩
  · exact h
  · cases hquiet.symm.trans (busQuiet_eq_false_of_read hlo hhi (Bool.and_eq_true_iff.mp hfault).2)

theorem checkDest_of_busQuiet (hfit : s.rangesFit = true) (hquiet : s.busQuiet = true) {kind : BusAccess}
    (hkind : kind ≠ .read) {a n : Nat} (hlo : s.dstLo ≤ a) (hhi : a + n ≤ s.dstHi) :
    s.checkDest kind a n = .granted := by
  obtain ⟨-, hwrite, hback⟩ := (busQuiet_iff s).mp hquiet
  have hall : s.busFaultIn kind s.dstLo s.latched.dstCap.toNat = false := by
    cases kind with
    | read => exact absurd rfl hkind
    | write => exact hwrite
    | readBack => exact hback
  rcases checkDest_inside hfit kind hlo hhi with ⟨h, -⟩ | ⟨-, hfault⟩
  · exact h
  · cases hfault.symm.trans (busFaultIn_mono s kind hlo hhi hall)

/-! ## The copy of R104 in memory -/

/-- A copy inside the output appends what `copyOut` does. -/
theorem wrote_copyBytes {a off n : Nat} {pre out : List Byte} (h : s.wrote u a (pre ++ out)) (hoff : off < out.length)
    (hv : v.mem = copyBytes u.mem (a + pre.length + (out.length - off - 1)) (a + pre.length + out.length) n) :
    s.wrote v a (pre ++ copyOut out off n) := by
  induction n generalizing u out with
  | zero =>
    obtain ⟨hholds, houtside⟩ := h
    unfold State.wrote State.holds State.sameOutside State.byteAt at *
    rw [hv]
    exact ⟨hholds, houtside⟩
  | succ n ih =>
    have hbyte : u.byteAt (a + pre.length + (out.length - off - 1)) = out.getD (out.length - off - 1) 0#8 := by
      have hread := h.1 (pre.length + (out.length - off - 1)) (by rw [List.length_append]; omega)
      rwa [List.getD_append_right _ _ _ _ (Nat.le_add_right _ _), Nat.add_sub_cancel_left, ← Nat.add_assoc] at hread
    have hnext := wrote_writeBytes (t := u.store (a + (pre ++ out).length) [out.getD (out.length - off - 1) 0#8])
      (bs := [out.getD (out.length - off - 1) 0#8]) h rfl
    rw [List.append_assoc] at hnext
    refine ih hnext (by rw [List.length_append]; omega) ?_
    have hlen : (out ++ [out.getD (out.length - off - 1) 0#8]).length = out.length + 1 := List.length_append
    rw [hv, copyBytes, hlen, show out.length + 1 - off - 1 = out.length - off - 1 + 1 by omega, ← Nat.add_assoc,
      ← Nat.add_assoc, ← hbyte, List.length_append, ← Nat.add_assoc]
    rfl

/-! ## The token decoder at a token -/

/-- The windows `w` of the token decoder lie in the command's ranges, the output behind the bytes `pre` (R106, R118). -/
structure State.windowsOf (s : State) (w : TokenDecoder) (pre : List Byte) : Prop where
  srcLo_le : s.srcLo ≤ w.srcBase
  le_srcHi : w.srcBase + w.clen ≤ s.srcHi
  outBase_eq : w.outBase = s.dstLo + pre.length
  le_dstHi : w.outBase + w.cap ≤ s.dstHi

theorem State.windowsOf.dstLo_le {w : TokenDecoder} {pre : List Byte} (h : s.windowsOf w pre) : s.dstLo ≤ w.outBase :=
  (Nat.le_add_right _ _).trans_eq h.outBase_eq.symm

/-- The command of `s` runs the token decoder in `u` with the windows `w` and the framing controller at `b`: at offset
`ip`, where the bytes `t` are left, it has produced `out` behind the bytes `pre`, and changed nothing else. -/
structure State.inTokens (s : State) (w : TokenDecoder) (b : BlockFramer) (pre : List Byte) (ip : Nat)
    (t out : List Byte) (u : State) : Prop where
  outward : s.sameOutward u
  encoder : s.sameEncoder u
  activity : u.activity = .tokens
  td_eq : ∃ tok : Nat, u.td = { w with ip := ip, tok := tok, op := out.length }
  bfc_eq : u.bfc = b
  wrote : s.wrote u s.dstLo (pre ++ out)
  left : t = s.source (w.srcBase + ip) (w.clen - ip)
  ip_le : ip ≤ w.clen
  out_le : out.length ≤ w.cap

section
variable {w : TokenDecoder} {b : BlockFramer} {pre t out : List Byte} {ip : Nat} {i : Instr} {rest : List Byte}
variable (hs : s.launched = true) (hw : s.windowsOf w pre) (h : s.inTokens w b pre ip t out u)

include hw h in
theorem length_written_le : (pre ++ out).length ≤ s.latched.dstCap.toNat := by
  have hcap := h.out_le
  have hhi := hw.le_dstHi
  rw [hw.outBase_eq] at hhi
  rw [List.length_append]
  unfold State.dstHi State.dstLo at hhi
  omega

include hs hw h in
/-- The bytes that are left in `u` are those of the source as the command found it. -/
theorem source_of_inTokens {a n : Nat} (hlo : w.srcBase ≤ a) (hhi : a + n ≤ w.srcBase + w.clen) :
    u.source a n = s.source a n := by
  obtain ⟨-, -, hlaunch, -⟩ := (launched_iff s).mp hs
  obtain ⟨-, hov, -⟩ := (launchable_iff s).mp hlaunch
  exact source_of_wrote h.outward.1 hov h.wrote (length_written_le hw h) (hw.srcLo_le.trans hlo)
    (hhi.trans hw.le_srcHi)

include hs hw h in
theorem tokensLeft_of_inTokens : u.tokensLeft = t := by
  obtain ⟨tok, htd⟩ := h.td_eq
  have hip := h.ip_le
  rw [State.tokensLeft, htd, h.left]
  dsimp only
  exact source_of_inTokens hs hw h (Nat.le_add_right _ _) (by omega)

/-! ### One token -/

include h in
/-- A token whose checks pass moves the decoder on. -/
theorem inTokens_endToken {mem : List Host.Cell} {consumed produced : Nat} {out' : List Byte}
    (hin : ip + consumed ≤ w.clen) (hlen : out'.length = out.length + produced) (hout : out'.length ≤ w.cap)
    (hwrote : ∀ v : State, v.mem = mem → s.wrote v s.dstLo (pre ++ out')) :
    s.inTokens w b pre (ip + consumed) (t.drop consumed) out' (u.startToken.endToken mem consumed produced) where
  outward := sameOutward_trans h.outward (sameOutward_inner u _ _ _ _ _ _ _ _)
  encoder := h.encoder
  activity := h.activity
  td_eq := by
    obtain ⟨tok, htd⟩ := h.td_eq
    exact ⟨ip, by simp [htd, hlen]⟩
  bfc_eq := h.bfc_eq
  wrote := hwrote _ rfl
  left := by rw [h.left, drop_source _ _ (by omega), Nat.add_assoc, Nat.sub_add_eq]
  ip_le := hin
  out_le := hout

include hs hw h in
theorem engineStep_of_inTokens (hd : decodeToken t = .ok (i, rest)) : engineStep u = exec i u := by
  obtain ⟨-, -, hlaunch, hquiet⟩ := (launched_iff s).mp hs
  obtain ⟨tok, htd⟩ := h.td_eq
  have hip := h.ip_le
  have hlen : (encode i).length ≤ t.length := by
    rw [← encode_of_decodeToken hd, List.length_append]
    exact Nat.le_add_right _ _
  rw [h.left, State.length_source] at hlen
  refine engineStep_tokens_run h.activity (rest := rest) (by rwa [tokensLeft_of_inTokens hs hw h]) ?_
  rw [htd, checkSource_of_sameAgents h.outward.1]
  exact checkSource_of_busQuiet ((launchable_iff s).mp hlaunch).1 hquiet _ (hw.srcLo_le.trans (Nat.le_add_right _ _))
    ((show _ ≤ w.srcBase + w.clen by dsimp only; omega).trans hw.le_srcHi)

include hs hw h in
theorem engineStep_truncated_of_inTokens (hd : decodeToken t = .error .truncatedToken) :
    engineStep u = .next (u.startToken.tokenError .invalidData) := by
  obtain ⟨-, -, hlaunch, hquiet⟩ := (launched_iff s).mp hs
  obtain ⟨tok, htd⟩ := h.td_eq
  have hmore : 1 ≤ t.length := List.length_pos_iff.mpr (by rintro rfl; cases hd)
  rw [h.left, State.length_source] at hmore
  refine engineStep_tokens_truncated h.activity (by rwa [tokensLeft_of_inTokens hs hw h]) ?_
  rw [htd, checkSource_of_sameAgents h.outward.1]
  exact checkSource_of_busQuiet ((launchable_iff s).mp hlaunch).1 hquiet _ (hw.srcLo_le.trans (Nat.le_add_right _ _))
    ((show _ ≤ w.srcBase + w.clen by dsimp only; omega).trans hw.le_srcHi)

include hs hw h in
/-- A literal run in the window: its two checks, then its bytes behind the output (R101, R105). -/
theorem exec_lit_of_inTokens {len : Nat} (hd : decodeToken t = .ok (.lit len, rest)) :
    (rest.length < len ∧ exec (.lit len) u = .next (u.startToken.tokenError .invalidData))
      ∨ (len ≤ rest.length ∧ w.cap < out.length + len
          ∧ exec (.lit len) u = .next (u.startToken.tokenError .outputTooSmall))
      ∨ len ≤ rest.length ∧ out.length + len ≤ w.cap ∧ ∃ v : State, exec (.lit len) u = .next v
          ∧ s.inTokens w b pre (ip + (1 + len)) (rest.drop len) (out ++ rest.take len) v := by
  obtain ⟨-, -, hlaunch, hquiet⟩ := (launched_iff s).mp hs
  have hfit := ((launchable_iff s).mp hlaunch).1
  obtain ⟨tok, htd⟩ := h.td_eq
  have hip := h.ip_le
  have hbase : u.td.outBase = w.outBase := by rw [htd]
  have hop : u.td.op = out.length := by rw [htd]
  have hrest : rest = t.drop 1 := by rw [← encode_of_decodeToken hd]; rfl
  have hlen : t.length = rest.length + 1 := by rw [← encode_of_decodeToken hd, List.length_append, Nat.add_comm]; rfl
  have hleft : t.length = w.clen - ip := by rw [h.left, State.length_source]
  rcases Nat.lt_or_ge rest.length len with hcut | hdata
  · exact .inl ⟨hcut, exec_token_truncated rfl (by rw [htd]; dsimp only; omega)⟩
  refine .inr ?_
  rcases Nat.lt_or_ge w.cap (out.length + len) with hover | hroom
  · exact .inl ⟨hdata, hover, exec_token_tooSmall rfl (by rw [htd]; dsimp only; omega) nofun (by rw [htd]; exact hover)⟩
  refine .inr ⟨hdata, hroom, _, exec_lit_granted (by rw [htd]; dsimp only; omega) (by rw [htd]; exact hroom) ?_ ?_, ?_⟩
  · rw [htd, checkSource_of_sameAgents h.outward.1]
    exact checkSource_of_busQuiet hfit hquiet _ (hw.srcLo_le.trans (by dsimp only; omega))
      ((show _ ≤ w.srcBase + w.clen by dsimp only; omega).trans hw.le_srcHi)
  · rw [hbase, hop, checkDest_of_sameAgents h.outward.1]
    exact checkDest_of_busQuiet hfit hquiet (kind := .write) nofun (hw.dstLo_le.trans (Nat.le_add_right _ _))
      ((show _ ≤ w.outBase + w.cap by omega).trans hw.le_dstHi)
  · have hbytes : u.source (w.srcBase + ip + 1) len = rest.take len := by
      rw [source_of_inTokens hs hw h (by omega) (by omega), hrest, h.left, drop_source _ _ (by omega),
        take_source _ _ (by omega)]
    have hnext := inTokens_endToken h (consumed := 1 + len) (produced := len) (out' := out ++ rest.take len)
      (mem := writeBytes u.mem (s.dstLo + (pre ++ out).length) (rest.take len)) (by omega)
      (by rw [List.length_append, List.length_take_of_le hdata])
      (by rwa [List.length_append, List.length_take_of_le hdata])
      fun v hv => by rw [← List.append_assoc]; exact wrote_writeBytes h.wrote hv
    rw [htd]
    dsimp only
    rwa [hbytes, hw.outBase_eq, Nat.add_assoc, ← List.length_append, hrest, List.drop_drop, ← hrest]

include hs hw h in
/-- A back-reference in the window: its checks, then its copy behind the output (R102 to R105). -/
theorem exec_reference_of_inTokens {head off len : Nat} (hd : decodeToken t = .ok (i, rest))
    (hi : i.reference = some (head, off, len)) (hsize : t.length = rest.length + head) :
    (out.length ≤ off ∧ exec i u = .next (u.startToken.tokenError .invalidData))
      ∨ (off < out.length ∧ w.cap < out.length + len ∧ exec i u = .next (u.startToken.tokenError .outputTooSmall))
      ∨ off < out.length ∧ out.length + len ≤ w.cap ∧ ∃ v : State, exec i u = .next v
          ∧ s.inTokens w b pre (ip + head) rest (copyOut out off len) v := by
  obtain ⟨-, -, hlaunch, hquiet⟩ := (launched_iff s).mp hs
  have hfit := ((launchable_iff s).mp hlaunch).1
  obtain ⟨tok, htd⟩ := h.td_eq
  have hip := h.ip_le
  have hbase : u.td.outBase = w.outBase := by rw [htd]
  have hop : u.td.op = out.length := by rw [htd]
  have hparts := tokenParts_of_reference hi
  have hleft : t.length = w.clen - ip := by rw [h.left, State.length_source]
  have hhead : u.td.ip + head ≤ u.td.clen := by rw [htd]; dsimp only; omega
  rcases Nat.lt_or_ge off out.length with hoff | hbad
  · refine .inr ?_
    rcases Nat.lt_or_ge w.cap (out.length + len) with hover | hroom
    · exact .inl ⟨hoff, hover, exec_token_tooSmall hparts hhead (by rintro _ ⟨⟩; rw [htd]; exact hoff)
        (by rw [htd]; exact hover)⟩
    · refine .inr ⟨hoff, hroom, _, exec_reference_granted hi hhead (by rw [htd]; exact hoff) (by rw [htd]; exact hroom)
        ?_ ?_, ?_⟩
      · rw [hbase, hop, checkDest_of_sameAgents h.outward.1]
        exact checkDest_of_busQuiet hfit hquiet (kind := .readBack) nofun (hw.dstLo_le.trans (Nat.le_add_right _ _))
          ((show _ ≤ w.outBase + w.cap by omega).trans hw.le_dstHi)
      · rw [hbase, hop, checkDest_of_sameAgents h.outward.1]
        exact checkDest_of_busQuiet hfit hquiet (kind := .write) nofun (hw.dstLo_le.trans (Nat.le_add_right _ _))
          ((show _ ≤ w.outBase + w.cap by omega).trans hw.le_dstHi)
      · have hrest : rest = t.drop head := by
          rw [← encode_of_decodeToken hd, List.drop_left']
          have hlen := congrArg List.length (encode_of_decodeToken hd)
          rw [List.length_append] at hlen
          omega
        have hnext := inTokens_endToken h (consumed := head) (produced := len) (out' := copyOut out off len)
          (mem := copyBytes u.mem (s.dstLo + pre.length + (out.length - off - 1))
            (s.dstLo + pre.length + out.length) len)
          (by omega) (length_copyOut _ _ _) (by rwa [length_copyOut]) fun v hv => wrote_copyBytes h.wrote hoff hv
        rw [htd]
        dsimp only
        rwa [hw.outBase_eq, hrest]
  · exact .inl ⟨hbad, exec_token_badOffset hparts hhead (by rw [htd]; exact hbad)⟩

/-! ### A whole token stream -/

include hs hw h in
/-- The token decoder follows TD_RUN to its end, one step for each token: what is left to show is for the state where no
bytes are left, and for the state after the token error TD_RUN ends with. -/
theorem run_tokens {Q : State → Prop} {e : TdEnd} {k n : Nat} (he : e = tdFrom w.cap ip t out) (hk : t.length + n ≤ k)
    (hend : ∀ (v : State) (ip' : Nat), e.err = none → s.inTokens w b pre ip' [] e.out v → ∀ j : Nat, n ≤ j →
      Meets Q (runFor j v))
    (herror : ∀ (v : State) (kind : ErrKind) (t' : List Byte), e.err = some kind → s.inTokens w b pre e.tok t' e.out v →
      Q (v.startToken.tokenError kind)) : Meets Q (runFor k u) := by
  have hfail : ∀ {u : State} {ip : Nat} {t out : List Byte} {k : Nat} {kind : ErrKind}, s.inTokens w b pre ip t out u →
      engineStep u = .next (u.startToken.tokenError kind) → e = ⟨some kind, ip, out⟩ → 1 ≤ k →
      Meets Q (runFor k u) := by
    rintro u ip t out k kind h hstep rfl hk
    obtain ⟨-, hmoves, -⟩ := (launched_iff s).mp hs
    have hagents : u.sameAgents (u.startToken.tokenError kind) := sameAgents_of_ranTo (engineStep_ranTo hstep)
    refine run_last (moves_of_sameAgents h.outward.1 hmoves) hstep
      (moves_of_sameAgents (sameAgents_trans h.outward.1 hagents) hmoves) ?_ (herror u kind t rfl h) hk
    unfold State.tokenError
    split
    · rfl
    · exact blockError_activity _ _ _
  obtain ⟨-, hmoves, -⟩ := (launched_iff s).mp hs
  induction k generalizing u ip t out with
  | zero =>
    obtain rfl := List.length_eq_zero_iff.mp (Nat.eq_zero_of_add_eq_zero_right (Nat.le_zero.mp hk))
    rw [tdFrom_nil] at he
    subst he
    exact hend u ip rfl h 0 (by omega)
  | succ k ih =>
    rcases decodeToken_cases t with rfl | hd | ⟨len, rest, hd, hlen, hsize⟩
      | ⟨i, head, off, len, rest, hd, hi, hhead, -, hsize⟩
    · rw [tdFrom_nil] at he
      subst he
      exact hend u ip rfl h _ (by omega)
    · exact hfail h (engineStep_truncated_of_inTokens hs hw h hd) (he.trans (tdFrom_truncated hd _ _)) (by omega)
    · have hstep := engineStep_of_inTokens hs hw h hd
      rw [tdFrom_lit hd hsize] at he
      rcases exec_lit_of_inTokens hs hw h hd with ⟨hcut, hexec⟩ | ⟨hdata, hover, hexec⟩ | ⟨hdata, hroom, v, hexec, hv⟩
      · exact hfail h (hstep.trans hexec) (he.trans (if_pos hcut)) (by omega)
      · rw [if_neg (Nat.not_lt.mpr hdata)] at he
        exact hfail h (hstep.trans hexec) (he.trans (if_pos hover)) (by omega)
      · rw [if_neg (Nat.not_lt.mpr hdata), if_neg (Nat.not_lt.mpr hroom)] at he
        exact run_step (moves_of_sameAgents h.outward.1 hmoves) (hstep.trans hexec)
          (ih hv he (by rw [List.length_drop]; omega))
    · have hstep := engineStep_of_inTokens hs hw h hd
      rw [tdFrom_reference hd hi (by omega) hsize] at he
      rcases exec_reference_of_inTokens hs hw h hd hi hsize with ⟨hbad, hexec⟩ | ⟨hoff, hover, hexec⟩
        | ⟨hoff, hroom, v, hexec, hv⟩
      · exact hfail h (hstep.trans hexec) (he.trans (if_pos hbad)) (by omega)
      · rw [if_neg (Nat.not_le.mpr hoff)] at he
        exact hfail h (hstep.trans hexec) (he.trans (if_pos hover)) (by omega)
      · rw [if_neg (Nat.not_le.mpr hoff), if_neg (Nat.not_lt.mpr hroom)] at he
        exact run_step (moves_of_sameAgents h.outward.1 hmoves) (hstep.trans hexec) (ih hv he (by omega))

include h in
theorem td_of_inTokens : u.td.owner = w.owner ∧ u.td.clen = w.clen ∧ u.td.outBase = w.outBase ∧ u.td.cap = w.cap
    ∧ u.td.ip = ip ∧ u.td.op = out.length := by
  obtain ⟨tok, htd⟩ := h.td_eq
  rw [htd]
  exact ⟨rfl, rfl, rfl, rfl, rfl, rfl⟩

/-- Where no bytes are left the decoder stands at the end of the stream. -/
theorem engineStep_end_of_inTokens (h : s.inTokens w b pre ip [] out u) : engineStep u = .next u.endTokens := by
  obtain ⟨-, hclen, -, -, hip, -⟩ := td_of_inTokens h
  have hnone := congrArg List.length h.left
  rw [State.length_source, List.length_nil] at hnone
  exact engineStep_tokens_end h.activity (by omega)

end

/-! ## DECOMPRESS -/

/-- How DECOMPRESS ends, by the end `e` of TD_RUN (R108). -/
def State.decompressesTo (s : State) (e : TdEnd) (t : State) : Prop :=
  s.sameAgents t ∧ s.sameEncoder t ∧ t.bfc = s.bfc ∧ t.holds s.dstLo e.out ∧ s.sameOutside t s.dstLo e.out.length
    ∧ (e.err = none → s.completedAs t e.out.length s.latched.srcLen.toNat 0#2)
    ∧ ∀ k : ErrKind, e.err = some k → s.failedAs t k e.out.length e.tok 0#8

/-- Settles O58: the launch, then TD_RUN step by step, then the end of the stream or a token error. -/
theorem decompressRun : Obligations.DecompressRun := by
  unfold Obligations.DecompressRun
  intro s m w q e hs hctrl he
  obtain ⟨hact, hmoves, hlaunch, -⟩ := (launched_iff s).mp hs
  suffices h : Meets (s.decompressesTo e) (runFor (s.latched.srcLen.toNat + 2) s) from h.exists_next
  have hstart : engineStep s = .next
      (s.startTokens .decompress s.srcLo s.latched.srcLen.toNat s.dstLo s.latched.dstCap.toNat) := by
    rw [engineStep_dispatch hact, hctrl]
    exact execDecompress_of_launchable hlaunch
  have hw : s.windowsOf ⟨.decompress, s.srcLo, s.latched.srcLen.toNat, s.dstLo, s.latched.dstCap.toNat, 0, 0, 0⟩ [] :=
    ⟨Nat.le_refl _, Nat.le_refl _, rfl, Nat.le_refl _⟩
  refine run_step hmoves hstart (run_tokens (b := s.bfc) (ip := 0) (t := s.sourceBytes) (out := []) (n := 1) hs hw ?_ he
    (by rw [length_sourceBytes]) (fun v ip' hnone hv j hj => ?_) fun v kind t' hsome hv => ?_)
  · exact ⟨sameOutward_inner s _ _ _ _ _ _ _ _, ⟨rfl, rfl, rfl⟩, rfl, ⟨0, rfl⟩, rfl, wrote_nil rfl, rfl, Nat.zero_le _,
      Nat.zero_le _⟩
  · obtain ⟨howner, hclen, -, -, -, hop⟩ := td_of_inTokens hv
    have hstep := engineStep_end_of_inTokens hv
    rw [endTokens_of_decompress howner, hclen, hop] at hstep
    refine run_last (moves_of_sameAgents hv.outward.1 hmoves) hstep (moves_of_sameAgents hv.outward.1 hmoves) rfl ?_ hj
    exact ⟨hv.outward.1, hv.encoder, hv.bfc_eq, hv.wrote.1, hv.wrote.2,
      fun _ => completedAs_of_sameOutward hv.outward _ _ _, by rw [hnone]; nofun⟩
  · obtain ⟨howner, -, -, -, hip, hop⟩ := td_of_inTokens hv
    have herror : v.startToken.tokenError kind = v.startToken.errorEnd kind e.out.length e.tok 0#8 := by
      simp [State.tokenError, howner, hip, hop]
    rw [herror]
    refine ⟨hv.outward.1, hv.encoder, hv.bfc_eq, hv.wrote.1, hv.wrote.2, by rw [hsome]; nofun, fun k hk => ?_⟩
    obtain rfl : kind = k := by simpa using hsome.symm.trans hk
    exact failedAs_of_sameOutward (u := v.startToken) hv.outward _ _ _ _

end

end Sys2Proof.Machine
end

section
/-!
PROOF. DECODE and DECODE_BLOCK as machines (spec/43_block_framing.md R116 to R122, spec/44_commands.md R134): a unit of
the block stream takes at most as many steps as it has bytes, and does what the block parser says; DECODE goes on behind
it, DECODE_BLOCK ends.
-/
namespace Sys2Proof.Machine

section
variable {s u v : State} {owner : BfcOwner} {ipos : Nat} {f out : List Byte}

/-! ## The framing controller at a block start -/

/-- The command of `s` stands in `u` at a block start: at input offset `ipos`, where the bytes `f` are left, the blocks
before have produced `out`, and nothing else has changed. -/
structure State.inBlocks (s : State) (owner : BfcOwner) (ipos : Nat) (f out : List Byte) (u : State) : Prop where
  outward : s.sameOutward u
  encoder : s.sameEncoder u
  activity : u.activity = .blocks
  bfc_eq : u.bfc = ⟨owner, ipos, out.length⟩
  wrote : s.wrote u s.dstLo out
  left : f = s.source (s.srcLo + ipos) (s.latched.srcLen.toNat - ipos)
  ipos_le : ipos ≤ s.latched.srcLen.toNat
  out_le : out.length ≤ s.latched.dstCap.toNat

/-- The blocks before the failing one have produced `out`; of the rest of memory only `D` may have changed (R142). -/
structure State.blockFails (s : State) (owner : BfcOwner) (ipos : Nat) (out : List Byte) (x : State) : Prop where
  outward : s.sameOutward x
  encoder : s.sameEncoder x
  bfc_eq : x.bfc = ⟨owner, ipos, out.length⟩
  holds : x.holds s.dstLo out
  outside : s.sameOutside x s.dstLo s.latched.dstCap.toNat

/-- The block at `ipos` has produced `bs` behind `out`. -/
structure State.blockEnds (s : State) (owner : BfcOwner) (ipos : Nat) (out bs : List Byte) (x : State) : Prop where
  outward : s.sameOutward x
  encoder : s.sameEncoder x
  bfc_eq : x.bfc = ⟨owner, ipos, out.length⟩
  wrote : s.wrote x s.dstLo (out ++ bs)
  out_le : (out ++ bs).length ≤ s.latched.dstCap.toNat

/-- A block that fails after it wrote some of its output. -/
theorem blockFails_of_blockEnds {bs : List Byte} (h : s.blockEnds owner ipos out bs u) :
    s.blockFails owner ipos out u where
  outward := h.outward
  encoder := h.encoder
  bfc_eq := h.bfc_eq
  holds k hk := by rw [h.wrote.1 k (by rw [List.length_append]; omega), List.getD_append _ _ _ _ hk]
  outside := sameOutside_mono h.wrote.2 (Nat.le_refl _) (Nat.add_le_add_left h.out_le _)

/-- The failing block's own output may become any values (R118). -/
theorem blockFails_scramble (h : s.blockFails owner ipos out u) {a n : Nat} (ha : s.dstLo + out.length ≤ a)
    (hn : a + n ≤ s.dstHi) : s.blockFails owner ipos out (u.scramble a n) where
  outward := sameOutward_trans h.outward (sameOutward_scramble u a n)
  encoder := h.encoder
  bfc_eq := h.bfc_eq
  holds k hk := (State.byteAt_scramble_outside _ _ _ _ (.inl (by omega))).trans (h.holds k hk)
  outside := sameOutside_trans h.outside
    (sameOutside_mono (sameOutside_scramble u a n) (by omega) (by unfold State.dstHi at hn; unfold State.dstLo; omega))

section
variable (hs : s.launched = true) (h : s.inBlocks owner ipos f out u)

include h in
theorem blockEnds_of_inBlocks : s.blockEnds owner ipos out [] u where
  outward := h.outward
  encoder := h.encoder
  bfc_eq := h.bfc_eq
  wrote := by rw [List.append_nil]; exact h.wrote
  out_le := by rw [List.append_nil]; exact h.out_le

include h in
theorem length_of_inBlocks : ipos + f.length = s.latched.srcLen.toNat := by
  rw [h.left, State.length_source, Nat.add_sub_cancel' h.ipos_le]

include hs h in
theorem source_of_inBlocks {a n : Nat} (hlo : s.srcLo ≤ a) (hhi : a + n ≤ s.srcHi) : u.source a n = s.source a n := by
  obtain ⟨-, -, hlaunch, -⟩ := (launched_iff s).mp hs
  obtain ⟨-, hov, -⟩ := (launchable_iff s).mp hlaunch
  exact source_of_wrote h.outward.1 hov h.wrote h.out_le hlo hhi

include hs h in
theorem unitsLeft_of_inBlocks : u.unitsLeft = f := by
  have hagents := h.outward.1
  rw [State.unitsLeft, h.bfc_eq, srcLo_of_sameAgents hagents, latched_of_sameAgents hagents, h.left]
  exact source_of_inBlocks hs h (Nat.le_add_right _ _) (by
    have := h.ipos_le
    unfold State.srcHi State.srcLo
    dsimp only
    omega)

include hs h in
/-- The header's bytes may be read: they are part of the source (R42). -/
theorem checkSource_unit_of_inBlocks : u.checkSource false (u.srcLo + u.bfc.ipos) u.unitBytes = .granted := by
  obtain ⟨-, -, hlaunch, hquiet⟩ := (launched_iff s).mp hs
  have hagents := h.outward.1
  have hle := h.ipos_le
  rw [State.unitBytes, h.bfc_eq, srcLo_of_sameAgents hagents, latched_of_sameAgents hagents,
    checkSource_of_sameAgents hagents]
  exact checkSource_of_busQuiet ((launchable_iff s).mp hlaunch).1 hquiet _ (Nat.le_add_right _ _) (by
    unfold State.srcHi State.srcLo
    dsimp only
    omega)

/-! ## One unit -/

include h in
theorem engineStep_end_of_inBlocks (hf : f = []) : engineStep u = .next u.endBlocks := by
  have hlen := length_of_inBlocks h
  rw [hf, List.length_nil] at hlen
  refine engineStep_blocks_end h.activity ?_
  rw [h.bfc_eq, latched_of_sameAgents h.outward.1]
  exact hlen.ge

include hs h in
theorem engineStep_unit_of_inBlocks {i : Instr} {rest : List Byte} (hd : decodeUnit f = .ok (i, rest)) :
    engineStep u = exec i u :=
  engineStep_blocks_run h.activity (by rwa [unitsLeft_of_inBlocks hs h]) (checkSource_unit_of_inBlocks hs h)

include hs h in
theorem engineStep_error_of_inBlocks {e : DecodeError} (hd : decodeUnit f = .error e) (he : e ≠ .endOfInput) :
    engineStep u = .next (u.blockError e.headerError.1 e.headerError.2) :=
  engineStep_blocks_error h.activity (by rwa [unitsLeft_of_inBlocks hs h]) he (checkSource_unit_of_inBlocks hs h)

include h in
theorem bounds_of_inBlocks : u.bfc.ipos = ipos ∧ u.bfc.opos = out.length ∧ u.latched = s.latched ∧ u.srcLo = s.srcLo
    ∧ u.dstLo = s.dstLo := by
  rw [h.bfc_eq]
  exact ⟨rfl, rfl, latched_of_sameAgents h.outward.1, srcLo_of_sameAgents h.outward.1, dstLo_of_sameAgents h.outward.1⟩

include hs h in
/-- BLK_RAW at a block start: its two checks, then its payload behind the output (R117). -/
theorem exec_blkRaw_of_inBlocks {n : Nat} {rest : List Byte} (hd : decodeUnit f = .ok (.blkRaw n, rest)) :
    (rest.length < n ∧ exec (.blkRaw n) u = .next (u.blockError .invalidData 0#8))
      ∨ (n ≤ rest.length ∧ s.latched.dstCap.toNat < out.length + n
          ∧ exec (.blkRaw n) u = .next (u.blockError .outputTooSmall 0#8))
      ∨ n ≤ rest.length ∧ out.length + n ≤ s.latched.dstCap.toNat ∧ ∃ v : State,
          exec (.blkRaw n) u = .next (v.blockDone n (5 + n)) ∧ s.blockEnds owner ipos out (rest.take n) v := by
  obtain ⟨-, -, hlaunch, hquiet⟩ := (launched_iff s).mp hs
  have hfit := ((launchable_iff s).mp hlaunch).1
  obtain ⟨hipos, hopos, hlatched, hsrc, hdst⟩ := bounds_of_inBlocks h
  have hlen := length_of_inBlocks h
  have hrest : rest = f.drop 5 := by rw [← encode_of_decodeUnit hd]; rfl
  have hsize : f.length = rest.length + 5 := by rw [← encode_of_decodeUnit hd, List.length_append, Nat.add_comm]; rfl
  rcases Nat.lt_or_ge rest.length n with hcut | hdata
  · exact .inl ⟨hcut, exec_blkRaw_cut (by rw [hipos, hlatched]; omega)⟩
  refine .inr ?_
  rcases Nat.lt_or_ge s.latched.dstCap.toNat (out.length + n) with hover | hroom
  · exact .inl ⟨hdata, hover, exec_blkRaw_tooSmall (by rw [hipos, hlatched]; omega) (by rwa [hopos, hlatched])⟩
  have hread : s.srcLo + ipos + 5 + n ≤ s.srcHi := by unfold State.srcHi State.srcLo; omega
  have hwrite : s.dstLo + out.length + n ≤ s.dstHi := by unfold State.dstHi State.dstLo; omega
  have hbytes : u.source (s.srcLo + ipos + 5) n = rest.take n := by
    rw [source_of_inBlocks hs h (by omega) hread, hrest, h.left, drop_source _ _ (by omega), take_source _ _ (by omega)]
  refine .inr ⟨hdata, hroom, _,
    exec_blkRaw_granted (by rw [hipos, hlatched]; omega) (by rwa [hopos, hlatched]) ?_ ?_, ?_⟩
  · rw [hsrc, hipos, checkSource_of_sameAgents h.outward.1]
    exact checkSource_of_busQuiet hfit hquiet _ (by omega) hread
  · rw [hdst, hopos, checkDest_of_sameAgents h.outward.1]
    exact checkDest_of_busQuiet hfit hquiet (kind := .write) nofun (by omega) hwrite
  · rw [hdst, hsrc, hipos, hopos, hbytes]
    exact
      { outward := h.outward
        encoder := h.encoder
        bfc_eq := h.bfc_eq
        wrote := wrote_writeBytes h.wrote rfl
        out_le := by rwa [List.length_append, List.length_take_of_le hdata] }

end

/-! ### The payload of a type-1 block -/

section
variable {w : TokenDecoder} {ip : Nat} {t bs : List Byte}
variable (hw : s.windowsOf w out) (h : s.inTokens w ⟨owner, ipos, out.length⟩ out ip t bs u)

include h in
theorem inTokens_startToken : s.inTokens w ⟨owner, ipos, out.length⟩ out ip t bs u.startToken where
  outward := h.outward
  encoder := h.encoder
  activity := h.activity
  td_eq := by
    obtain ⟨tok, htd⟩ := h.td_eq
    exact ⟨u.td.ip, by simp [htd]⟩
  bfc_eq := h.bfc_eq
  wrote := h.wrote
  left := h.left
  ip_le := h.ip_le
  out_le := h.out_le

include hw h

theorem blockEnds_of_inTokens : s.blockEnds owner ipos out bs u where
  outward := h.outward
  encoder := h.encoder
  bfc_eq := h.bfc_eq
  wrote := h.wrote
  out_le := length_written_le hw h

/-- A payload that fails leaves the blocks before it (R118). -/
theorem blockFails_of_inTokens : s.blockFails owner ipos out (u.scramble u.td.outBase u.td.cap) := by
  obtain ⟨-, -, hbase, hcap, -, -⟩ := td_of_inTokens h
  rw [hbase, hcap]
  exact blockFails_scramble (blockFails_of_blockEnds (blockEnds_of_inTokens hw h)) hw.outBase_eq.ge hw.le_dstHi

end

/-! ### A unit and what comes after it -/

section
variable {Q : State → Prop} {e : FrameEnd} {j k m : Nat}
variable (hs : s.launched = true) (h : s.inBlocks owner ipos f out u)

include hs in
/-- An error that ends the command. -/
theorem run_blockError {x : State} {kind : ErrKind} {info : Byte} (hu : s.sameOutward u)
    (hstep : engineStep u = .next (x.blockError kind info)) (hx : s.blockFails owner ipos out x)
    (hQ : Q (x.blockError kind info)) (hk : 1 ≤ k) : Meets Q (runFor k u) := by
  obtain ⟨-, hmoves, -⟩ := (launched_iff s).mp hs
  obtain ⟨-, hagents, -⟩ := sameMachine_blockError x kind info
  exact run_last (moves_of_sameAgents hu.1 hmoves) hstep
    (moves_of_sameAgents (sameAgents_trans hx.outward.1 hagents) hmoves) (blockError_activity _ _ _) hQ hk

include hs in
/-- The payload of a type-1 block, from the token decoder's start to the block's end (R118): one step for each token and
one for the end. -/
theorem run_payload {c n : Nat} {t : List Byte}
    (hw : s.windowsOf ⟨.block, s.srcLo + ipos + 7, c, s.dstLo + out.length, n, 0, 0, 0⟩ out)
    (h : s.inTokens ⟨.block, s.srcLo + ipos + 7, c, s.dstLo + out.length, n, 0, 0, 0⟩ ⟨owner, ipos, out.length⟩ out 0
      t [] u) (hk : t.length + (m + 1) ≤ k)
    (hdone : ∀ v : State, (decodeTokens n t).err = none → (decodeTokens n t).out.length = n →
      s.blockEnds owner ipos out (decodeTokens n t).out v → ∀ k' : Nat, m ≤ k' →
      Meets Q (runFor k' (v.blockDone n (7 + c))))
    (hfail : ∀ x : State, ((decodeTokens n t).err ≠ none ∨ (decodeTokens n t).out.length ≠ n) →
      s.blockFails owner ipos out x → Q (x.blockError .invalidData 0#8)) : Meets Q (runFor k u) := by
  obtain ⟨-, hmoves, -⟩ := (launched_iff s).mp hs
  refine run_tokens hs hw h (decodeTokens_eq_tdFrom n t) hk (fun v ip' hnone hv j hj => ?_) fun v kind t' hsome hv => ?_
  · obtain ⟨howner, hclen, -, hcap, -, hop⟩ := td_of_inTokens hv
    have hstep := engineStep_end_of_inTokens hv
    by_cases hlen : (decodeTokens n t).out.length = n
    · obtain ⟨j, rfl⟩ := Nat.exists_eq_add_of_le' (Nat.le_of_add_left_le hj)
      rw [endTokens_of_done howner (by rw [hop, hcap, hlen]), hcap, hclen] at hstep
      exact run_step (moves_of_sameAgents hv.outward.1 hmoves) hstep
        (hdone v hnone hlen (blockEnds_of_inTokens hw hv) j (by omega))
    · rw [endTokens_of_short howner (by rwa [hop, hcap])] at hstep
      have hx := blockFails_of_inTokens hw hv
      exact run_blockError hs hv.outward hstep hx (hfail _ (.inr hlen) hx) (by omega)
  · obtain ⟨howner, -⟩ := td_of_inTokens hv
    rw [tokenError_of_block (s := v.startToken) howner]
    exact hfail _ (.inl (by rw [hsome]; nofun)) (blockFails_of_inTokens hw (inTokens_startToken hv))

section
variable (he : e = unframe s.latched.dstCap.toNat (j + 1) ipos f out) (hk : f.length + m ≤ k + 1)
variable (hdone : ∀ (v : State) (bs : List Byte) (consumed : Nat), s.blockEnds owner ipos out bs v → 1 ≤ consumed →
  consumed ≤ f.length → e = unframe s.latched.dstCap.toNat j (ipos + consumed) (f.drop consumed) (out ++ bs) →
  ∀ k' : Nat, (f.drop consumed).length + m ≤ k' → Meets Q (runFor k' (v.blockDone bs.length consumed)))
variable (hfail : ∀ (x : State) (kind : ErrKind) (info : Byte), e = ⟨some (kind, info), ipos, out, 0#2⟩ →
  s.blockFails owner ipos out x → Q (x.blockError kind info))
include hs h he hk hdone hfail

/-- A type-0 block takes one step. -/
theorem run_blkRaw {n : Nat} {rest : List Byte} (hd : decodeUnit f = .ok (.blkRaw n, rest))
    (hsize : f.length = rest.length + 5) : Meets Q (runFor (k + 1) u) := by
  obtain ⟨-, hmoves, -⟩ := (launched_iff s).mp hs
  have hx := blockFails_of_blockEnds (blockEnds_of_inBlocks h)
  have hstep := engineStep_unit_of_inBlocks hs h hd
  rw [unframe_blkRaw hd] at he
  rcases exec_blkRaw_of_inBlocks hs h hd with ⟨hcut, hexec⟩ | ⟨hdata, hover, hexec⟩
    | ⟨hdata, hroom, v, hexec, hv⟩
  · rw [if_pos hcut] at he
    exact run_blockError hs h.outward (hstep.trans hexec) hx (hfail u _ _ he hx) (Nat.le_add_left _ _)
  · rw [if_neg (Nat.not_lt.mpr hdata), if_pos hover] at he
    exact run_blockError hs h.outward (hstep.trans hexec) hx (hfail u _ _ he hx) (Nat.le_add_left _ _)
  · rw [if_neg (Nat.not_lt.mpr hdata), if_neg (Nat.not_lt.mpr hroom)] at he
    have hrest : rest.drop n = f.drop (5 + n) := by
      rw [← encode_of_decodeUnit hd, ← List.drop_drop]
      rfl
    have hnext := hdone v (rest.take n) (5 + n) hv (by omega) (by omega) (hrest ▸ he) k
      (by rw [List.length_drop]; omega)
    rw [List.length_take_of_le hdata] at hnext
    exact run_step (moves_of_sameAgents h.outward.1 hmoves) (hstep.trans hexec) hnext

/-- A type-1 block starts the token decoder on its payload, and ends with it. -/
theorem run_blkCmp {c n : Nat} {rest : List Byte} (hd : decodeUnit f = .ok (.blkCmp c n, rest))
    (hsize : f.length = rest.length + 7) : Meets Q (runFor (k + 1) u) := by
  obtain ⟨-, hmoves, -⟩ := (launched_iff s).mp hs
  have hx := blockFails_of_blockEnds (blockEnds_of_inBlocks h)
  have hstep := engineStep_unit_of_inBlocks hs h hd
  obtain ⟨hipos, hopos, hlatched, hsrc, hdst⟩ := bounds_of_inBlocks h
  have hlen := length_of_inBlocks h
  rw [unframe_blkCmp hd] at he
  rcases Nat.lt_or_ge rest.length c with hcut | hdata
  · rw [if_pos hcut] at he
    have hcutShort := hstep.trans (exec_blkCmp_cut (n := n) (by rw [hipos, hlatched]; omega))
    have hshort : s.blockFails owner ipos out
        (u.scramble (u.dstLo + u.bfc.opos) (min n (u.latched.dstCap.toNat - u.bfc.opos))) := by
      have hle := h.out_le
      rw [hdst, hopos, hlatched]
      exact blockFails_scramble hx (Nat.le_refl _) (by unfold State.dstHi State.dstLo; omega)
    exact run_blockError hs h.outward hcutShort hshort (hfail _ _ _ he hshort) (Nat.le_add_left _ _)
  rw [if_neg (Nat.not_lt.mpr hdata)] at he
  rcases Nat.lt_or_ge s.latched.dstCap.toNat (out.length + n) with hover | hroom
  · rw [if_pos hover] at he
    have htooSmall := hstep.trans
      (exec_blkCmp_tooSmall (n := n) (by rw [hipos, hlatched]; omega) (by rwa [hopos, hlatched]))
    exact run_blockError hs h.outward htooSmall hx (hfail u _ _ he hx) (Nat.le_add_left _ _)
  rw [if_neg (Nat.not_lt.mpr hroom)] at he
  have hstart := hstep.trans (exec_blkCmp_granted (by rw [hipos, hlatched]; omega) (by rwa [hopos, hlatched]))
  rw [hsrc, hdst, hipos, hopos] at hstart
  have hrest : rest = f.drop 7 := by rw [← encode_of_decodeUnit hd]; rfl
  have hw : s.windowsOf ⟨.block, s.srcLo + ipos + 7, c, s.dstLo + out.length, n, 0, 0, 0⟩ out :=
    ⟨by dsimp only; omega, by unfold State.srcHi State.srcLo; dsimp only; omega, rfl,
      by unfold State.dstHi State.dstLo; dsimp only; omega⟩
  refine run_step (moves_of_sameAgents h.outward.1 hmoves) hstart (run_payload (owner := owner) (c := c) (n := n)
    (t := rest.take c) (m := rest.length - c + m) hs hw ?_ (by rw [List.length_take_of_le hdata]; omega)
    (fun v hnone hsizes hv k' hk' => ?_) fun x hbad hx' => ?_)
  · exact
      { outward := h.outward
        encoder := h.encoder
        activity := rfl
        td_eq := ⟨0, rfl⟩
        bfc_eq := h.bfc_eq
        wrote := by rw [List.append_nil]; exact h.wrote
        left := by
          rw [hrest, h.left, drop_source _ _ (by omega), take_source _ _ (by omega)]
          rfl
        ip_le := Nat.zero_le _
        out_le := Nat.zero_le _ }
  · rw [if_neg (by rw [hnone, hsizes]; simp)] at he
    have hdrop : rest.drop c = f.drop (7 + c) := by rw [hrest, List.drop_drop]
    have hnext := hdone v _ (7 + c) hv (by omega) (by omega) (hdrop ▸ he) k' (by rw [List.length_drop]; omega)
    rwa [hsizes] at hnext
  · rw [if_pos hbad] at he
    exact hfail x _ _ he hx'

/-- A unit does what the block parser says, in at most as many steps as it has bytes: what is left to show is for the
state behind the block, after the terminator, and after an error. -/
theorem run_unit (hf : f ≠ []) (hterm : e = ⟨none, ipos + 1, out, 1#2⟩ → ∀ t : State, execTerm u = .next t → Q t) :
    Meets Q (runFor (k + 1) u) := by
  obtain ⟨-, hmoves, -⟩ := (launched_iff s).mp hs
  rcases decodeUnit_cases f with hnil | ⟨d, hd, hne⟩ | ⟨rest, hd, -⟩ | ⟨n, rest, hd, hsize⟩ | ⟨c, n, rest, hd, hsize⟩
  · exact absurd hnil hf
  · rw [unframe_error hd hne] at he
    have hx := blockFails_of_blockEnds (blockEnds_of_inBlocks h)
    exact run_blockError hs h.outward (engineStep_error_of_inBlocks hs h hd hne) hx (hfail u _ _ he hx)
      (Nat.le_add_left _ _)
  · rw [unframe_term hd] at he
    have hstep := engineStep_unit_of_inBlocks hs h hd
    obtain ⟨t, ht, hidle⟩ : ∃ t : State, execTerm u = .next t ∧ t.activity = .idle := by
      unfold execTerm
      split <;> exact ⟨_, rfl, rfl⟩
    have hagents := sameAgents_of_ranTo (engineStep_ranTo (hstep.trans ht))
    exact run_last (moves_of_sameAgents h.outward.1 hmoves) (hstep.trans ht)
      (moves_of_sameAgents (sameAgents_trans h.outward.1 hagents) hmoves) hidle (hterm he t ht) (Nat.le_add_left _ _)
  · exact run_blkRaw hs h he hk hdone hfail hd hsize
  · exact run_blkCmp hs h he hk hdone hfail hd hsize

end

end

/-! ## The two commands -/

/-- How DECODE or DECODE_BLOCK ends, by the end `e` of the block parser; an error records `result` and `consumed`
(R121, R122). -/
def State.decodesTo (s : State) (e : FrameEnd) (result consumed : Nat) (t : State) : Prop :=
  s.sameAgents t ∧ s.sameEncoder t ∧ t.holds s.dstLo e.out ∧ s.sameOutside t s.dstLo s.latched.dstCap.toNat
    ∧ (e.err = none → s.completedAs t e.out.length e.ipos e.endKind ∧ s.sameOutside t s.dstLo e.out.length)
    ∧ ∀ (k : ErrKind) (info : Byte), e.err = some (k, info) → s.failedAs t k result consumed info

section
variable {result consumed : Nat} {bs : List Byte} {endKind : BitVec 2}

theorem decodesTo_complete (h : s.blockEnds owner ipos out bs u) (ipos' : Nat) :
    s.decodesTo ⟨none, ipos', out ++ bs, endKind⟩ result consumed (u.complete (out ++ bs).length ipos' endKind) :=
  ⟨h.outward.1, h.encoder, h.wrote.1, sameOutside_mono h.wrote.2 (Nat.le_refl _) (Nat.add_le_add_left h.out_le _),
    fun _ => ⟨completedAs_of_sameOutward h.outward _ _ _, h.wrote.2⟩, nofun⟩

theorem decodesTo_errorEnd (h : s.blockFails owner ipos out u) (kind : ErrKind) (info : Byte) (ipos' : Nat) :
    s.decodesTo ⟨some (kind, info), ipos', out, 0#2⟩ result consumed (u.errorEnd kind result consumed info) := by
  refine ⟨h.outward.1, h.encoder, h.holds, h.outside, nofun, ?_⟩
  rintro k info' ⟨⟩
  exact failedAs_of_sameOutward h.outward _ _ _ _

end

theorem inBlocks_startBlocks (s : State) (owner : BfcOwner) :
    s.inBlocks owner 0 s.sourceBytes [] (s.startBlocks owner) where
  outward := sameOutward_inner s _ _ _ _ _ _ _ _
  encoder := ⟨rfl, rfl, rfl⟩
  activity := rfl
  bfc_eq := rfl
  wrote := wrote_nil rfl
  left := rfl
  ipos_le := Nat.zero_le _
  out_le := Nat.zero_le _

/-- DECODE behind a block stands at the next block start (R121). -/
theorem inBlocks_blockDone {bs : List Byte} {consumed : Nat} (h : s.inBlocks .decode ipos f out u)
    (hv : s.blockEnds .decode ipos out bs v) (hle : consumed ≤ f.length) :
    s.inBlocks .decode (ipos + consumed) (f.drop consumed) (out ++ bs) (v.blockDone bs.length consumed) := by
  have hlen := length_of_inBlocks h
  rw [blockDone_of_decode (by rw [hv.bfc_eq])]
  exact
    { outward := hv.outward
      encoder := hv.encoder
      activity := rfl
      bfc_eq := by rw [hv.bfc_eq, List.length_append]
      wrote := hv.wrote
      left := by rw [h.left, drop_source _ _ (by omega), Nat.add_assoc, Nat.sub_add_eq]
      ipos_le := by omega
      out_le := hv.out_le }

/-- The loop of DECODE, by induction on the bytes that are left (R121). -/
theorem run_decode (hs : s.launched = true) {e : FrameEnd} {k : Nat} (h : s.inBlocks .decode ipos f out u)
    (he : e = unframeFrom s.latched.dstCap.toNat ipos f out) (hk : f.length + 1 ≤ k) :
    Meets (s.decodesTo e e.out.length e.ipos) (runFor k u) := by
  obtain ⟨-, hmoves, -⟩ := (launched_iff s).mp hs
  induction hn : f.length using Nat.strong_induction_on generalizing u ipos f out k with
  | _ n ih =>
    subst hn
    obtain ⟨k, rfl⟩ := Nat.exists_eq_add_of_le' (Nat.le_of_add_left_le hk)
    have hopos : u.bfc.opos = out.length := by rw [h.bfc_eq]
    have hipos : u.bfc.ipos = ipos := by rw [h.bfc_eq]
    have howner : u.bfc.owner = .decode := by rw [h.bfc_eq]
    have hu := blockEnds_of_inBlocks h
    by_cases hf : f = []
    · have hstep := engineStep_end_of_inBlocks h hf
      rw [endBlocks_of_decode howner, hopos, hipos] at hstep
      rw [hf, unframeFrom_nil] at he
      subst he
      have hend := decodesTo_complete (endKind := 0#2) (result := out.length) (consumed := ipos) hu ipos
      rw [List.append_nil] at hend
      exact run_last (moves_of_sameAgents h.outward.1 hmoves) hstep (moves_of_sameAgents h.outward.1 hmoves) rfl hend
        (Nat.le_add_left _ _)
    · obtain ⟨j, hj⟩ := Nat.exists_eq_succ_of_ne_zero (mt List.length_eq_zero_iff.mp hf)
      have hfirst : e = unframe s.latched.dstCap.toNat (j + 1) ipos f out := by rw [he, unframeFrom, hj]
      refine run_unit hs h (m := 1) hfirst hk
        (fun v bs consumed hv hpos hle hrest k' hk' => ?_) (fun x kind info hfail hx => ?_) hf (fun hterm t ht => ?_)
      · have hdrop : (f.drop consumed).length < f.length := by rw [List.length_drop]; omega
        refine ih _ hdrop (inBlocks_blockDone h hv hle) (hrest.trans ?_) hk' rfl
        exact unframe_fuel (by omega) (Nat.le_refl _)
      · rw [blockError_of_decode (by rw [hx.bfc_eq]), hx.bfc_eq, hfail]
        exact decodesTo_errorEnd hx kind info ipos
      · unfold execTerm at ht
        rw [howner] at ht
        cases ht
        have hend := decodesTo_complete (u := u.withFramer .decode (ipos + 1) out.length) (bs := []) (endKind := 1#2)
          (result := out.length) (consumed := ipos + 1) (ipos := ipos + 1) (out := out) (owner := .decode) (s := s)
          ⟨h.outward, h.encoder, rfl, hu.wrote, hu.out_le⟩ (ipos + 1)
        rw [List.append_nil] at hend
        rwa [hopos, hipos, hterm]

/-- Settles O59: the launch, then the loop of DECODE, each unit in at most as many steps as it has bytes. -/
theorem decodeRun : Obligations.DecodeRun := by
  unfold Obligations.DecodeRun
  intro s m w q e hs hctrl he
  obtain ⟨hact, hmoves, hlaunch, hquiet⟩ := (launched_iff s).mp hs
  suffices h : Meets (s.decodesTo e e.out.length e.ipos) (runFor (2 * s.latched.srcLen.toNat + 3) s) from h.exists_next
  have hstart : engineStep s = .next (s.startBlocks .decode) := by
    rw [engineStep_dispatch hact, hctrl]
    exact decodeLaunch_of_launchable .decode hlaunch ((busQuiet_iff s).mp hquiet).1
  exact run_step hmoves hstart (run_decode hs (inBlocks_startBlocks s .decode)
    (he.trans (decodeFrames_eq_unframeFrom _ _)) (by rw [length_sourceBytes]; omega))

/-- Settles O60: the launch, then one unit, behind which the command ends. -/
theorem decodeBlockRun : Obligations.DecodeBlockRun := by
  unfold Obligations.DecodeBlockRun
  intro s m w q e hs hctrl he
  obtain ⟨hact, hmoves, hlaunch, hquiet⟩ := (launched_iff s).mp hs
  suffices h : Meets (s.decodesTo e 0 0) (runFor (s.latched.srcLen.toNat + 3) s) from h.exists_next
  have hstart : engineStep s = .next (s.startBlocks .decodeBlock) := by
    rw [engineStep_dispatch hact, hctrl]
    exact decodeLaunch_of_launchable .decodeBlock hlaunch ((busQuiet_iff s).mp hquiet).1
  have h := inBlocks_startBlocks s .decodeBlock
  have hu := blockEnds_of_inBlocks h
  have hu' := moves_of_sameAgents h.outward.1 hmoves
  refine run_step hmoves hstart ?_
  by_cases hf : s.sourceBytes = []
  · have hstep := engineStep_end_of_inBlocks h hf
    rw [endBlocks_of_decodeBlock rfl] at hstep
    rw [hf, decodeFirst] at he
    subst he
    exact run_last hu' hstep hu' rfl (decodesTo_complete hu 0) (Nat.le_add_left _ _)
  · have hfirst : e = unframe s.latched.dstCap.toNat (0 + 1) 0 s.sourceBytes [] := by
      obtain ⟨b, f, hbf⟩ := List.exists_cons_of_ne_nil hf
      rw [he, hbf, decodeFirst]
    refine run_unit hs h (m := 0) hfirst (by rw [length_sourceBytes]; omega)
      (fun v bs consumed hv _ _ hdone k' _ => ?_) (fun x kind info hfail hx => ?_) hf (fun hterm t ht => ?_)
    · rw [blockDone_of_decodeBlock (by rw [hv.bfc_eq]), hdone, unframe, Nat.zero_add]
      exact run_idle (u := v.complete bs.length consumed 0#2) (moves_of_sameAgents hv.outward.1 hmoves) rfl
        (decodesTo_complete hv consumed) k'
    · rw [blockError_of_decodeBlock (by rw [hx.bfc_eq]), hfail]
      exact decodesTo_errorEnd hx kind info 0
    · cases ht
      rw [hterm]
      exact decodesTo_complete (u := (s.startBlocks .decodeBlock).withFramer .decodeBlock 1 0) (bs := [])
        (ipos := 1) (owner := .decodeBlock) (s := s) ⟨h.outward, h.encoder, rfl, hu.wrote, hu.out_le⟩ 1

end

end Sys2Proof.Machine
end
